-- ==== Sys2Proof/Word.lean ====
section
/-!
DEFINITION. The word types of the 80386 and the three data widths (00_scope.md R9, R10; 10_state.md R31).
-/

namespace Sys2Proof

/-- A byte (R101). -/
abbrev Byte := BitVec 8

/-- A word of 16 bits: a selector, a port number, a descriptor-table limit (R101). -/
abbrev HWord := BitVec 16

/-- A doubleword of 32 bits: a general register, an offset, a linear address (R7, R101). -/
abbrev Word := BitVec 32

/-- The width of an operand: byte, word or doubleword (R10, R171). -/
inductive Width where
  | b
  | w
  | d
deriving DecidableEq, Repr, Inhabited

/-- How many bits an operand of the width has: the N of the rules (R10). -/
abbrev Width.bits : Width → Nat
  | .b => 8
  | .w => 16
  | .d => 32

/-- How many bytes an operand of the width has (R105). -/
abbrev Width.bytes : Width → Nat
  | .b => 1
  | .w => 2
  | .d => 4

end Sys2Proof
end

