-- ==== Sys2Proof/Config.lean ====
section
/-!
DEFINITION. What the spec leaves open: the free values (93_implementation_defined.md, treatment "any value"; 92_eei_decisions.md
D20). Each is an opaque constant applied to the machine's draw counter (and to the operands, where the outcome may depend on
them), so that nothing can be proved about its value (log entry 7).
-/

namespace Sys2Proof

/-- A free bit: an undefined flag, or one of the two outcomes of a draw the spec names (U1, U2, U4, U21, U23; log entries 7, 8). -/
opaque Config.freeBit : Nat → Bool

/-- A free value of any width (U3, U5, U6, U7, U9, U12, U14; log entries 7, 9, 12). -/
opaque Config.freeBits (n : Nat) : Nat → BitVec n

/-- How many bytes the memory operand of the coprocessor opcode TTT LLL has, and whether the coprocessor stores to it; the last
argument is the operand size (32 when set) and Protected Mode, on which the formats of some forms may depend (00_scope.md R2 puts the
coprocessor's instruction set outside this spec; U20; log entry 23). -/
opaque Config.escOperand : BitVec 3 → BitVec 3 → BitVec 2 → Nat × Bool

/-- Whether the coprocessor opcode is one of the no-wait control forms that the test of ERROR# spares (R612; log entry 23). -/
opaque Config.escNoWait : BitVec 3 → BitVec 3 → BitVec 8 → Bool

end Sys2Proof
end

