-- ==== Sys2Proof/Syntax.lean ====
section
/-!
DEFINITION. The instructions as syntax: one constructor per row of the opcode table, over the operand forms of
30_encoding.md R160 to R204. Immediates and displacements keep their encoded size where the size is part of the encoding.
-/

namespace Sys2Proof

/-- The eight general registers in the order of their 3-bit encodings (R31, R173). With a byte operand the same field names
AL CL DL BL AH CH DH BH. -/
inductive Gpr where
  | ax
  | cx
  | dx
  | bx
  | sp
  | bp
  | si
  | di
deriving DecidableEq, Repr, Inhabited

/-- The six segment registers in the order of their sreg3 encodings (R35). -/
inductive Sreg where
  | es
  | cs
  | ss
  | ds
  | fs
  | gs
deriving DecidableEq, Repr, Inhabited

/-- The sixteen conditions in the order of the tttn field (R178). -/
inductive Cond where
  | o
  | no
  | b
  | nb
  | e
  | ne
  | be
  | nbe
  | s
  | ns
  | p
  | np
  | l
  | nl
  | le
  | nle
deriving DecidableEq, Repr, Inhabited

/-- The control registers that exist (R43, R179). -/
inductive CrReg where
  | cr0
  | cr2
  | cr3
deriving DecidableEq, Repr, Inhabited

/-- The debug registers that exist (R52, R179). -/
inductive DrReg where
  | dr0
  | dr1
  | dr2
  | dr3
  | dr6
  | dr7
deriving DecidableEq, Repr, Inhabited

/-- The test registers that exist (R56, R179). -/
inductive TrReg where
  | tr6
  | tr7
deriving DecidableEq, Repr, Inhabited

/-- The base and index of a 16-bit effective address, in the order of the r/m field (R181). -/
inductive Base16 where
  | bxsi
  | bxdi
  | bpsi
  | bpdi
  | si
  | di
  | bp
  | bx
deriving DecidableEq, Repr, Inhabited

/-- The displacement of a 16-bit address form: none (mod 00), d8 (mod 01) or d16 (mod 10) (R181). -/
inductive Disp16 where
  | none
  | d8 (d : Byte)
  | d16 (d : HWord)
deriving DecidableEq, Repr

/-- The displacement of a 32-bit address form: none (mod 00), d8 (mod 01) or d32 (mod 10) (R183). -/
inductive Disp32 where
  | none
  | d8 (d : Byte)
  | d32 (d : Word)
deriving DecidableEq, Repr

/-- A memory operand as the mod r/m, s-i-b and displacement bytes give it (R181 to R185). The index `sp` of an s-i-b form
stands for "no index register". -/
inductive MemOp where
  /-- 16-bit addressing with base and index registers (R181). -/
  | m16 (base : Base16) (disp : Disp16)
  /-- 16-bit addressing, DS:d16 (R181, mod 00 r/m 110). -/
  | abs16 (d : HWord)
  /-- 32-bit addressing without s-i-b byte (R183). -/
  | m32 (base : Gpr) (disp : Disp32)
  /-- 32-bit addressing, DS:d32 (R183, mod 00 r/m 101). -/
  | abs32 (d : Word)
  /-- 32-bit addressing with an s-i-b byte and a base register (R184). -/
  | sib (ss : BitVec 2) (index : Gpr) (base : Gpr) (disp : Disp32)
  /-- 32-bit addressing with an s-i-b byte, d32 in place of the base (R184, mod 00 base 101). -/
  | sibAbs (ss : BitVec 2) (index : Gpr) (d : Word)
deriving DecidableEq, Repr

/-- A mod r/m operand: a register (mod 11) or memory (R180). -/
inductive Rm where
  | reg (r : Gpr)
  | mem (m : MemOp)
deriving DecidableEq, Repr

/-- The size attributes an instruction is decoded with: operand size 32 and address size 32, or 16 where false (R10, R172). -/
structure Ctx where
  op32 : Bool
  addr32 : Bool
deriving DecidableEq, Repr

/-- The instructions, one constructor per row of spec/opcode_table.json, in its order. `w` is the w bit (full operand size),
`d` the d bit (direction, R176), `reg` the reg field, `rm` the mod r/m operand. A full-size immediate or displacement of an
instruction with operand size 16 is held zero-extended. -/
inductive Instr where
  /-- ES: segment override prefix, 00100110 (R165). -/
  | pfxEs
  /-- CS: segment override prefix, 00101110 (R165). -/
  | pfxCs
  /-- SS: segment override prefix, 00110110 (R165). -/
  | pfxSs
  /-- DS: segment override prefix, 00111110 (R165). -/
  | pfxDs
  /-- FS: segment override prefix, 01100100 (R165). -/
  | pfxFs
  /-- GS: segment override prefix, 01100101 (R165). -/
  | pfxGs
  /-- OPSIZE operand size prefix, 01100110 (R166). -/
  | pfxOpsize
  /-- ADDRSIZE address size prefix, 01100111 (R167). -/
  | pfxAddrsize
  /-- LOCK bus lock prefix, 11110000 (R615). -/
  | pfxLock
  /-- REPNE REPNE/REPNZ prefix, 11110010 (R450). -/
  | pfxRepne
  /-- REP REP/REPE/REPZ prefix, 11110011 (R450). -/
  | pfxRep
  /-- MOV r/m, r, 1000100w mod reg r/m (R250). -/
  | movRmR (w : Bool) (reg : Gpr) (rm : Rm)
  /-- MOV r, r/m, 1000101w mod reg r/m (R250). -/
  | movRRm (w : Bool) (reg : Gpr) (rm : Rm)
  /-- MOV r/m8, imm8, 11000110 mod 000 r/m (R250). -/
  | movRm8Imm (rm : Rm) (imm : Byte)
  /-- MOV r/m16/32, imm16/32, 11000111 mod 000 r/m (R250). -/
  | movRmImm (rm : Rm) (imm : Word)
  /-- MOV r8, imm8, 10110 reg (R250). -/
  | movR8Imm (reg : Gpr) (imm : Byte)
  /-- MOV r16/32, imm16/32, 10111 reg (R250). -/
  | movRImm (reg : Gpr) (imm : Word)
  /-- MOV AL/eAX, moffs, 1010000w (R250). -/
  | movAccMoffs (w : Bool) (off : Word)
  /-- MOV moffs, AL/eAX, 1010001w (R250). -/
  | movMoffsAcc (w : Bool) (off : Word)
  /-- MOV Sreg, r/m16, 10001110 mod sreg3 r/m (R251). -/
  | movSregRm (sr : Sreg) (rm : Rm)
  /-- MOV r/m16, Sreg, 10001100 mod sreg3 r/m (R252). -/
  | movRmSreg (sr : Sreg) (rm : Rm)
  /-- MOVSX r16/32, r/m8 (w=0); r32, r/m16 (w=1), 00001111 1011111w mod reg r/m (R253). -/
  | movsx (w : Bool) (reg : Gpr) (rm : Rm)
  /-- MOVZX r16/32, r/m8 (w=0); r32, r/m16 (w=1), 00001111 1011011w mod reg r/m (R254). -/
  | movzx (w : Bool) (reg : Gpr) (rm : Rm)
  /-- PUSH r16/32, 01010 reg (R255). -/
  | pushR (reg : Gpr)
  /-- PUSH imm16/32, 01101000 (R255). -/
  | pushImm (imm : Word)
  /-- PUSH imm8 (sign-extended), 01101010 (R255). -/
  | pushImm8 (imm : Byte)
  /-- PUSH ES/CS/SS/DS, 000 sreg2 110 (R256). -/
  | pushSreg (sr : Sreg)
  /-- PUSH FS, 00001111 10100000 (R256). -/
  | pushFs
  /-- PUSH GS, 00001111 10101000 (R256). -/
  | pushGs
  /-- PUSHA PUSHA/PUSHAD, 01100000 (R257). -/
  | pusha
  /-- POP r/m16/32, 10001111 mod 000 r/m (R258). -/
  | popRm (rm : Rm)
  /-- POP r16/32, 01011 reg (R258). -/
  | popR (reg : Gpr)
  /-- POP ES, 00000111 (R259). -/
  | popEs
  /-- POP SS, 00010111 (R259). -/
  | popSs
  /-- POP DS, 00011111 (R259). -/
  | popDs
  /-- POP FS, 00001111 10100001 (R259). -/
  | popFs
  /-- POP GS, 00001111 10101001 (R259). -/
  | popGs
  /-- POPA POPA/POPAD, 01100001 (R260). -/
  | popa
  /-- NOP, 10010000 (R610). -/
  | nop
  /-- XCHG eAX, r16/32, 10010 reg (R261). -/
  | xchgAccR (reg : Gpr)
  /-- XCHG r/m, r, 1000011w mod reg r/m (R261). -/
  | xchgRmR (w : Bool) (reg : Gpr) (rm : Rm)
  /-- IN AL/eAX, imm8, 1110010w (R262). -/
  | inImm (w : Bool) (port : Byte)
  /-- IN AL/eAX, DX, 1110110w (R262). -/
  | inDx (w : Bool)
  /-- OUT imm8, AL/eAX, 1110011w (R263). -/
  | outImm (w : Bool) (port : Byte)
  /-- OUT DX, AL/eAX, 1110111w (R263). -/
  | outDx (w : Bool)
  /-- LEA r16/32, m, 10001101 mod reg r/m (R264). -/
  | lea (reg : Gpr) (m : MemOp)
  /-- LDS r16/32, m16:16/32, 11000101 mod reg r/m (R265). -/
  | lds (reg : Gpr) (m : MemOp)
  /-- LES r16/32, m16:16/32, 11000100 mod reg r/m (R266). -/
  | les (reg : Gpr) (m : MemOp)
  /-- LFS r16/32, m16:16/32, 00001111 10110100 mod reg r/m (R267). -/
  | lfs (reg : Gpr) (m : MemOp)
  /-- LGS r16/32, m16:16/32, 00001111 10110101 mod reg r/m (R268). -/
  | lgs (reg : Gpr) (m : MemOp)
  /-- LSS r16/32, m16:16/32, 00001111 10110010 mod reg r/m (R269). -/
  | lss (reg : Gpr) (m : MemOp)
  /-- CLC, 11111000 (R300). -/
  | clc
  /-- CLD, 11111100 (R301). -/
  | cld
  /-- CLI, 11111010 (R302). -/
  | cli
  /-- CMC, 11110101 (R303). -/
  | cmc
  /-- LAHF, 10011111 (R304). -/
  | lahf
  /-- POPF POPF/POPFD, 10011101 (R305). -/
  | popf
  /-- PUSHF PUSHF/PUSHFD, 10011100 (R307). -/
  | pushf
  /-- SAHF, 10011110 (R308). -/
  | sahf
  /-- STC, 11111001 (R309). -/
  | stc
  /-- STD, 11111101 (R310). -/
  | std
  /-- STI, 11111011 (R311). -/
  | sti
  /-- CLTS, 00001111 00000110 (R312). -/
  | clts
  /-- ADD r/m, r (d=0); r, r/m (d=1), 000000dw mod reg r/m (R331). -/
  | addRmR (d : Bool) (w : Bool) (reg : Gpr) (rm : Rm)
  /-- ADD AL, imm8, 00000100 (R331). -/
  | addAlImm (imm : Byte)
  /-- ADD eAX, imm16/32, 00000101 (R331). -/
  | addEaxImm (imm : Word)
  /-- ADD r/m8, imm8, 10000000 mod 000 r/m (R331). -/
  | addRm8Imm (rm : Rm) (imm : Byte)
  /-- ADD r/m16/32, imm16/32, 10000001 mod 000 r/m (R331). -/
  | addRmImm (rm : Rm) (imm : Word)
  /-- ADD r/m16/32, imm8 (sign-extended), 10000011 mod 000 r/m (R331). -/
  | addRmImm8s (rm : Rm) (imm : Byte)
  /-- OR r/m, r (d=0); r, r/m (d=1), 000010dw mod reg r/m (R391). -/
  | orRmR (d : Bool) (w : Bool) (reg : Gpr) (rm : Rm)
  /-- OR AL, imm8, 00001100 (R391). -/
  | orAlImm (imm : Byte)
  /-- OR eAX, imm16/32, 00001101 (R391). -/
  | orEaxImm (imm : Word)
  /-- OR r/m8, imm8, 10000000 mod 001 r/m (R391). -/
  | orRm8Imm (rm : Rm) (imm : Byte)
  /-- OR r/m16/32, imm16/32, 10000001 mod 001 r/m (R391). -/
  | orRmImm (rm : Rm) (imm : Word)
  /-- OR r/m16/32, imm8 (sign-extended), 10000011 mod 001 r/m (R391). -/
  | orRmImm8s (rm : Rm) (imm : Byte)
  /-- ADC r/m, r (d=0); r, r/m (d=1), 000100dw mod reg r/m (R332). -/
  | adcRmR (d : Bool) (w : Bool) (reg : Gpr) (rm : Rm)
  /-- ADC AL, imm8, 00010100 (R332). -/
  | adcAlImm (imm : Byte)
  /-- ADC eAX, imm16/32, 00010101 (R332). -/
  | adcEaxImm (imm : Word)
  /-- ADC r/m8, imm8, 10000000 mod 010 r/m (R332). -/
  | adcRm8Imm (rm : Rm) (imm : Byte)
  /-- ADC r/m16/32, imm16/32, 10000001 mod 010 r/m (R332). -/
  | adcRmImm (rm : Rm) (imm : Word)
  /-- ADC r/m16/32, imm8 (sign-extended), 10000011 mod 010 r/m (R332). -/
  | adcRmImm8s (rm : Rm) (imm : Byte)
  /-- SBB r/m, r (d=0); r, r/m (d=1), 000110dw mod reg r/m (R335). -/
  | sbbRmR (d : Bool) (w : Bool) (reg : Gpr) (rm : Rm)
  /-- SBB AL, imm8, 00011100 (R335). -/
  | sbbAlImm (imm : Byte)
  /-- SBB eAX, imm16/32, 00011101 (R335). -/
  | sbbEaxImm (imm : Word)
  /-- SBB r/m8, imm8, 10000000 mod 011 r/m (R335). -/
  | sbbRm8Imm (rm : Rm) (imm : Byte)
  /-- SBB r/m16/32, imm16/32, 10000001 mod 011 r/m (R335). -/
  | sbbRmImm (rm : Rm) (imm : Word)
  /-- SBB r/m16/32, imm8 (sign-extended), 10000011 mod 011 r/m (R335). -/
  | sbbRmImm8s (rm : Rm) (imm : Byte)
  /-- AND r/m, r (d=0); r, r/m (d=1), 001000dw mod reg r/m (R390). -/
  | andRmR (d : Bool) (w : Bool) (reg : Gpr) (rm : Rm)
  /-- AND AL, imm8, 00100100 (R390). -/
  | andAlImm (imm : Byte)
  /-- AND eAX, imm16/32, 00100101 (R390). -/
  | andEaxImm (imm : Word)
  /-- AND r/m8, imm8, 10000000 mod 100 r/m (R390). -/
  | andRm8Imm (rm : Rm) (imm : Byte)
  /-- AND r/m16/32, imm16/32, 10000001 mod 100 r/m (R390). -/
  | andRmImm (rm : Rm) (imm : Word)
  /-- AND r/m16/32, imm8 (sign-extended), 10000011 mod 100 r/m (R390). -/
  | andRmImm8s (rm : Rm) (imm : Byte)
  /-- SUB r/m, r (d=0); r, r/m (d=1), 001010dw mod reg r/m (R334). -/
  | subRmR (d : Bool) (w : Bool) (reg : Gpr) (rm : Rm)
  /-- SUB AL, imm8, 00101100 (R334). -/
  | subAlImm (imm : Byte)
  /-- SUB eAX, imm16/32, 00101101 (R334). -/
  | subEaxImm (imm : Word)
  /-- SUB r/m8, imm8, 10000000 mod 101 r/m (R334). -/
  | subRm8Imm (rm : Rm) (imm : Byte)
  /-- SUB r/m16/32, imm16/32, 10000001 mod 101 r/m (R334). -/
  | subRmImm (rm : Rm) (imm : Word)
  /-- SUB r/m16/32, imm8 (sign-extended), 10000011 mod 101 r/m (R334). -/
  | subRmImm8s (rm : Rm) (imm : Byte)
  /-- XOR r/m, r (d=0); r, r/m (d=1), 001100dw mod reg r/m (R392). -/
  | xorRmR (d : Bool) (w : Bool) (reg : Gpr) (rm : Rm)
  /-- XOR AL, imm8, 00110100 (R392). -/
  | xorAlImm (imm : Byte)
  /-- XOR eAX, imm16/32, 00110101 (R392). -/
  | xorEaxImm (imm : Word)
  /-- XOR r/m8, imm8, 10000000 mod 110 r/m (R392). -/
  | xorRm8Imm (rm : Rm) (imm : Byte)
  /-- XOR r/m16/32, imm16/32, 10000001 mod 110 r/m (R392). -/
  | xorRmImm (rm : Rm) (imm : Word)
  /-- XOR r/m16/32, imm8 (sign-extended), 10000011 mod 110 r/m (R392). -/
  | xorRmImm8s (rm : Rm) (imm : Byte)
  /-- CMP r/m, r (d=0); r, r/m (d=1), 001110dw mod reg r/m (R337). -/
  | cmpRmR (d : Bool) (w : Bool) (reg : Gpr) (rm : Rm)
  /-- CMP AL, imm8, 00111100 (R337). -/
  | cmpAlImm (imm : Byte)
  /-- CMP eAX, imm16/32, 00111101 (R337). -/
  | cmpEaxImm (imm : Word)
  /-- CMP r/m8, imm8, 10000000 mod 111 r/m (R337). -/
  | cmpRm8Imm (rm : Rm) (imm : Byte)
  /-- CMP r/m16/32, imm16/32, 10000001 mod 111 r/m (R337). -/
  | cmpRmImm (rm : Rm) (imm : Word)
  /-- CMP r/m16/32, imm8 (sign-extended), 10000011 mod 111 r/m (R337). -/
  | cmpRmImm8s (rm : Rm) (imm : Byte)
  /-- INC r/m, 1111111w mod 000 r/m (R333). -/
  | incRm (w : Bool) (rm : Rm)
  /-- INC r16/32, 01000 reg (R333). -/
  | incR (reg : Gpr)
  /-- DEC r/m, 1111111w mod 001 r/m (R336). -/
  | decRm (w : Bool) (rm : Rm)
  /-- DEC r16/32, 01001 reg (R336). -/
  | decR (reg : Gpr)
  /-- NEG r/m, 1111011w mod 011 r/m (R338). -/
  | negRm (w : Bool) (rm : Rm)
  /-- AAA, 00110111 (R340). -/
  | aaa
  /-- AAS, 00111111 (R341). -/
  | aas
  /-- DAA, 00100111 (R342). -/
  | daa
  /-- DAS, 00101111 (R343). -/
  | das
  /-- AAM imm8 (second byte, 0Ah in the source), 11010100 (R366). -/
  | aam (imm : Byte)
  /-- AAD imm8 (second byte, 0Ah in the source), 11010101 (R367). -/
  | aad (imm : Byte)
  /-- MUL r/m, 1111011w mod 100 r/m (R350). -/
  | mulRm (w : Bool) (rm : Rm)
  /-- IMUL r/m, 1111011w mod 101 r/m (R351). -/
  | imulRm (w : Bool) (rm : Rm)
  /-- IMUL r16/32, r/m16/32, 00001111 10101111 mod reg r/m (R352). -/
  | imulRRm (reg : Gpr) (rm : Rm)
  /-- IMUL r16/32, r/m16/32, imm16/32, 01101001 mod reg r/m (R353). -/
  | imulRRmImm (reg : Gpr) (rm : Rm) (imm : Word)
  /-- IMUL r16/32, r/m16/32, imm8 (sign-extended), 01101011 mod reg r/m (R353). -/
  | imulRRmImm8 (reg : Gpr) (rm : Rm) (imm : Byte)
  /-- DIV r/m, 1111011w mod 110 r/m (R354). -/
  | divRm (w : Bool) (rm : Rm)
  /-- IDIV r/m, 1111011w mod 111 r/m (R355). -/
  | idivRm (w : Bool) (rm : Rm)
  /-- CBW, 10011000 (R370). -/
  | cbw
  /-- CWDE, 10011000 (R370). -/
  | cwde
  /-- CWD, 10011001 (R371). -/
  | cwd
  /-- CDQ, 10011001 (R371). -/
  | cdq
  /-- TEST AL, imm8, 10101000 (R393). -/
  | testAlImm (imm : Byte)
  /-- TEST eAX, imm16/32, 10101001 (R393). -/
  | testEaxImm (imm : Word)
  /-- TEST r/m8, imm8, 11110110 mod 000 r/m (R393). -/
  | testRm8Imm (rm : Rm) (imm : Byte)
  /-- TEST r/m16/32, imm16/32, 11110111 mod 000 r/m (R393). -/
  | testRmImm (rm : Rm) (imm : Word)
  /-- TEST r/m, r, 1000010w mod reg r/m (R393). -/
  | testRmR (w : Bool) (reg : Gpr) (rm : Rm)
  /-- NOT r/m, 1111011w mod 010 r/m (R394). -/
  | notRm (w : Bool) (rm : Rm)
  /-- ROL r/m, 1, 1101000w mod 000 r/m (R405). -/
  | rolRm1 (w : Bool) (rm : Rm)
  /-- ROL r/m, CL, 1101001w mod 000 r/m (R405). -/
  | rolRmCl (w : Bool) (rm : Rm)
  /-- ROL r/m, imm8, 1100000w mod 000 r/m (R405). -/
  | rolRmImm (w : Bool) (rm : Rm) (imm : Byte)
  /-- ROR r/m, 1, 1101000w mod 001 r/m (R406). -/
  | rorRm1 (w : Bool) (rm : Rm)
  /-- ROR r/m, CL, 1101001w mod 001 r/m (R406). -/
  | rorRmCl (w : Bool) (rm : Rm)
  /-- ROR r/m, imm8, 1100000w mod 001 r/m (R406). -/
  | rorRmImm (w : Bool) (rm : Rm) (imm : Byte)
  /-- RCL r/m, 1, 1101000w mod 010 r/m (R407). -/
  | rclRm1 (w : Bool) (rm : Rm)
  /-- RCL r/m, CL, 1101001w mod 010 r/m (R407). -/
  | rclRmCl (w : Bool) (rm : Rm)
  /-- RCL r/m, imm8, 1100000w mod 010 r/m (R407). -/
  | rclRmImm (w : Bool) (rm : Rm) (imm : Byte)
  /-- RCR r/m, 1, 1101000w mod 011 r/m (R408). -/
  | rcrRm1 (w : Bool) (rm : Rm)
  /-- RCR r/m, CL, 1101001w mod 011 r/m (R408). -/
  | rcrRmCl (w : Bool) (rm : Rm)
  /-- RCR r/m, imm8, 1100000w mod 011 r/m (R408). -/
  | rcrRmImm (w : Bool) (rm : Rm) (imm : Byte)
  /-- SHL r/m, 1, 1101000w mod 100 r/m (R401). -/
  | shlRm1 (w : Bool) (rm : Rm)
  /-- SHL r/m, CL, 1101001w mod 100 r/m (R401). -/
  | shlRmCl (w : Bool) (rm : Rm)
  /-- SHL r/m, imm8, 1100000w mod 100 r/m (R401). -/
  | shlRmImm (w : Bool) (rm : Rm) (imm : Byte)
  /-- SHR r/m, 1, 1101000w mod 101 r/m (R402). -/
  | shrRm1 (w : Bool) (rm : Rm)
  /-- SHR r/m, CL, 1101001w mod 101 r/m (R402). -/
  | shrRmCl (w : Bool) (rm : Rm)
  /-- SHR r/m, imm8, 1100000w mod 101 r/m (R402). -/
  | shrRmImm (w : Bool) (rm : Rm) (imm : Byte)
  /-- SAR r/m, 1, 1101000w mod 111 r/m (R403). -/
  | sarRm1 (w : Bool) (rm : Rm)
  /-- SAR r/m, CL, 1101001w mod 111 r/m (R403). -/
  | sarRmCl (w : Bool) (rm : Rm)
  /-- SAR r/m, imm8, 1100000w mod 111 r/m (R403). -/
  | sarRmImm (w : Bool) (rm : Rm) (imm : Byte)
  /-- SHLD r/m16/32, r16/32, imm8, 00001111 10100100 mod reg r/m (R410). -/
  | shldImm (reg : Gpr) (rm : Rm) (imm : Byte)
  /-- SHLD r/m16/32, r16/32, CL, 00001111 10100101 mod reg r/m (R410). -/
  | shldCl (reg : Gpr) (rm : Rm)
  /-- SHRD r/m16/32, r16/32, imm8, 00001111 10101100 mod reg r/m (R411). -/
  | shrdImm (reg : Gpr) (rm : Rm) (imm : Byte)
  /-- SHRD r/m16/32, r16/32, CL, 00001111 10101101 mod reg r/m (R411). -/
  | shrdCl (reg : Gpr) (rm : Rm)
  /-- MOVS MOVSB/MOVSW/MOVSD, 1010010w (R441). -/
  | movs (w : Bool)
  /-- CMPS CMPSB/CMPSW/CMPSD, 1010011w (R442). -/
  | cmps (w : Bool)
  /-- SCAS SCASB/SCASW/SCASD, 1010111w (R443). -/
  | scas (w : Bool)
  /-- STOS STOSB/STOSW/STOSD, 1010101w (R444). -/
  | stos (w : Bool)
  /-- LODS LODSB/LODSW/LODSD, 1010110w (R445). -/
  | lods (w : Bool)
  /-- INS INSB/INSW/INSD, 0110110w (R446). -/
  | ins (w : Bool)
  /-- OUTS OUTSB/OUTSW/OUTSD, 0110111w (R447). -/
  | outs (w : Bool)
  /-- XLAT XLAT/XLATB, 11010111 (R449). -/
  | xlat
  /-- BT r/m16/32, imm8, 00001111 10111010 mod 100 r/m (R481). -/
  | btImm (rm : Rm) (imm : Byte)
  /-- BTS r/m16/32, imm8, 00001111 10111010 mod 101 r/m (R482). -/
  | btsImm (rm : Rm) (imm : Byte)
  /-- BTR r/m16/32, imm8, 00001111 10111010 mod 110 r/m (R483). -/
  | btrImm (rm : Rm) (imm : Byte)
  /-- BTC r/m16/32, imm8, 00001111 10111010 mod 111 r/m (R484). -/
  | btcImm (rm : Rm) (imm : Byte)
  /-- BT r/m16/32, r16/32, 00001111 10100011 mod reg r/m (R481). -/
  | btR (reg : Gpr) (rm : Rm)
  /-- BTS r/m16/32, r16/32, 00001111 10101011 mod reg r/m (R482). -/
  | btsR (reg : Gpr) (rm : Rm)
  /-- BTR r/m16/32, r16/32, 00001111 10110011 mod reg r/m (R483). -/
  | btrR (reg : Gpr) (rm : Rm)
  /-- BTC r/m16/32, r16/32, 00001111 10111011 mod reg r/m (R484). -/
  | btcR (reg : Gpr) (rm : Rm)
  /-- BSF r16/32, r/m16/32, 00001111 10111100 mod reg r/m (R485). -/
  | bsf (reg : Gpr) (rm : Rm)
  /-- BSR r16/32, r/m16/32, 00001111 10111101 mod reg r/m (R486). -/
  | bsr (reg : Gpr) (rm : Rm)
  /-- JMP rel8, 11101011 (R501). -/
  | jmpRel8 (d : Byte)
  /-- JMP rel16/32, 11101001 (R501). -/
  | jmpRel (d : Word)
  /-- JMP r/m16/32 (near indirect), 11111111 mod 100 r/m (R502). -/
  | jmpRm (rm : Rm)
  /-- JMP ptr16:16/32 (far direct), 11101010 (R503). -/
  | jmpFar (off : Word) (sel : HWord)
  /-- JMP m16:16/32 (far indirect), 11111111 mod 101 r/m (R503). -/
  | jmpMemFar (m : MemOp)
  /-- CALL rel16/32, 11101000 (R504). -/
  | callRel (d : Word)
  /-- CALL r/m16/32 (near indirect), 11111111 mod 010 r/m (R505). -/
  | callRm (rm : Rm)
  /-- CALL ptr16:16/32 (far direct), 10011010 (R512). -/
  | callFar (off : Word) (sel : HWord)
  /-- CALL m16:16/32 (far indirect), 11111111 mod 011 r/m (R512). -/
  | callMemFar (m : MemOp)
  /-- PUSH r/m16/32, 11111111 mod 110 r/m (R255). -/
  | pushRm (rm : Rm)
  /-- RET near, 11000011 (R513). -/
  | retNear
  /-- RET near, imm16, 11000010 (R513). -/
  | retNearImm (n : HWord)
  /-- RET far, 11001011 (R514). -/
  | retFar
  /-- RET far, imm16, 11001010 (R514). -/
  | retFarImm (n : HWord)
  /-- Jcc rel8, 0111 tttn (R520). -/
  | jccRel8 (cc : Cond) (d : Byte)
  /-- Jcc rel16/32, 00001111 1000 tttn (R520). -/
  | jccRel (cc : Cond) (d : Word)
  /-- JCXZ JCXZ/JECXZ rel8, 11100011 (R521). -/
  | jcxz (d : Byte)
  /-- LOOP rel8, 11100010 (R522). -/
  | loop (d : Byte)
  /-- LOOPE LOOPE/LOOPZ rel8, 11100001 (R523). -/
  | loope (d : Byte)
  /-- LOOPNE LOOPNE/LOOPNZ rel8, 11100000 (R524). -/
  | loopne (d : Byte)
  /-- SETcc r/m8, 00001111 1001 tttn mod 000 r/m (R530). -/
  | setcc (cc : Cond) (rm : Rm)
  /-- ENTER imm16, imm8, 11001000 (R540). -/
  | enter (size : HWord) (level : Byte)
  /-- LEAVE, 11001001 (R541). -/
  | leave
  /-- INT imm8, 11001101 (R570). -/
  | int (n : Byte)
  /-- INT_3, 11001100 (R571). -/
  | int3
  /-- INTO, 11001110 (R572). -/
  | into
  /-- BOUND r16/32, m16/32&16/32, 01100010 mod reg r/m (R573). -/
  | bound (reg : Gpr) (m : MemOp)
  /-- IRET IRET/IRETD, 11001111 (R578). -/
  | iret
  /-- HLT, 11110100 (R600). -/
  | hlt
  /-- MOV r32, CR0/CR2/CR3, 00001111 00100000 11 eee reg (R601). -/
  | movRCr (reg : Gpr) (cr : CrReg)
  /-- MOV CR0/CR2/CR3, r32, 00001111 00100010 11 eee reg (R601). -/
  | movCrR (cr : CrReg) (reg : Gpr)
  /-- MOV r32, DR0-3/DR6/DR7, 00001111 00100001 11 eee reg (R602). -/
  | movRDr (reg : Gpr) (dr : DrReg)
  /-- MOV DR0-3/DR6/DR7, r32, 00001111 00100011 11 eee reg (R602). -/
  | movDrR (dr : DrReg) (reg : Gpr)
  /-- MOV r32, TR6/TR7, 00001111 00100100 11 eee reg (R603). -/
  | movRTr (reg : Gpr) (tr : TrReg)
  /-- MOV TR6/TR7, r32, 00001111 00100110 11 eee reg (R603). -/
  | movTrR (tr : TrReg) (reg : Gpr)
  /-- WAIT, 10011011 (R611). -/
  | wait
  /-- ESC coprocessor escape, opcode TTT LLL, 11011 TTT mod LLL r/m (R612). -/
  | esc (ttt : BitVec 3) (lll : BitVec 3) (rm : Rm)
  /-- ARPL r/m16, r16, 01100011 mod reg r/m (R641). -/
  | arpl (reg : Gpr) (rm : Rm)
  /-- LAR r16/32, r/m16, 00001111 00000010 mod reg r/m (R642). -/
  | lar (reg : Gpr) (rm : Rm)
  /-- LSL r16/32, r/m16, 00001111 00000011 mod reg r/m (R643). -/
  | lsl (reg : Gpr) (rm : Rm)
  /-- SLDT r/m16, 00001111 00000000 mod 000 r/m (R650). -/
  | sldt (rm : Rm)
  /-- STR r/m16, 00001111 00000000 mod 001 r/m (R651). -/
  | str (rm : Rm)
  /-- LLDT r/m16, 00001111 00000000 mod 010 r/m (R646). -/
  | lldt (rm : Rm)
  /-- LTR r/m16, 00001111 00000000 mod 011 r/m (R647). -/
  | ltr (rm : Rm)
  /-- VERR r/m16, 00001111 00000000 mod 100 r/m (R652). -/
  | verr (rm : Rm)
  /-- VERW r/m16, 00001111 00000000 mod 101 r/m (R652). -/
  | verw (rm : Rm)
  /-- SGDT m, 00001111 00000001 mod 000 r/m (R648). -/
  | sgdt (m : MemOp)
  /-- SIDT m, 00001111 00000001 mod 001 r/m (R648). -/
  | sidt (m : MemOp)
  /-- LGDT m, 00001111 00000001 mod 010 r/m (R644). -/
  | lgdt (m : MemOp)
  /-- LIDT m, 00001111 00000001 mod 011 r/m (R645). -/
  | lidt (m : MemOp)
  /-- SMSW r/m16, 00001111 00000001 mod 100 r/m (R649). -/
  | smsw (rm : Rm)
  /-- LMSW r/m16, 00001111 00000001 mod 110 r/m (R657). -/
  | lmsw (rm : Rm)
deriving DecidableEq, Repr

end Sys2Proof
end

