-- ==== Sys2Proof/Machine/State.lean ====
section
/-!
DEFINITION. The state of one 80386 as plain data (10_state.md), the reasons a step can stop, and the state after reset
(70_reset_and_hazards.md R791). INVENTORY.md lists every field with the rule that names it.
-/

namespace Sys2Proof.Machine

/-! ## Registers -/

/-- The eight general registers (R31). -/
structure Regs where
  eax : Word
  ecx : Word
  edx : Word
  ebx : Word
  esp : Word
  ebp : Word
  esi : Word
  edi : Word
deriving DecidableEq, Repr

/-- EFLAGS by field (R38). The fixed bits are not stored: no instruction can change them. -/
structure Flags where
  cf : Bool
  pf : Bool
  af : Bool
  zf : Bool
  sf : Bool
  tf : Bool
  intf : Bool
  df : Bool
  of : Bool
  iopl : BitVec 2
  nt : Bool
  rf : Bool
  vm : Bool
deriving DecidableEq, Repr

/-- The access rights in the hidden part of a segment register (R36, R119, R120): `code` is type bit 3, `ce` type bit 2
(conforming for code, expand-down for data), `rw` type bit 1 (readable for code, writable for data). -/
structure Rights where
  present : Bool
  dpl : BitVec 2
  s : Bool
  code : Bool
  ce : Bool
  rw : Bool
  accessed : Bool
  db : Bool
  gran : Bool
deriving DecidableEq, Repr

/-- A segment register: the visible selector and the hidden part (R35, R36). `valid` is false for a null selector. -/
structure SegReg where
  sel : HWord
  base : Word
  limit : Word
  ar : Rights
  valid : Bool
deriving DecidableEq, Repr

/-- The six segment registers (R35). -/
structure Segs where
  es : SegReg
  cs : SegReg
  ss : SegReg
  ds : SegReg
  fs : SegReg
  gs : SegReg
deriving DecidableEq, Repr

/-- The defined fields of CR0 (R44); the reserved bits hold no promised value (log entry 12). -/
structure Cr0 where
  pe : Bool
  mp : Bool
  em : Bool
  ts : Bool
  et : Bool
  pg : Bool
deriving DecidableEq, Repr

/-- A descriptor-table register: 32-bit linear base and 16-bit limit (R48, R49). -/
structure TableReg where
  base : Word
  limit : HWord
deriving DecidableEq, Repr

/-- LDTR: selector and hidden descriptor (R50). -/
structure Ldtr where
  sel : HWord
  base : Word
  limit : Word
  valid : Bool
deriving DecidableEq, Repr

/-- TR: selector and hidden descriptor of the current task state segment; `typ` is the descriptor type, which holds the busy
state (R51, R121). -/
structure Tr where
  sel : HWord
  base : Word
  limit : Word
  typ : BitVec 4
deriving DecidableEq, Repr

/-- The registers that locate the descriptor tables and the task (R48 to R51). -/
structure Tables where
  gdtr : TableReg
  idtr : TableReg
  ldtr : Ldtr
  tr : Tr
deriving DecidableEq, Repr

/-- The defined fields of DR6 (R53): `b` holds B3..B0. -/
structure Dr6 where
  b : BitVec 4
  bd : Bool
  bs : Bool
  bt : Bool
deriving DecidableEq, Repr

/-- The defined fields of DR7 (R54): `enables` holds bits 7:0 (Ln at 2n, Gn at 2n + 1), `ctl` bits 31:16 (R/Wn, LENn). -/
structure Dr7 where
  enables : BitVec 8
  le : Bool
  ge : Bool
  gd : Bool
  ctl : BitVec 16
deriving DecidableEq, Repr

/-- The debug registers (R52). -/
structure Debug where
  dr0 : Word
  dr1 : Word
  dr2 : Word
  dr3 : Word
  dr6 : Dr6
  dr7 : Dr7
deriving DecidableEq, Repr

/-- The test registers, plain storage (R56, R57; 92_eei_decisions.md D17). -/
structure TestRegs where
  tr6 : Word
  tr7 : Word
deriving DecidableEq, Repr

/-! ## Hidden state -/

/-- One entry of the translation lookaside buffer (R58, R132): linear page, frame, combined rights, dirty. -/
structure TlbEntry where
  page : BitVec 20
  frame : BitVec 20
  user : Bool
  write : Bool
  dirty : Bool
deriving DecidableEq, Repr

/-- The two repeat prefixes (R450). -/
inductive RepKind where
  | repne
  | rep
deriving DecidableEq, Repr

/-- The prefixes read so far of the instruction being fetched (R163, R164), and how many bytes they took. -/
structure Prefixes where
  seg : Option Sreg
  op66 : Bool
  ad67 : Bool
  lock : Bool
  rep : Option RepKind
  count : Nat
deriving DecidableEq, Repr

/-- After a change of CR0.PE: the code size of the mode that prefetched, and the offset from which that mode may still apply
(20_memory.md R144, R800; log entry 15). -/
structure ModeWindow where
  code32 : Bool
  start : Word
deriving DecidableEq, Repr

/-- An instruction as the decoder has delivered it: with its prefixes, the offset of the byte after it, and whether it runs with
the semantics of the mode before a change of CR0.PE. A repeated string instruction and a waiting WAIT go on with it
(R61, R450, R611; log entry 26). -/
structure Held where
  instr : Instr
  pfx : Prefixes
  next : Word
  oldMode : Bool
deriving DecidableEq, Repr

/-- Instruction fetch: the prefixes read; the offset of the instruction's first byte (R701); the bytes the prefetch queue may
still hold although a store changed them in memory, as (physical address, old byte) (R61, R144; log entry 14); those it may
hold from before a change of the page mapping, as (linear address, byte) (R144; log entry 14); the window after a change of
mode; whether the instruction in execution has the semantics of the mode before that change (R144, R800; log entry 15); and the
instruction in execution, which is gone on with where it repeats or waits. -/
structure Fetch where
  pfx : Prefixes
  start : Word
  stale : List Host.Cell
  ahead : List Host.Cell
  window : Option ModeWindow
  oldMode : Bool
  held : Option Held
deriving DecidableEq, Repr

/-- The interrupt shadow `inhibit` (R59): after STI it holds off INTR; after MOV SS or POP SS also NMI and debug traps. -/
inductive Shadow where
  | none
  | sti
  | movSs
deriving DecidableEq, Repr

/-- Whether the processor executes instructions (R62, R743, R746). -/
inductive Activity where
  | running
  | halted
  | shutdown
deriving DecidableEq, Repr

/-- What waits for the next instruction boundary: the shadow, the halt state, and the debug trap not yet reported
(R729, R751 to R753): matched data breakpoints, single step, task switch. `near` holds the breakpoints that matched without
being enabled (R755). -/
structure Pend where
  shadow : Shadow
  activity : Activity
  hits : BitVec 4
  near : BitVec 4
  bs : Bool
  bt : Bool
deriving DecidableEq, Repr

/-- The pins (R60). `reset` is the RESET input (R790). `intr` lists the vectors the external controller will supply: the INTR line
is high while the list is not empty, and an acknowledge takes the first (R726; log entry 40). -/
structure Pins where
  intr : List Byte
  nmiPending : Bool
  nmiBlocked : Bool
  busy : Bool
  error : Bool
  reset : Bool
deriving DecidableEq, Repr

/-- One access to the I/O space (R104): a read of the width at the port with the value answered, or a write. -/
inductive IoEvent where
  | read (port : Nat) (bytes : Nat) (value : Word)
  | write (port : Nat) (bytes : Nat) (value : Word)
deriving DecidableEq, Repr

/-! ## Parameters -/

/-- Which coprocessor is attached (00_scope.md R8, COPROC). -/
inductive Coproc where
  | none
  | i287
  | i387
deriving DecidableEq, Repr

/-- What a physical address holds (00_scope.md R8, MEMORY_MAP). -/
inductive MemKind where
  | ram
  | rom
  | device
  | absent
deriving DecidableEq, Repr

/-- A region of the platform's memory map: addresses `base` to `base + size - 1`. -/
structure Region where
  base : Nat
  size : Nat
  kind : MemKind
deriving DecidableEq, Repr

/-- The open parameters (00_scope.md R8; 92_eei_decisions.md): fixed for a machine, no step changes them. An address in no
region of `memMap` is RAM. -/
structure Params where
  coproc : Coproc
  lockIopl : Bool
  prefetchBytes : Nat
  memMap : List Region
deriving DecidableEq, Repr

/-! ## The state -/

/-- The state of the machine (R30). `draws` counts the free values drawn and `io` records port accesses: both are the
model's own (log entries 7, 22). -/
structure State where
  regs : Regs
  eip : Word
  flags : Flags
  cpl : BitVec 2
  segs : Segs
  cr0 : Cr0
  cr2 : Word
  cr3 : BitVec 20
  tables : Tables
  dregs : Debug
  test : TestRegs
  mem : List Host.Cell
  tlb : List TlbEntry
  fetch : Fetch
  pend : Pend
  pins : Pins
  params : Params
  io : List IoEvent
  draws : Nat
deriving DecidableEq, Repr

/-! ## Stops -/

/-- Why the machine stops. Exceptions of the 80386 are not here: they are taken, as next states. -/
inductive Fault where
  /-- Raised by `step` when the processor is shut down: it left execution for good (R746, U22, D25). Safe. -/
  | shutdown
  /-- Raised by any access to a physical address the memory map says is absent (MEMORY_MAP, D4). Safe. -/
  | absentMemory
  /-- Raised by ESC with EM = 0, TS = 0 and no coprocessor attached (U20: stuck). Safe. -/
  | noCoprocessor
deriving DecidableEq, Repr

/-- Why the model declines to give a meaning. -/
inductive Refusal where
  /-- Raised by an arm of `exec` whose instruction has no meaning yet. Safe. -/
  | notModelled (mnemonic : String)
  /-- Raised by transfers, interrupts and task switches that use an 80286 gate or task state segment (D18), task gates that name
  one included. Safe. -/
  | format286
  /-- Raised by MOV CR0 that would set PG with PE clear, whose effect the spec does not give (U13). Safe. -/
  | pagingWithoutProtection
  /-- Raised by a memory access to a device, whose behaviour the spec does not give (MEMORY_MAP, D4). Safe. -/
  | deviceMemory
  /-- Raised by SETcc with a nonzero reg field (D23, U18). Safe. -/
  | setccReg
deriving DecidableEq, Repr

/-! ## Reset -/

/-- The access rights of a segment register after reset: present, readable and writable, expand-up, 16-bit (R791). `code`
says whether it is CS. -/
def Rights.reset (code : Bool) : Rights :=
  { present := true, dpl := 0, s := true, code := code, ce := false, rw := true, accessed := true, db := false, gran := false }

/-- A data segment register after reset (R791). -/
def SegReg.reset : SegReg :=
  { sel := 0, base := 0, limit := 0xFFFF, ar := Rights.reset false, valid := true }

/-- CS after reset: selector F000h with base FFFF0000h (R791, R792). -/
def SegReg.resetCs : SegReg :=
  { sel := 0xF000, base := 0xFFFF0000, limit := 0xFFFF, ar := Rights.reset true, valid := true }

/-- No prefix read. -/
def Prefixes.empty : Prefixes :=
  { seg := none, op66 := false, ad67 := false, lock := false, rep := none, count := 0 }

/-- EFLAGS with every field 0, the word 00000002h (R791). -/
def Flags.reset : Flags :=
  { cf := false, pf := false, af := false, zf := false, sf := false, tf := false, intf := false, df := false, of := false,
    iopl := 0, nt := false, rf := false, vm := false }

/-- The open parameters that `State.reset` stands for (R8; log entry 4). -/
def Params.standard : Params := { coproc := .i387, lockIopl := true, prefetchBytes := 16, memMap := [] }

/-- The machine right after reset, with the open parameters and the memory of the platform: memory is not touched by RESET, and ET
tells an 80387 (R790, R791, R793, R795). The registers R793 leaves open hold the values log entries 2 to 4 name. -/
def State.resetOf (p : Params) (mem : List Host.Cell) : State :=
  { regs := { eax := 0, ecx := 0, edx := 0x300, ebx := 0, esp := 0, ebp := 0, esi := 0, edi := 0 }
    eip := 0xFFF0
    flags := Flags.reset
    cpl := 0
    segs := { es := SegReg.reset, cs := SegReg.resetCs, ss := SegReg.reset, ds := SegReg.reset, fs := SegReg.reset,
              gs := SegReg.reset }
    cr0 := { pe := false, mp := false, em := false, ts := false, et := p.coproc == .i387, pg := false }
    cr2 := 0
    cr3 := 0
    tables := { gdtr := { base := 0, limit := 0 }, idtr := { base := 0, limit := 0x3FF },
                ldtr := { sel := 0, base := 0, limit := 0, valid := false },
                tr := { sel := 0, base := 0, limit := 0, typ := 0 } }
    dregs := { dr0 := 0, dr1 := 0, dr2 := 0, dr3 := 0, dr6 := { b := 0, bd := false, bs := false, bt := false },
               dr7 := { enables := 0, le := false, ge := false, gd := false, ctl := 0 } }
    test := { tr6 := 0, tr7 := 0 }
    mem := mem
    tlb := []
    fetch := { pfx := Prefixes.empty, start := 0xFFF0, stale := [], ahead := [], window := none, oldMode := false, held := none }
    pend := { shadow := .none, activity := .running, hits := 0, near := 0, bs := false, bt := false }
    pins := { intr := [], nmiPending := false, nmiBlocked := false, busy := false, error := false, reset := false }
    params := p
    io := []
    draws := 0 }

/-- The machine right after reset, of an 80386 with an 80387 on a platform whose memory holds nothing (R791; log entries 1, 4). -/
def State.reset : State := State.resetOf Params.standard []

end Sys2Proof.Machine
end

