-- ==== Sys2Proof/Machine/Bits.lean ====
section
/-!
DEFINITION. Bytes and values (20_memory.md R102), the named updates of the state, the accessors of the register groups, and
the mode predicates (00_scope.md R15).
-/

namespace Sys2Proof.Machine

/-! ## Bytes and values -/

/-- The low `n` bytes of a value, low byte first (R102). -/
def bytesOf : Nat → Word → List Byte
  | 0, _ => []
  | n + 1, v => v.setWidth 8 :: bytesOf n (v >>> 8)

/-- The value of a byte sequence, low byte first (R102). -/
def wordOf : List Byte → Word
  | [] => 0
  | b :: bs => b.setWidth 32 ||| (wordOf bs <<< 8)

/-- The 16-bit value of the first two bytes. -/
def hwordOf (bs : List Byte) : HWord := (wordOf (bs.take 2)).setWidth 16

/-- Sign extension of an `n`-bit value to 32 bits (R9). -/
def sext32 {n : Nat} (v : BitVec n) : Word := v.signExtend 32

/-- Two bytes or a doubleword by a size attribute (R10). -/
def sizeWidth (is32 : Bool) : Width := bif is32 then .d else .w

/-! ## Named updates of the state -/

/-- The state with the general registers replaced. -/
def State.withRegs (s : State) (v : Regs) : State := { s with regs := v }

/-- The state with EIP replaced. -/
def State.withEip (s : State) (v : Word) : State := { s with eip := v }

/-- The state with EFLAGS replaced. -/
def State.withFlags (s : State) (v : Flags) : State := { s with flags := v }

/-- The state with CPL replaced. -/
def State.withCpl (s : State) (v : BitVec 2) : State := { s with cpl := v }

/-- The state with the segment registers replaced. -/
def State.withSegs (s : State) (v : Segs) : State := { s with segs := v }

/-- The state with CR0 replaced. -/
def State.withCr0 (s : State) (v : Cr0) : State := { s with cr0 := v }

/-- The state with CR2 replaced. -/
def State.withCr2 (s : State) (v : Word) : State := { s with cr2 := v }

/-- The state with CR3 replaced. -/
def State.withCr3 (s : State) (v : BitVec 20) : State := { s with cr3 := v }

/-- The state with the table registers replaced. -/
def State.withTables (s : State) (v : Tables) : State := { s with tables := v }

/-- The state with the debug registers replaced. -/
def State.withDebug (s : State) (v : Debug) : State := { s with dregs := v }

/-- The state with the test registers replaced. -/
def State.withTest (s : State) (v : TestRegs) : State := { s with test := v }

/-- The state with memory replaced. -/
def State.withMem (s : State) (v : List Host.Cell) : State := { s with mem := v }

/-- The state with the TLB replaced. -/
def State.withTlb (s : State) (v : List TlbEntry) : State := { s with tlb := v }

/-- The state with the fetch state replaced. -/
def State.withFetch (s : State) (v : Fetch) : State := { s with fetch := v }

/-- The state with what is pending replaced. -/
def State.withPend (s : State) (v : Pend) : State := { s with pend := v }

/-- The state with the pins replaced. -/
def State.withPins (s : State) (v : Pins) : State := { s with pins := v }

/-- The state with the record of port accesses replaced. -/
def State.withIo (s : State) (v : List IoEvent) : State := { s with io := v }

/-- The state with the draw counter replaced. -/
def State.withDraws (s : State) (v : Nat) : State := { s with draws := v }

/-! ## General registers (R31, R32) -/

/-- The 32-bit register a field names (R31). -/
def Regs.get (r : Regs) : Gpr → Word
  | .ax => r.eax
  | .cx => r.ecx
  | .dx => r.edx
  | .bx => r.ebx
  | .sp => r.esp
  | .bp => r.ebp
  | .si => r.esi
  | .di => r.edi

/-- Replace the 32-bit register a field names (R31). -/
def Regs.set (r : Regs) (g : Gpr) (v : Word) : Regs :=
  match g with
  | .ax => { r with eax := v }
  | .cx => { r with ecx := v }
  | .dx => { r with edx := v }
  | .bx => { r with ebx := v }
  | .sp => { r with esp := v }
  | .bp => { r with ebp := v }
  | .si => { r with esi := v }
  | .di => { r with edi := v }

/-- The 32-bit register an 8-bit register is part of: AH CH DH BH are in EAX ECX EDX EBX (R31). -/
def byteHome : Gpr → Gpr
  | .sp => .ax
  | .bp => .cx
  | .si => .dx
  | .di => .bx
  | r => r

/-- Whether the 3-bit field names a high byte register (bits 15:8) with a byte operand (R31). -/
def isHigh : Gpr → Bool
  | .sp | .bp | .si | .di => true
  | _ => false

/-- The register part a field names at a width (R11, R31). -/
def Regs.read (r : Regs) (k : Width) (g : Gpr) : BitVec k.bits :=
  match k with
  | .b => bif isHigh g then (r.get (byteHome g)).extractLsb' 8 8 else (r.get (byteHome g)).setWidth 8
  | .w => (r.get g).setWidth 16
  | .d => r.get g

/-- Replace bits 15:0 of a doubleword. -/
def setLow16 (x : Word) (v : HWord) : Word := x.extractLsb' 16 16 ++ v

/-- Replace bits 7:0 of a doubleword. -/
def setLow8 (x : Word) (v : Byte) : Word := x.extractLsb' 8 24 ++ v

/-- Replace bits 15:8 of a doubleword. -/
def setHigh8 (x : Word) (v : Byte) : Word := x.extractLsb' 16 16 ++ v ++ x.extractLsb' 0 8

/-- Write the register part a field names at a width; the rest of the 32-bit register is unchanged (R11, R32). -/
def Regs.write (r : Regs) (k : Width) (g : Gpr) (v : BitVec k.bits) : Regs :=
  match k with
  | .b => r.set (byteHome g) (bif isHigh g then setHigh8 (r.get (byteHome g)) v else setLow8 (r.get (byteHome g)) v)
  | .w => r.set g (setLow16 (r.get g) v)
  | .d => r.set g v

/-- The register part a field names at a width, in a state (R31). -/
def State.reg (s : State) (k : Width) (g : Gpr) : BitVec k.bits := s.regs.read k g

/-- Write the register part a field names at a width (R31, R32). -/
def State.setReg (s : State) (k : Width) (g : Gpr) (v : BitVec k.bits) : State := s.withRegs (s.regs.write k g v)

/-! ## Segment registers (R35) -/

/-- The segment register a name selects. -/
def Segs.get (g : Segs) : Sreg → SegReg
  | .es => g.es
  | .cs => g.cs
  | .ss => g.ss
  | .ds => g.ds
  | .fs => g.fs
  | .gs => g.gs

/-- Replace the segment register a name selects. -/
def Segs.set (g : Segs) (r : Sreg) (v : SegReg) : Segs :=
  match r with
  | .es => { g with es := v }
  | .cs => { g with cs := v }
  | .ss => { g with ss := v }
  | .ds => { g with ds := v }
  | .fs => { g with fs := v }
  | .gs => { g with gs := v }

/-- A segment register of the state. -/
def State.seg (s : State) (r : Sreg) : SegReg := s.segs.get r

/-- Replace a segment register of the state. -/
def State.setSeg (s : State) (r : Sreg) (v : SegReg) : State := s.withSegs (s.segs.set r v)

/-! ## Modes and sizes (R10, R15, R41, R172) -/

/-- PE as the instruction in execution sees it: that of CR0, or the one before a change for an instruction that was decoded
under the old mode (R144, R800; log entry 15). -/
def State.peInForce (s : State) : Bool := s.cr0.pe ^^ s.fetch.oldMode

/-- Real Address Mode: PE = 0 (R15). -/
def State.realMode (s : State) : Bool := !s.peInForce

/-- Virtual 8086 Mode: PE = 1 and VM = 1 (R15). -/
def State.v86Mode (s : State) : Bool := s.peInForce && s.flags.vm

/-- Protected Mode: PE = 1 and VM = 0 (R15). -/
def State.protMode (s : State) : Bool := s.peInForce && !s.flags.vm

/-- Paging is on: PG = 1 and PE = 1 (R129), as CR0 has them at once. -/
def State.pagingOn (s : State) : Bool := s.cr0.pg && s.cr0.pe

/-- The default size of the code segment: the D bit in Protected Mode, 16 in the other modes (R172). -/
def State.code32 (s : State) : Bool := s.protMode && s.segs.cs.ar.db

/-- The stack pointer in use is ESP: the B bit of SS in Protected Mode, SP in the other modes (R41; log entry 17). -/
def State.stack32 (s : State) : Bool := s.protMode && s.segs.ss.ar.db

/-- CPL = 3: user level for paging (R132, R133). -/
def State.userLevel (s : State) : Bool := s.cpl == 3

/-- CPL as a number. -/
def State.cplNat (s : State) : Nat := s.cpl.toNat

/-- IOPL as a number. -/
def State.ioplNat (s : State) : Nat := s.flags.iopl.toNat

/-! ## Parts of the fetch and pending state -/

/-- The prefixes read so far. -/
def State.pfx (s : State) : Prefixes := s.fetch.pfx

/-- The operand-size attribute of the instruction: 32 when true (R172). -/
def State.op32 (s : State) : Bool := s.code32 ^^ s.fetch.pfx.op66

/-- The address-size attribute of the instruction: 32 when true (R172). -/
def State.addr32 (s : State) : Bool := s.code32 ^^ s.fetch.pfx.ad67

/-- The full operand width of the instruction (R10). -/
def State.opWidth (s : State) : Width := sizeWidth s.op32

/-- The operand width a w bit selects (R171). -/
def State.widthOf (s : State) (w : Bool) : Width := bif w then s.opWidth else .b

/-- Replace the prefixes read. -/
def State.withPfx (s : State) (p : Prefixes) : State := s.withFetch { s.fetch with pfx := p }

/-- Replace the bytes the prefetch queue may still hold. -/
def State.withStale (s : State) (l : List Host.Cell) : State := s.withFetch { s.fetch with stale := l }

/-- Set whether the instruction in execution has the semantics of the mode before a change of CR0.PE (R144, R800). -/
def State.withOldMode (s : State) (v : Bool) : State := s.withFetch { s.fetch with oldMode := v }

/-- The semantics of the mode that CR0 gives: what takes an exception or begins an instruction (R800). -/
def State.inOwnMode (s : State) : State := s.withOldMode false

/-- What a change of level or of VM leaves where CR0 gives Real Address Mode, as it can be made by an instruction that runs with the
semantics of Protected Mode after PE was cleared: CPL 0 and VM 0 (R37, R800; log entry 15). -/
def State.settled (s : State) : State :=
  (s.withCpl (bif s.cr0.pe then s.cpl else 0)).withFlags { s.flags with vm := s.flags.vm && s.cr0.pe }

/-- Set the instruction that a repetition or a wait goes on with (R450, R611). -/
def State.withHeld (s : State) (v : Option Held) : State := s.withFetch { s.fetch with held := v }

/-- A taken control transfer flushes the prefetch queue: what follows is fetched anew, in the mode and through the mapping in force
(R61, R144). -/
def State.flushQueue (s : State) : State := s.withFetch { s.fetch with stale := [], ahead := [], window := none }

/-- DR6 after a debug exception: the bits are only ever set; a breakpoint that matched without being enabled may be told too
(R755). -/
def Dr6.report (d : Dr6) (hits near : BitVec 4) (bs bt : Bool) : Dr6 :=
  { d with b := d.b ||| hits ||| near, bs := d.bs || bs, bt := d.bt || bt }

/-- Set the interrupt shadow (R59). -/
def State.withShadow (s : State) (v : Shadow) : State := s.withPend { s.pend with shadow := v }

/-- Set whether the processor runs (R743). -/
def State.withActivity (s : State) (v : Activity) : State := s.withPend { s.pend with activity := v }

end Sys2Proof.Machine
end

