-- ==== Sys2Proof/Machine/Monad.lean ====
section
/-!
DEFINITION. How a meaning runs: a state passed along until it ends or stops (00_scope.md R14), and the draw of free values.
-/

namespace Sys2Proof.Machine

/-- An exception: its vector and error code, the EXT bit not yet set (R700, R715). -/
structure Exc where
  vector : Byte
  code : Option HWord
deriving DecidableEq, Repr

/-- Why a meaning does not run to its end. -/
inductive Stop where
  /-- An exception in the context of the instruction, with the state it had reached (R14, R712). -/
  | exc (e : Exc) (s : State)
  /-- An exception after a task switch, in the context of the new task (R764). -/
  | late (e : Exc) (s : State)
  /-- The processor shuts down (R746). -/
  | shutdown (s : State)
  /-- The machine stops. -/
  | fault (f : Fault)
  /-- The model declines. -/
  | refuse (r : Refusal)
deriving Repr

/-- A computation over the state that ends with a value or stops. -/
abbrev M (α : Type) := StateT State (Except Stop) α

/-- Raise an exception (R14). -/
def raise {α : Type} (e : Exc) : M α := fun s => .error (.exc e s)

/-- Shut the processor down (R746). -/
def shutDown {α : Type} : M α := fun s => .error (.shutdown s)

/-- Stop with a fault of the model. -/
def stopFault {α : Type} (f : Fault) : M α := fun _ => .error (.fault f)

/-- Decline with a reason. -/
def refuse {α : Type} (r : Refusal) : M α := fun _ => .error (.refuse r)

/-- Raise an exception unless a check holds. -/
def check (ok : Bool) (e : Exc) : M Unit := bif ok then pure () else raise e

/-- Update the state. -/
def update (f : State → State) : M Unit := fun s => .ok ((), f s)

/-- Read from the state. -/
def look {α : Type} (f : State → α) : M α := fun s => .ok (f s, s)

/-- Draw a free bit (92_eei_decisions.md D20; log entry 7). -/
def drawBit : M Bool := fun s => .ok (Config.freeBit s.draws, s.withDraws (s.draws + 1))

/-- Draw a free value of `n` bits (log entry 7). -/
def drawBits (n : Nat) : M (BitVec n) := fun s => .ok (Config.freeBits n s.draws, s.withDraws (s.draws + 1))

/-! ## The exceptions by name (R700) -/

/-- #DE, vector 0 (R702). -/
def excDE : Exc := ⟨0, none⟩

/-- #DB, vector 1 (R703). -/
def excDB : Exc := ⟨1, none⟩

/-- #BR, vector 5 (R707). -/
def excBR : Exc := ⟨5, none⟩

/-- #UD, vector 6 (R708). -/
def excUD : Exc := ⟨6, none⟩

/-- #NM, vector 7 (R709). -/
def excNM : Exc := ⟨7, none⟩

/-- Coprocessor segment overrun, vector 9 (R711). -/
def excOverrun : Exc := ⟨9, none⟩

/-- The error code of a selector: bits 15:2, the RPL bits cleared (R715). -/
def selCode (sel : HWord) : HWord := sel &&& 0xFFFC

/-- #TS(selector), vector 10 (R713). -/
def excTS (sel : HWord) : Exc := ⟨10, some (selCode sel)⟩

/-- #NP(selector), vector 11 (R714). -/
def excNP (sel : HWord) : Exc := ⟨11, some (selCode sel)⟩

/-- #SS(selector), vector 12 (R716); `excSS 0` is #SS(0). -/
def excSS (sel : HWord) : Exc := ⟨12, some (selCode sel)⟩

/-- #GP(selector), vector 13 (R717); `excGP 0` is #GP(0). -/
def excGP (sel : HWord) : Exc := ⟨13, some (selCode sel)⟩

/-- #GP or #NP on IDT entry `n`: index n, the IDT bit set (R715). -/
def excIdt (vector : Byte) (n : Byte) : Exc := ⟨vector, some (n.setWidth 16 <<< 3 ||| 2)⟩

/-- #MF, vector 16 (R719). -/
def excMF : Exc := ⟨16, none⟩

end Sys2Proof.Machine
end

