-- ==== Sys2Proof/Machine/Flags.lean ====
section
/-!
DEFINITION. EFLAGS as a word, every flag computation the spec gives (10_state.md R38 to R42, 42_arithmetic.md,
43_logic_shift.md) and the conditions (30_encoding.md R178). An undefined flag is an argument the meaning fills with a draw.
-/

namespace Sys2Proof.Machine

/-! ## EFLAGS as a word (R38) -/

/-- EFLAGS as its 32-bit word: bit 1 reads 1, the other reserved bits read 0 (R38). -/
def Flags.toWord (f : Flags) : Word :=
  0#14 ++ BitVec.ofBool f.vm ++ BitVec.ofBool f.rf ++ 0#1 ++ BitVec.ofBool f.nt ++ f.iopl ++ BitVec.ofBool f.of ++
  BitVec.ofBool f.df ++ BitVec.ofBool f.intf ++ BitVec.ofBool f.tf ++ BitVec.ofBool f.sf ++ BitVec.ofBool f.zf ++ 0#1 ++
  BitVec.ofBool f.af ++ 0#1 ++ BitVec.ofBool f.pf ++ 1#1 ++ BitVec.ofBool f.cf

/-- EFLAGS from a 32-bit image; the reserved bits of the image are ignored (R38). -/
def Flags.ofWord (v : Word) : Flags :=
  { cf := v.getLsbD 0, pf := v.getLsbD 2, af := v.getLsbD 4, zf := v.getLsbD 6, sf := v.getLsbD 7, tf := v.getLsbD 8,
    intf := v.getLsbD 9, df := v.getLsbD 10, of := v.getLsbD 11, iopl := v.extractLsb' 12 2, nt := v.getLsbD 14,
    rf := v.getLsbD 16, vm := v.getLsbD 17 }

/-- FLAGS, the low 16 bits of EFLAGS (R38). -/
def Flags.toHWord (f : Flags) : HWord := f.toWord.setWidth 16

/-- Load the flags any level may write from an image: CF PF AF ZF SF TF DF OF NT always, IF and IOPL when allowed, RF when
asked; VM never (R305, R578 LoadFlags). -/
def Flags.load (f : Flags) (img : Word) (setIf setIopl setRf : Bool) : Flags :=
  let v := Flags.ofWord img
  { v with
    intf := bif setIf then v.intf else f.intf
    iopl := bif setIopl then v.iopl else f.iopl
    rf := bif setRf then v.rf else f.rf
    vm := f.vm }

/-- The status flags in the layout of AH that LAHF stores (R304). -/
def Flags.toAh (f : Flags) : Byte := f.toWord.setWidth 8

/-- SAHF: SF ZF AF PF CF from bits 7, 6, 4, 2, 0 (R308). -/
def Flags.ofAh (f : Flags) (ah : Byte) : Flags :=
  { f with sf := ah.getLsbD 7, zf := ah.getLsbD 6, af := ah.getLsbD 4, pf := ah.getLsbD 2, cf := ah.getLsbD 0 }

/-- Replace EFLAGS by a function of its old value. -/
def State.mapFlags (s : State) (g : Flags → Flags) : State := s.withFlags (g s.flags)

/-! ## The status flag formulas (R39) -/

/-- PF: the low eight bits contain an even number of ones (R39). -/
def parity (r : Byte) : Bool :=
  !(r.getLsbD 0 ^^ r.getLsbD 1 ^^ r.getLsbD 2 ^^ r.getLsbD 3 ^^ r.getLsbD 4 ^^ r.getLsbD 5 ^^ r.getLsbD 6 ^^ r.getLsbD 7)

/-- SetSZP: SF, ZF and PF from a result (R39). -/
def Flags.szp {n : Nat} (f : Flags) (r : BitVec n) : Flags :=
  { f with sf := r.msb, zf := r == 0, pf := parity (r.setWidth 8) }

/-- AF: the carry or borrow of bit 3 (R39). -/
def adjust {n : Nat} (a b r : BitVec n) : Bool := (a ^^^ b ^^^ r).getLsbD 4

/-- A carry as a number of the operand width. -/
def carryIn (n : Nat) (c : Bool) : BitVec n := (BitVec.ofBool c).setWidth n

/-- The sum of ADD and ADC (R331, R332). -/
def addValue {n : Nat} (a b : BitVec n) (c : Bool) : BitVec n := a + b + carryIn n c

/-- The flags of ADD and ADC (R331, R332, R39). -/
def Flags.add {n : Nat} (f : Flags) (a b : BitVec n) (c : Bool) : Flags :=
  let r := addValue a b c
  { f.szp r with
    cf := decide (2 ^ n ≤ a.toNat + b.toNat + c.toNat)
    af := adjust a b r
    of := a.msb == b.msb && r.msb != a.msb }

/-- The difference of SUB, SBB and CMP (R334, R335, R337). -/
def subValue {n : Nat} (a b : BitVec n) (c : Bool) : BitVec n := a - b - carryIn n c

/-- The flags of SUB, SBB, CMP, CMPS and SCAS (R334, R335, R39). -/
def Flags.sub {n : Nat} (f : Flags) (a b : BitVec n) (c : Bool) : Flags :=
  let r := subValue a b c
  { f.szp r with
    cf := decide (a.toNat < b.toNat + c.toNat)
    af := adjust a b r
    of := a.msb != b.msb && r.msb != a.msb }

/-- INC: the flags of ADD with 1, CF unchanged (R333). -/
def Flags.inc {n : Nat} (f : Flags) (a : BitVec n) : Flags := { f.add a 1 false with cf := f.cf }

/-- DEC: the flags of SUB with 1, CF unchanged (R336). -/
def Flags.dec {n : Nat} (f : Flags) (a : BitVec n) : Flags := { f.sub a 1 false with cf := f.cf }

/-- AND, OR, XOR, TEST: CF and OF cleared, SZP from the result, AF undefined (R390 to R393, U2). -/
def Flags.logic {n : Nat} (f : Flags) (r : BitVec n) (af : Bool) : Flags :=
  { f.szp r with cf := false, of := false, af := af }

/-- CF and OF after a multiplication; SF, ZF, AF, PF undefined (R350 to R353, U4). -/
def Flags.mul (f : Flags) (c sf zf af pf : Bool) : Flags :=
  { f with cf := c, of := c, sf := sf, zf := zf, af := af, pf := pf }

/-- All six status flags undefined (R354, R355, R410, R601; U3, U4). -/
def Flags.undef (f : Flags) (cf pf af zf sf of : Bool) : Flags :=
  { f with cf := cf, pf := pf, af := af, zf := zf, sf := sf, of := of }

/-! ## Shifts and rotates (R400 to R408) -/

/-- The outcome of a shift or rotate with a masked count of at least 1: the result, CF, and what OF is when the count is 1. -/
structure Shifted (n : Nat) where
  val : BitVec n
  cf : Bool
  of1 : Bool
deriving DecidableEq, Repr

/-- SHL / SAL (R401). -/
def shl {n : Nat} (a : BitVec n) (_cf : Bool) (c : Nat) : Shifted n :=
  let cf := decide (c ≤ n) && a.getLsbD (n - c)
  { val := a <<< c, cf := cf, of1 := (a <<< c).msb ^^ cf }

/-- SHR (R402). -/
def shr {n : Nat} (a : BitVec n) (_cf : Bool) (c : Nat) : Shifted n :=
  { val := a >>> c, cf := decide (c ≤ n) && a.getLsbD (c - 1), of1 := a.msb }

/-- SAR (R403). -/
def sar {n : Nat} (a : BitVec n) (_cf : Bool) (c : Nat) : Shifted n :=
  { val := a.sshiftRight c, cf := if c ≤ n then a.getLsbD (c - 1) else a.msb, of1 := false }

/-- ROL (R405). -/
def rol {n : Nat} (a : BitVec n) (_cf : Bool) (c : Nat) : Shifted n :=
  let r := (a <<< (c % n)) ||| (a >>> (n - c % n))
  { val := r, cf := r.getLsbD 0, of1 := r.msb ^^ r.getLsbD 0 }

/-- ROR (R406). -/
def ror {n : Nat} (a : BitVec n) (_cf : Bool) (c : Nat) : Shifted n :=
  let r := (a >>> (c % n)) ||| (a <<< (n - c % n))
  { val := r, cf := r.msb, of1 := r.msb ^^ r.getLsbD (n - 2) }

/-- RCL: the value CF:DEST of N + 1 bits rotated left (R407). -/
def rcl {n : Nat} (a : BitVec n) (cf : Bool) (c : Nat) : Shifted n :=
  let v : BitVec (1 + n) := BitVec.ofBool cf ++ a
  let k := c % (n + 1)
  let r := (v <<< k) ||| (v >>> (n + 1 - k))
  { val := r.setWidth n, cf := r.msb, of1 := (r.setWidth n).msb ^^ r.msb }

/-- RCR: the value CF:DEST of N + 1 bits rotated right; OF for a count of 1 is taken before the rotate (R408). -/
def rcr {n : Nat} (a : BitVec n) (cf : Bool) (c : Nat) : Shifted n :=
  let v : BitVec (1 + n) := BitVec.ofBool cf ++ a
  let k := c % (n + 1)
  let r := (v >>> k) ||| (v <<< (n + 1 - k))
  { val := r.setWidth n, cf := r.msb, of1 := a.msb ^^ cf }

/-- OF after a shift or rotate: its stated value for a count of 1, else undefined (U1). -/
def shiftOf (c : Nat) (of1 free : Bool) : Bool := if c = 1 then of1 else free

/-- The flags of SHL, SHR, SAR with a count of at least 1 (R401 to R403, U1, U2). -/
def Flags.shift {n : Nat} (f : Flags) (r : Shifted n) (c : Nat) (freeOf freeAf : Bool) : Flags :=
  { f.szp r.val with cf := r.cf, of := shiftOf c r.of1 freeOf, af := freeAf }

/-- The flags of ROL, ROR, RCL, RCR with a count of at least 1 (R405 to R408, U1). -/
def Flags.rotate {n : Nat} (f : Flags) (r : Shifted n) (c : Nat) (freeOf : Bool) : Flags :=
  { f with cf := r.cf, of := shiftOf c r.of1 freeOf }

/-- The result of SHLD for a count from 1 to N - 1 (R410). -/
def shldValue {n : Nat} (a b : BitVec n) (c : Nat) : BitVec n := (a <<< c) ||| (b >>> (n - c))

/-- The result of SHRD for a count from 1 to N - 1 (R411). -/
def shrdValue {n : Nat} (a b : BitVec n) (c : Nat) : BitVec n := (a >>> c) ||| (b <<< (n - c))

/-- The flags of SHLD and SHRD for a count from 1 to N - 1: CF the last bit shifted out, OF and AF undefined (R410, R411). -/
def Flags.doubleShift {n : Nat} (f : Flags) (r : BitVec n) (cf freeOf freeAf : Bool) : Flags :=
  { f.szp r with cf := cf, of := freeOf, af := freeAf }

/-! ## Bits (R480 to R486) -/

/-- CF the selected bit; OF, SF, ZF, AF, PF undefined (R480, U4). -/
def Flags.bitTest (f : Flags) (cf sf zf af pf of : Bool) : Flags :=
  { f with cf := cf, sf := sf, zf := zf, af := af, pf := pf, of := of }

/-- ZF stated; OF, SF, AF, PF, CF undefined (R485, R486, U4). -/
def Flags.bitScan (f : Flags) (zf sf af pf cf of : Bool) : Flags :=
  { f with zf := zf, sf := sf, af := af, pf := pf, cf := cf, of := of }

/-- The index of the least significant 1 bit, searching from bit `i` with `fuel` bits left (R485). -/
def scanForward {n : Nat} (a : BitVec n) : Nat → Nat → Nat
  | 0, i => i
  | fuel + 1, i => if a.getLsbD i then i else scanForward a fuel (i + 1)

/-- The index of the most significant 1 bit among bits `i - 1` down to 0 (R486). -/
def scanReverse {n : Nat} (a : BitVec n) : Nat → Nat
  | 0 => 0
  | i + 1 => if a.getLsbD i then i else scanReverse a i

/-! ## Decimal adjust (R340 to R343) -/

/-- The low nibble asks for an adjustment: above 9, or AF = 1 (R340 to R343). -/
def nibbleAdjust (al : Byte) (af : Bool) : Bool := decide (9 < al.toNat % 16) || af

/-- AL and CF, AF after DAA (R342): the result and the two flags. -/
def daaValue (al : Byte) (cf af : Bool) : Byte × Bool × Bool :=
  let low := nibbleAdjust al af
  let high := decide (0x99 < al.toNat) || cf
  let r := al + bif low then 6 else 0
  (r + bif high then 0x60 else 0, high, low)

/-- AL and CF, AF after DAS (R343). -/
def dasValue (al : Byte) (cf af : Bool) : Byte × Bool × Bool :=
  let low := nibbleAdjust al af
  let high := decide (0x99 < al.toNat) || cf
  let r := al - bif low then 6 else 0
  (r - bif high then 0x60 else 0, high || (low && (cf || decide (al.toNat < 6))), low)

/-! ## Conditions (R178) -/

/-- The condition a tttn field names (R178). -/
def Flags.cond (f : Flags) : Cond → Bool
  | .o => f.of
  | .no => !f.of
  | .b => f.cf
  | .nb => !f.cf
  | .e => f.zf
  | .ne => !f.zf
  | .be => f.cf || f.zf
  | .nbe => !(f.cf || f.zf)
  | .s => f.sf
  | .ns => !f.sf
  | .p => f.pf
  | .np => !f.pf
  | .l => f.sf ^^ f.of
  | .nl => !(f.sf ^^ f.of)
  | .le => (f.sf ^^ f.of) || f.zf
  | .nle => !((f.sf ^^ f.of) || f.zf)

end Sys2Proof.Machine
end

