-- ==== Sys2Proof/Machine/Memory.lean ====
section
/-!
DEFINITION. Physical memory, the prefetch queue's stale bytes, paging with the TLB, and access by linear address
(20_memory.md R101, R102, R116, R129 to R136, R144; 10_state.md R58, R61; 60_exceptions.md R751).
-/

namespace Sys2Proof.Machine

/-! ## Physical memory (R101) -/

/-- What a byte of memory that nothing has written reads as: 00h (DESIGN CHOICE, log entry 1). -/
def unwritten : Byte := 0

/-- The byte at a physical address (R101). -/
def Memory.read : List Host.Cell → Nat → Byte
  | [], _ => unwritten
  | (x, v) :: m, a => if a = x then v else if a < x then unwritten else Memory.read m a

/-- Write a byte, keeping the addresses strictly rising and listing no byte equal to an unwritten one. -/
def Memory.write : List Host.Cell → Nat → Byte → List Host.Cell
  | [], a, v => if v = unwritten then [] else [(a, v)]
  | (x, u) :: m, a, v =>
    if a < x then (if v = unwritten then (x, u) :: m else (a, v) :: (x, u) :: m)
    else if a = x then (if v = unwritten then m else (a, v) :: m)
    else (x, u) :: Memory.write m a v

/-- The canonical form from an address up: addresses strictly rising, no byte equal to an unwritten one. -/
def Memory.wfFrom : Nat → List Host.Cell → Bool
  | _, [] => true
  | lo, (x, v) :: m => decide (lo ≤ x) && v != unwritten && Memory.wfFrom (x + 1) m

/-- The canonical form of memory. -/
def Memory.wf (m : List Host.Cell) : Bool := Memory.wfFrom 0 m

/-- What the platform's memory map says of a physical address; an address in no region is RAM (MEMORY_MAP, D4). -/
def memKind : List Region → Nat → MemKind
  | [], _ => .ram
  | r :: rs, a => if r.base ≤ a ∧ a < r.base + r.size then r.kind else memKind rs a

/-- The byte of physical memory at an address of the state, without the check of what stands there. -/
def State.byteAt (s : State) (a : Word) : Byte := Memory.read s.mem a.toNat

/-- Read one byte of physical memory: a device refuses, an absent address stops (log entry 21). -/
def physReadByte (a : Word) : M Byte := fun s =>
  match memKind s.params.memMap a.toNat with
  | .ram => .ok (s.byteAt a, s)
  | .rom => .ok (s.byteAt a, s)
  | .device => .error (.refuse .deviceMemory)
  | .absent => .error (.fault .absentMemory)

/-- Read bytes of physical memory. -/
def physRead : List Word → M (List Byte)
  | [] => pure []
  | a :: as => do
    let b ← physReadByte a
    let bs ← physRead as
    pure (b :: bs)

/-! ## Paging (R129 to R136) -/

/-- What the page tables in memory say of a linear address (R132). -/
inductive Walk where
  /-- An entry is not present (P = 0): that of the directory, or that of the table at the second address. -/
  | notPresent (pdeAddr : Word) (pteAddr : Option Word)
  /-- The rights do not allow the access. -/
  | violation (pdeAddr pteAddr : Word)
  /-- The entries that translate it. -/
  | ok (pdeAddr pteAddr pde pte : Word)
deriving DecidableEq, Repr

/-- The doubleword at a physical address (R102). -/
def State.dwordAt (s : State) (a : Word) : Word :=
  wordOf [s.byteAt a, s.byteAt (a + 1), s.byteAt (a + 2), s.byteAt (a + 3)]

/-- P, bit 0 of a page-table entry (R131). -/
def entryPresent (e : Word) : Bool := e.getLsbD 0

/-- R/W, bit 1 of a page-table entry (R131). -/
def entryWrite (e : Word) : Bool := e.getLsbD 1

/-- U/S, bit 2 of a page-table entry (R131). -/
def entryUser (e : Word) : Bool := e.getLsbD 2

/-- A, bit 5 of a page-table entry (R131). -/
def entryAccessed (e : Word) : Bool := e.getLsbD 5

/-- D, bit 6 of a page-table entry (R131). -/
def entryDirty (e : Word) : Bool := e.getLsbD 6

/-- The frame, bits 31:12 of a page-table entry (R131). -/
def entryFrame (e : Word) : BitVec 20 := e.extractLsb' 12 20

/-- The page number of a linear address (R130). -/
def pageOf (la : Word) : BitVec 20 := la.extractLsb' 12 20

/-- A physical address from a frame and the offset in the page (R130). -/
def inFrame (f : BitVec 20) (la : Word) : Word := f ++ la.extractLsb' 0 12

/-- The physical address of the page-directory entry of a linear address (R130). -/
def pdeAddress (s : State) (la : Word) : Word := s.cr3 ++ la.extractLsb' 22 10 ++ 0#2

/-- The physical address of the page-table entry of a linear address (R130). -/
def pteAddress (pde la : Word) : Word := entryFrame pde ++ la.extractLsb' 12 10 ++ 0#2

/-- Walk the page tables in memory for an access (R132, R133). -/
def walk (s : State) (la : Word) (write user : Bool) : Walk :=
  let pa := pdeAddress s la
  let pde := s.dwordAt pa
  if entryPresent pde then
    let ta := pteAddress pde la
    let pte := s.dwordAt ta
    if entryPresent pte then
      if user && !(entryUser pde && entryUser pte) then .violation pa ta
      else if user && write && !(entryWrite pde && entryWrite pte) then .violation pa ta
      else .ok pa ta pde pte
    else .notPresent pa (some ta)
  else .notPresent pa none

/-- The first TLB entry of the page that permits the access; a write needs D = 1 (R132). -/
def tlbFind (tlb : List TlbEntry) (la : Word) (write user : Bool) : Option TlbEntry :=
  tlb.find? fun e =>
    e.page == pageOf la && (!user || e.user) && (!(user && write) || e.write) && (!write || e.dirty)

/-- The TLB with an entry for a page put in the place of the page's older ones (R132). -/
def tlbInsert (tlb : List TlbEntry) (e : TlbEntry) : List TlbEntry :=
  e :: tlb.filter fun x => x.page != e.page

/-- The physical addresses that a fetch from a linear address may use at the current level: the TLB's and the page tables'
(R132, R144). -/
def peekFrames (s : State) (la : Word) : List Word :=
  if s.pagingOn then
    ((s.tlb.filter fun e => e.page == pageOf la && (!s.userLevel || e.user)).map fun e => inFrame e.frame la) ++
    match walk s la false s.userLevel with
    | .ok _ _ _ pte => [inFrame (entryFrame pte) la]
    | _ => []
  else [la]

/-! ## Writes and the prefetch queue (R61, R144) -/

/-- The physical address may already be in the prefetch queue: it is that of one of the `n` bytes from linear address `la`
(R144, PREFETCH_BYTES). The queue runs on in linear addresses, also where 16-bit code wraps from FFFFh to 0 (log entry 54). -/
def inQueue (s : State) (a la : Word) : Nat → Bool
  | 0 => false
  | n + 1 => (a.extractLsb' 0 12 == la.extractLsb' 0 12 && (peekFrames s la).contains a) || inQueue s a (la + 1) n

/-- The bytes the prefetch queue may still hold, after a store to a physical address (R144; log entry 14). -/
def staleAfter (s : State) (a : Word) : List Host.Cell :=
  if inQueue s a (s.segs.cs.base + s.eip) s.params.prefetchBytes then (a.toNat, s.byteAt a) :: s.fetch.stale
  else s.fetch.stale

/-- The bytes a fetch from a linear address may have delivered: those in RAM or ROM, and those a store has replaced since
(R144). -/
def peekBytes (s : State) (la : Word) : List Byte :=
  (peekFrames s la).flatMap fun a =>
    match memKind s.params.memMap a.toNat with
    | .device => []
    | .absent => []
    | _ => s.byteAt a :: (s.fetch.stale.filter fun c => c.1 == a.toNat).map fun c => c.2

/-- What the prefetch queue may hold of the `n` bytes from linear address `la` (R144, PREFETCH_BYTES; log entry 54). -/
def prefetched (s : State) (la : Word) : Nat → List Host.Cell
  | 0 => []
  | n + 1 => (peekBytes s la).map (fun b => (la.toNat, b)) ++ prefetched s (la + 1) n

/-- The page mapping is about to change: the queue may hold the next bytes as the present mapping shows them (R144; log
entry 14). -/
def State.keepAhead (s : State) : State :=
  s.withFetch { s.fetch with
    ahead := prefetched s (s.segs.cs.base + s.eip) s.params.prefetchBytes ++ s.fetch.ahead }

/-- Write one byte of physical memory: RAM takes it, ROM does not, a device refuses, an absent address stops
(log entry 21). -/
def physWriteByte (a : Word) (v : Byte) : M Unit := fun s =>
  match memKind s.params.memMap a.toNat with
  | .ram => .ok ((), (s.withStale (staleAfter s a)).withMem (Memory.write s.mem a.toNat v))
  | .rom => .ok ((), s)
  | .device => .error (.refuse .deviceMemory)
  | .absent => .error (.fault .absentMemory)

/-- Write bytes of physical memory one after the other: the `i`th byte at the `i`th address. -/
def physWriteBytes : List Word → List Byte → M Unit
  | a :: as, b :: bs => do
    physWriteByte a b
    physWriteBytes as bs
  | _, _ => pure ()

/-- A physical address is in one of the page-table entries that translate the `n` bytes from linear address `la` (R130, R144; log
entry 54). -/
def inTables (s : State) (a la : Word) : Nat → Bool
  | 0 => false
  | n + 1 =>
    let pa := pdeAddress s la
    let pde := s.dwordAt pa
    decide ((a - pa).toNat < 4) || (entryPresent pde && decide ((a - pteAddress pde la).toNat < 4)) || inTables s a (la + 1) n

/-- A store is about to be made: where it changes the page-table entries of the bytes ahead, the queue may hold those bytes as the
present mapping shows them (R144; log entry 14). -/
def State.beforeStore (s : State) (as : List Word) : State :=
  bif s.pagingOn && as.any (fun a => inTables s a (s.segs.cs.base + s.eip) s.params.prefetchBytes) then s.keepAhead else s

/-- Write bytes of physical memory: the `i`th byte at the `i`th address. -/
def physWrite (as : List Word) (bs : List Byte) : M Unit := do
  update fun s => s.beforeStore as
  physWriteBytes as bs

/-- `n` physical addresses from one up. -/
def addrsFrom (a : Word) : Nat → List Word
  | 0 => []
  | n + 1 => a :: addrsFrom (a + 1) n

/-- The access rights byte and the others of a page-table entry are read: what stands there must be memory. -/
def touchEntry (a : Word) : M Unit := do
  let _ ← physRead (addrsFrom a 4)
  pure ()

/-- Set bits of a page-table entry in memory when they are not set yet (R132, R134): A and D, which change no translation. -/
def setEntryBits (a bits : Word) : M Unit := do
  let e ← look fun s => s.dwordAt a
  if e &&& bits = bits then pure () else physWriteBytes (addrsFrom a 4) (bytesOf 4 (e ||| bits))

/-- A page fault (R135): CR2 takes the linear address; the error code has P, W/R, U/S and undefined bits 15:3 (U9). -/
def pageFault {α : Type} (la : Word) (present write user : Bool) : M α := do
  let free ← drawBits 13
  update fun s => s.withCr2 la
  raise ⟨14, some (free ++ BitVec.ofBool user ++ BitVec.ofBool write ++ BitVec.ofBool present)⟩

/-- Translate by the page tables in memory: faults, the accessed and dirty bits, and the new TLB entry (R132 to R135). Bit 6 of a
page-directory entry, which R131 calls undefined, stays as it is stored (log entry 53). -/
def walkTables (la : Word) (write user : Bool) : M Word := do
  let w ← look fun s => walk s la write user
  match w with
  | .notPresent pa ta =>
    touchEntry pa
    match ta with
    | some t => touchEntry t
    | none => pure ()
    pageFault la false write user
  | .violation pa ta =>
    touchEntry pa
    touchEntry ta
    pageFault la true write user
  | .ok pa ta pde pte =>
    touchEntry pa
    touchEntry ta
    setEntryBits pa 0x20
    setEntryBits ta (bif write then 0x60 else 0x20)
    update fun s => s.withTlb (tlbInsert s.tlb
      { page := pageOf la, frame := entryFrame pte, user := entryUser pde && entryUser pte,
        write := entryWrite pde && entryWrite pte, dirty := entryDirty pte || write })
    pure (inFrame (entryFrame pte) la)

/-- A cached translation and the page tables in memory agree, and a walk would change nothing (R136). -/
def tlbAgrees (s : State) (e : TlbEntry) (la : Word) (write user : Bool) : Bool :=
  match walk s la write user with
  | .ok _ _ pde pte =>
    entryFrame pte == e.frame && entryAccessed pde && entryAccessed pte && (!write || entryDirty pte)
  | _ => false

/-- The physical address of a linear address (R129, R132). When a cached translation and the page tables differ, which of
the two is used is a draw (U21; log entry 13). -/
def translate (la : Word) (write user : Bool) : M Word := do
  let s ← get
  if s.pagingOn then
    match tlbFind s.tlb la write user with
    | none => walkTables la write user
    | some e =>
      if tlbAgrees s e la write user then pure (inFrame e.frame la)
      else
        let cached ← drawBit
        bif cached then pure (inFrame e.frame la) else walkTables la write user
  else pure la

/-- The page of a linear address may be written: what the page tables or the TLB say, without the access itself, which would set
the accessed and dirty bits (R132, R133, D6; log entry 38). Where a cached translation and the page tables differ, which of the
two decides is a draw (U21; log entry 13). -/
def checkPage (la : Word) (user : Bool) : M Unit := do
  let s ← get
  if s.pagingOn then
    match walk s la true user with
    | .ok _ _ _ _ => pure ()
    | _ => do
      let cached ← (if (tlbFind s.tlb la true user).isSome then drawBit else pure false)
      if cached then pure ()
      else
        let _ ← walkTables la true user
        pure ()
  else pure ()

/-- How many bytes of an access of `n` bytes at a linear address lie on its first page. -/
def onFirstPage (la : Word) (n : Nat) : Nat := min n (4096 - la.toNat % 4096)

/-- The physical addresses of `n` bytes at a linear address, each page translated once, both before any byte moves
(R103, R132, D6). -/
def span (la : Word) (n : Nat) (write user : Bool) : M (List Word) := do
  let p ← translate la write user
  let k := onFirstPage la n
  if k = n then pure (addrsFrom p n)
  else
    let q ← translate (la + BitVec.ofNat 32 k) write user
    pure (addrsFrom p k ++ addrsFrom q (n - k))

/-- The pages of `n` bytes at a linear address may be written (R132, D6). -/
def checkWritable (la : Word) (n : Nat) (user : Bool) : M Unit := do
  checkPage la user
  let k := onFirstPage la n
  if k = n then pure () else checkPage (la + BitVec.ofNat 32 k) user

/-! ## Data breakpoints (R751) -/

/-- The breakpoint address register of breakpoint `i` (R52). -/
def Debug.dr (d : Debug) : Nat → Word
  | 0 => d.dr0
  | 1 => d.dr1
  | 2 => d.dr2
  | _ => d.dr3

/-- Ln or Gn: breakpoint `i` is enabled (R54, R751). -/
def Dr7.enabled (d : Dr7) (i : Nat) : Bool := d.enables.getLsbD (2 * i) || d.enables.getLsbD (2 * i + 1)

/-- The R/W field of breakpoint `i` (R54). -/
def Dr7.rw (d : Dr7) (i : Nat) : BitVec 2 := d.ctl.extractLsb' (4 * i) 2

/-- The LEN field of breakpoint `i` (R54). -/
def Dr7.len (d : Dr7) (i : Nat) : BitVec 2 := d.ctl.extractLsb' (4 * i + 2) 2

/-- An address of the `n` bytes at `la` lies in the `k` bytes at `lo`. -/
def overlaps (la : Word) (n : Nat) (lo : Word) (k : Nat) : Bool :=
  decide ((lo - la).toNat < n) || decide ((la - lo).toNat < k)

/-- The bytes that breakpoint `i` covers: its address with the low bits cleared to the length (R751). -/
def Debug.covers (d : Debug) (i : Nat) (la : Word) (n : Nat) : Bool :=
  match (d.dr7.len i).toNat with
  | 0 => overlaps la n (d.dr i) 1
  | 1 => overlaps la n (d.dr i &&& 0xFFFFFFFE) 2
  | _ => overlaps la n (d.dr i &&& 0xFFFFFFFC) 4

/-- Whether a data access matches breakpoint `i` (R751); a reserved R/W or LEN value may or may not match (log entry 36). -/
def matchData (d : Debug) (i : Nat) (la : Word) (n : Nat) (write : Bool) : M Bool :=
  if d.covers i la n then
    match (d.dr7.rw i).toNat with
    | 0 => pure false
    | 1 => if d.dr7.len i = 2 then (bif write then drawBit else pure false) else pure write
    | 2 => drawBit
    | _ => if d.dr7.len i = 2 then drawBit else pure true
  else pure false

/-- Note a match of breakpoint `i`: to be reported when it is enabled, else only told when a debug exception comes for
another reason (R755). -/
def noteMatch (i : Nat) (enabled : Bool) : M Unit :=
  update fun s =>
    bif enabled then s.withPend { s.pend with hits := s.pend.hits ||| (1#4 <<< i) }
    else s.withPend { s.pend with near := s.pend.near ||| (1#4 <<< i) }

/-- Note the data breakpoints below `i` that an access matches (R751). -/
def noteData (d : Debug) (la : Word) (n : Nat) (write : Bool) : Nat → M Unit
  | 0 => pure ()
  | i + 1 => do
    let hit ← matchData d i la n write
    (bif hit then noteMatch i (d.dr7.enabled i) else pure ())
    noteData d la n write i

/-- Note the data breakpoints an access of `n` bytes at a linear address matches (R751). -/
def noteAccess (la : Word) (n : Nat) (write : Bool) : M Unit := do
  let d ← look fun s => s.dregs
  if d.dr7.ctl = 0 then pure () else noteData d la n write 4

/-! ## Access by linear address (R12, R132) -/

/-- The physical addresses of a data access of `n` bytes at a linear address, its breakpoints noted. -/
def planLinear (la : Word) (n : Nat) (write user : Bool) : M (List Word) := do
  let ps ← span la n write user
  noteAccess la n write
  pure ps

/-- Read `n` bytes at a linear address as the processor itself, at supervisor level (R12, R133). -/
def sysRead (la : Word) (n : Nat) : M (List Byte) := do
  let ps ← planLinear la n false false
  physRead ps

/-- The physical addresses of `n` bytes the processor itself will write at a linear address (R12, R133). -/
def sysPlan (la : Word) (n : Nat) : M (List Word) := planLinear la n true false

end Sys2Proof.Machine
end

