-- ==== Sys2Proof/Machine/Segment.lean ====
section
/-!
DEFINITION. Segmentation: the checks of an access, descriptors, segment loads and the stack (20_memory.md R110 to R128).
-/

namespace Sys2Proof.Machine

/-! ## The checks of an access (R110 to R116) -/

/-- The limit check: no byte of the access beyond the limit, or for an expand-down data segment every byte above it and
within the upper bound (R112, R114), without wrap. Only the sum with the limit decides: an operand of 16-bit addressing that starts
at FFFFh passes in a segment whose limit is larger, and its further bytes lie at 10000h and up (log entry 46). -/
def SegReg.inLimit (g : SegReg) (off : Word) (n : Nat) : Bool :=
  if !g.ar.code && g.ar.ce then
    decide (g.limit.toNat < off.toNat) && decide (off.toNat + n ≤ (if g.ar.db then 0x100000000 else 0x10000))
  else decide (off.toNat + n ≤ g.limit.toNat + 1)

/-- The type check: a write needs a writable data segment, a read a data segment or readable code (R113). -/
def SegReg.allows (g : SegReg) (write : Bool) : Bool :=
  bif write then !g.ar.code && g.ar.rw else !g.ar.code || g.ar.rw

/-- All segment checks of an access; the null and type checks are made in Protected Mode only (R110, R113, R115). -/
def SegReg.legal (g : SegReg) (prot : Bool) (off : Word) (n : Nat) (write : Bool) : Bool :=
  (!prot || (g.valid && g.allows write)) && g.inLimit off n

/-- The exception of a segment violation: #SS(0) for SS, #GP(0) otherwise (R110). -/
def segExc (r : Sreg) : Exc := if r = .ss then excSS 0 else excGP 0

/-- The physical addresses of an access of `n` bytes at an offset of a segment: segment checks, then one translation per
page (R110). -/
def planSeg (g : SegReg) (e : Exc) (user : Bool) (off : Word) (n : Nat) (write : Bool) : M (List Word) := do
  let prot ← look State.protMode
  check (g.legal prot off n write) e
  planLinear (g.base + off) n write user

/-- The physical addresses of an access through a segment register at the current level (R110, R132). -/
def plan (r : Sreg) (off : Word) (n : Nat) (write : Bool) : M (List Word) := do
  let s ← get
  planSeg (s.seg r) (segExc r) s.userLevel off n write

/-- MemRead: `n` bytes at an offset of a segment (R12). -/
def memRead (r : Sreg) (off : Word) (n : Nat) : M (List Byte) := do
  let ps ← plan r off n false
  physRead ps

/-! ## Selectors and descriptors (R117 to R122) -/

/-- The selector is null: index and table indicator zero (R115). -/
def selNull (sel : HWord) : Bool := sel.extractLsb' 2 14 == 0

/-- The table indicator of a selector: true for the LDT (R117). -/
def selTi (sel : HWord) : Bool := sel.getLsbD 2

/-- The requested privilege level of a selector (R117). -/
def selRpl (sel : HWord) : BitVec 2 := sel.extractLsb' 0 2

/-- The selector with its RPL field replaced. -/
def withRpl (sel : HWord) (rpl : BitVec 2) : HWord := sel.extractLsb' 2 14 ++ rpl

/-- A descriptor: its two doublewords and the linear address it was read at (R119). -/
structure Desc where
  d0 : Word
  d1 : Word
  addr : Word
deriving DecidableEq, Repr

/-- S: a code or data segment (R119). -/
def Desc.s (d : Desc) : Bool := d.d1.getLsbD 12

/-- The type field (R120, R121). -/
def Desc.typ (d : Desc) : BitVec 4 := d.d1.extractLsb' 8 4

/-- DPL (R119). -/
def Desc.dpl (d : Desc) : BitVec 2 := d.d1.extractLsb' 13 2

/-- P, present (R119). -/
def Desc.present (d : Desc) : Bool := d.d1.getLsbD 15

/-- A code segment (R120). -/
def Desc.isCode (d : Desc) : Bool := d.s && d.d1.getLsbD 11

/-- A data segment (R120). -/
def Desc.isData (d : Desc) : Bool := d.s && !d.d1.getLsbD 11

/-- A conforming code segment (R120). -/
def Desc.conforming (d : Desc) : Bool := d.isCode && d.d1.getLsbD 10

/-- A writable data segment (R120). -/
def Desc.writableData (d : Desc) : Bool := d.isData && d.d1.getLsbD 9

/-- A readable code segment (R120). -/
def Desc.readableCode (d : Desc) : Bool := d.isCode && d.d1.getLsbD 9

/-- A system descriptor of a type (R121). -/
def Desc.isSystem (d : Desc) (t : BitVec 4) : Bool := !d.s && d.typ == t

/-- The base (R119). -/
def Desc.base (d : Desc) : Word := d.d1.extractLsb' 24 8 ++ d.d1.extractLsb' 0 8 ++ d.d0.extractLsb' 16 16

/-- The 20-bit limit field (R119). -/
def Desc.limitField (d : Desc) : BitVec 20 := d.d1.extractLsb' 16 4 ++ d.d0.extractLsb' 0 16

/-- The limit after granularity scaling (R119). -/
def Desc.limit (d : Desc) : Word :=
  bif d.d1.getLsbD 23 then d.limitField ++ 0xFFF#12 else d.limitField.setWidth 32

/-- The selector of a gate (R122). -/
def Desc.gateSel (d : Desc) : HWord := d.d0.extractLsb' 16 16

/-- The offset of an 80386 gate (R122). -/
def Desc.gateOff (d : Desc) : Word := d.d1.extractLsb' 16 16 ++ d.d0.extractLsb' 0 16

/-- The parameter count of a call gate (R122). -/
def Desc.gateCount (d : Desc) : Nat := (d.d1.extractLsb' 0 5).toNat

/-- The access rights the hidden part of a segment register takes from a descriptor, accessed (R36, R119, R126). A descriptor whose
reserved bit d1[21] is 1 is loaded as if it were 0 (log entry 58). -/
def Desc.rights (d : Desc) : Rights :=
  { present := d.present, dpl := d.dpl, s := d.s, code := d.d1.getLsbD 11, ce := d.d1.getLsbD 10, rw := d.d1.getLsbD 9,
    accessed := true, db := d.d1.getLsbD 22, gran := d.d1.getLsbD 23 }

/-- The segment register that a selector and its descriptor give (R36). -/
def Desc.toSeg (d : Desc) (sel : HWord) : SegReg :=
  { sel := sel, base := d.base, limit := d.limit, ar := d.rights, valid := true }

/-- The rights after no descriptor: AR = 0 (R36). -/
def Rights.none : Rights :=
  { present := false, dpl := 0, s := false, code := false, ce := false, rw := false, accessed := false, db := false,
    gran := false }

/-- A segment register holding a selector with no descriptor: a null selector, or one not validated yet (R115, R762). The rules say
of its hidden part only that it is invalid, AR = 0: base 0 and limit 0 are the model's choice (log entry 47). -/
def SegReg.invalid (sel : HWord) : SegReg :=
  { sel := sel, base := 0, limit := 0, ar := Rights.none, valid := false }

/-- The base a selector gives in Real Address Mode and Virtual 8086 Mode: selector * 16 (R111). -/
def realBase (sel : HWord) : Word := sel.setWidth 32 <<< 4

/-- A segment register loaded in Real Address Mode: base = selector * 16, limit and rights as they were (R111, D8; log
entry 16). -/
def SegReg.rebase (g : SegReg) (sel : HWord) : SegReg := { g with sel := sel, base := realBase sel, valid := true }

/-- A segment register loaded the Virtual 8086 way: base = selector * 16, limit FFFFh, read/write, DPL 3 (R36, R111, R578; log
entry 16). -/
def SegReg.v86 (sel : HWord) (code : Bool) : SegReg :=
  { sel := sel, base := realBase sel, limit := 0xFFFF, ar := { Rights.reset code with dpl := 3 }, valid := true }

/-- What a segment register holds after a load outside Protected Mode (R111). -/
def State.loadedReal (s : State) (r : Sreg) (sel : HWord) : SegReg :=
  bif s.v86Mode then SegReg.v86 sel (r == .cs) else (s.seg r).rebase sel

/-- The linear address of the descriptor a selector names, none beyond the limit of its table or with an invalid LDTR
(R118). -/
def descAddress (t : Tables) (sel : HWord) : Option Word :=
  let off : Word := (sel &&& 0xFFF8).setWidth 32
  if selTi sel then
    if t.ldtr.valid && decide (off.toNat + 7 ≤ t.ldtr.limit.toNat) then some (t.ldtr.base + off) else none
  else
    if off.toNat + 7 ≤ t.gdtr.limit.toNat then some (t.gdtr.base + off) else none

/-- The descriptor in eight bytes read at a linear address (R119). -/
def Desc.ofBytes (la : Word) (bs : List Byte) : Desc :=
  { d0 := wordOf (bs.take 4), d1 := wordOf (bs.drop 4), addr := la }

/-- FetchDescriptor: the descriptor a selector names, none when it is not within its table (R118). -/
def fetchDesc (sel : HWord) : M (Option Desc) := do
  let t ← look fun s => s.tables
  match descAddress t sel with
  | none => pure none
  | some la =>
    let bs ← sysRead la 8
    pure (some (Desc.ofBytes la bs))

/-- FetchDescriptor that raises an exception when the selector is not within its table (R118). -/
def needDesc (sel : HWord) (e : Exc) : M Desc := do
  let d ← fetchDesc sel
  match d with
  | some d => pure d
  | none => raise e

/-- Where the accessed bit of a code or data descriptor is to be set, nowhere when it is set already: the byte of the descriptor that
holds it, checked for the write (R126; log entry 56). -/
def planAccessed (d : Desc) : M (List Word) :=
  if d.d1.getLsbD 8 then pure [] else sysPlan (d.addr + 5) 1

/-- Set the accessed bit at its planned place, in the byte as it stands by then (R126; log entry 56). -/
def writeAccessed (ps : List Word) : M Unit := do
  let bs ← physRead ps
  physWrite ps (bs.map (· ||| 1))

/-- Set the accessed bit of a code or data descriptor in memory when it is clear (R126). -/
def setAccessed (d : Desc) : M Unit := do
  let ps ← planAccessed d
  writeAccessed ps

/-! ## Loading segment registers (R111, R123, R124) -/

/-- LoadDataSeg: what DS, ES, FS or GS holds after a load in Protected Mode (R123). -/
def loadDataSeg (sel : HWord) : M SegReg := do
  if selNull sel then pure (SegReg.invalid sel)
  else
    let cpl ← look State.cplNat
    let d ← needDesc sel (excGP sel)
    check (d.isData || d.readableCode) (excGP sel)
    check (d.conforming || (decide ((selRpl sel).toNat ≤ d.dpl.toNat) && decide (cpl ≤ d.dpl.toNat))) (excGP sel)
    check d.present (excNP sel)
    setAccessed d
    pure (d.toSeg sel)

/-- LoadSS: what SS holds after a load in Protected Mode (R124). -/
def loadStackSeg (sel : HWord) : M SegReg := do
  let cpl ← look fun s => s.cpl
  check (!selNull sel) (excGP 0)
  let d ← needDesc sel (excGP sel)
  check (selRpl sel == cpl) (excGP sel)
  check d.writableData (excGP sel)
  check (d.dpl == cpl) (excGP sel)
  check d.present (excSS sel)
  setAccessed d
  pure (d.toSeg sel)

/-- What a segment register holds after MOV, POP or a far-pointer load in the mode in force (R111, R123, R124, R251). -/
def loadSeg (r : Sreg) (sel : HWord) : M SegReg := do
  let s ← get
  if s.protMode then (if r = .ss then loadStackSeg sel else loadDataSeg sel)
  else pure (s.loadedReal r sel)

/-! ## The stack (R127, R128, R41) -/

/-- The stack pointer in use: ESP, or SP zero-extended (R41). -/
def stackPtr (big : Bool) (esp : Word) : Word := bif big then esp else (esp.setWidth 16).setWidth 32

/-- The stack pointer moved by a number, modulo its width; with a 16-bit stack the upper half of ESP stays (R41). -/
def moveSp (big : Bool) (esp : Word) (by_ : Word) : Word :=
  bif big then esp + by_ else setLow16 esp (esp.setWidth 16 + by_.setWidth 16)

/-- eSP loaded with a value: ESP, or with a 16-bit stack SP alone (R41, R509, R722). -/
def loadSp (big : Bool) (esp v : Word) : Word := bif big then v else setLow16 esp (v.setWidth 16)

/-- In Real Address Mode the push of `n` bytes would cross the end of the stack segment (R127, R746). -/
def pushCrosses (s : State) (esp : Word) (n : Nat) : Bool :=
  s.realMode && decide (0 < (stackPtr s.stack32 esp).toNat) && decide ((stackPtr s.stack32 esp).toNat < n)

/-- A stack slot of `n` bytes at a pointer is within the limit of the segment and allowed (R110, R127, R128). -/
def slotLegal (g : SegReg) (prot big : Bool) (n : Nat) (write : Bool) (esp : Word) : Bool :=
  g.legal prot (stackPtr big esp) n write

/-- There is room for `k` pushes of `n` bytes on a stack with pointer `esp`: each slot is within the limit, and the pointer wraps
between slots as Push has it (R127, R507, R509, R722). -/
def roomFor (g : SegReg) (prot big : Bool) (n : Nat) : Nat → Word → Bool
  | 0, _ => true
  | k + 1, esp =>
    let esp' := moveSp big esp (-(BitVec.ofNat 32 n))
    slotLegal g prot big n true esp' && roomFor g prot big n k esp'

/-- The `k` slots of `n` bytes from a stack pointer up are within the limit, each by itself: the pointer wraps between slots as Pop
has it (R128). -/
def slotsLegal (g : SegReg) (prot big : Bool) (n : Nat) : Nat → Word → Bool
  | 0, _ => true
  | k + 1, esp =>
    slotLegal g prot big n false esp && slotsLegal g prot big n k (moveSp big esp (BitVec.ofNat 32 n))

/-- Check the room for `k` pushes of `n` bytes, as a transfer does before it tests its target (R507, R508, R509, R722). -/
def checkRoom (g : SegReg) (big : Bool) (esp : Word) (n k : Nat) : M Unit := do
  let prot ← look State.protMode
  check (roomFor g prot big n k esp) (excSS 0)

/-- Plan one push of `n` bytes on a stack with pointer `esp`: the physical addresses, and the pointer after it (R127). -/
def planPush (g : SegReg) (big user : Bool) (e : Exc) (esp : Word) (n : Nat) : M (List Word × Word) := do
  let s ← get
  if pushCrosses s esp n then shutDown
  else
    let esp' := moveSp big esp (-(BitVec.ofNat 32 n))
    let ps ← planSeg g e user (stackPtr big esp') n true
    pure (ps, esp')

/-- Plan the pushes of several values of `n` bytes, first value first: where each value goes, and the pointer after the last
(R127, D6). -/
def planPushes (g : SegReg) (big user : Bool) (e : Exc) (n : Nat) : Word → List Word → M (List (List Word × Word) × Word)
  | esp, [] => pure ([], esp)
  | esp, v :: vs => do
    let (ps, esp') ← planPush g big user e esp n
    let (rest, last) ← planPushes g big user e n esp' vs
    pure ((ps, v) :: rest, last)

/-- Store planned values of `n` bytes. -/
def storeAll (n : Nat) : List (List Word × Word) → M Unit
  | [] => pure ()
  | (ps, v) :: rest => do
    physWrite ps (bytesOf n v)
    storeAll n rest

/-- Plan the pushes of several values of `n` bytes on the current stack (R127). -/
def planStack (n : Nat) (vs : List Word) : M (List (List Word × Word) × Word) := do
  let s ← get
  planPushes (s.seg .ss) s.stack32 s.userLevel (excSS 0) n s.regs.esp vs

/-- Set ESP. -/
def setEsp (v : Word) : M Unit := update fun s => s.withRegs { s.regs with esp := v }

/-- Push several values of `n` bytes, all checked before any is stored (R127, D6). -/
def pushAll (n : Nat) (vs : List Word) : M Unit := do
  let (stores, esp) ← planStack n vs
  storeAll n stores
  setEsp esp

/-- Read `n` bytes of the stack at a distance above the stack pointer, with wrap (R128). -/
def stackRead (above n : Nat) : M Word := do
  let s ← get
  let bs ← memRead .ss (stackPtr s.stack32 (moveSp s.stack32 s.regs.esp (BitVec.ofNat 32 above))) n
  pure (wordOf bs)

/-- Release `n` bytes of the stack (R128). -/
def releaseStack (n : Word) : M Unit :=
  update fun s => s.withRegs { s.regs with esp := moveSp s.stack32 s.regs.esp n }

/-- The top `k` slots of `n` bytes of the stack are within the stack segment's limit, each as Pop reads it (R128, R260; log entry
33). -/
def stackSlots (n k : Nat) : M Unit := do
  let s ← get
  check (slotsLegal (s.seg .ss) s.protMode s.stack32 n k s.regs.esp) (excSS 0)

/-- The top `n` bytes of the stack are within the stack segment's limit as one block, without wrap (R112, R515, R578; log entry
33). -/
def stackBlock (n : Nat) : M Unit := do
  let s ← get
  check ((s.seg .ss).legal s.protMode (stackPtr s.stack32 s.regs.esp) n false) (excSS 0)

/-- Copy bytes from planned addresses to planned addresses, one slot after the other, each from what stands there by then
(R509, R540). -/
def copyAll : List (List Word × List Word) → M Unit
  | [] => pure ()
  | (rd, wr) :: rest => do
    let bs ← physRead rd
    physWrite wr bs
    copyAll rest

end Sys2Proof.Machine
end

