-- ==== Sys2Proof/Machine/Task.lean ====
section
/-!
DEFINITION. The task state segment and task switching (20_memory.md R137; 60_exceptions.md R753, R760 to R764).
-/

namespace Sys2Proof.Machine

/-- What caused a task switch (R760). -/
inductive TaskKind where
  | jmp
  | call
  | int
  | iret
deriving DecidableEq, Repr

/-- The switch nests the new task in the old one: CALL and INT (R762). -/
def TaskKind.nests : TaskKind → Bool
  | .call | .int => true
  | _ => false

/-- The switch leaves the old task not busy: JMP and IRET (R761). -/
def TaskKind.leaves : TaskKind → Bool
  | .jmp | .iret => true
  | _ => false

/-- A doubleword whose low half is a selector and whose upper half is undefined (U5; log entry 9). -/
def selWord (sel : HWord) : M Word := do
  let high ← drawBits 16
  pure (high ++ sel)

/-- The doublewords EIP to GS that a task switch saves at offsets 20h to 5Ch (R137, R761): `csel` is the CS selector, which is not
that of CS where a double fault switches tasks (R710; log entry 29). -/
def taskImage (s : State) (csel : HWord) (eip : Word) (flags : Flags) : M (List Word) := do
  let es ← selWord s.segs.es.sel
  let cs ← selWord csel
  let ss ← selWord s.segs.ss.sel
  let ds ← selWord s.segs.ds.sel
  let fs ← selWord s.segs.fs.sel
  let gs ← selWord s.segs.gs.sel
  let r := s.regs
  pure [eip, flags.toWord, r.eax, r.ecx, r.edx, r.ebx, r.esp, r.ebp, r.esi, r.edi, es, cs, ss, ds, fs, gs]

/-- The bytes of a list of doublewords (R102). -/
def dwordBytes : List Word → List Byte
  | [] => []
  | v :: vs => bytesOf 4 v ++ dwordBytes vs

/-- The doubleword at an offset of the bytes of a task state segment (R137). -/
def tssDword (bs : List Byte) (off : Nat) : Word := wordOf ((bs.drop off).take 4)

/-- The selector at an offset of the bytes of a task state segment (R137). -/
def tssSel (bs : List Byte) (off : Nat) : HWord := hwordOf (bs.drop off)

/-- The physical address of the access-rights byte of a descriptor, byte 5, checked for the write of the busy bit (R119, R121, R647, R761).
That no other byte of the descriptor is accessed for it is the model's choice (DESIGN CHOICE: log entry 61). -/
def planBusy (la : Word) : M (List Word) := sysPlan (la + 5) 1

/-- Set or clear the busy bit of a descriptor at a planned address, in that byte alone and as it stands by then, or nothing where none is
planned (R121, R647, R761; log entry 61). -/
def writeBusy (ps : List Word) (busy : Bool) : M Unit := do
  let bs ← physRead ps
  physWrite ps (bs.map fun b => bif busy then b ||| 0x02 else b &&& 0xFD)

/-- The state that steps 4 and 5 leave, from the bytes of the new task state segment (R762). CPL is 3 at once where the new task is
in Virtual 8086 Mode (R37), else that of the old task until CS is loaded (log entry 30). -/
def enterTask (s : State) (tsel : HWord) (new : Desc) (bs : List Byte) (nest : Bool) : State :=
  let fl := Flags.ofWord (tssDword bs 0x24)
  let seg (off : Nat) := SegReg.invalid (tssSel bs off)
  { s with
    regs := { eax := tssDword bs 0x28, ecx := tssDword bs 0x2C, edx := tssDword bs 0x30, ebx := tssDword bs 0x34,
              esp := tssDword bs 0x38, ebp := tssDword bs 0x3C, esi := tssDword bs 0x40, edi := tssDword bs 0x44 }
    eip := tssDword bs 0x20
    flags := { fl with nt := nest || fl.nt }
    cpl := bif fl.vm then 3 else s.cpl
    segs := { es := seg 0x48, cs := seg 0x4C, ss := seg 0x50, ds := seg 0x54, fs := seg 0x58, gs := seg 0x5C }
    cr0 := { s.cr0 with ts := true }
    cr3 := (tssDword bs 0x1C).extractLsb' 12 20
    tlb := []
    tables := { s.tables with
      tr := { sel := tsel, base := new.base, limit := new.limit, typ := 0xB }
      ldtr := { sel := tssSel bs 0x60, base := 0, limit := 0, valid := false } }
    dregs := { s.dregs with dr7 := { s.dregs.dr7 with enables := s.dregs.dr7.enables &&& 0xAA, le := false } } }

/-- An exception of the new task's context (R764), in the level that CR0's mode has. -/
def inNewTask {α : Type} (m : M α) : M α := fun s =>
  match m s with
  | .error (.exc e s') => .error (.late e s'.settled)
  | r => r

/-- Set the value of a segment register. -/
def putSeg (r : Sreg) (v : SegReg) : M Unit := update fun s => s.setSeg r v

/-- Step 6, the LDT: null, or a present LDT descriptor in the GDT (R762). -/
def taskLdt : M Unit := do
  let t ← look fun s => s.tables
  if selNull t.ldtr.sel then pure ()
  else
    check (!selTi t.ldtr.sel) (excTS t.ldtr.sel)
    let d ← needDesc t.ldtr.sel (excTS t.ldtr.sel)
    check (d.isSystem 2 && d.present) (excTS t.ldtr.sel)
    update fun s => s.withTables
      { s.tables with ldtr := { sel := t.ldtr.sel, base := d.base, limit := d.limit, valid := true } }

/-- Step 6, all six segment registers the Virtual 8086 way (R762, R111). -/
def taskV86 : M Unit :=
  update fun s =>
    let g := s.segs
    (s.withSegs { es := SegReg.v86 g.es.sel false, cs := SegReg.v86 g.cs.sel true, ss := SegReg.v86 g.ss.sel false,
                  ds := SegReg.v86 g.ds.sel false, fs := SegReg.v86 g.fs.sel false,
                  gs := SegReg.v86 g.gs.sel false }).withCpl 3

/-- Step 6, CS in Protected Mode (R762). -/
def taskCs : M Unit := do
  let sel ← look fun s => s.segs.cs.sel
  check (!selNull sel) (excTS sel)
  let d ← needDesc sel (excTS sel)
  check d.isCode (excTS sel)
  check (bif d.conforming then decide (d.dpl.toNat ≤ (selRpl sel).toNat) else d.dpl == selRpl sel) (excTS sel)
  check d.present (excNP sel)
  setAccessed d
  putSeg .cs (d.toSeg sel)
  update fun s => s.withCpl (selRpl sel)

/-- Step 6, SS in Protected Mode (R762). -/
def taskSs : M Unit := do
  let s ← get
  let sel := s.segs.ss.sel
  check (!selNull sel) (excTS sel)
  let d ← needDesc sel (excTS sel)
  check d.writableData (excTS sel)
  check (selRpl sel == s.cpl && d.dpl == s.cpl) (excTS sel)
  check d.present (excSS sel)
  setAccessed d
  putSeg .ss (d.toSeg sel)

/-- Step 6, a data segment register in Protected Mode (R762, R123). -/
def taskData (r : Sreg) : M Unit := do
  let s ← get
  let sel := (s.seg r).sel
  if selNull sel then pure ()
  else
    let d ← needDesc sel (excTS sel)
    check (d.isData || d.readableCode) (excTS sel)
    check (d.conforming || (decide ((selRpl sel).toNat ≤ d.dpl.toNat) && decide (s.cplNat ≤ d.dpl.toNat))) (excTS sel)
    check d.present (excNP sel)
    setAccessed d
    putSeg r (d.toSeg sel)

/-- Step 6: validate and load the descriptors of the new task (R762). -/
def taskSegments : M Unit := do
  taskLdt
  let vm ← look fun s => s.flags.vm
  if vm then taskV86
  else
    taskCs
    taskSs
    taskData .ds
    taskData .es
    taskData .fs
    taskData .gs

/-- TaskSwitch up to the loaded segment registers (R760 to R762): `cs`, `eip` and `flags` are what the old task saves. The old
task's save area, the busy bits that this kind of switch writes, the new task state segment and the back link are all translated, in
the order of the steps, before any of them is written (log entry 30); then each access is made in that order (R146). With a null
selector in TR no task's busy bit is cleared (log entry 57); else JMP and IRET clear it at its place in the GDT, with no check of
the descriptor there (log entry 61). All these accesses go through the page mapping of the old task, those of fields after CR3 and of the
back link too; only the descriptors of step 6 are read through the new CR3 (DESIGN CHOICE: log entry 62). The new task state segment is
read whole, bytes 0 to 67h, though steps 5 and 6 name fields from 1Ch to 64h only (log entry 52). Answers the T bit of the new task. -/
def taskSwitch (tsel : HWord) (new : Desc) (kind : TaskKind) (cs : HWord) (eip : Word) (flags : Flags) : M Bool := do
  check (decide (0x67 ≤ new.limit.toNat)) (excTS tsel)
  let s ← get
  let save ← sysPlan (s.tables.tr.base + 0x20) 64
  let oldBusy ← (bif kind.leaves && !selNull s.tables.tr.sel then planBusy (s.tables.gdtr.base + (s.tables.tr.sel &&& 0xFFF8).setWidth 32) else pure [])
  let newBusy ← (bif kind == .iret then pure [] else planBusy new.addr)
  let newBytes ← planLinear new.base 104 false false
  let link ← (bif kind.nests then sysPlan new.base 2 else pure [])
  let image ← taskImage s cs eip flags
  physWrite save (dwordBytes image)
  writeBusy oldBusy false
  writeBusy newBusy true
  let bs ← physRead newBytes
  physWrite link (bytesOf 2 (s.tables.tr.sel.setWidth 32))
  update fun s => enterTask s tsel new bs kind.nests
  inNewTask taskSegments
  pure ((tssDword bs 0x64).getLsbD 0)

/-- The end of a task switch: EIP within the limit of CS, the debug trap of the T bit, and the level that CR0's mode has (R753,
R762). -/
def finishTask (trap : Bool) : M Unit := inNewTask do
  let s ← get
  check (decide (s.eip.toNat ≤ s.segs.cs.limit.toNat)) (excGP 0)
  update fun s => ((s.withPend { s.pend with bt := s.pend.bt || trap }).flushQueue).settled

/-- A selector that must name an available 80386 task state segment in the GDT; an 80286 one is declined (R510, R724, D18). -/
def needTss (tsel : HWord) : M Desc := do
  check (!selTi tsel && !selNull tsel) (excGP tsel)
  let d ← needDesc tsel (excGP tsel)
  (if d.isSystem 1 || d.isSystem 3 then refuse .format286 else pure ())
  check (d.isSystem 9) (excGP tsel)
  check d.present (excNP tsel)
  pure d

end Sys2Proof.Machine
end

