-- ==== Sys2Proof/Machine/Ops.lean ====
section
/-!
DEFINITION. The shared operations of the machine: ports, taking an exception or interrupt (60_exceptions.md R721 to R730),
the end of an instruction, control transfers within and between segments, and the return from an exception
(47_interrupt.md R578).
-/

namespace Sys2Proof.Machine

/-! ## Ports (R104, R138) -/

/-- IoCheck: IOPL and the permission bitmap of the task state segment (R138). -/
def ioCheck (port n : Nat) : M Unit := do
  let s ← get
  if s.realMode || (s.protMode && decide (s.cplNat ≤ s.ioplNat)) then pure ()
  else
    let tr := s.tables.tr
    check (tr.typ == 9 || tr.typ == 0xB) (excGP 0)
    let map ← sysRead (tr.base + 0x66) 2
    let byteOff := (hwordOf map).toNat + port / 8
    check (decide (byteOff + 1 ≤ tr.limit.toNat)) (excGP 0)
    let bits ← sysRead (tr.base + BitVec.ofNat 32 byteOff) 2
    check (((hwordOf bits) >>> (port % 8)).setWidth n == 0) (excGP 0)

/-- IoRead: the device answers a free value of `n` bytes (R104; log entry 22). -/
def ioRead (port n : Nat) : M Word := do
  let v ← drawBits (8 * n)
  update fun s => s.withIo (.read port n (v.setWidth 32) :: s.io)
  pure (v.setWidth 32)

/-- IoWrite: the device takes a value of `n` bytes (R104; log entry 22). -/
def ioWrite (port n : Nat) (v : Word) : M Unit :=
  update fun s => s.withIo (.write port n v :: s.io)

/-! ## Stacks of inner levels (R509) -/

/-- The stack of privilege level `n` from the current task state segment: ESP, the checked SS, and where the accessed bit of its
descriptor is to be set once SS is loaded (R509, R126). -/
def innerStack (n : BitVec 2) : M (Word × SegReg × List Word) := do
  let tr ← look fun s => s.tables.tr
  check (decide (4 + 8 * n.toNat + 5 ≤ tr.limit.toNat)) (excTS tr.sel)
  let sp ← sysRead (tr.base + BitVec.ofNat 32 (4 + 8 * n.toNat)) 4
  let ss ← sysRead (tr.base + BitVec.ofNat 32 (8 + 8 * n.toNat)) 2
  let sel := hwordOf ss
  check (!selNull sel) (excTS sel)
  let d ← needDesc sel (excTS sel)
  check (selRpl sel == n && d.dpl == n && d.writableData) (excTS sel)
  check d.present (excSS sel)
  let acc ← planAccessed d
  pure (wordOf sp, d.toSeg sel, acc)

/-! ## Taking an exception or interrupt (R721 to R724) -/

/-- The kind of an event that is taken through the interrupt table (R722). -/
inductive EventKind where
  | software
  | exception
  | external
deriving DecidableEq, Repr

/-- An event to take (R721, R722): the vector, its kind, the error code, the EIP saved, the EIP saved when the delivery itself
raises an exception, whether the pushed image of EFLAGS has RF set (R755), and the CS selector pushed where it is not that
of CS (R710). -/
structure Event where
  vector : Byte
  kind : EventKind
  code : Option HWord
  ret : Word
  faultRet : Word
  rf : Bool
  cs : Option HWord
deriving DecidableEq, Repr

/-- What every handler starts with: no prefix, no shadow, running, an empty prefetch queue, no instruction to go on with
(R61, R62, R728). -/
def State.atHandler (s : State) : State :=
  ((((s.withPfx Prefixes.empty).flushQueue).inOwnMode).withHeld none).withPend
    { s.pend with shadow := .none, activity := .running }

/-- GD is cleared on entry to the handler of a debug exception (R754); an entry through vector 1 by INT 1 or INTR leaves it (log
entry 55). -/
def State.clearGd (s : State) (ev : Event) : State :=
  if ev.vector = 1 ∧ ev.kind = .exception then
    s.withDebug { s.dregs with dr7 := { s.dregs.dr7 with gd := false } }
  else s

/-- Entry in Real Address Mode (R721). -/
def enterReal (ev : Event) : M Unit := do
  let s ← get
  let v := ev.vector.toNat
  check (decide (v * 4 + 3 ≤ s.tables.idtr.limit.toNat)) (excGP 0)
  let entry ← sysRead (s.tables.idtr.base + BitVec.ofNat 32 (v * 4)) 4
  let cs := ev.cs.getD s.segs.cs.sel
  pushAll 2 [s.flags.toHWord.setWidth 32, cs.setWidth 32, ev.ret]
  update fun t =>
    ((((t.withFlags { t.flags with intf := false, tf := false, rf := t.flags.rf && ev.kind != .software }).setSeg .cs
      ((t.seg .cs).rebase (hwordOf (entry.drop 2)))).withEip ((hwordOf entry).setWidth 32)).atHandler).clearGd ev

/-- EFLAGS after entry through a gate: TF, NT, VM, RF cleared, IF too through an interrupt gate (R722). -/
def Flags.afterGate (f : Flags) (interruptGate : Bool) : Flags :=
  { f with tf := false, nt := false, vm := false, rf := false, intf := f.intf && !interruptGate }

/-- The doublewords an entry pushes last: EFLAGS, CS, EIP and the error code (R722). -/
def frameTail (s : State) (ev : Event) : M (List Word) := do
  let cs ← selWord (ev.cs.getD s.segs.cs.sel)
  let image := ({ s.flags with rf := s.flags.rf || ev.rf } : Flags).toWord
  match ev.code with
  | none => pure [image, cs, ev.ret]
  | some c => do
    let code ← selWord c
    pure [image, cs, ev.ret, code]

/-- The doublewords an entry to an inner level pushes first: from Virtual 8086 Mode GS, FS, DS, ES, then the old SS and ESP
(R722, R723). -/
def frameHead (s : State) : M (List Word) := do
  let ss ← selWord s.segs.ss.sel
  if s.flags.vm then do
    let gs ← selWord s.segs.gs.sel
    let fs ← selWord s.segs.fs.sel
    let ds ← selWord s.segs.ds.sel
    let es ← selWord s.segs.es.sel
    pure [gs, fs, ds, es, ss, s.regs.esp]
  else pure [ss, s.regs.esp]

/-- DS, ES, FS and GS loaded with the null selector on entry from Virtual 8086 Mode (R723). -/
def Segs.nullData (g : Segs) : Segs :=
  { g with ds := SegReg.invalid 0, es := SegReg.invalid 0, fs := SegReg.invalid 0, gs := SegReg.invalid 0 }

/-- SameLevelEntry (R722): the frame on the current stack, CS and EIP from the gate; the room, then the target, then the pushes, then
the load of CS with its accessed bit (R146). -/
def sameLevelEntry (ev : Event) (g c : Desc) : M Unit := do
  let s ← get
  let frame ← frameTail s ev
  checkRoom (s.seg .ss) s.stack32 s.regs.esp 4 frame.length
  check (decide (g.gateOff.toNat ≤ c.limit.toNat)) (excGP 0)
  let (stores, esp) ← planStack 4 frame
  let acc ← planAccessed c
  storeAll 4 stores
  writeAccessed acc
  update fun t =>
    (((((t.withRegs { t.regs with esp := esp }).setSeg .cs (c.toSeg (withRpl g.gateSel s.cpl))).withEip g.gateOff).mapFlags
      (Flags.afterGate · (g.typ == 0xE))).atHandler).clearGd ev

/-- InnerEntry (R722, R723): the frame on the stack of the inner level; the room, then the target, then the load of SS, the pushes and
the load of CS, each load with its accessed bit (R146). -/
def innerEntry (ev : Event) (g c : Desc) : M Unit := do
  let s ← get
  let (sp, ss, ssAcc) ← innerStack c.dpl
  let head ← frameHead s
  let tail ← frameTail s ev
  let start := loadSp ss.ar.db s.regs.esp sp
  checkRoom ss ss.ar.db start 4 (head ++ tail).length
  check (decide (g.gateOff.toNat ≤ c.limit.toNat)) (excGP 0)
  let (stores, esp) ← planPushes ss ss.ar.db false (excSS 0) 4 start (head ++ tail)
  let csAcc ← planAccessed c
  writeAccessed ssAcc
  storeAll 4 stores
  writeAccessed csAcc
  update fun t =>
    let segs := bif s.flags.vm then t.segs.nullData else t.segs
    (((((((t.withSegs (segs.set .ss ss)).withRegs { t.regs with esp := esp }).withCpl c.dpl).setSeg .cs
      (c.toSeg (withRpl g.gateSel c.dpl))).withEip g.gateOff).mapFlags (Flags.afterGate · (g.typ == 0xE))).atHandler).clearGd ev

/-- Entry through a task gate: the task switch with the checks and the trap that end it (R753, R762), then the error code on the
stack of the new task (R724; log entry 30). -/
def taskGateEntry (ev : Event) (g : Desc) : M Unit := do
  let s ← get
  let new ← needTss g.gateSel
  let trap ← taskSwitch g.gateSel new .int (ev.cs.getD s.segs.cs.sel) ev.ret s.flags
  finishTask trap
  (match ev.code with
   | none => pure ()
   | some c => inNewTask do
     let code ← selWord c
     pushAll 4 [code])
  update fun t => t.atHandler.clearGd ev

/-- Entry through a code segment's interrupt or trap gate: the checks of the target, those of an entry from Virtual 8086 Mode after
them, and the choice of the level (R722, R723). -/
def gateEntry (ev : Event) (g : Desc) : M Unit := do
  let s ← get
  let csel := g.gateSel
  check (!selNull csel) (excGP 0)
  let c ← needDesc csel (excGP csel)
  check (c.isCode && decide (c.dpl.toNat ≤ s.cplNat)) (excGP csel)
  check c.present (excNP csel)
  check (!s.v86Mode || (!c.conforming && c.dpl == 0)) (excGP csel)
  if !c.conforming && decide (c.dpl.toNat < s.cplNat) then innerEntry ev g c else sameLevelEntry ev g c

/-- Entry in Protected Mode and Virtual 8086 Mode (R722 to R724). -/
def enterProt (ev : Event) : M Unit := do
  let s ← get
  let v := ev.vector.toNat
  check (decide (v * 8 + 7 ≤ s.tables.idtr.limit.toNat)) (excIdt 13 ev.vector)
  let la := s.tables.idtr.base + BitVec.ofNat 32 (v * 8)
  let bs ← sysRead la 8
  let g := Desc.ofBytes la bs
  check (!g.s && (g.typ == 5 || g.typ == 6 || g.typ == 7 || g.typ == 0xE || g.typ == 0xF)) (excIdt 13 ev.vector)
  check (ev.kind != .software || decide (s.cplNat ≤ g.dpl.toNat)) (excIdt 13 ev.vector)
  check g.present (excIdt 11 ev.vector)
  if g.typ = 5 then taskGateEntry ev g
  else if g.typ = 6 ∨ g.typ = 7 then refuse .format286
  else gateEntry ev g

/-- Taking an exception or interrupt: what is saved, what the mode and the status become, where EIP goes (R721, R722). -/
def enter (ev : Event) : M Unit := do
  let s ← get
  if s.realMode then enterReal ev else enterProt ev

/-! ## Exceptions during delivery (R730) -/

/-- The classes of R730. -/
inductive ExcClass where
  | benign
  | contributory
  | pageFault
deriving DecidableEq, Repr

/-- The class of a vector (R730). -/
def vectorClass (v : Byte) : ExcClass :=
  if v = 14 then .pageFault
  else if v = 0 ∨ v = 10 ∨ v = 11 ∨ v = 12 ∨ v = 13 then .contributory
  else .benign

/-- The class of an event; every interrupt is benign (R730). -/
def Event.cls (ev : Event) : ExcClass := if ev.kind = .exception then vectorClass ev.vector else .benign

/-- Whether a second exception while delivering a first gives a double fault (R730). -/
def doubleFaults (first second : ExcClass) : Bool :=
  match first, second with
  | .contributory, .contributory => true
  | .pageFault, .contributory => true
  | .pageFault, .pageFault => true
  | _, _ => false

/-- The error code of a second exception: EXT set unless the first is a software interrupt; #PF has its own format
(R715, R730; log entry 29). -/
def Event.secondCode (ev : Event) (e : Exc) : Option HWord :=
  if ev.kind = .software ∨ e.vector = 14 then e.code else e.code.map (· ||| 1)

/-- What is left of the state after an instruction or a delivery that an exception ends: as before it, but for memory (accessed,
dirty bits), the TLB, CR2, the debug registers, and the model's own counters (R712). -/
def State.abandon (s s1 : State) : State :=
  (((((s.withMem s1.mem).withTlb s1.tlb).withCr2 s1.cr2).withDebug s1.dregs).withDraws s1.draws).withStale s1.fetch.stale

/-- Shutdown: the processor stops for good (R746). -/
def State.shutDown (s : State) : State := (s.withPfx Prefixes.empty).withActivity .shutdown

/-- The double fault: vector 8, error code 0, a saved CS:EIP that is not meaningful and free (R710, R730; log entry 29). -/
def doubleFault (s : State) : Event × State :=
  ({ vector := 8, kind := .exception, code := some 0, ret := Config.freeBits 32 s.draws,
     faultRet := Config.freeBits 32 s.draws, rf := false, cs := some (Config.freeBits 16 (s.draws + 1)) },
   s.withDraws (s.draws + 2))

/-- What is delivered after an exception while delivering a first, with return EIP `ret` (R730); none for shutdown (R746). -/
def nextEvent (ev : Event) (e : Exc) (ret : Word) (s : State) : Option (Event × State) :=
  if ev.kind = .exception ∧ ev.vector = 8 then none
  else if doubleFaults ev.cls (vectorClass e.vector) then some (doubleFault s)
  else some ({ vector := e.vector, kind := .exception, code := ev.secondCode e, ret := ret, faultRet := ret, rf := true,
               cs := none }, s)

/-- Deliver an event, and, in the mode that CR0 gives, whatever exceptions its delivery raises (R730, R746, R800). No chain of them is
longer than five. -/
def deliver : Nat → Event → State → Host.Outcome State Fault Refusal
  | 0, _, s => .next s.shutDown
  | fuel + 1, ev, s =>
    match enter ev s with
    | .ok (_, s') => .next s'
    | .error (.exc e s1) =>
      match nextEvent ev e ev.faultRet (s.abandon s1) with
      | none => .next (s.abandon s1).shutDown
      | some (ev', s') => deliver fuel ev' s'.inOwnMode
    | .error (.late e s1) =>
      match nextEvent ev e s1.eip s1 with
      | none => .next s1.shutDown
      | some (ev', s') => deliver fuel ev' s'.inOwnMode
    | .error (.shutdown s1) => .next (s.abandon s1).shutDown
    | .error (.fault f) => .fault f
    | .error (.refuse r) => .refused r

/-- How many deliveries a chain can have: one benign, one contributory, one page fault, one double fault, and one more
(R730). -/
def chainLength : Nat := 5

/-- Take an exception or an interrupt from outside (R721 to R730), in the mode that CR0 gives (R800). -/
def take (ev : Event) (s : State) : Host.Outcome State Fault Refusal := deliver chainLength ev s.inOwnMode

/-- Take the interrupt of INT n, INT 3 or INTO: the entry is the instruction's own effect, with the semantics the instruction has
(R570 to R572, R800; log entry 15). -/
def takeSoftware (ev : Event) (s : State) : Host.Outcome State Fault Refusal := deliver chainLength ev s

/-- The event of an exception raised by the instruction that starts at `start`: a fault saves the address of its first byte;
the coprocessor segment overrun, an abort, that of the next instruction (R701, R711, R755). -/
def Exc.event (e : Exc) (s : State) : Event :=
  let overrun := e.vector == 9
  let ret := bif overrun then s.eip else s.fetch.start
  { vector := e.vector, kind := .exception, code := e.code, ret := ret, faultRet := ret, rf := !overrun, cs := none }

/-- The event of INT n, INT 3, INTO: a trap that saves the next instruction's address (R570 to R572, R701). -/
def softwareEvent (n : Byte) (s : State) : Event :=
  { vector := n, kind := .software, code := none, ret := s.eip, faultRet := s.fetch.start, rf := false, cs := none }

/-! ## The end of an instruction -/

/-- How an instruction ends: whether RF is left as it is, whether the single-step trap is noted when TF was set at the start
(R752, R755), and whether the same instruction goes on at the next step (R452, R611). -/
structure Ending where
  keepRf : Bool
  step : Bool
  again : Bool
deriving DecidableEq, Repr

/-- The end of most instructions: RF cleared, the step noted. -/
def Ending.plain : Ending := { keepRf := false, step := true, again := false }

/-- The end of IRET, POPF and task switches: RF is left as loaded (R755). -/
def Ending.loadedRf : Ending := { keepRf := true, step := true, again := false }

/-- An iteration of a repeated string instruction that is not the last: RF stays for the rest of the instruction, and the
single-step trap is taken (R452, R752). -/
def Ending.iterate : Ending := { keepRf := true, step := true, again := true }

/-- WAIT that still waits: the instruction has not completed (R611). -/
def Ending.wait : Ending := { keepRf := true, step := false, again := true }

/-- The state after an instruction that began in `s0`: no prefixes, the semantics of the mode in force, the instruction kept where it
goes on, RF cleared, the single-step trap noted when TF was set at the start (R752, R755). -/
def State.retire (s s0 : State) (fin : Ending) : State :=
  ((((s.withPfx Prefixes.empty).inOwnMode).withHeld (bif fin.again then s.fetch.held else none)).mapFlags
    fun f => { f with rf := f.rf && fin.keepRf }).withPend { s.pend with bs := s.pend.bs || (s0.flags.tf && fin.step) }

/-- The outcome of an instruction's meaning: the next state, or the exception taken (R14, R701, R764). -/
def conclude (s0 : State) (r : Except Stop (Ending × State)) : Host.Outcome State Fault Refusal :=
  match r with
  | .ok (fin, s) => .next (s.retire s0 fin)
  | .error (.exc e s1) => take (e.event s0) (s0.abandon s1)
  | .error (.late e s1) => take { e.event s1 with ret := s1.eip, faultRet := s1.eip } s1
  | .error (.shutdown s1) => .next (s0.abandon s1).shutDown
  | .error (.fault f) => .fault f
  | .error (.refuse r) => .refused r

/-- Run a meaning that ends in one of several ways. -/
def runEnding (body : M Ending) (s : State) : Host.Outcome State Fault Refusal := conclude s (body s)

/-- Run a meaning that ends plainly. -/
def run (body : M Unit) (s : State) : Host.Outcome State Fault Refusal :=
  conclude s ((do body; pure Ending.plain : M Ending) s)

/-- EIP goes back to the first byte of the instruction, the address an event before the next step saves (R452, R611). -/
def rewind : M Unit := update fun s => s.withEip s.fetch.start

/-! ## Control transfers (R500 to R510) -/

/-- A jump within the code segment: EIP and a flushed queue (R61). -/
def jumpTo (target : Word) : M Unit := update fun s => (s.withEip target).flushQueue

/-- A target offset at the operand size: 16 bits zero-extended, or 32 (R33). -/
def sizeTarget (is32 : Bool) (t : Word) : Word := bif is32 then t else t &&& 0xFFFF

/-- The target must be within the limit of CS (R500). -/
def checkTarget (t : Word) : M Unit := do
  let limit ← look fun s => s.segs.cs.limit
  check (decide (t.toNat ≤ limit.toNat)) (excGP 0)

/-- RelTarget: the target of a relative displacement, checked (R500). -/
def relTarget (disp : Word) : M Word := do
  let s ← get
  let t := sizeTarget s.op32 (s.eip + disp)
  checkTarget t
  pure t

/-- Load CS and EIP (R125). -/
def farJump (cs : SegReg) (eip : Word) : M Unit := update fun s => ((s.setSeg .cs cs).withEip eip).flushQueue

/-- The far transfers that R506 dispatches: JMP and CALL. -/
inductive FarKind where
  | jmp
  | call
deriving DecidableEq, Repr

/-- The task switch a far transfer makes (R510). -/
def FarKind.task : FarKind → TaskKind
  | .jmp => .jmp
  | .call => .call

/-- Plan the return address of a far CALL, CS then EIP, each of `n` bytes (R507, R508, R512, U5). -/
def planReturn (n : Nat) : M (List (List Word × Word) × Word) := do
  let s ← get
  let cs ← selWord s.segs.cs.sel
  planStack n [cs, s.eip]

/-- Far JMP and CALL in Real Address Mode and Virtual 8086 Mode (R503, R512). -/
def farReal (sel : HWord) (off : Word) (kind : FarKind) : M Unit := do
  let s ← get
  check (decide (off.toNat ≤ 0xFFFF)) (excGP 0)
  (match kind with
   | .jmp => pure ()
   | .call => do
     let (stores, esp) ← planReturn s.opWidth.bytes
     storeAll s.opWidth.bytes stores
     setEsp esp)
  farJump (s.loadedReal .cs sel) off

/-- The end of a transfer to a code segment at the same level: for a CALL the room for its return address, then the target, then
the pushes, CS with RPL = CPL and its accessed bit, EIP (R507, R508, R146). -/
def enterCode (sel : HWord) (c : Desc) (off : Word) (n : Nat) (kind : FarKind) : M Unit := do
  let s ← get
  (match kind with
   | .jmp => pure ()
   | .call => checkRoom (s.seg .ss) s.stack32 s.regs.esp n 2)
  check (decide (off.toNat ≤ c.limit.toNat)) (excGP 0)
  let (stores, esp) ← (match kind with
    | .jmp => pure ([], s.regs.esp)
    | .call => planReturn n)
  let acc ← planAccessed c
  storeAll n stores
  writeAccessed acc
  setEsp esp
  farJump (c.toSeg (withRpl sel s.cpl)) off

/-- CodeSegTransfer (R507). -/
def codeTransfer (sel : HWord) (d : Desc) (off : Word) (kind : FarKind) : M Unit := do
  let s ← get
  check (bif d.conforming then decide (d.dpl.toNat ≤ s.cplNat)
    else decide ((selRpl sel).toNat ≤ s.cplNat) && d.dpl == s.cpl) (excGP sel)
  check d.present (excNP sel)
  enterCode sel d (sizeTarget s.op32 off) s.opWidth.bytes kind

/-- Plan the copies of the `x` doublewords of parameters, last parameter first, so that their order stays: where each is read on the
stack of `s`, at its level, and where it is pushed on the new stack (R509; log entry 33). -/
def planParams (s : State) (ss : SegReg) : Nat → Word → M (List (List Word × List Word) × Word)
  | 0, esp => pure ([], esp)
  | x + 1, esp => do
    let old := moveSp s.stack32 s.regs.esp (BitVec.ofNat 32 (4 * x))
    let rd ← planSeg (s.seg .ss) (excSS 0) s.userLevel (stackPtr s.stack32 old) 4 false
    let (wr, esp') ← planPush ss ss.ar.db false (excSS 0) esp 4
    let (rest, last) ← planParams s ss x esp'
    pure ((rd, wr) :: rest, last)

/-- InnerCall: CALL through a call gate to a more privileged level: the room on the new stack, then the target, then the old SS and
ESP, the parameters and the return address in the order they are pushed; the accessed bit of SS is set before the pushes and that of CS
after them, as the rule loads the two (R509, R146). -/
def innerCall (g : Desc) (csel : HWord) (c : Desc) (off : Word) : M Unit := do
  let s ← get
  let (sp, ss, ssAcc) ← innerStack c.dpl
  let start := loadSp ss.ar.db s.regs.esp sp
  checkRoom ss ss.ar.db start 4 (4 + g.gateCount)
  check (decide (off.toNat ≤ c.limit.toNat)) (excGP 0)
  let oldSs ← selWord s.segs.ss.sel
  let oldCs ← selWord s.segs.cs.sel
  let (link, esp1) ← planPushes ss ss.ar.db false (excSS 0) 4 start [oldSs, s.regs.esp]
  let (params, esp2) ← planParams s ss g.gateCount esp1
  let (ret, esp3) ← planPushes ss ss.ar.db false (excSS 0) 4 esp2 [oldCs, s.eip]
  let csAcc ← planAccessed c
  writeAccessed ssAcc
  storeAll 4 link
  copyAll params
  storeAll 4 ret
  writeAccessed csAcc
  update fun t => ((t.setSeg .ss ss).withRegs { t.regs with esp := esp3 }).withCpl c.dpl
  farJump (c.toSeg (withRpl csel c.dpl)) off

/-- CallGate: a transfer through an 80386 call gate (R508). -/
def callGate (gsel : HWord) (g : Desc) (kind : FarKind) : M Unit := do
  let s ← get
  check (decide (s.cplNat ≤ g.dpl.toNat) && decide ((selRpl gsel).toNat ≤ g.dpl.toNat)) (excGP gsel)
  check g.present (excNP gsel)
  let csel := g.gateSel
  check (!selNull csel) (excGP 0)
  let c ← needDesc csel (excGP csel)
  check (c.isCode && decide (c.dpl.toNat ≤ s.cplNat)) (excGP csel)
  check (kind != .jmp || c.conforming || c.dpl == s.cpl) (excGP csel)
  check c.present (excNP csel)
  if kind = .call ∧ !c.conforming ∧ c.dpl.toNat < s.cplNat then innerCall g csel c g.gateOff
  else enterCode csel c g.gateOff 4 kind

/-- A far transfer to a task: the switch, and EIP within the limit of the new CS (R510). -/
def transferTask (tsel : HWord) (new : Desc) (kind : FarKind) : M Unit := do
  let s ← get
  let trap ← taskSwitch tsel new kind.task s.segs.cs.sel s.eip s.flags
  finishTask trap

/-- TssTransfer (R510). -/
def tssTransfer (sel : HWord) (d : Desc) (kind : FarKind) : M Unit := do
  let s ← get
  check (decide (s.cplNat ≤ d.dpl.toNat) && decide ((selRpl sel).toNat ≤ d.dpl.toNat)) (excGP sel)
  check (!selTi sel) (excGP sel)
  check d.present (excNP sel)
  transferTask sel d kind

/-- TaskGate (R510). -/
def taskGate (gsel : HWord) (g : Desc) (kind : FarKind) : M Unit := do
  let s ← get
  check (decide (s.cplNat ≤ g.dpl.toNat) && decide ((selRpl gsel).toNat ≤ g.dpl.toNat)) (excGP gsel)
  check g.present (excNP gsel)
  let t ← needTss g.gateSel
  transferTask g.gateSel t kind

/-- FarTarget: the dispatch of a far transfer in Protected Mode (R506). -/
def farTarget (sel : HWord) (off : Word) (kind : FarKind) : M Ending := do
  check (!selNull sel) (excGP 0)
  let d ← needDesc sel (excGP sel)
  if d.isCode then do
    codeTransfer sel d off kind
    pure Ending.plain
  else if d.isSystem 0xC then do
    callGate sel d kind
    pure Ending.plain
  else if d.isSystem 5 then do
    taskGate sel d kind
    pure Ending.loadedRf
  else if d.isSystem 9 then do
    tssTransfer sel d kind
    pure Ending.loadedRf
  else if d.isSystem 4 || d.isSystem 1 || d.isSystem 3 then refuse .format286
  else raise (excGP sel)

/-- A far JMP or CALL with its target (R503, R512). -/
def farTransfer (sel : HWord) (off : Word) (kind : FarKind) : M Ending := do
  let s ← get
  if s.protMode then farTarget sel off kind
  else do
    farReal sel off kind
    pure Ending.plain

/-! ## Returns (R514, R515, R578) -/

/-- A data segment register may stay in use at an outer level: its selector is within the limit of its descriptor table (R118), the
cached descriptor is a data or readable code segment, and, unless that is conforming code, its DPL is at least the new level and at least
the RPL of the selector (R123, R515; 90_conflicts.md C22). The tables are those in force, and no descriptor is read (DEDUCED: log
entry 60). -/
def SegReg.validFor (g : SegReg) (t : Tables) (cpl : BitVec 2) : Bool :=
  (descAddress t g.sel).isSome && g.ar.s && g.allows false &&
    ((g.ar.code && g.ar.ce) || (decide (cpl.toNat ≤ g.ar.dpl.toNat) && decide ((selRpl g.sel).toNat ≤ g.ar.dpl.toNat)))

/-- Null a data segment register that is not valid for the outer level; one already null stays as it is (R515). -/
def SegReg.forOuter (g : SegReg) (t : Tables) (cpl : BitVec 2) : SegReg :=
  if g.valid && !g.validFor t cpl then SegReg.invalid 0 else g

/-- Null the data segment registers that the outer level may not use (R515). -/
def Segs.forOuter (g : Segs) (t : Tables) (cpl : BitVec 2) : Segs :=
  { g with es := g.es.forOuter t cpl, fs := g.fs.forOuter t cpl, gs := g.gs.forOuter t cpl, ds := g.ds.forOuter t cpl }

/-- The checks of a return CS selector (R515, R578): its RPL is not below CPL. -/
def returnCode (sel : HWord) : M Desc := do
  check (!selNull sel) (excGP 0)
  let d ← needDesc sel (excGP sel)
  check d.isCode (excGP sel)
  check (bif d.conforming then decide (d.dpl.toNat ≤ (selRpl sel).toNat) else d.dpl == selRpl sel) (excGP sel)
  check d.present (excNP sel)
  pure d

/-- The checks of a return SS selector against the RPL of the return CS selector (R515). -/
def returnStack (sel : HWord) (rpl : BitVec 2) : M Desc := do
  check (!selNull sel) (excGP 0)
  let d ← needDesc sel (excGP sel)
  check (selRpl sel == rpl) (excGP sel)
  check d.writableData (excGP sel)
  check (d.dpl == rpl) (excGP sel)
  check d.present (excSS sel)
  pure d

/-- The outer stack: SS, and ESP with 32 bits or SP with 16 bits loaded, moved by `extra` (R515, R578). -/
def loadOuterStack (esp newEsp extra : Word) (is32 : Bool) (ss : SegReg) : Word :=
  moveSp ss.ar.db (bif is32 then newEsp else setLow16 esp (newEsp.setWidth 16)) extra

/-- LoadFlags: EFLAGS from the image of IRET at a privilege level (R578). -/
def loadFlags (img : Word) (cpl : BitVec 2) (is32 : Bool) : M Unit :=
  update fun s => s.mapFlags fun f =>
    f.load img (decide (cpl.toNat ≤ f.iopl.toNat)) (cpl == 0) is32

/-- RealIret (R578). -/
def realIret : M Unit := do
  let s ← get
  let n := s.opWidth.bytes
  stackBlock (3 * n)
  let ip ← stackRead 0 n
  let cs ← stackRead n n
  let fl ← stackRead (2 * n) n
  check (decide (ip.toNat ≤ 0xFFFF)) (excGP 0)
  releaseStack (BitVec.ofNat 32 (3 * n))
  farJump (s.loadedReal .cs (cs.setWidth 16)) ip
  loadFlags fl s.cpl s.op32

/-- TaskReturn: IRET with NT = 1 (R578). -/
def taskReturn : M Unit := do
  let s ← get
  let back ← sysRead s.tables.tr.base 2
  let link := hwordOf back
  check (!selTi link && !selNull link) (excTS link)
  let d ← needDesc link (excTS link)
  (bif d.isSystem 3 then refuse .format286 else pure ())
  check (d.isSystem 0xB) (excTS link)
  check d.present (excNP link)
  let trap ← taskSwitch link d .iret s.segs.cs.sel s.eip { s.flags with nt := false }
  finishTask trap

/-- ReturnToV86: a 32-bit IRET at CPL 0 with VM = 1 in the image (R578). -/
def returnToV86 (ip fl : Word) (cs : HWord) : M Unit := do
  stackBlock 36
  check (decide (ip.toNat ≤ 0xFFFF)) (excGP 0)
  let esp ← stackRead 12 4
  let ss ← stackRead 16 4
  let es ← stackRead 20 4
  let ds ← stackRead 24 4
  let fs ← stackRead 28 4
  let gs ← stackRead 32 4
  let real (v : Word) := SegReg.v86 (v.setWidth 16) false
  update fun s =>
    ((((s.withSegs { es := real es, cs := SegReg.v86 cs true, ss := real ss, ds := real ds, fs := real fs,
                     gs := real gs }).withFlags (Flags.ofWord fl)).withCpl 3).withRegs { s.regs with esp := esp }).settled
  jumpTo ip

/-- The part of ProtIret that returns to an outer level (R578). -/
def outerIret (ip fl : Word) (cs : HWord) (c : Desc) : M Unit := do
  let s ← get
  let n := s.opWidth.bytes
  stackBlock (5 * n)
  let newEsp ← stackRead (3 * n) n
  let newSs ← stackRead (4 * n) n
  let ssSel : HWord := newSs.setWidth 16
  let sd ← returnStack ssSel (selRpl cs)
  check (decide (ip.toNat ≤ c.limit.toNat)) (excGP 0)
  let csAcc ← planAccessed c
  let ssAcc ← planAccessed sd
  writeAccessed csAcc
  writeAccessed ssAcc
  farJump (c.toSeg cs) ip
  loadFlags fl s.cpl s.op32
  let ss := sd.toSeg ssSel
  update fun t =>
    (((t.withCpl (selRpl cs)).withSegs ((t.segs.forOuter t.tables (selRpl cs)).set .ss ss)).withRegs
      { t.regs with esp := loadOuterStack t.regs.esp newEsp 0 s.op32 ss }).settled

/-- ProtIret: IRET in Protected Mode with NT = 0 (R578). -/
def protIret : M Unit := do
  let s ← get
  let n := s.opWidth.bytes
  stackBlock (3 * n)
  let ip ← stackRead 0 n
  let csWord ← stackRead n n
  let fl ← stackRead (2 * n) n
  let cs : HWord := csWord.setWidth 16
  if s.op32 && (Flags.ofWord fl).vm && s.cpl == 0 then returnToV86 ip fl cs
  else
    check (!selNull cs) (excGP 0)
    check (decide (s.cplNat ≤ (selRpl cs).toNat)) (excGP cs)
    let c ← returnCode cs
    if selRpl cs = s.cpl then
      check (decide (ip.toNat ≤ c.limit.toNat)) (excGP 0)
      setAccessed c
      releaseStack (BitVec.ofNat 32 (3 * n))
      farJump (c.toSeg cs) ip
      loadFlags fl s.cpl s.op32
    else outerIret ip fl cs c

/-- IRET re-enables NMI on every path, once it completes: an IRET that faults in the context of its own instruction leaves it held
off, for a fault changes nothing (R578, R701, R727; log entry 48). -/
def unblockNmi : M Unit := update fun s => s.withPins { s.pins with nmiBlocked := false }

/-- The return from an exception or interrupt: IRET (R578). -/
def returnInterrupt : M Ending := do
  let s ← get
  unblockNmi
  if s.realMode then realIret
  else if s.v86Mode then do
    check (s.flags.iopl == 3) (excGP 0)
    realIret
  else if s.flags.nt then taskReturn
  else protIret
  pure Ending.loadedRf

/-- RET far in Real Address Mode and Virtual 8086 Mode, releasing `extra` bytes more (R514). -/
def realRetf (extra : Word) : M Unit := do
  let s ← get
  let n := s.opWidth.bytes
  let ip ← stackRead 0 n
  let cs ← stackRead n n
  check (decide (ip.toNat ≤ 0xFFFF)) (excGP 0)
  releaseStack (BitVec.ofNat 32 (2 * n) + extra)
  farJump (s.loadedReal .cs (cs.setWidth 16)) ip

/-- RET far to an outer level (R515): the return offset lies at the top, the selector above it. The old eSP moves over both and the
parameters before SS:eSP are loaded, which a 16-bit load of SP shows in the upper half of ESP. -/
def outerRetf (cs : HWord) (extra : Word) : M Unit := do
  let s ← get
  let n := s.opWidth.bytes
  stackBlock (4 * n + extra.toNat)
  let c ← returnCode cs
  let newSs ← stackRead (3 * n + extra.toNat) n
  let ssSel : HWord := newSs.setWidth 16
  let sd ← returnStack ssSel (selRpl cs)
  let ip ← stackRead 0 n
  let newEsp ← stackRead (2 * n + extra.toNat) n
  check (decide (ip.toNat ≤ c.limit.toNat)) (excGP 0)
  let csAcc ← planAccessed c
  let ssAcc ← planAccessed sd
  writeAccessed csAcc
  writeAccessed ssAcc
  farJump (c.toSeg cs) ip
  let ss := sd.toSeg ssSel
  let esp := moveSp s.stack32 s.regs.esp (BitVec.ofNat 32 (2 * n) + extra)
  update fun t =>
    (((t.withCpl (selRpl cs)).withSegs ((t.segs.forOuter t.tables (selRpl cs)).set .ss ss)).withRegs
      { t.regs with esp := loadOuterStack esp newEsp extra s.op32 ss }).settled

/-- RET far in Protected Mode (R515): the slot of the selector is tested first, that of the offset where the rule names it. -/
def protRetf (extra : Word) : M Unit := do
  let s ← get
  let n := s.opWidth.bytes
  let csWord ← stackRead n n
  let cs : HWord := csWord.setWidth 16
  check (decide (s.cplNat ≤ (selRpl cs).toNat)) (excGP cs)
  if selRpl cs = s.cpl then
    let c ← returnCode cs
    let ip ← stackRead 0 n
    check (decide (ip.toNat ≤ c.limit.toNat)) (excGP 0)
    setAccessed c
    releaseStack (BitVec.ofNat 32 (2 * n) + extra)
    farJump (c.toSeg cs) ip
  else outerRetf cs extra

/-- RET far, releasing `extra` bytes of parameters (R514, R515). -/
def retFar (extra : Word) : M Unit := do
  let s ← get
  if s.protMode then protRetf extra else realRetf extra

end Sys2Proof.Machine
end

