-- ==== Sys2Proof/Machine/Operands.lean ====
section
/-!
DEFINITION. The operand forms: effective addresses, mod r/m operands, direct offsets, immediates and the accumulator
(30_encoding.md R171 to R190).
-/

namespace Sys2Proof.Machine

/-! ## Effective addresses (R181 to R186) -/

/-- The base and index of a 16-bit form (R181). -/
def base16 (r : Regs) : Base16 → HWord
  | .bxsi => r.ebx.setWidth 16 + r.esi.setWidth 16
  | .bxdi => r.ebx.setWidth 16 + r.edi.setWidth 16
  | .bpsi => r.ebp.setWidth 16 + r.esi.setWidth 16
  | .bpdi => r.ebp.setWidth 16 + r.edi.setWidth 16
  | .si => r.esi.setWidth 16
  | .di => r.edi.setWidth 16
  | .bp => r.ebp.setWidth 16
  | .bx => r.ebx.setWidth 16

/-- The displacement of a 16-bit form; d8 is sign-extended (R182). -/
def disp16 : Disp16 → HWord
  | .none => 0
  | .d8 d => d.signExtend 16
  | .d16 d => d

/-- The displacement of a 32-bit form; d8 is sign-extended (R185). -/
def disp32 : Disp32 → Word
  | .none => 0
  | .d8 d => d.signExtend 32
  | .d32 d => d

/-- The scaled index; the code of ESP means no index register (R184). -/
def scaledIndex (r : Regs) (ss : BitVec 2) (index : Gpr) : Word :=
  if index = .sp then 0 else r.get index <<< ss.toNat

/-- The effective address, modulo the width of the form (R182, R185). -/
def offsetOf (r : Regs) : MemOp → Word
  | .m16 b d => (base16 r b + disp16 d).setWidth 32
  | .abs16 d => d.setWidth 32
  | .m32 b d => r.get b + disp32 d
  | .abs32 d => d
  | .sib ss i b d => r.get b + scaledIndex r ss i + disp32 d
  | .sibAbs ss i d => scaledIndex r ss i + d

/-- An s-i-b form with no index register and a scale other than 1 has an undefined effective address (R184, U7). -/
def undefinedAddress : MemOp → Bool
  | .sib ss i _ _ => i == .sp && ss != 0
  | .sibAbs ss i _ => i == .sp && ss != 0
  | _ => false

/-- The effective address of a memory operand; a free value where it is undefined (R182, R185, U7; log entry 18). -/
def effective (m : MemOp) : M Word := do
  if undefinedAddress m then drawBits 32
  else look fun s => offsetOf s.regs m

/-- The default segment of a memory operand: SS for a BP, EBP or ESP base, else DS (R186). -/
def defaultSeg : MemOp → Sreg
  | .m16 .bpsi _ => .ss
  | .m16 .bpdi _ => .ss
  | .m16 .bp _ => .ss
  | .m32 .bp _ => .ss
  | .sib _ _ .sp _ => .ss
  | .sib _ _ .bp _ => .ss
  | _ => .ds

/-- A default segment, or the override prefix's (R165, R186). -/
def State.segOr (s : State) (r : Sreg) : Sreg := s.fetch.pfx.seg.getD r

/-- The segment and offset of a memory operand (R12, R165). -/
def addressOf (m : MemOp) : M (Sreg × Word) := do
  let off ← effective m
  let r ← look fun s => s.segOr (defaultSeg m)
  pure (r, off)

/-! ## Operands in registers and memory -/

/-- Where a result goes: a register, or bytes of physical memory already checked and translated (D6). -/
inductive Place where
  | reg (r : Gpr)
  | mem (ps : List Word)
deriving DecidableEq, Repr

/-- Write a register part (R31, R32). -/
def putReg (k : Width) (r : Gpr) (v : BitVec k.bits) : M Unit := update fun s => s.setReg k r v

/-- Store a value of a width at planned addresses, low byte first (R102). -/
def storeAt (k : Width) (ps : List Word) (v : BitVec k.bits) : M Unit := physWrite ps (bytesOf k.bytes (v.setWidth 32))

/-- Write a result to its place. -/
def putPlace (k : Width) (p : Place) (v : BitVec k.bits) : M Unit :=
  match p with
  | .reg r => putReg k r v
  | .mem ps => storeAt k ps v

/-- The value of a width in bytes read from memory (R102). -/
def valueOf (k : Width) (bs : List Byte) : BitVec k.bits := (wordOf bs).setWidth k.bits

/-- Read a value of a width at an offset of a segment (R12). -/
def readAt (k : Width) (r : Sreg) (off : Word) : M (BitVec k.bits) := do
  let bs ← memRead r off k.bytes
  pure (valueOf k bs)

/-- Read a mod r/m operand. -/
def readRm (k : Width) (rm : Rm) : M (BitVec k.bits) :=
  match rm with
  | .reg r => look fun s => s.reg k r
  | .mem m => do
    let (sr, off) ← addressOf m
    readAt k sr off

/-- The place of a mod r/m operand that is only written: checked and translated for the write (R110, D6). -/
def placeRm (k : Width) (rm : Rm) : M Place :=
  match rm with
  | .reg r => pure (.reg r)
  | .mem m => do
    let (sr, off) ← addressOf m
    let ps ← plan sr off k.bytes true
    pure (.mem ps)

/-- The physical addresses of a read-modify-write operand: segment checks for both accesses, then the two translations
(R110, R330, D6; log entry 38). -/
def planBoth (r : Sreg) (off : Word) (n : Nat) : M (List Word × List Word) := do
  let s ← get
  check ((s.seg r).legal s.protMode off n false && (s.seg r).legal s.protMode off n true) (segExc r)
  let la := (s.seg r).base + off
  let rd ← planLinear la n false s.userLevel
  let wr ← planLinear la n true s.userLevel
  pure (rd, wr)

/-- A read-modify-write operand at an offset: its place and its value, every check made before it is read (R330). -/
def modifyAt (k : Width) (r : Sreg) (off : Word) : M (Place × BitVec k.bits) := do
  let (rd, wr) ← planBoth r off k.bytes
  let bs ← physRead rd
  pure (.mem wr, valueOf k bs)

/-- A read-modify-write mod r/m operand: its place and its value (R330). -/
def modifyRm (k : Width) (rm : Rm) : M (Place × BitVec k.bits) :=
  match rm with
  | .reg r => do
    let v ← look fun s => s.reg k r
    pure (.reg r, v)
  | .mem m => do
    let (sr, off) ← addressOf m
    modifyAt k sr off

/-- An operand that is examined before it is known whether it is written: a register, or an offset of a segment. -/
inductive Target where
  | reg (r : Gpr)
  | mem (r : Sreg) (off : Word)
deriving DecidableEq, Repr

/-- The target a mod r/m operand names. -/
def targetRm (rm : Rm) : M Target :=
  match rm with
  | .reg r => pure (.reg r)
  | .mem m => do
    let (sr, off) ← addressOf m
    pure (.mem sr off)

/-- Read a target and check that it could be written, without the write: its segment for both accesses, its pages for the read, which
is made, and for the write, which is not and so sets no dirty bit and matches no write breakpoint (D6; log entry 38). -/
def inspect (k : Width) (t : Target) : M (BitVec k.bits) :=
  match t with
  | .reg r => look fun s => s.reg k r
  | .mem sr off => do
    let s ← get
    check ((s.seg sr).legal s.protMode off k.bytes false && (s.seg sr).legal s.protMode off k.bytes true) (segExc sr)
    let la := (s.seg sr).base + off
    let rd ← planLinear la k.bytes false s.userLevel
    checkWritable la k.bytes s.userLevel
    let bs ← physRead rd
    pure (valueOf k bs)

/-- The place of an examined target that is written after all (R110). -/
def placeOf (k : Width) (t : Target) : M Place :=
  match t with
  | .reg r => pure (.reg r)
  | .mem sr off => do
    let ps ← plan sr off k.bytes true
    pure (.mem ps)

/-! ## Immediates and implicit registers -/

/-- A byte immediate sign-extended to a width (R177, R188). -/
def signByte (k : Width) (b : Byte) : BitVec k.bits := b.signExtend k.bits

/-- A full-size immediate at a width (R188). -/
def immOf (k : Width) (v : Word) : BitVec k.bits := v.setWidth k.bits

/-- A displacement of an instruction, sign-extended from the operand size (R190). -/
def dispOf (is32 : Bool) (d : Word) : Word := bif is32 then d else (d.setWidth 16).signExtend 32

/-- The register of an address size: the low half, or all of it (R167). -/
def addrReg (s : State) (r : Gpr) : Word := bif s.addr32 then s.regs.get r else ((s.regs.get r).setWidth 16).setWidth 32

/-- Replace the register of an address size; the upper half stays with 16 bits (R440). -/
def State.setAddrReg (s : State) (r : Gpr) (v : Word) : State :=
  s.withRegs (s.regs.set r (bif s.addr32 then v else setLow16 (s.regs.get r) (v.setWidth 16)))

/-- An offset truncated to the address size (R182, R449, R480). -/
def addrTrunc (s : State) (v : Word) : Word := bif s.addr32 then v else (v.setWidth 16).setWidth 32

/-- A flag update. -/
def putFlags (g : Flags → Flags) : M Unit := update fun s => s.mapFlags g

/-- Raise #GP(0) unless CPL = 0 (Table 8-1 note l, R43). -/
def needCpl0 : M Unit := do
  let s ← get
  check (s.cpl == 0) (excGP 0)

/-- Raise #UD outside Protected Mode (Table 8-1 note a, R640). -/
def needProtMode : M Unit := do
  let s ← get
  check s.protMode excUD

/-- Raise #GP(0) outside Real Address Mode when CPL > IOPL (Table 8-1 note m, R302, R311). -/
def needIopl : M Unit := do
  let s ← get
  check (s.realMode || decide (s.cplNat ≤ s.ioplNat)) (excGP 0)

/-- Raise #GP(0) in Virtual 8086 Mode when IOPL < 3 (R306). -/
def needV86Iopl : M Unit := do
  let s ← get
  check (!s.v86Mode || s.flags.iopl == 3) (excGP 0)

end Sys2Proof.Machine
end

