-- ==== Sys2Proof/Machine/Prefix.lean ====
section
/-!
DEFINITION. The prefixes (30_encoding.md R163 to R168, 48_processor_control.md R615, R616, 44_string_rep.md R450, R451). A
prefix is a step of its own: it is recorded, and the instruction it belongs to follows without a boundary (log entry 10).
-/

namespace Sys2Proof.Machine

/-- A prefix byte has been read: it is recorded, no boundary follows (R163, R616). -/
def recordPrefix (f : Prefixes → Prefixes) (s : State) : Host.Outcome State Fault Refusal :=
  .next (s.withPfx { f s.fetch.pfx with count := s.fetch.pfx.count + 1 })

/-- A segment override; the one nearest the opcode takes effect (R164, R165). -/
def overrideSeg (r : Sreg) (p : Prefixes) : Prefixes := { p with seg := some r }

/-- ES: (R165). -/
def execPfxEs (s : State) : Host.Outcome State Fault Refusal := recordPrefix (overrideSeg .es) s

/-- CS: (R165). -/
def execPfxCs (s : State) : Host.Outcome State Fault Refusal := recordPrefix (overrideSeg .cs) s

/-- SS: (R165). -/
def execPfxSs (s : State) : Host.Outcome State Fault Refusal := recordPrefix (overrideSeg .ss) s

/-- DS: (R165). -/
def execPfxDs (s : State) : Host.Outcome State Fault Refusal := recordPrefix (overrideSeg .ds) s

/-- FS: (R165). -/
def execPfxFs (s : State) : Host.Outcome State Fault Refusal := recordPrefix (overrideSeg .fs) s

/-- GS: (R165). -/
def execPfxGs (s : State) : Host.Outcome State Fault Refusal := recordPrefix (overrideSeg .gs) s

/-- The operand-size prefix; repeating it has no further effect (R164, R166). -/
def execPfxOpsize (s : State) : Host.Outcome State Fault Refusal := recordPrefix (fun p => { p with op66 := true }) s

/-- The address-size prefix; repeating it has no further effect (R164, R167). -/
def execPfxAddrsize (s : State) : Host.Outcome State Fault Refusal := recordPrefix (fun p => { p with ad67 := true }) s

/-- LOCK (R615): its checks are made with the instruction it precedes. -/
def execPfxLock (s : State) : Host.Outcome State Fault Refusal := recordPrefix (fun p => { p with lock := true }) s

/-- REPNE / REPNZ (R450); of F2 and F3 the one nearest the opcode takes effect (R164). -/
def execPfxRepne (s : State) : Host.Outcome State Fault Refusal := recordPrefix (fun p => { p with rep := some .repne }) s

/-- REP / REPE / REPZ (R450). -/
def execPfxRep (s : State) : Host.Outcome State Fault Refusal := recordPrefix (fun p => { p with rep := some .rep }) s

/-- The instruction is itself a prefix (R163). -/
def isPrefix : Instr → Bool
  | .pfxEs | .pfxCs | .pfxSs | .pfxDs | .pfxFs | .pfxGs | .pfxOpsize | .pfxAddrsize | .pfxLock | .pfxRepne | .pfxRep => true
  | _ => false

/-- A mod r/m operand is memory. -/
def isMem : Rm → Bool
  | .mem _ => true
  | .reg _ => false

/-- The forms that accept LOCK: a read-modify-write of memory (R615). -/
def lockable : Instr → Bool
  | .btsImm rm _ | .btrImm rm _ | .btcImm rm _ => isMem rm
  | .btsR _ rm | .btrR _ rm | .btcR _ rm => isMem rm
  | .xchgRmR _ _ rm => isMem rm
  | .addRmR d _ _ rm | .orRmR d _ _ rm | .adcRmR d _ _ rm | .sbbRmR d _ _ rm | .andRmR d _ _ rm | .subRmR d _ _ rm
  | .xorRmR d _ _ rm => !d && isMem rm
  | .addRm8Imm rm _ | .orRm8Imm rm _ | .adcRm8Imm rm _ | .sbbRm8Imm rm _ | .andRm8Imm rm _ | .subRm8Imm rm _
  | .xorRm8Imm rm _ => isMem rm
  | .addRmImm rm _ | .orRmImm rm _ | .adcRmImm rm _ | .sbbRmImm rm _ | .andRmImm rm _ | .subRmImm rm _
  | .xorRmImm rm _ => isMem rm
  | .addRmImm8s rm _ | .orRmImm8s rm _ | .adcRmImm8s rm _ | .sbbRmImm8s rm _ | .andRmImm8s rm _ | .subRmImm8s rm _
  | .xorRmImm8s rm _ => isMem rm
  | .notRm _ rm | .negRm _ rm | .incRm _ rm | .decRm _ rm => isMem rm
  | _ => false

/-- The string instructions, which accept a repeat prefix (R451). -/
def repeatable : Instr → Bool
  | .movs _ | .cmps _ | .scas _ | .stos _ | .lods _ | .ins _ | .outs _ => true
  | _ => false

/-- The checks of LOCK and the repeat prefixes before an instruction: #UD where they are not accepted, then #GP(0) for LOCK
with CPL > IOPL (R451, R615, D29, D30). -/
def prefixFault (i : Instr) (s : State) : Option Exc :=
  if isPrefix i then none
  else if s.fetch.pfx.rep.isSome && !repeatable i then some excUD
  else if s.fetch.pfx.lock && !lockable i then some excUD
  else if s.fetch.pfx.lock && s.params.lockIopl && !s.realMode && decide (s.ioplNat < s.cplNat) then some (excGP 0)
  else none

end Sys2Proof.Machine
end

