-- ==== Sys2Proof/Machine/DataTransfer.lean ====
section
/-!
DEFINITION. Data transfer: MOV, MOVSX, MOVZX, PUSH, POP, XCHG, IN, OUT, LEA and the far-pointer loads (40_data_transfer.md).
-/

namespace Sys2Proof.Machine

/-! ## Shared forms -/

/-- Write a value to a mod r/m destination (R250). -/
def moveToRm (k : Width) (rm : Rm) (v : BitVec k.bits) : M Unit := do
  let p ← placeRm k rm
  putPlace k p v

/-- Load a segment register from a selector, with the shadow that MOV SS and POP SS set (R251, R259, R59). -/
def moveToSeg (r : Sreg) (sel : HWord) : M Unit := do
  let g ← loadSeg r sel
  putSeg r g
  if r = .ss then update fun s => s.withShadow .movSs else pure ()

/-- Put a 16-bit selector or status word at its place: 16 bits in memory or a 16-bit register; in a register with operand size 32
the upper half is undefined (R252, U5; log entry 9). -/
def putSel (p : Place) (v : HWord) : M Unit := do
  let s ← get
  match p with
  | .mem ps => storeAt .w ps v
  | .reg r =>
    if s.op32 then do
      let w ← selWord v
      putReg .d r w
    else putReg .w r v

/-- Store a selector in a mod r/m operand of 16 bits (R252, R650, R651). -/
def storeSel (rm : Rm) (v : HWord) : M Unit := do
  let p ← placeRm .w rm
  putSel p v

/-- Push a value of the operand size (R255). -/
def pushValue (v : Word) : M Unit := do
  let n ← look fun s => s.opWidth.bytes
  pushAll n [v]

/-- Push a segment register: the upper half of a doubleword is undefined (R256, U5). -/
def pushSeg (r : Sreg) : M Unit := do
  let s ← get
  if s.op32 then do
    let v ← selWord (s.seg r).sel
    pushAll 4 [v]
  else pushAll 2 [(s.seg r).sel.setWidth 32]

/-- Pop a value of the operand size (R128). -/
def popValue : M Word := do
  let n ← look fun s => s.opWidth.bytes
  let v ← stackRead 0 n
  releaseStack (BitVec.ofNat 32 n)
  pure v

/-- Pop a segment register: the read, the load, then eSP (R259). POP SS moves eSP by the size of the new stack segment (log
entry 35). -/
def popSeg (r : Sreg) : M Unit := do
  let n ← look fun s => s.opWidth.bytes
  let v ← stackRead 0 n
  moveToSeg r (v.setWidth 16)
  releaseStack (BitVec.ofNat 32 n)

/-- LoadFarPointer: both reads and the segment load before any write; the offset of the selector is not taken modulo 2^16 (R270; log
entry 49). -/
def loadFarPointer (r : Sreg) (reg : Gpr) (m : MemOp) : M Unit := do
  let k ← look State.opWidth
  let (sr, off) ← addressOf m
  let v ← readAt k sr off
  let sel ← readAt .w sr (off + BitVec.ofNat 32 k.bytes)
  let g ← loadSeg r sel
  putSeg r g
  putReg k reg v

/-- IN: the check, the port, the accumulator (R262). -/
def inPort (w : Bool) (port : Nat) : M Unit := do
  let k ← look fun s => s.widthOf w
  ioCheck port k.bytes
  let v ← ioRead port k.bytes
  putReg k .ax (v.setWidth k.bits)

/-- OUT: the check, the port (R263). -/
def outPort (w : Bool) (port : Nat) : M Unit := do
  let s ← get
  ioCheck port (s.widthOf w).bytes
  ioWrite port (s.widthOf w).bytes ((s.reg (s.widthOf w) .ax).setWidth 32)

/-! ## MOV (R250 to R254) -/

/-- MOV r/m, r (R250). -/
def execMovRmR (w : Bool) (reg : Gpr) (rm : Rm) (s : State) : Host.Outcome State Fault Refusal :=
  run (moveToRm (s.widthOf w) rm (s.reg (s.widthOf w) reg)) s

/-- MOV r, r/m (R250). -/
def execMovRRm (w : Bool) (reg : Gpr) (rm : Rm) (s : State) : Host.Outcome State Fault Refusal :=
  run (do
    let v ← readRm (s.widthOf w) rm
    putReg (s.widthOf w) reg v) s

/-- MOV r/m8, imm8 (R250). -/
def execMovRm8Imm (rm : Rm) (imm : Byte) (s : State) : Host.Outcome State Fault Refusal :=
  run (moveToRm .b rm imm) s

/-- MOV r/m16/32, imm (R250). -/
def execMovRmImm (rm : Rm) (imm : Word) (s : State) : Host.Outcome State Fault Refusal :=
  run (moveToRm s.opWidth rm (immOf s.opWidth imm)) s

/-- MOV r8, imm8 (R250). -/
def execMovR8Imm (reg : Gpr) (imm : Byte) (s : State) : Host.Outcome State Fault Refusal :=
  run (putReg .b reg imm) s

/-- MOV r16/32, imm (R250). -/
def execMovRImm (reg : Gpr) (imm : Word) (s : State) : Host.Outcome State Fault Refusal :=
  run (putReg s.opWidth reg (immOf s.opWidth imm)) s

/-- MOV AL/eAX, moffs (R250, R189). -/
def execMovAccMoffs (w : Bool) (off : Word) (s : State) : Host.Outcome State Fault Refusal :=
  run (do
    let v ← readAt (s.widthOf w) (s.segOr .ds) off
    putReg (s.widthOf w) .ax v) s

/-- MOV moffs, AL/eAX (R250, R189). -/
def execMovMoffsAcc (w : Bool) (off : Word) (s : State) : Host.Outcome State Fault Refusal :=
  run (do
    let ps ← plan (s.segOr .ds) off (s.widthOf w).bytes true
    storeAt (s.widthOf w) ps (s.reg (s.widthOf w) .ax)) s

/-- MOV Sreg, r/m16 (R251). -/
def execMovSregRm (sr : Sreg) (rm : Rm) (s : State) : Host.Outcome State Fault Refusal :=
  run (do
    let sel ← readRm .w rm
    moveToSeg sr sel) s

/-- MOV r/m16, Sreg (R252). -/
def execMovRmSreg (sr : Sreg) (rm : Rm) (s : State) : Host.Outcome State Fault Refusal :=
  run (storeSel rm (s.seg sr).sel) s

/-- MOVSX: w gives the source width (R253). -/
def execMovsx (w : Bool) (reg : Gpr) (rm : Rm) (s : State) : Host.Outcome State Fault Refusal :=
  run (do
    let v ← readRm (bif w then .w else .b) rm
    putReg s.opWidth reg (v.signExtend s.opWidth.bits)) s

/-- MOVZX: w gives the source width (R254). -/
def execMovzx (w : Bool) (reg : Gpr) (rm : Rm) (s : State) : Host.Outcome State Fault Refusal :=
  run (do
    let v ← readRm (bif w then .w else .b) rm
    putReg s.opWidth reg (v.setWidth s.opWidth.bits)) s

/-! ## PUSH and POP (R255 to R260) -/

/-- PUSH r16/32; PUSH eSP pushes the value before the decrement (R255). -/
def execPushR (reg : Gpr) (s : State) : Host.Outcome State Fault Refusal :=
  run (pushValue (s.regs.get reg)) s

/-- PUSH imm16/32 (R255). -/
def execPushImm (imm : Word) (s : State) : Host.Outcome State Fault Refusal :=
  run (pushValue imm) s

/-- PUSH imm8, sign-extended (R255). -/
def execPushImm8 (imm : Byte) (s : State) : Host.Outcome State Fault Refusal :=
  run (pushValue (sext32 imm)) s

/-- PUSH r/m16/32 (R255). -/
def execPushRm (rm : Rm) (s : State) : Host.Outcome State Fault Refusal :=
  run (do
    let v ← readRm s.opWidth rm
    pushValue (v.setWidth 32)) s

/-- PUSH ES, CS, SS, DS (R256). -/
def execPushSreg (sr : Sreg) (s : State) : Host.Outcome State Fault Refusal :=
  run (pushSeg sr) s

/-- PUSH FS (R256). -/
def execPushFs (s : State) : Host.Outcome State Fault Refusal :=
  run (pushSeg .fs) s

/-- PUSH GS (R256). -/
def execPushGs (s : State) : Host.Outcome State Fault Refusal :=
  run (pushSeg .gs) s

/-- In Real Address Mode PUSHA with SP = 1, 3 or 5 shuts down, and with SP odd from 7 to 15 raises exception 13 (R257). -/
def pushaGuard : M Unit := do
  let s ← get
  let sp := (stackPtr s.stack32 s.regs.esp).toNat
  if s.realMode ∧ (sp = 1 ∨ sp = 3 ∨ sp = 5) then shutDown
  else if s.realMode ∧ sp % 2 = 1 ∧ 7 ≤ sp ∧ sp ≤ 15 then raise (excGP 0)
  else pure ()

/-- PUSHA / PUSHAD (R257). -/
def execPusha (s : State) : Host.Outcome State Fault Refusal :=
  run (do
    pushaGuard
    let r := s.regs
    pushAll s.opWidth.bytes [r.eax, r.ecx, r.edx, r.ebx, r.esp, r.ebp, r.esi, r.edi]) s

/-- POP r/m16/32: an ESP-based address uses the incremented ESP (R258, R185). -/
def execPopRm (rm : Rm) (s : State) : Host.Outcome State Fault Refusal :=
  run (do
    let v ← popValue
    moveToRm s.opWidth rm (immOf s.opWidth v)) s

/-- POP r16/32 (R258). -/
def execPopR (reg : Gpr) (s : State) : Host.Outcome State Fault Refusal :=
  run (do
    let v ← popValue
    putReg s.opWidth reg (immOf s.opWidth v)) s

/-- POP ES (R259). -/
def execPopEs (s : State) : Host.Outcome State Fault Refusal :=
  run (popSeg .es) s

/-- POP SS (R259). -/
def execPopSs (s : State) : Host.Outcome State Fault Refusal :=
  run (popSeg .ss) s

/-- POP DS (R259). -/
def execPopDs (s : State) : Host.Outcome State Fault Refusal :=
  run (popSeg .ds) s

/-- POP FS (R259). -/
def execPopFs (s : State) : Host.Outcome State Fault Refusal :=
  run (popSeg .fs) s

/-- POP GS (R259). -/
def execPopGs (s : State) : Host.Outcome State Fault Refusal :=
  run (popSeg .gs) s

/-- The registers POPA loads, from the values of its slots (R260). -/
def popaRegs (k : Width) (r : Regs) (di si bp bx dx cx ax : Word) : Regs :=
  let w (r : Regs) (g : Gpr) (v : Word) := r.write k g (immOf k v)
  w (w (w (w (w (w (w r .di di) .si si) .bp bp) .bx bx) .dx dx) .cx cx) .ax ax

/-- POPA / POPAD: all eight slots are checked first, the value of eSP's is skipped (R260). -/
def execPopa (s : State) : Host.Outcome State Fault Refusal :=
  run (do
    let n := s.opWidth.bytes
    stackSlots n 8
    let di ← stackRead 0 n
    let si ← stackRead n n
    let bp ← stackRead (2 * n) n
    let bx ← stackRead (4 * n) n
    let dx ← stackRead (5 * n) n
    let cx ← stackRead (6 * n) n
    let ax ← stackRead (7 * n) n
    releaseStack (BitVec.ofNat 32 (8 * n))
    update fun t => t.withRegs (popaRegs s.opWidth t.regs di si bp bx dx cx ax)) s

/-! ## XCHG (R261) -/

/-- XCHG eAX, r16/32 (R261). -/
def execXchgAccR (reg : Gpr) (s : State) : Host.Outcome State Fault Refusal :=
  run (do
    putReg s.opWidth .ax (s.reg s.opWidth reg)
    putReg s.opWidth reg (s.reg s.opWidth .ax)) s

/-- XCHG r/m, r (R261). -/
def execXchgRmR (w : Bool) (reg : Gpr) (rm : Rm) (s : State) : Host.Outcome State Fault Refusal :=
  run (do
    let (p, v) ← modifyRm (s.widthOf w) rm
    putPlace (s.widthOf w) p (s.reg (s.widthOf w) reg)
    putReg (s.widthOf w) reg v) s

/-! ## IN and OUT (R262, R263) -/

/-- IN AL/eAX, imm8 (R262). -/
def execInImm (w : Bool) (port : Byte) (s : State) : Host.Outcome State Fault Refusal :=
  run (inPort w port.toNat) s

/-- IN AL/eAX, DX (R262). -/
def execInDx (w : Bool) (s : State) : Host.Outcome State Fault Refusal :=
  run (inPort w (s.reg .w .dx).toNat) s

/-- OUT imm8, AL/eAX (R263). -/
def execOutImm (w : Bool) (port : Byte) (s : State) : Host.Outcome State Fault Refusal :=
  run (outPort w port.toNat) s

/-- OUT DX, AL/eAX (R263). -/
def execOutDx (w : Bool) (s : State) : Host.Outcome State Fault Refusal :=
  run (outPort w (s.reg .w .dx).toNat) s

/-! ## LEA and the far-pointer loads (R264 to R270) -/

/-- LEA: the offset, truncated or zero-extended to the operand size (R264). -/
def execLea (reg : Gpr) (m : MemOp) (s : State) : Host.Outcome State Fault Refusal :=
  run (do
    let off ← effective m
    putReg s.opWidth reg (immOf s.opWidth off)) s

/-- LDS (R265). -/
def execLds (reg : Gpr) (m : MemOp) (s : State) : Host.Outcome State Fault Refusal :=
  run (loadFarPointer .ds reg m) s

/-- LES (R266). -/
def execLes (reg : Gpr) (m : MemOp) (s : State) : Host.Outcome State Fault Refusal :=
  run (loadFarPointer .es reg m) s

/-- LFS (R267). -/
def execLfs (reg : Gpr) (m : MemOp) (s : State) : Host.Outcome State Fault Refusal :=
  run (loadFarPointer .fs reg m) s

/-- LGS (R268). -/
def execLgs (reg : Gpr) (m : MemOp) (s : State) : Host.Outcome State Fault Refusal :=
  run (loadFarPointer .gs reg m) s

/-- LSS: SS and eSP in one instruction, so no shadow (R269). -/
def execLss (reg : Gpr) (m : MemOp) (s : State) : Host.Outcome State Fault Refusal :=
  run (loadFarPointer .ss reg m) s

end Sys2Proof.Machine
end

