-- ==== Sys2Proof/Machine/FlagControl.lean ====
section
/-!
DEFINITION. Flag control: CLC, CLD, CLI, CMC, LAHF, POPF, PUSHF, SAHF, STC, STD, STI, CLTS (41_flag_control.md).
-/

namespace Sys2Proof.Machine

/-- CLC (R300). -/
def execClc (s : State) : Host.Outcome State Fault Refusal :=
  run (putFlags fun f => { f with cf := false }) s

/-- CLD (R301). -/
def execCld (s : State) : Host.Outcome State Fault Refusal :=
  run (putFlags fun f => { f with df := false }) s

/-- CLI (R302). -/
def execCli (s : State) : Host.Outcome State Fault Refusal :=
  run (do
    needIopl
    putFlags fun f => { f with intf := false }) s

/-- CMC (R303). -/
def execCmc (s : State) : Host.Outcome State Fault Refusal :=
  run (putFlags fun f => { f with cf := !f.cf }) s

/-- LAHF: AH from the status flags (R304). -/
def execLahf (s : State) : Host.Outcome State Fault Refusal :=
  run (putReg .b .sp s.flags.toAh) s

/-- What POPF makes of EFLAGS: IF when the mode or IOPL allows it, IOPL at CPL 0, RF and VM never (R305). -/
def State.popFlags (s : State) (img : Word) : Flags :=
  s.flags.load img (s.realMode || decide (s.cplNat ≤ s.ioplNat)) (s.cpl == 0) false

/-- POPF / POPFD (R305). -/
def execPopf (s : State) : Host.Outcome State Fault Refusal :=
  runEnding (do
    needV86Iopl
    let img ← popValue
    putFlags fun _ => s.popFlags img
    pure Ending.loadedRf) s

/-- The image PUSHF stores: 16 bits, or 32 bits with VM and RF 0 (R307). -/
def State.pushFlags (s : State) : Word :=
  bif s.op32 then s.flags.toWord &&& 0x00FCFFFF else s.flags.toHWord.setWidth 32

/-- PUSHF / PUSHFD (R307). -/
def execPushf (s : State) : Host.Outcome State Fault Refusal :=
  run (do
    needV86Iopl
    pushValue s.pushFlags) s

/-- SAHF (R308). -/
def execSahf (s : State) : Host.Outcome State Fault Refusal :=
  run (putFlags fun f => f.ofAh (s.reg .b .sp)) s

/-- STC (R309). -/
def execStc (s : State) : Host.Outcome State Fault Refusal :=
  run (putFlags fun f => { f with cf := true }) s

/-- STD (R310). -/
def execStd (s : State) : Host.Outcome State Fault Refusal :=
  run (putFlags fun f => { f with df := true }) s

/-- STI: with IF clear before, INTR is held off during the next instruction (R311, R59). -/
def execSti (s : State) : Host.Outcome State Fault Refusal :=
  run (do
    needIopl
    (bif s.flags.intf then pure () else update fun t => t.withShadow .sti)
    putFlags fun f => { f with intf := true }) s

/-- CLTS (R312). -/
def execClts (s : State) : Host.Outcome State Fault Refusal :=
  run (do
    needCpl0
    update fun t => t.withCr0 { t.cr0 with ts := false }) s

end Sys2Proof.Machine
end

