-- ==== Sys2Proof/Machine/Alu.lean ====
section
/-!
DEFINITION. The two-operand ALU shape (42_arithmetic.md R330), the flags of addition, subtraction and logic as operations that
set them, and the one-operand shape. Every check of a memory operand is made before it is read (R330).
-/

namespace Sys2Proof.Machine

/-- A two-operand ALU operation: it sets the flags and answers the result. -/
abbrev AluOp := (k : Width) → BitVec k.bits → BitVec k.bits → M (BitVec k.bits)

/-- ADD (R331). -/
def opAdd : AluOp := fun _ a b => do
  putFlags fun f => f.add a b false
  pure (addValue a b false)

/-- ADC (R332). -/
def opAdc : AluOp := fun _ a b => do
  let c ← look fun s => s.flags.cf
  putFlags fun f => f.add a b c
  pure (addValue a b c)

/-- SUB (R334). -/
def opSub : AluOp := fun _ a b => do
  putFlags fun f => f.sub a b false
  pure (subValue a b false)

/-- SBB (R335). -/
def opSbb : AluOp := fun _ a b => do
  let c ← look fun s => s.flags.cf
  putFlags fun f => f.sub a b c
  pure (subValue a b c)

/-- CMP: the flags of SUB, the result discarded (R337). -/
def opCmp (k : Width) (a b : BitVec k.bits) : M Unit := putFlags fun f => f.sub a b false

/-- The result of a logical operation, its flags set, AF a free value (R390 to R393, U2). -/
def opLogic (k : Width) (r : BitVec k.bits) : M (BitVec k.bits) := do
  let af ← drawBit
  putFlags fun f => f.logic r af
  pure r

/-- AND (R390). -/
def opAnd : AluOp := fun k a b => opLogic k (a &&& b)

/-- OR (R391). -/
def opOr : AluOp := fun k a b => opLogic k (a ||| b)

/-- XOR (R392). -/
def opXor : AluOp := fun k a b => opLogic k (a ^^^ b)

/-- TEST: the flags of AND, the result discarded (R393). -/
def opTest (k : Width) (a b : BitVec k.bits) : M Unit := do
  let _ ← opLogic k (a &&& b)
  pure ()

/-- The register/memory with register shape: d = 0 the result to r/m, d = 1 to the register (R330). -/
def aluRmR (op : AluOp) (d w : Bool) (reg : Gpr) (rm : Rm) : M Unit := do
  let k ← look fun s => s.widthOf w
  let b ← look fun s => s.reg k reg
  if d then
    let v ← readRm k rm
    let r ← op k b v
    putReg k reg r
  else
    let (p, v) ← modifyRm k rm
    let r ← op k v b
    putPlace k p r

/-- The immediate to accumulator shape (R330). -/
def aluAcc (op : AluOp) (k : Width) (imm : BitVec k.bits) : M Unit := do
  let a ← look fun s => s.reg k .ax
  let r ← op k a imm
  putReg k .ax r

/-- The immediate to register/memory shape (R330). -/
def aluRm (op : AluOp) (k : Width) (rm : Rm) (imm : BitVec k.bits) : M Unit := do
  let (p, v) ← modifyRm k rm
  let r ← op k v imm
  putPlace k p r

/-- The immediate to register/memory shape of CMP, which writes no operand (R337). -/
def compareRm (k : Width) (rm : Rm) (imm : BitVec k.bits) : M Unit := do
  let v ← readRm k rm
  opCmp k v imm

/-- The one-operand shape: a new value and new flags from the old value (R333, R336, R338, R394). -/
def unaryRm (k : Width) (rm : Rm) (value : BitVec k.bits → BitVec k.bits) (flags : Flags → BitVec k.bits → Flags) :
    M Unit := do
  let (p, v) ← modifyRm k rm
  putFlags fun f => flags f v
  putPlace k p (value v)

end Sys2Proof.Machine
end

