-- ==== Sys2Proof/Machine/Arithmetic.lean ====
section
/-!
DEFINITION. Arithmetic: ADD, ADC, SUB, SBB, CMP, INC, DEC, NEG, the decimal and ASCII adjusts, multiplication, division and
conversion (42_arithmetic.md).
-/

namespace Sys2Proof.Machine

/-! ## Addition, subtraction and comparison (R331 to R338) -/

/-- ADD r/m, r (d = 0); r, r/m (d = 1) (R331). -/
def execAddRmR (d w : Bool) (reg : Gpr) (rm : Rm) (s : State) : Host.Outcome State Fault Refusal :=
  run (aluRmR opAdd d w reg rm) s

/-- ADD AL, imm8 (R331). -/
def execAddAlImm (imm : Byte) (s : State) : Host.Outcome State Fault Refusal :=
  run (aluAcc opAdd .b imm) s

/-- ADD eAX, imm16/32 (R331). -/
def execAddEaxImm (imm : Word) (s : State) : Host.Outcome State Fault Refusal :=
  run (aluAcc opAdd s.opWidth (immOf s.opWidth imm)) s

/-- ADD r/m8, imm8 (R331). -/
def execAddRm8Imm (rm : Rm) (imm : Byte) (s : State) : Host.Outcome State Fault Refusal :=
  run (aluRm opAdd .b rm imm) s

/-- ADD r/m16/32, imm16/32 (R331). -/
def execAddRmImm (rm : Rm) (imm : Word) (s : State) : Host.Outcome State Fault Refusal :=
  run (aluRm opAdd s.opWidth rm (immOf s.opWidth imm)) s

/-- ADD r/m16/32, imm8, sign-extended (R331). -/
def execAddRmImm8s (rm : Rm) (imm : Byte) (s : State) : Host.Outcome State Fault Refusal :=
  run (aluRm opAdd s.opWidth rm (signByte s.opWidth imm)) s

/-- ADC r/m, r (d = 0); r, r/m (d = 1) (R332). -/
def execAdcRmR (d w : Bool) (reg : Gpr) (rm : Rm) (s : State) : Host.Outcome State Fault Refusal :=
  run (aluRmR opAdc d w reg rm) s

/-- ADC AL, imm8 (R332). -/
def execAdcAlImm (imm : Byte) (s : State) : Host.Outcome State Fault Refusal :=
  run (aluAcc opAdc .b imm) s

/-- ADC eAX, imm16/32 (R332). -/
def execAdcEaxImm (imm : Word) (s : State) : Host.Outcome State Fault Refusal :=
  run (aluAcc opAdc s.opWidth (immOf s.opWidth imm)) s

/-- ADC r/m8, imm8 (R332). -/
def execAdcRm8Imm (rm : Rm) (imm : Byte) (s : State) : Host.Outcome State Fault Refusal :=
  run (aluRm opAdc .b rm imm) s

/-- ADC r/m16/32, imm16/32 (R332). -/
def execAdcRmImm (rm : Rm) (imm : Word) (s : State) : Host.Outcome State Fault Refusal :=
  run (aluRm opAdc s.opWidth rm (immOf s.opWidth imm)) s

/-- ADC r/m16/32, imm8, sign-extended (R332). -/
def execAdcRmImm8s (rm : Rm) (imm : Byte) (s : State) : Host.Outcome State Fault Refusal :=
  run (aluRm opAdc s.opWidth rm (signByte s.opWidth imm)) s

/-- SUB r/m, r (d = 0); r, r/m (d = 1) (R334). -/
def execSubRmR (d w : Bool) (reg : Gpr) (rm : Rm) (s : State) : Host.Outcome State Fault Refusal :=
  run (aluRmR opSub d w reg rm) s

/-- SUB AL, imm8 (R334). -/
def execSubAlImm (imm : Byte) (s : State) : Host.Outcome State Fault Refusal :=
  run (aluAcc opSub .b imm) s

/-- SUB eAX, imm16/32 (R334). -/
def execSubEaxImm (imm : Word) (s : State) : Host.Outcome State Fault Refusal :=
  run (aluAcc opSub s.opWidth (immOf s.opWidth imm)) s

/-- SUB r/m8, imm8 (R334). -/
def execSubRm8Imm (rm : Rm) (imm : Byte) (s : State) : Host.Outcome State Fault Refusal :=
  run (aluRm opSub .b rm imm) s

/-- SUB r/m16/32, imm16/32 (R334). -/
def execSubRmImm (rm : Rm) (imm : Word) (s : State) : Host.Outcome State Fault Refusal :=
  run (aluRm opSub s.opWidth rm (immOf s.opWidth imm)) s

/-- SUB r/m16/32, imm8, sign-extended (R334). -/
def execSubRmImm8s (rm : Rm) (imm : Byte) (s : State) : Host.Outcome State Fault Refusal :=
  run (aluRm opSub s.opWidth rm (signByte s.opWidth imm)) s

/-- SBB r/m, r (d = 0); r, r/m (d = 1) (R335). -/
def execSbbRmR (d w : Bool) (reg : Gpr) (rm : Rm) (s : State) : Host.Outcome State Fault Refusal :=
  run (aluRmR opSbb d w reg rm) s

/-- SBB AL, imm8 (R335). -/
def execSbbAlImm (imm : Byte) (s : State) : Host.Outcome State Fault Refusal :=
  run (aluAcc opSbb .b imm) s

/-- SBB eAX, imm16/32 (R335). -/
def execSbbEaxImm (imm : Word) (s : State) : Host.Outcome State Fault Refusal :=
  run (aluAcc opSbb s.opWidth (immOf s.opWidth imm)) s

/-- SBB r/m8, imm8 (R335). -/
def execSbbRm8Imm (rm : Rm) (imm : Byte) (s : State) : Host.Outcome State Fault Refusal :=
  run (aluRm opSbb .b rm imm) s

/-- SBB r/m16/32, imm16/32 (R335). -/
def execSbbRmImm (rm : Rm) (imm : Word) (s : State) : Host.Outcome State Fault Refusal :=
  run (aluRm opSbb s.opWidth rm (immOf s.opWidth imm)) s

/-- SBB r/m16/32, imm8, sign-extended (R335). -/
def execSbbRmImm8s (rm : Rm) (imm : Byte) (s : State) : Host.Outcome State Fault Refusal :=
  run (aluRm opSbb s.opWidth rm (signByte s.opWidth imm)) s

/-- CMP r/m, r (d = 0); r, r/m (d = 1) (R337). -/
def execCmpRmR (d w : Bool) (reg : Gpr) (rm : Rm) (s : State) : Host.Outcome State Fault Refusal :=
  run (do
    let v ← readRm (s.widthOf w) rm
    let r := s.reg (s.widthOf w) reg
    bif d then opCmp _ r v else opCmp _ v r) s

/-- CMP AL, imm8 (R337). -/
def execCmpAlImm (imm : Byte) (s : State) : Host.Outcome State Fault Refusal :=
  run (opCmp .b (s.reg .b .ax) imm) s

/-- CMP eAX, imm16/32 (R337). -/
def execCmpEaxImm (imm : Word) (s : State) : Host.Outcome State Fault Refusal :=
  run (opCmp s.opWidth (s.reg s.opWidth .ax) (immOf s.opWidth imm)) s

/-- CMP r/m8, imm8 (R337). -/
def execCmpRm8Imm (rm : Rm) (imm : Byte) (s : State) : Host.Outcome State Fault Refusal :=
  run (compareRm .b rm imm) s

/-- CMP r/m16/32, imm16/32 (R337). -/
def execCmpRmImm (rm : Rm) (imm : Word) (s : State) : Host.Outcome State Fault Refusal :=
  run (compareRm s.opWidth rm (immOf s.opWidth imm)) s

/-- CMP r/m16/32, imm8, sign-extended (R337). -/
def execCmpRmImm8s (rm : Rm) (imm : Byte) (s : State) : Host.Outcome State Fault Refusal :=
  run (compareRm s.opWidth rm (signByte s.opWidth imm)) s

/-- INC r/m: CF unchanged (R333). -/
def execIncRm (w : Bool) (rm : Rm) (s : State) : Host.Outcome State Fault Refusal :=
  run (unaryRm (s.widthOf w) rm (· + 1) Flags.inc) s

/-- INC r16/32 (R333). -/
def execIncR (reg : Gpr) (s : State) : Host.Outcome State Fault Refusal :=
  run (unaryRm s.opWidth (.reg reg) (· + 1) Flags.inc) s

/-- DEC r/m: CF unchanged (R336). -/
def execDecRm (w : Bool) (rm : Rm) (s : State) : Host.Outcome State Fault Refusal :=
  run (unaryRm (s.widthOf w) rm (· - 1) Flags.dec) s

/-- DEC r16/32 (R336). -/
def execDecR (reg : Gpr) (s : State) : Host.Outcome State Fault Refusal :=
  run (unaryRm s.opWidth (.reg reg) (· - 1) Flags.dec) s

/-- NEG r/m: the flags of 0 - DEST (R338). -/
def execNegRm (w : Bool) (rm : Rm) (s : State) : Host.Outcome State Fault Refusal :=
  run (unaryRm (s.widthOf w) rm (0 - ·) fun f v => f.sub 0 v false) s

/-! ## Decimal and ASCII adjust (R340 to R343, R366, R367) -/

/-- AAA and AAS: AL moved by 6 and AH by 1 when the low nibble asks for it, AL cut to its nibble; OF, SF, ZF, PF are free
(R340, R341, U4, U26). -/
def asciiAdjust (byAl byAh : Byte) : M Unit := do
  let s ← get
  let al := s.reg .b .ax
  let ah := s.reg .b .sp
  let adj := nibbleAdjust al s.flags.af
  let al' := (bif adj then al + byAl else al) &&& 0x0F
  let ah' := bif adj then ah + byAh else ah
  let pf ← drawBit
  let zf ← drawBit
  let sf ← drawBit
  let of ← drawBit
  putReg .w .ax (ah' ++ al')
  putFlags fun f => f.undef adj pf adj zf sf of

/-- AAA (R340). -/
def execAaa (s : State) : Host.Outcome State Fault Refusal :=
  run (asciiAdjust 6 1) s

/-- AAS (R341). -/
def execAas (s : State) : Host.Outcome State Fault Refusal :=
  run (asciiAdjust (-6) (-1)) s

/-- DAA and DAS: AL, CF and AF as computed, SF, ZF, PF from AL, OF free (R342, R343, U4). -/
def decimalAdjust (value : Byte → Bool → Bool → Byte × Bool × Bool) : M Unit := do
  let s ← get
  let (r, cf, af) := value (s.reg .b .ax) s.flags.cf s.flags.af
  let of ← drawBit
  putReg .b .ax r
  putFlags fun f => { f.szp r with cf := cf, af := af, of := of }

/-- DAA (R342). -/
def execDaa (s : State) : Host.Outcome State Fault Refusal :=
  run (decimalAdjust daaValue) s

/-- DAS (R343). -/
def execDas (s : State) : Host.Outcome State Fault Refusal :=
  run (decimalAdjust dasValue) s

/-- The end of AAM and AAD: AX, and the flags of AL; OF, AF, CF are free (R366, R367, U4). -/
def putAdjusted (ah al : Byte) : M Unit := do
  let of ← drawBit
  let af ← drawBit
  let cf ← drawBit
  putReg .w .ax (ah ++ al)
  putFlags fun f => { f.szp al with of := of, af := af, cf := cf }

/-- AAM: AL divided by the second byte; #DE for 0 (R366). -/
def execAam (imm : Byte) (s : State) : Host.Outcome State Fault Refusal :=
  run (do
    check (imm != 0) excDE
    putAdjusted (s.reg .b .ax / imm) (s.reg .b .ax % imm)) s

/-- AAD (R367). -/
def execAad (imm : Byte) (s : State) : Host.Outcome State Fault Refusal :=
  run (putAdjusted 0 (s.reg .b .sp * imm + s.reg .b .ax)) s

/-! ## Multiplication and division (R350 to R355) -/

/-- The double-width accumulator: AX, DX:AX, EDX:EAX (R350, R354). -/
def State.wideAcc (s : State) : (k : Width) → BitVec (k.bits + k.bits)
  | .b => s.reg .w .ax
  | .w => s.reg .w .dx ++ s.reg .w .ax
  | .d => s.reg .d .dx ++ s.reg .d .ax

/-- Write the double-width accumulator by its halves: AH:AL, DX:AX, EDX:EAX (R350, R354). -/
def putWide : (k : Width) → BitVec k.bits → BitVec k.bits → M Unit
  | .b, hi, lo => putReg .w .ax (hi ++ lo)
  | .w, hi, lo => do
    putReg .w .dx hi
    putReg .w .ax lo
  | .d, hi, lo => do
    putReg .d .dx hi
    putReg .d .ax lo

/-- CF and OF after a multiplication; SF, ZF, AF, PF are free (R350 to R353, U4). -/
def mulFlags (c : Bool) : M Unit := do
  let sf ← drawBit
  let zf ← drawBit
  let af ← drawBit
  let pf ← drawBit
  putFlags fun f => f.mul c sf zf af pf

/-- All six status flags are free (R354, R355, R601, U4). -/
def freeFlags : M Unit := do
  let cf ← drawBit
  let pf ← drawBit
  let af ← drawBit
  let zf ← drawBit
  let sf ← drawBit
  let of ← drawBit
  putFlags fun f => f.undef cf pf af zf sf of

/-- A signed product does not fit its low half (R351 to R353). -/
def signedOverflow (n : Nat) (p : Int) : Bool := decide (p ≠ (BitVec.ofInt n p).toInt)

/-- MUL r/m (R350). -/
def execMulRm (w : Bool) (rm : Rm) (s : State) : Host.Outcome State Fault Refusal :=
  run (do
    let k := s.widthOf w
    let v ← readRm k rm
    let p := (s.reg k .ax).toNat * v.toNat
    let hi := BitVec.ofNat k.bits (p / 2 ^ k.bits)
    putWide k hi (BitVec.ofNat k.bits p)
    mulFlags (hi != 0)) s

/-- IMUL r/m (R351). -/
def execImulRm (w : Bool) (rm : Rm) (s : State) : Host.Outcome State Fault Refusal :=
  run (do
    let k := s.widthOf w
    let v ← readRm k rm
    let p := (s.reg k .ax).toInt * v.toInt
    putWide k (BitVec.ofInt k.bits (p / 2 ^ k.bits)) (BitVec.ofInt k.bits p)
    mulFlags (signedOverflow k.bits p)) s

/-- The signed product of two operands to a register (R352, R353). -/
def mulToReg (k : Width) (reg : Gpr) (a b : BitVec k.bits) : M Unit := do
  let p := a.toInt * b.toInt
  putReg k reg (BitVec.ofInt k.bits p)
  mulFlags (signedOverflow k.bits p)

/-- IMUL r16/32, r/m16/32 (R352). -/
def execImulRRm (reg : Gpr) (rm : Rm) (s : State) : Host.Outcome State Fault Refusal :=
  run (do
    let v ← readRm s.opWidth rm
    mulToReg s.opWidth reg (s.reg s.opWidth reg) v) s

/-- IMUL r16/32, r/m16/32, imm16/32 (R353). -/
def execImulRRmImm (reg : Gpr) (rm : Rm) (imm : Word) (s : State) : Host.Outcome State Fault Refusal :=
  run (do
    let v ← readRm s.opWidth rm
    mulToReg s.opWidth reg v (immOf s.opWidth imm)) s

/-- IMUL r16/32, r/m16/32, imm8, sign-extended (R353). -/
def execImulRRmImm8 (reg : Gpr) (rm : Rm) (imm : Byte) (s : State) : Host.Outcome State Fault Refusal :=
  run (do
    let v ← readRm s.opWidth rm
    mulToReg s.opWidth reg v (signByte s.opWidth imm)) s

/-- DIV r/m: #DE for a zero divisor or a quotient that does not fit (R354). -/
def execDivRm (w : Bool) (rm : Rm) (s : State) : Host.Outcome State Fault Refusal :=
  run (do
    let k := s.widthOf w
    let v ← readRm k rm
    check (v != 0) excDE
    let d := (s.wideAcc k).toNat
    check (decide (d / v.toNat < 2 ^ k.bits)) excDE
    putWide k (BitVec.ofNat k.bits (d % v.toNat)) (BitVec.ofNat k.bits (d / v.toNat))
    freeFlags) s

/-- IDIV r/m: truncated toward zero, the remainder with the sign of the dividend; #DE for a zero divisor or a quotient that
does not fit (R355, U25). -/
def execIdivRm (w : Bool) (rm : Rm) (s : State) : Host.Outcome State Fault Refusal :=
  run (do
    let k := s.widthOf w
    let v ← readRm k rm
    check (v != 0) excDE
    let d := (s.wideAcc k).toInt
    let q := d.tdiv v.toInt
    check (!signedOverflow k.bits q) excDE
    putWide k (BitVec.ofInt k.bits (d.tmod v.toInt)) (BitVec.ofInt k.bits q)
    freeFlags) s

/-! ## Conversion (R370, R371) -/

/-- CBW with operand size 16, CWDE with 32 (R370). -/
def signAcc : M Unit := do
  let s ← get
  if s.op32 then putReg .d .ax ((s.reg .w .ax).signExtend 32) else putReg .w .ax ((s.reg .b .ax).signExtend 16)

/-- CWD with operand size 16, CDQ with 32: the sign of the accumulator in every bit of eDX (R371). -/
def signDx : M Unit := do
  let s ← get
  let k := s.opWidth
  putReg k .dx (bif (s.reg k .ax).msb then BitVec.allOnes k.bits else 0)

/-- CBW: opcode 98 (R370). -/
def execCbw (s : State) : Host.Outcome State Fault Refusal := run signAcc s

/-- CWDE: opcode 98 (R370). -/
def execCwde (s : State) : Host.Outcome State Fault Refusal := run signAcc s

/-- CWD: opcode 99 (R371). -/
def execCwd (s : State) : Host.Outcome State Fault Refusal := run signDx s

/-- CDQ: opcode 99 (R371). -/
def execCdq (s : State) : Host.Outcome State Fault Refusal := run signDx s

end Sys2Proof.Machine
end

