-- ==== Sys2Proof/Machine/Logic.lean ====
section
/-!
DEFINITION. Logic: AND, OR, XOR, TEST, NOT (43_logic_shift.md R390 to R394).
-/

namespace Sys2Proof.Machine

/-- AND r/m, r (d = 0); r, r/m (d = 1) (R390). -/
def execAndRmR (d w : Bool) (reg : Gpr) (rm : Rm) (s : State) : Host.Outcome State Fault Refusal :=
  run (aluRmR opAnd d w reg rm) s

/-- AND AL, imm8 (R390). -/
def execAndAlImm (imm : Byte) (s : State) : Host.Outcome State Fault Refusal :=
  run (aluAcc opAnd .b imm) s

/-- AND eAX, imm16/32 (R390). -/
def execAndEaxImm (imm : Word) (s : State) : Host.Outcome State Fault Refusal :=
  run (aluAcc opAnd s.opWidth (immOf s.opWidth imm)) s

/-- AND r/m8, imm8 (R390). -/
def execAndRm8Imm (rm : Rm) (imm : Byte) (s : State) : Host.Outcome State Fault Refusal :=
  run (aluRm opAnd .b rm imm) s

/-- AND r/m16/32, imm16/32 (R390). -/
def execAndRmImm (rm : Rm) (imm : Word) (s : State) : Host.Outcome State Fault Refusal :=
  run (aluRm opAnd s.opWidth rm (immOf s.opWidth imm)) s

/-- AND r/m16/32, imm8, sign-extended (R390). -/
def execAndRmImm8s (rm : Rm) (imm : Byte) (s : State) : Host.Outcome State Fault Refusal :=
  run (aluRm opAnd s.opWidth rm (signByte s.opWidth imm)) s

/-- OR r/m, r (d = 0); r, r/m (d = 1) (R391). -/
def execOrRmR (d w : Bool) (reg : Gpr) (rm : Rm) (s : State) : Host.Outcome State Fault Refusal :=
  run (aluRmR opOr d w reg rm) s

/-- OR AL, imm8 (R391). -/
def execOrAlImm (imm : Byte) (s : State) : Host.Outcome State Fault Refusal :=
  run (aluAcc opOr .b imm) s

/-- OR eAX, imm16/32 (R391). -/
def execOrEaxImm (imm : Word) (s : State) : Host.Outcome State Fault Refusal :=
  run (aluAcc opOr s.opWidth (immOf s.opWidth imm)) s

/-- OR r/m8, imm8 (R391). -/
def execOrRm8Imm (rm : Rm) (imm : Byte) (s : State) : Host.Outcome State Fault Refusal :=
  run (aluRm opOr .b rm imm) s

/-- OR r/m16/32, imm16/32 (R391). -/
def execOrRmImm (rm : Rm) (imm : Word) (s : State) : Host.Outcome State Fault Refusal :=
  run (aluRm opOr s.opWidth rm (immOf s.opWidth imm)) s

/-- OR r/m16/32, imm8, sign-extended (R391). -/
def execOrRmImm8s (rm : Rm) (imm : Byte) (s : State) : Host.Outcome State Fault Refusal :=
  run (aluRm opOr s.opWidth rm (signByte s.opWidth imm)) s

/-- XOR r/m, r (d = 0); r, r/m (d = 1) (R392). -/
def execXorRmR (d w : Bool) (reg : Gpr) (rm : Rm) (s : State) : Host.Outcome State Fault Refusal :=
  run (aluRmR opXor d w reg rm) s

/-- XOR AL, imm8 (R392). -/
def execXorAlImm (imm : Byte) (s : State) : Host.Outcome State Fault Refusal :=
  run (aluAcc opXor .b imm) s

/-- XOR eAX, imm16/32 (R392). -/
def execXorEaxImm (imm : Word) (s : State) : Host.Outcome State Fault Refusal :=
  run (aluAcc opXor s.opWidth (immOf s.opWidth imm)) s

/-- XOR r/m8, imm8 (R392). -/
def execXorRm8Imm (rm : Rm) (imm : Byte) (s : State) : Host.Outcome State Fault Refusal :=
  run (aluRm opXor .b rm imm) s

/-- XOR r/m16/32, imm16/32 (R392). -/
def execXorRmImm (rm : Rm) (imm : Word) (s : State) : Host.Outcome State Fault Refusal :=
  run (aluRm opXor s.opWidth rm (immOf s.opWidth imm)) s

/-- XOR r/m16/32, imm8, sign-extended (R392). -/
def execXorRmImm8s (rm : Rm) (imm : Byte) (s : State) : Host.Outcome State Fault Refusal :=
  run (aluRm opXor s.opWidth rm (signByte s.opWidth imm)) s

/-- TEST AL, imm8 (R393). -/
def execTestAlImm (imm : Byte) (s : State) : Host.Outcome State Fault Refusal :=
  run (opTest .b (s.reg .b .ax) imm) s

/-- TEST eAX, imm16/32 (R393). -/
def execTestEaxImm (imm : Word) (s : State) : Host.Outcome State Fault Refusal :=
  run (opTest s.opWidth (s.reg s.opWidth .ax) (immOf s.opWidth imm)) s

/-- TEST r/m8, imm8 (R393). -/
def execTestRm8Imm (rm : Rm) (imm : Byte) (s : State) : Host.Outcome State Fault Refusal :=
  run (do
    let v ← readRm .b rm
    opTest .b v imm) s

/-- TEST r/m16/32, imm16/32 (R393). -/
def execTestRmImm (rm : Rm) (imm : Word) (s : State) : Host.Outcome State Fault Refusal :=
  run (do
    let v ← readRm s.opWidth rm
    opTest s.opWidth v (immOf s.opWidth imm)) s

/-- TEST r/m, r (R393). -/
def execTestRmR (w : Bool) (reg : Gpr) (rm : Rm) (s : State) : Host.Outcome State Fault Refusal :=
  run (do
    let v ← readRm (s.widthOf w) rm
    opTest (s.widthOf w) v (s.reg (s.widthOf w) reg)) s

/-- NOT r/m: no flag is affected (R394). -/
def execNotRm (w : Bool) (rm : Rm) (s : State) : Host.Outcome State Fault Refusal :=
  run (unaryRm (s.widthOf w) rm (~~~ ·) fun f _ => f) s

end Sys2Proof.Machine
end

