-- ==== Sys2Proof/Machine/Shift.lean ====
section
/-!
DEFINITION. Shifts, rotates and double shifts (43_logic_shift.md R400 to R411). A masked count of 0 writes nothing and changes no
flag (D15), but the memory operand is read and checked for writability (D6): `inspect`, which sets no dirty bit and matches no write
breakpoint (log entry 38).
-/

namespace Sys2Proof.Machine

/-- A shift or rotate: operand, CF, count of at least 1. -/
abbrev ShiftOp := (n : Nat) → BitVec n → Bool → Nat → Shifted n

/-- The flags of a shift with free OF and AF, or of a rotate with free OF (R401 to R408, U1, U2). -/
def shiftFlags (rotate : Bool) {n : Nat} (r : Shifted n) (c : Nat) : M Unit := do
  let freeOf ← drawBit
  if rotate then putFlags fun f => f.rotate r c freeOf
  else
    let freeAf ← drawBit
    putFlags fun f => f.shift r c freeOf freeAf

/-- A count of 0: the operand is examined, nothing is written (D6, D15). -/
def inspectOnly (k : Width) (rm : Rm) : M Unit := do
  let t ← targetRm rm
  let _ ← inspect k t
  pure ()

/-- The shape of shifts and rotates: only the low five bits of the count are used (R400). A RCL or RCR by a count that is not 0 but
leaves the operand as it is stores it back (R407, R408; log entry 59). -/
def shiftRm (op : ShiftOp) (rotate w : Bool) (rm : Rm) (count : Byte) : M Unit := do
  let k ← look fun s => s.widthOf w
  let cf ← look fun s => s.flags.cf
  let c := count.toNat % 32
  if c = 0 then inspectOnly k rm
  else
    let (p, v) ← modifyRm k rm
    let r := op k.bits v cf c
    shiftFlags rotate r c
    putPlace k p r.val

/-- The count register CL (R400). -/
def State.cl (s : State) : Byte := s.reg .b .cx

/-! ## Shifts and rotates (R401 to R408) -/

/-- ROL r/m, 1 (R405). -/
def execRolRm1 (w : Bool) (rm : Rm) (s : State) : Host.Outcome State Fault Refusal :=
  run (shiftRm @rol true w rm 1) s

/-- ROL r/m, CL (R405). -/
def execRolRmCl (w : Bool) (rm : Rm) (s : State) : Host.Outcome State Fault Refusal :=
  run (shiftRm @rol true w rm s.cl) s

/-- ROL r/m, imm8 (R405). -/
def execRolRmImm (w : Bool) (rm : Rm) (imm : Byte) (s : State) : Host.Outcome State Fault Refusal :=
  run (shiftRm @rol true w rm imm) s

/-- ROR r/m, 1 (R406). -/
def execRorRm1 (w : Bool) (rm : Rm) (s : State) : Host.Outcome State Fault Refusal :=
  run (shiftRm @ror true w rm 1) s

/-- ROR r/m, CL (R406). -/
def execRorRmCl (w : Bool) (rm : Rm) (s : State) : Host.Outcome State Fault Refusal :=
  run (shiftRm @ror true w rm s.cl) s

/-- ROR r/m, imm8 (R406). -/
def execRorRmImm (w : Bool) (rm : Rm) (imm : Byte) (s : State) : Host.Outcome State Fault Refusal :=
  run (shiftRm @ror true w rm imm) s

/-- RCL r/m, 1 (R407). -/
def execRclRm1 (w : Bool) (rm : Rm) (s : State) : Host.Outcome State Fault Refusal :=
  run (shiftRm @rcl true w rm 1) s

/-- RCL r/m, CL (R407). -/
def execRclRmCl (w : Bool) (rm : Rm) (s : State) : Host.Outcome State Fault Refusal :=
  run (shiftRm @rcl true w rm s.cl) s

/-- RCL r/m, imm8 (R407). -/
def execRclRmImm (w : Bool) (rm : Rm) (imm : Byte) (s : State) : Host.Outcome State Fault Refusal :=
  run (shiftRm @rcl true w rm imm) s

/-- RCR r/m, 1 (R408). -/
def execRcrRm1 (w : Bool) (rm : Rm) (s : State) : Host.Outcome State Fault Refusal :=
  run (shiftRm @rcr true w rm 1) s

/-- RCR r/m, CL (R408). -/
def execRcrRmCl (w : Bool) (rm : Rm) (s : State) : Host.Outcome State Fault Refusal :=
  run (shiftRm @rcr true w rm s.cl) s

/-- RCR r/m, imm8 (R408). -/
def execRcrRmImm (w : Bool) (rm : Rm) (imm : Byte) (s : State) : Host.Outcome State Fault Refusal :=
  run (shiftRm @rcr true w rm imm) s

/-- SHL r/m, 1 (R401). -/
def execShlRm1 (w : Bool) (rm : Rm) (s : State) : Host.Outcome State Fault Refusal :=
  run (shiftRm @shl false w rm 1) s

/-- SHL r/m, CL (R401). -/
def execShlRmCl (w : Bool) (rm : Rm) (s : State) : Host.Outcome State Fault Refusal :=
  run (shiftRm @shl false w rm s.cl) s

/-- SHL r/m, imm8 (R401). -/
def execShlRmImm (w : Bool) (rm : Rm) (imm : Byte) (s : State) : Host.Outcome State Fault Refusal :=
  run (shiftRm @shl false w rm imm) s

/-- SHR r/m, 1 (R402). -/
def execShrRm1 (w : Bool) (rm : Rm) (s : State) : Host.Outcome State Fault Refusal :=
  run (shiftRm @shr false w rm 1) s

/-- SHR r/m, CL (R402). -/
def execShrRmCl (w : Bool) (rm : Rm) (s : State) : Host.Outcome State Fault Refusal :=
  run (shiftRm @shr false w rm s.cl) s

/-- SHR r/m, imm8 (R402). -/
def execShrRmImm (w : Bool) (rm : Rm) (imm : Byte) (s : State) : Host.Outcome State Fault Refusal :=
  run (shiftRm @shr false w rm imm) s

/-- SAR r/m, 1 (R403). -/
def execSarRm1 (w : Bool) (rm : Rm) (s : State) : Host.Outcome State Fault Refusal :=
  run (shiftRm @sar false w rm 1) s

/-- SAR r/m, CL (R403). -/
def execSarRmCl (w : Bool) (rm : Rm) (s : State) : Host.Outcome State Fault Refusal :=
  run (shiftRm @sar false w rm s.cl) s

/-- SAR r/m, imm8 (R403). -/
def execSarRmImm (w : Bool) (rm : Rm) (imm : Byte) (s : State) : Host.Outcome State Fault Refusal :=
  run (shiftRm @sar false w rm imm) s

/-! ## Double shifts (R410, R411) -/

/-- The shape of SHLD and SHRD: count 0 changes nothing; a count of the operand size or more leaves the destination and the six
flags free; else the result, CF the last bit shifted out, SF, ZF, PF of the result, OF and AF free (D19, U2, U3). -/
def doubleRm (value : (n : Nat) → BitVec n → BitVec n → Nat → BitVec n) (lastBit : Nat → Nat → Nat) (reg : Gpr) (rm : Rm)
    (count : Byte) : M Unit := do
  let k ← look State.opWidth
  let b ← look fun s => s.reg k reg
  let c := count.toNat % 32
  if c = 0 then inspectOnly k rm
  else if k.bits ≤ c then
    let (p, _) ← modifyRm k rm
    let v ← drawBits k.bits
    freeFlags
    putPlace k p v
  else
    let (p, a) ← modifyRm k rm
    let r := value k.bits a b c
    let freeOf ← drawBit
    let freeAf ← drawBit
    putFlags fun f => f.doubleShift r (a.getLsbD (lastBit k.bits c)) freeOf freeAf
    putPlace k p r

/-- SHLD: the last bit shifted out is bit N - count (R410). -/
def shiftLeftDouble (reg : Gpr) (rm : Rm) (count : Byte) : M Unit :=
  doubleRm @shldValue (fun n c => n - c) reg rm count

/-- SHRD: the last bit shifted out is bit count - 1 (R411). -/
def shiftRightDouble (reg : Gpr) (rm : Rm) (count : Byte) : M Unit :=
  doubleRm @shrdValue (fun _ c => c - 1) reg rm count

/-- SHLD r/m, r, imm8 (R410). -/
def execShldImm (reg : Gpr) (rm : Rm) (imm : Byte) (s : State) : Host.Outcome State Fault Refusal :=
  run (shiftLeftDouble reg rm imm) s

/-- SHLD r/m, r, CL (R410). -/
def execShldCl (reg : Gpr) (rm : Rm) (s : State) : Host.Outcome State Fault Refusal :=
  run (shiftLeftDouble reg rm s.cl) s

/-- SHRD r/m, r, imm8 (R411). -/
def execShrdImm (reg : Gpr) (rm : Rm) (imm : Byte) (s : State) : Host.Outcome State Fault Refusal :=
  run (shiftRightDouble reg rm imm) s

/-- SHRD r/m, r, CL (R411). -/
def execShrdCl (reg : Gpr) (rm : Rm) (s : State) : Host.Outcome State Fault Refusal :=
  run (shiftRightDouble reg rm s.cl) s

end Sys2Proof.Machine
end

