-- ==== Sys2Proof/Machine/String.lean ====
section
/-!
DEFINITION. String instructions, XLAT and the repeat prefixes (44_string_rep.md). One iteration of a repeated instruction is one
step that leaves EIP at the first prefix while more are to come (R452).
-/

namespace Sys2Proof.Machine

/-! ## Elements (R440) -/

/-- An index register after an element of `n` bytes: up with DF = 0, down with DF = 1 (R440). -/
def State.stepIndex (s : State) (r : Gpr) (n : Nat) : State :=
  s.setAddrReg r (bif s.flags.df then addrReg s r - BitVec.ofNat 32 n else addrReg s r + BitVec.ofNat 32 n)

/-- Step the source index (R440). -/
def stepSi (n : Nat) : M Unit := update fun s => s.stepIndex .si n

/-- Step the destination index (R440). -/
def stepDi (n : Nat) : M Unit := update fun s => s.stepIndex .di n

/-- The source element: DS:eSI, or the override's segment (R440). -/
def sourceElement (k : Width) : M (BitVec k.bits) := do
  let s ← get
  readAt k (s.segOr .ds) (addrReg s .si)

/-- The destination element, read: ES:eDI (R440). -/
def destElement (k : Width) : M (BitVec k.bits) := do
  let s ← get
  readAt k .es (addrReg s .di)

/-- The destination element, checked and translated for a write: ES:eDI (R440). -/
def destPlan (k : Width) : M (List Word) := do
  let s ← get
  plan .es (addrReg s .di) k.bytes true

/-- One MOVS (R441). -/
def moveElement (k : Width) : M Unit := do
  let v ← sourceElement k
  let ps ← destPlan k
  storeAt k ps v
  stepSi k.bytes
  stepDi k.bytes

/-- One CMPS: the source element is the minuend (R442). -/
def compareElements (k : Width) : M Unit := do
  let a ← sourceElement k
  let b ← destElement k
  opCmp k a b
  stepSi k.bytes
  stepDi k.bytes

/-- One SCAS: the accumulator is the minuend (R443). -/
def scanElement (k : Width) : M Unit := do
  let a ← look fun s => s.reg k .ax
  let b ← destElement k
  opCmp k a b
  stepDi k.bytes

/-- One STOS (R444). -/
def storeElement (k : Width) : M Unit := do
  let a ← look fun s => s.reg k .ax
  let ps ← destPlan k
  storeAt k ps a
  stepDi k.bytes

/-- One LODS (R445). -/
def loadElement (k : Width) : M Unit := do
  let v ← sourceElement k
  putReg k .ax v
  stepSi k.bytes

/-- One INS: the destination is checked before the port is read (R446, D32). -/
def inputElement (k : Width) : M Unit := do
  let port ← look fun s => (s.reg .w .dx).toNat
  ioCheck port k.bytes
  let ps ← destPlan k
  let v ← ioRead port k.bytes
  storeAt k ps (v.setWidth k.bits)
  stepDi k.bytes

/-- One OUTS (R447). -/
def outputElement (k : Width) : M Unit := do
  let port ← look fun s => (s.reg .w .dx).toNat
  ioCheck port k.bytes
  let v ← sourceElement k
  ioWrite port k.bytes (v.setWidth 32)
  stepSi k.bytes

/-! ## Repetition (R450, R452) -/

/-- The condition that ends a repeated CMPS or SCAS: REPE with ZF = 0, REPNE with ZF = 1 (R450). -/
def RepKind.exits : RepKind → Bool → Bool
  | .rep, zf => !zf
  | .repne, zf => zf

/-- The count after an iteration (R450). -/
def countDown : M Unit := update fun s => s.setAddrReg .cx (addrReg s .cx - 1)

/-- The repetition is over: the count is 0, or a comparison met its exit condition (R450). -/
def State.repeatOver (s : State) (kind : RepKind) (compares : Bool) : Bool :=
  addrReg s .cx == 0 || (compares && kind.exits s.flags.zf)

/-- A string instruction with or without a repeat prefix: nothing for a count of 0, else one element, the count down by one, and
the same instruction again unless the repetition is over (R450, R452). -/
def repeated (compares : Bool) (element : M Unit) : M Ending := do
  let s ← get
  match s.fetch.pfx.rep with
  | none => do
    element
    pure Ending.plain
  | some kind =>
    if addrReg s .cx = 0 then pure Ending.plain
    else
      element
      countDown
      let isOver ← look fun t => t.repeatOver kind compares
      if isOver then pure Ending.plain
      else
        rewind
        pure Ending.iterate

/-- MOVS (R441). -/
def execMovs (w : Bool) (s : State) : Host.Outcome State Fault Refusal :=
  runEnding (repeated false (moveElement (s.widthOf w))) s

/-- CMPS (R442). -/
def execCmps (w : Bool) (s : State) : Host.Outcome State Fault Refusal :=
  runEnding (repeated true (compareElements (s.widthOf w))) s

/-- SCAS (R443). -/
def execScas (w : Bool) (s : State) : Host.Outcome State Fault Refusal :=
  runEnding (repeated true (scanElement (s.widthOf w))) s

/-- STOS (R444). -/
def execStos (w : Bool) (s : State) : Host.Outcome State Fault Refusal :=
  runEnding (repeated false (storeElement (s.widthOf w))) s

/-- LODS (R445). -/
def execLods (w : Bool) (s : State) : Host.Outcome State Fault Refusal :=
  runEnding (repeated false (loadElement (s.widthOf w))) s

/-- INS (R446). -/
def execIns (w : Bool) (s : State) : Host.Outcome State Fault Refusal :=
  runEnding (repeated false (inputElement (s.widthOf w))) s

/-- OUTS (R447). -/
def execOuts (w : Bool) (s : State) : Host.Outcome State Fault Refusal :=
  runEnding (repeated false (outputElement (s.widthOf w))) s

/-! ## XLAT (R449) -/

/-- The offset XLAT reads: eBX plus AL, modulo the address size (R449). -/
def State.xlatOffset (s : State) : Word := addrTrunc s (s.regs.ebx + (s.reg .b .ax).setWidth 32)

/-- XLAT (R449). -/
def execXlat (s : State) : Host.Outcome State Fault Refusal :=
  run (do
    let v ← readAt .b (s.segOr .ds) s.xlatOffset
    putReg .b .ax v) s

end Sys2Proof.Machine
end

