-- ==== Sys2Proof/Machine/Bit.lean ====
section
/-!
DEFINITION. Bit test and bit scan (45_bit.md).
-/

namespace Sys2Proof.Machine

/-! ## Locating the bit (R480) -/

/-- CF the selected bit; OF, SF, ZF, AF, PF free (R480, U4). -/
def bitFlags (cf : Bool) : M Unit := do
  let sf ← drawBit
  let zf ← drawBit
  let af ← drawBit
  let pf ← drawBit
  let of ← drawBit
  putFlags fun f => f.bitTest cf sf zf af pf of

/-- The bit number in the operand: the offset modulo N (R480). -/
def bitNumber (k : Width) (o : BitVec k.bits) : Nat := (o.toInt % k.bits).toNat

/-- How far from the effective address the operand holding the bit lies (R480). -/
def bitDistance (k : Width) (o : BitVec k.bits) : Word := BitVec.ofInt 32 (k.bytes * (o.toInt / k.bits))

/-- The segment and offset of the operand that holds the bit at a signed offset from a memory operand (R480). -/
def bitAddress (k : Width) (m : MemOp) (o : BitVec k.bits) : M (Sreg × Word) := do
  let (sr, off) ← addressOf m
  let s ← get
  pure (sr, addrTrunc s (off + bitDistance k o))

/-- BT with the operand's value: nothing is written (R481). -/
def testBit (k : Width) (v : BitVec k.bits) (bit : Nat) : M Unit := bitFlags (v.getLsbD bit)

/-- BTS, BTR, BTC with the operand's place and value (R482 to R484). -/
def changeBit (k : Width) (f : BitVec k.bits → BitVec k.bits → BitVec k.bits) (p : Place) (v : BitVec k.bits) (bit : Nat) :
    M Unit := do
  bitFlags (v.getLsbD bit)
  putPlace k p (f v (1 <<< bit))

/-- A bit operation: its value from the old value and the mask of the bit. -/
abbrev BitOp := (k : Width) → BitVec k.bits → BitVec k.bits → BitVec k.bits

/-- The bit set (R482). -/
def bitSet : BitOp := fun _ v m => v ||| m

/-- The bit cleared (R483). -/
def bitReset : BitOp := fun _ v m => v &&& ~~~m

/-- The bit complemented (R484). -/
def bitComplement : BitOp := fun _ v m => v ^^^ m

/-- BTS, BTR, BTC with an immediate bit offset (R480). -/
def changeBitImm (f : BitOp) (rm : Rm) (imm : Byte) : M Unit := do
  let k ← look State.opWidth
  let (p, v) ← modifyRm k rm
  changeBit k (f k) p v (imm.toNat % k.bits)

/-- BTS, BTR, BTC with the bit offset in a register (R480). -/
def changeBitReg (f : BitOp) (reg : Gpr) (rm : Rm) : M Unit := do
  let k ← look State.opWidth
  let o ← look fun s => s.reg k reg
  match rm with
  | .reg _ => do
    let (p, v) ← modifyRm k rm
    changeBit k (f k) p v (bitNumber k o)
  | .mem m => do
    let (sr, off) ← bitAddress k m o
    let (p, v) ← modifyAt k sr off
    changeBit k (f k) p v (bitNumber k o)

/-! ## BT, BTS, BTR, BTC (R481 to R484) -/

/-- BT r/m, imm8 (R481). -/
def execBtImm (rm : Rm) (imm : Byte) (s : State) : Host.Outcome State Fault Refusal :=
  run (do
    let v ← readRm s.opWidth rm
    testBit s.opWidth v (imm.toNat % s.opWidth.bits)) s

/-- BT with the bit offset in a register (R480, R481). -/
def testBitReg (reg : Gpr) (rm : Rm) : M Unit := do
  let k ← look State.opWidth
  let o ← look fun s => s.reg k reg
  match rm with
  | .reg _ => do
    let v ← readRm k rm
    testBit k v (bitNumber k o)
  | .mem m => do
    let (sr, off) ← bitAddress k m o
    let v ← readAt k sr off
    testBit k v (bitNumber k o)

/-- BT r/m, r (R481). -/
def execBtR (reg : Gpr) (rm : Rm) (s : State) : Host.Outcome State Fault Refusal :=
  run (testBitReg reg rm) s

/-- BTS r/m, imm8 (R482). -/
def execBtsImm (rm : Rm) (imm : Byte) (s : State) : Host.Outcome State Fault Refusal :=
  run (changeBitImm bitSet rm imm) s

/-- BTS r/m, r (R482). -/
def execBtsR (reg : Gpr) (rm : Rm) (s : State) : Host.Outcome State Fault Refusal :=
  run (changeBitReg bitSet reg rm) s

/-- BTR r/m, imm8 (R483). -/
def execBtrImm (rm : Rm) (imm : Byte) (s : State) : Host.Outcome State Fault Refusal :=
  run (changeBitImm bitReset rm imm) s

/-- BTR r/m, r (R483). -/
def execBtrR (reg : Gpr) (rm : Rm) (s : State) : Host.Outcome State Fault Refusal :=
  run (changeBitReg bitReset reg rm) s

/-- BTC r/m, imm8 (R484). -/
def execBtcImm (rm : Rm) (imm : Byte) (s : State) : Host.Outcome State Fault Refusal :=
  run (changeBitImm bitComplement rm imm) s

/-- BTC r/m, r (R484). -/
def execBtcR (reg : Gpr) (rm : Rm) (s : State) : Host.Outcome State Fault Refusal :=
  run (changeBitReg bitComplement reg rm) s

/-! ## BSF and BSR (R485, R486) -/

/-- The shape of BSF and BSR: ZF tells a zero source, whose destination is free; the other status flags are free (U4, U14). -/
def scanRm (index : (k : Width) → BitVec k.bits → Nat) (reg : Gpr) (rm : Rm) : M Unit := do
  let k ← look State.opWidth
  let v ← readRm k rm
  let free ← drawBits k.bits
  let sf ← drawBit
  let af ← drawBit
  let pf ← drawBit
  let cf ← drawBit
  let of ← drawBit
  putReg k reg (bif v == 0 then free else BitVec.ofNat k.bits (index k v))
  putFlags fun f => f.bitScan (v == 0) sf af pf cf of

/-- BSF (R485). -/
def execBsf (reg : Gpr) (rm : Rm) (s : State) : Host.Outcome State Fault Refusal :=
  run (scanRm (fun k v => scanForward v k.bits 0) reg rm) s

/-- BSR (R486). -/
def execBsr (reg : Gpr) (rm : Rm) (s : State) : Host.Outcome State Fault Refusal :=
  run (scanRm (fun k v => scanReverse v k.bits) reg rm) s

end Sys2Proof.Machine
end

