-- ==== Sys2Proof/Machine/Control.lean ====
section
/-!
DEFINITION. Control transfer, conditional byte set, ENTER and LEAVE (46_control_transfer.md). The far transfers and returns are
shared operations of Ops.lean.
-/

namespace Sys2Proof.Machine

/-! ## Jumps and calls (R500 to R505, R512) -/

/-- A jump to a relative target (R500, R501). -/
def jumpRel (disp : Word) : M Unit := do
  let t ← relTarget disp
  jumpTo t

/-- A call to a target within the code segment: the return address is pushed (R504, R505). -/
def callTo (t : Word) : M Unit := do
  let eip ← look fun s => s.eip
  pushValue eip
  jumpTo t

/-- The target of a near indirect transfer, checked (R502, R505). -/
def indirectTarget (rm : Rm) : M Word := do
  let k ← look State.opWidth
  let v ← readRm k rm
  checkTarget (v.setWidth 32)
  pure (v.setWidth 32)

/-- A far pointer in memory: the offset of the operand size, then the selector, at an offset that is not taken modulo 2^16 (R503; log
entry 49). -/
def readFarPointer (m : MemOp) : M (Word × HWord) := do
  let k ← look State.opWidth
  let (sr, off) ← addressOf m
  let v ← readAt k sr off
  let sel ← readAt .w sr (off + BitVec.ofNat 32 k.bytes)
  pure (v.setWidth 32, sel)

/-- JMP rel8 (R501). -/
def execJmpRel8 (d : Byte) (s : State) : Host.Outcome State Fault Refusal :=
  run (jumpRel (sext32 d)) s

/-- JMP rel16/32 (R501). -/
def execJmpRel (d : Word) (s : State) : Host.Outcome State Fault Refusal :=
  run (jumpRel (dispOf s.op32 d)) s

/-- JMP r/m16/32 (R502). -/
def execJmpRm (rm : Rm) (s : State) : Host.Outcome State Fault Refusal :=
  run (do
    let t ← indirectTarget rm
    jumpTo t) s

/-- JMP ptr16:16/32 (R503). -/
def execJmpFar (off : Word) (sel : HWord) (s : State) : Host.Outcome State Fault Refusal :=
  runEnding (farTransfer sel (sizeTarget s.op32 off) .jmp) s

/-- JMP m16:16/32 (R503). -/
def execJmpMemFar (m : MemOp) (s : State) : Host.Outcome State Fault Refusal :=
  runEnding (do
    let (off, sel) ← readFarPointer m
    farTransfer sel off .jmp) s

/-- CALL rel16/32: the target is checked before the push (R504). -/
def execCallRel (d : Word) (s : State) : Host.Outcome State Fault Refusal :=
  run (do
    let t ← relTarget (dispOf s.op32 d)
    callTo t) s

/-- CALL r/m16/32: the operand is read before the push (R505). -/
def execCallRm (rm : Rm) (s : State) : Host.Outcome State Fault Refusal :=
  run (do
    let t ← indirectTarget rm
    callTo t) s

/-- CALL ptr16:16/32 (R512). -/
def execCallFar (off : Word) (sel : HWord) (s : State) : Host.Outcome State Fault Refusal :=
  runEnding (farTransfer sel (sizeTarget s.op32 off) .call) s

/-- CALL m16:16/32 (R512). -/
def execCallMemFar (m : MemOp) (s : State) : Host.Outcome State Fault Refusal :=
  runEnding (do
    let (off, sel) ← readFarPointer m
    farTransfer sel off .call) s

/-! ## Returns (R513 to R515) -/

/-- RET near, releasing `extra` bytes more: the target is checked before eSP changes (R513). -/
def returnNear (extra : Word) : M Unit := do
  let n ← look fun s => s.opWidth.bytes
  let t ← stackRead 0 n
  checkTarget t
  releaseStack (BitVec.ofNat 32 n + extra)
  jumpTo t

/-- RET near (R513). -/
def execRetNear (s : State) : Host.Outcome State Fault Refusal :=
  run (returnNear 0) s

/-- RET near, imm16 (R513). -/
def execRetNearImm (n : HWord) (s : State) : Host.Outcome State Fault Refusal :=
  run (returnNear (n.setWidth 32)) s

/-- RET far (R514, R515). -/
def execRetFar (s : State) : Host.Outcome State Fault Refusal :=
  run (retFar 0) s

/-- RET far, imm16 (R514, R515). -/
def execRetFarImm (n : HWord) (s : State) : Host.Outcome State Fault Refusal :=
  run (retFar (n.setWidth 32)) s

/-! ## Conditional transfers (R520 to R524) -/

/-- A jump when a condition holds; otherwise the target is not checked (R520). -/
def jumpIf (taken : Bool) (disp : Word) : M Unit := bif taken then jumpRel disp else pure ()

/-- Jcc rel8 (R520). -/
def execJccRel8 (cc : Cond) (d : Byte) (s : State) : Host.Outcome State Fault Refusal :=
  run (jumpIf (s.flags.cond cc) (sext32 d)) s

/-- Jcc rel16/32 (R520). -/
def execJccRel (cc : Cond) (d : Word) (s : State) : Host.Outcome State Fault Refusal :=
  run (jumpIf (s.flags.cond cc) (dispOf s.op32 d)) s

/-- JCXZ / JECXZ: the address size selects CX or ECX (R521). -/
def execJcxz (d : Byte) (s : State) : Host.Outcome State Fault Refusal :=
  run (jumpIf (addrReg s .cx == 0) (sext32 d)) s

/-- The count after LOOP's decrement (R522). -/
def State.loopCount (s : State) : Word := addrTrunc s (addrReg s .cx - 1)

/-- LOOP, LOOPE and LOOPNE: the target of a taken branch is checked before the count changes (R522 to R524). -/
def loopIf (ok : Bool) (d : Byte) : M Unit := do
  let c ← look State.loopCount
  if ok && c != 0 then
    let t ← relTarget (sext32 d)
    update fun s => s.setAddrReg .cx c
    jumpTo t
  else update fun s => s.setAddrReg .cx c

/-- LOOP (R522). -/
def execLoop (d : Byte) (s : State) : Host.Outcome State Fault Refusal :=
  run (loopIf true d) s

/-- LOOPE / LOOPZ (R523). -/
def execLoope (d : Byte) (s : State) : Host.Outcome State Fault Refusal :=
  run (loopIf s.flags.zf d) s

/-- LOOPNE / LOOPNZ (R524). -/
def execLoopne (d : Byte) (s : State) : Host.Outcome State Fault Refusal :=
  run (loopIf (!s.flags.zf) d) s

/-! ## SETcc (R530) -/

/-- SETcc (R530). -/
def execSetcc (cc : Cond) (rm : Rm) (s : State) : Host.Outcome State Fault Refusal :=
  run (moveToRm .b rm (bif s.flags.cond cc then 1 else 0)) s

/-! ## ENTER and LEAVE (R540, R541) -/

/-- Plan the copies of the outer frame pointers: where each is read and where it is pushed (R540, D6). -/
def planDisplay (n : Nat) : Nat → Word → Word → M (List (List Word × List Word) × Word)
  | 0, _, esp => pure ([], esp)
  | i + 1, ebp, esp => do
    let s ← get
    let ebp' := moveSp s.stack32 ebp (-(BitVec.ofNat 32 n))
    let rd ← plan .ss (stackPtr s.stack32 ebp') n false
    let (wr, esp') ← planPush (s.seg .ss) s.stack32 s.userLevel (excSS 0) esp n
    let (rest, last) ← planDisplay n i ebp' esp'
    pure ((rd, wr) :: rest, last)

/-- ENTER: every access is checked and translated before the first store (R540, D6). The frame pointer pushed is ESP at the operand
size; eBP takes it at the width of the stack (log entry 34). -/
def enterFrame (size : HWord) (level : Byte) : M Unit := do
  let s ← get
  let n := s.opWidth.bytes
  let l := level.toNat % 32
  let pushOne (esp : Word) := planPush (s.seg .ss) s.stack32 s.userLevel (excSS 0) esp n
  let (wr, esp) ← pushOne s.regs.esp
  let (display, last) ← (if l = 0 then pure ([], esp) else planDisplay n (l - 1) s.regs.ebp esp)
  let (link, final) ← (if l = 0 then pure ([], last) else pushOne last)
  physWrite wr (bytesOf n s.regs.ebp)
  copyAll display
  physWrite link (bytesOf n esp)
  update fun t => t.withRegs
    { t.regs with ebp := loadSp s.stack32 t.regs.ebp esp, esp := moveSp s.stack32 final (-(size.setWidth 32)) }

/-- ENTER (R540). -/
def execEnter (size : HWord) (level : Byte) (s : State) : Host.Outcome State Fault Refusal :=
  run (enterFrame size level) s

/-- LEAVE: eSP from eBP, then eBP popped (R541). -/
def leaveFrame : M Unit := do
  update fun s => s.withRegs { s.regs with
    esp := loadSp s.stack32 s.regs.esp s.regs.ebp }
  let k ← look State.opWidth
  let v ← popValue
  putReg k .bp (immOf k v)

/-- LEAVE (R541). -/
def execLeave (s : State) : Host.Outcome State Fault Refusal :=
  run leaveFrame s

end Sys2Proof.Machine
end

