-- ==== Sys2Proof/Machine/Interrupt.lean ====
section
/-!
DEFINITION. INT n, INT 3, INTO, BOUND and IRET (47_interrupt.md). Taking an interrupt and returning from one are the shared
operations `takeSoftware` and `returnInterrupt` of Ops.lean.
-/

namespace Sys2Proof.Machine

/-- INT n: #GP(0) in Virtual 8086 Mode with IOPL < 3, else the interrupt is taken (R570). -/
def execInt (n : Byte) (s : State) : Host.Outcome State Fault Refusal :=
  if s.v86Mode && s.flags.iopl != 3 then run (raise (excGP 0)) s
  else takeSoftware (softwareEvent n s) s

/-- INT 3: not IOPL-sensitive (R571). -/
def execInt3 (s : State) : Host.Outcome State Fault Refusal :=
  takeSoftware (softwareEvent 3 s) s

/-- INTO: interrupt 4 when OF = 1 (R572). -/
def execInto (s : State) : Host.Outcome State Fault Refusal :=
  if s.flags.of then takeSoftware (softwareEvent 4 s) s
  else run (pure ()) s

/-- BOUND: #BR when the signed index lies outside the bounds, both inclusive; the offset of the upper bound is not taken modulo 2^16
(R573; log entry 49). -/
def execBound (reg : Gpr) (m : MemOp) (s : State) : Host.Outcome State Fault Refusal :=
  run (do
    let k := s.opWidth
    let (sr, off) ← addressOf m
    let lo ← readAt k sr off
    let hi ← readAt k sr (off + BitVec.ofNat 32 k.bytes)
    let v := s.reg k reg
    check (decide (lo.toInt ≤ v.toInt) && decide (v.toInt ≤ hi.toInt)) excBR) s

/-- IRET / IRETD (R578). -/
def execIret (s : State) : Host.Outcome State Fault Refusal :=
  runEnding returnInterrupt s

end Sys2Proof.Machine
end

