-- ==== Sys2Proof/Machine/Processor.lean ====
section
/-!
DEFINITION. HLT, the moves to and from control, debug and test registers, NOP, WAIT and ESC (48_processor_control.md;
10_state.md R43 to R57).
-/

namespace Sys2Proof.Machine

/-- NOP (R610). -/
def execNop (s : State) : Host.Outcome State Fault Refusal :=
  run (pure ()) s

/-- HLT (R600). -/
def execHlt (s : State) : Host.Outcome State Fault Refusal :=
  run (do
    needCpl0
    update fun t => t.withActivity .halted) s

/-! ## Control registers (R44, R46, R47, R601) -/

/-- CR0 as its word; bits 30:5 are reserved and free (R44, U12; log entry 12). -/
def Cr0.toWord (c : Cr0) (free : BitVec 26) : Word :=
  BitVec.ofBool c.pg ++ free ++ BitVec.ofBool c.et ++ BitVec.ofBool c.ts ++ BitVec.ofBool c.em ++ BitVec.ofBool c.mp ++
  BitVec.ofBool c.pe

/-- The fields of CR0 from a word (R44). -/
def Cr0.ofWord (v : Word) : Cr0 :=
  { pe := v.getLsbD 0, mp := v.getLsbD 1, em := v.getLsbD 2, ts := v.getLsbD 3, et := v.getLsbD 4, pg := v.getLsbD 31 }

/-- Replace CR0. When PE changes, instructions already prefetched may still be decoded and run in the old mode; when PG changes, bytes
already prefetched may still run (R144, R601, R800; log entries 14, 15). -/
def State.putCr0 (s : State) (c : Cr0) : State :=
  let u := bif c.pg == s.cr0.pg then s else s.keepAhead
  let t := u.withCr0 c
  bif c.pe == s.cr0.pe then t
  else t.withFetch { u.fetch with window := some { code32 := s.inOwnMode.code32, start := s.eip } }

/-- The value of a control register; reserved bits are free (R44, R46, R47, U12). -/
def readCr (cr : CrReg) : M Word := do
  let s ← get
  match cr with
  | .cr0 => do
    let free ← drawBits 26
    pure (s.cr0.toWord free)
  | .cr2 => pure s.cr2
  | .cr3 => do
    let free ← drawBits 12
    pure (s.cr3 ++ free)

/-- Write a control register: CR0 may switch the mode and paging, CR3 flushes the TLB; bytes already prefetched
stay (R601, R47, R144, D34). -/
def writeCr (cr : CrReg) (v : Word) : M Unit :=
  match cr with
  | .cr0 =>
    let c := Cr0.ofWord v
    if c.pg && !c.pe then refuse .pagingWithoutProtection
    else update fun s => s.putCr0 c
  | .cr2 => update fun s => s.withCr2 v
  | .cr3 => update fun s =>
    ((bif s.pagingOn then s.keepAhead else s).withCr3 (v.extractLsb' 12 20)).withTlb []

/-- MOV r32, CRn (R601). -/
def execMovRCr (reg : Gpr) (cr : CrReg) (s : State) : Host.Outcome State Fault Refusal :=
  run (do
    needCpl0
    let v ← readCr cr
    putReg .d reg v
    freeFlags) s

/-- MOV CRn, r32 (R601). -/
def execMovCrR (cr : CrReg) (reg : Gpr) (s : State) : Host.Outcome State Fault Refusal :=
  run (do
    needCpl0
    writeCr cr (s.reg .d reg)
    freeFlags) s

/-! ## Debug registers (R52 to R54, R602, R754) -/

/-- DR6 as its word; bits 12:4 and 31:16 are reserved and free (R53, U12). -/
def Dr6.toWord (d : Dr6) (low : BitVec 9) (high : BitVec 16) : Word :=
  high ++ BitVec.ofBool d.bt ++ BitVec.ofBool d.bs ++ BitVec.ofBool d.bd ++ low ++ d.b

/-- The fields of DR6 from a word (R53). -/
def Dr6.ofWord (v : Word) : Dr6 :=
  { b := v.extractLsb' 0 4, bd := v.getLsbD 13, bs := v.getLsbD 14, bt := v.getLsbD 15 }

/-- DR7 as its word; bits 12:10 and 15:14 are reserved and free (R54, U12). -/
def Dr7.toWord (d : Dr7) (low : BitVec 3) (high : BitVec 2) : Word :=
  d.ctl ++ high ++ BitVec.ofBool d.gd ++ low ++ BitVec.ofBool d.ge ++ BitVec.ofBool d.le ++ d.enables

/-- The fields of DR7 from a word (R54). -/
def Dr7.ofWord (v : Word) : Dr7 :=
  { enables := v.extractLsb' 0 8, le := v.getLsbD 8, ge := v.getLsbD 9, gd := v.getLsbD 13, ctl := v.extractLsb' 16 16 }

/-- The checks of a debug register move: CPL 0, then general detect, which sets DR6.BD (R602, R754). A free choice of the breakpoints that
matched the instruction without being enabled is told with it (R755); a debug trap that the shadow of MOV SS holds off is not (R756; log
entries 11, 63). -/
def needDebug : M Unit := do
  needCpl0
  let s ← get
  if s.dregs.dr7.gd then do
    let told ← drawBits 4
    update fun t => t.withDebug { t.dregs with dr6 := { t.dregs.dr6.report 0 (t.pend.near &&& told) false false with bd := true } }
    raise excDB
  else pure ()

/-- The value of a debug register; reserved bits are free (R52 to R54, U12). -/
def readDr (dr : DrReg) : M Word := do
  let d ← look fun s => s.dregs
  match dr with
  | .dr0 => pure d.dr0
  | .dr1 => pure d.dr1
  | .dr2 => pure d.dr2
  | .dr3 => pure d.dr3
  | .dr6 => do
    let low ← drawBits 9
    let high ← drawBits 16
    pure (d.dr6.toWord low high)
  | .dr7 => do
    let low ← drawBits 3
    let high ← drawBits 2
    pure (d.dr7.toWord low high)

/-- The debug registers after a write (R52 to R54). -/
def Debug.put (d : Debug) (dr : DrReg) (v : Word) : Debug :=
  match dr with
  | .dr0 => { d with dr0 := v }
  | .dr1 => { d with dr1 := v }
  | .dr2 => { d with dr2 := v }
  | .dr3 => { d with dr3 := v }
  | .dr6 => { d with dr6 := Dr6.ofWord v }
  | .dr7 => { d with dr7 := Dr7.ofWord v }

/-- MOV r32, DRn (R602). -/
def execMovRDr (reg : Gpr) (dr : DrReg) (s : State) : Host.Outcome State Fault Refusal :=
  run (do
    needDebug
    let v ← readDr dr
    putReg .d reg v
    freeFlags) s

/-- MOV DRn, r32 (R602). -/
def execMovDrR (dr : DrReg) (reg : Gpr) (s : State) : Host.Outcome State Fault Refusal :=
  run (do
    needDebug
    update fun t => t.withDebug (t.dregs.put dr (s.reg .d reg))
    freeFlags) s

/-! ## Test registers (R56, R57, R603, D17) -/

/-- The value of a test register. -/
def TestRegs.get (t : TestRegs) : TrReg → Word
  | .tr6 => t.tr6
  | .tr7 => t.tr7

/-- The test registers after a write. -/
def TestRegs.put (t : TestRegs) (r : TrReg) (v : Word) : TestRegs :=
  match r with
  | .tr6 => { t with tr6 := v }
  | .tr7 => { t with tr7 := v }

/-- MOV r32, TRn (R603). -/
def execMovRTr (reg : Gpr) (tr : TrReg) (s : State) : Host.Outcome State Fault Refusal :=
  run (do
    needCpl0
    putReg .d reg (s.test.get tr)
    freeFlags) s

/-- MOV TRn, r32 (R603). -/
def execMovTrR (tr : TrReg) (reg : Gpr) (s : State) : Host.Outcome State Fault Refusal :=
  run (do
    needCpl0
    update fun t => t.withTest (t.test.put tr (s.reg .d reg))
    freeFlags) s

/-! ## The coprocessor (R611, R612) -/

/-- BUSY# as the processor sees it: never active with no coprocessor (R611; log entry 24). -/
def State.coprocBusy (s : State) : Bool := s.pins.busy && s.params.coproc != .none

/-- ERROR# as the processor sees it: never asserted with no coprocessor (R611; log entry 24). -/
def State.coprocError (s : State) : Bool := s.pins.error && s.params.coproc != .none

/-- WAIT: #NM with TS and MP, again while BUSY# is active, #MF with ERROR# (R611, D33). -/
def execWait (s : State) : Host.Outcome State Fault Refusal :=
  runEnding (do
    check (!(s.cr0.ts && s.cr0.mp)) excNM
    if s.coprocBusy then
      rewind
      pure Ending.wait
    else
      check (!s.coprocError) excMF
      pure Ending.plain) s

/-- The mod r/m byte of an ESC, with the r/m field 0 for memory: what tells the no-wait control forms (R612). -/
def escByte (lll : BitVec 3) : Rm → Byte
  | .reg r => 0b11#2 ++ lll ++ (match r with
    | .ax => 0
    | .cx => 1
    | .dx => 2
    | .bx => 3
    | .sp => 4
    | .bp => 5
    | .si => 6
    | .di => 7 : BitVec 3)
  | .mem _ => 0b00#2 ++ lll ++ 0#3

/-- `n` free bytes. -/
def freeBytes : Nat → M (List Byte)
  | 0 => pure []
  | n + 1 => do
    let b ← drawBits 8
    let bs ← freeBytes n
    pure (b :: bs)

/-- How many bytes the memory operand of an ESC has at most (log entry 23). -/
def escMaxBytes : Nat := 128

/-- The memory operand of an ESC: its first bytes are checked as an operand, also where the coprocessor touches no byte of it; a
later part outside the segment is the coprocessor segment overrun; then the coprocessor reads it or stores free bytes to it (R612,
R711, U20; log entry 23). -/
def escMemory (n : Nat) (store : Bool) (sr : Sreg) (off : Word) : M Unit := do
  let s ← get
  check ((s.seg sr).legal s.protMode off (max 1 (min n 2)) store) (segExc sr)
  if n = 0 then pure ()
  else
    check ((s.seg sr).legal s.protMode off n store) excOverrun
    let ps ← planLinear ((s.seg sr).base + off) n store s.userLevel
    if store then
      let bs ← freeBytes n
      physWrite ps bs
    else
      let _ ← physRead ps
      pure ()

/-- What the coprocessor does with its opcode: an uninterpreted step that may store to the memory operand, AX for DF E0, and
leaves BUSY# and ERROR# free (R612, U20; log entry 23). -/
def escStep (ttt lll : BitVec 3) (rm : Rm) : M Unit := do
  let s ← get
  (match rm with
   | .reg r =>
     if ttt = 7 ∧ lll = 4 ∧ r = .ax then do
       let v ← drawBits 16
       putReg .w .ax v
     else pure ()
   | .mem m => do
     let (sr, off) ← addressOf m
     let (n, store) := Config.escOperand ttt lll (BitVec.ofBool s.op32 ++ BitVec.ofBool s.protMode)
     escMemory (n % escMaxBytes) store sr off)
  let busy ← drawBit
  let error ← drawBit
  update fun t => t.withPins { t.pins with busy := busy, error := error }

/-- ESC: #NM with EM or TS, stuck with no coprocessor, #MF with ERROR# but for the no-wait forms, else the coprocessor's step
(R612, U20). -/
def execEsc (ttt lll : BitVec 3) (rm : Rm) (s : State) : Host.Outcome State Fault Refusal :=
  run (do
    check (!(s.cr0.em || s.cr0.ts)) excNM
    (if s.params.coproc = .none then stopFault .noCoprocessor else pure ())
    check (!s.coprocError || Config.escNoWait ttt lll (escByte lll rm)) excMF
    escStep ttt lll rm) s

end Sys2Proof.Machine
end

