-- ==== Sys2Proof/Machine/Protection.lean ====
section
/-!
DEFINITION. Protection control: ARPL, LAR, LSL, the table registers, SMSW, LMSW, VERR and VERW (49_protection_control.md). The
mode check (#UD) comes before the privilege check (D28).
-/

namespace Sys2Proof.Machine

/-! ## Selectors examined without a fault (R641 to R643, R652) -/

/-- ARPL: the destination must be writable even when it is not changed, which is all that is asked of it then (R641, D6; log
entry 38). -/
def execArpl (reg : Gpr) (rm : Rm) (s : State) : Host.Outcome State Fault Refusal :=
  run (do
    needProtMode
    let t ← targetRm rm
    let v ← inspect .w t
    let rpl := selRpl (s.reg .w reg)
    if (selRpl v).toNat < rpl.toNat then
      let p ← placeOf .w t
      putFlags fun f => { f with zf := true }
      putPlace .w p (withRpl v rpl)
    else putFlags fun f => { f with zf := false }) s

/-- The descriptor of a selector operand: none for a null selector or one outside its table (R642, R643, R652). -/
def probe (sel : HWord) : M (Option Desc) := if selNull sel then pure none else fetchDesc sel

/-- The segment is visible: conforming code, or DPL not below CPL and RPL (R642, R643). -/
def Desc.visible (d : Desc) (cpl : Nat) (sel : HWord) : Bool :=
  d.conforming || (decide (cpl ≤ d.dpl.toNat) && decide ((selRpl sel).toNat ≤ d.dpl.toNat))

/-- The descriptor types LAR accepts (R642). -/
def larType (d : Desc) : Bool :=
  d.s || d.typ == 1 || d.typ == 2 || d.typ == 3 || d.typ == 4 || d.typ == 5 || d.typ == 9 || d.typ == 0xB || d.typ == 0xC

/-- The descriptor types LSL accepts (R643). -/
def lslType (d : Desc) : Bool :=
  d.s || d.typ == 1 || d.typ == 2 || d.typ == 3 || d.typ == 9 || d.typ == 0xB

/-- The shape of LAR and LSL: ZF tells whether the descriptor is accepted; only then the register is written (R642, R643). -/
def examine (accepts : Desc → Bool) (value : Desc → Word) (reg : Gpr) (rm : Rm) : M Unit := do
  needProtMode
  let s ← get
  let sel ← readRm .w rm
  let d ← probe sel
  match d with
  | some d =>
    if accepts d && d.visible s.cplNat sel then
      putFlags fun f => { f with zf := true }
      putReg s.opWidth reg (immOf s.opWidth (value d))
    else putFlags fun f => { f with zf := false }
  | none => putFlags fun f => { f with zf := false }

/-- The access rights LAR loads; a 16-bit register takes bits 15:8 of them (R642). -/
def larValue (d : Desc) : Word := d.d1 &&& 0x00F0FF00

/-- LAR (R642). -/
def execLar (reg : Gpr) (rm : Rm) (s : State) : Host.Outcome State Fault Refusal :=
  run (examine larType larValue reg rm) s

/-- LSL (R643). -/
def execLsl (reg : Gpr) (rm : Rm) (s : State) : Host.Outcome State Fault Refusal :=
  run (examine lslType Desc.limit reg rm) s

/-- What VERR accepts: a readable segment, visible or readable conforming code (R652). -/
def canRead (d : Desc) (cpl : Nat) (sel : HWord) : Bool :=
  (d.isData || d.readableCode) && ((d.readableCode && d.conforming) ||
    (decide (cpl ≤ d.dpl.toNat) && decide ((selRpl sel).toNat ≤ d.dpl.toNat)))

/-- What VERW accepts: a writable data segment, visible (R652). -/
def canWrite (d : Desc) (cpl : Nat) (sel : HWord) : Bool :=
  d.writableData && decide (cpl ≤ d.dpl.toNat) && decide ((selRpl sel).toNat ≤ d.dpl.toNat)

/-- The shape of VERR and VERW: ZF receives the result (R652). -/
def verify (ok : Desc → Nat → HWord → Bool) (rm : Rm) : M Unit := do
  needProtMode
  let cpl ← look State.cplNat
  let sel ← readRm .w rm
  let d ← probe sel
  putFlags fun f => { f with zf := (d.map fun d => ok d cpl sel).getD false }

/-- VERR (R652). -/
def execVerr (rm : Rm) (s : State) : Host.Outcome State Fault Refusal :=
  run (verify canRead rm) s

/-- VERW (R652). -/
def execVerw (rm : Rm) (s : State) : Host.Outcome State Fault Refusal :=
  run (verify canWrite rm) s

/-! ## LDTR and TR (R646, R647, R650, R651) -/

/-- SLDT (R650). -/
def execSldt (rm : Rm) (s : State) : Host.Outcome State Fault Refusal :=
  run (do
    needProtMode
    storeSel rm s.tables.ldtr.sel) s

/-- STR (R651). -/
def execStr (rm : Rm) (s : State) : Host.Outcome State Fault Refusal :=
  run (do
    needProtMode
    storeSel rm s.tables.tr.sel) s

/-- Replace LDTR. -/
def putLdtr (l : Ldtr) : M Unit := update fun s => s.withTables { s.tables with ldtr := l }

/-- LLDT (R646). -/
def execLldt (rm : Rm) (s : State) : Host.Outcome State Fault Refusal :=
  run (do
    needProtMode
    needCpl0
    let sel ← readRm .w rm
    if selNull sel then putLdtr { s.tables.ldtr with sel := sel, valid := false }
    else
      check (!selTi sel) (excGP sel)
      let d ← needDesc sel (excGP sel)
      check (d.isSystem 2) (excGP sel)
      check d.present (excNP sel)
      putLdtr { sel := sel, base := d.base, limit := d.limit, valid := true }) s

/-- LTR: the busy bit of the descriptor is set, by a write of its byte 5 alone (log entry 61); no task switch (R647). -/
def execLtr (rm : Rm) (s : State) : Host.Outcome State Fault Refusal :=
  run (do
    needProtMode
    needCpl0
    let sel ← readRm .w rm
    check (!selNull sel) (excGP 0)
    check (!selTi sel) (excGP sel)
    let d ← needDesc sel (excGP sel)
    (if d.isSystem 1 then refuse .format286 else pure ())
    check (d.isSystem 9) (excGP sel)
    check d.present (excNP sel)
    let ps ← planBusy d.addr
    writeBusy ps true
    update fun t => t.withTables
      { t.tables with tr := { sel := sel, base := d.base, limit := d.limit, typ := 0xB } }) s

/-! ## GDTR and IDTR (R644, R645, R648) -/

/-- SGDT and SIDT: limit, base, and with operand size 16 a sixth byte that is free; all six bytes are checked before any is
written (R648, U6, D6, D22). -/
def storeTable (m : MemOp) (t : TableReg) : M Unit := do
  let s ← get
  let (sr, off) ← addressOf m
  let ps ← plan sr off 6 true
  let last ← drawBits 8
  physWrite ps (bytesOf 2 (t.limit.setWidth 32) ++
    bif s.op32 then bytesOf 4 t.base else bytesOf 3 t.base ++ [last])

/-- The table register that LGDT and LIDT read: with operand size 16 a base of 24 bits (R644). -/
def loadTable (m : MemOp) : M TableReg := do
  needCpl0
  let s ← get
  let (sr, off) ← addressOf m
  let bs ← memRead sr off 6
  let base := wordOf (bs.drop 2)
  pure { limit := hwordOf bs, base := bif s.op32 then base else base &&& 0x00FFFFFF }

/-- SGDT (R648). -/
def execSgdt (m : MemOp) (s : State) : Host.Outcome State Fault Refusal :=
  run (storeTable m s.tables.gdtr) s

/-- SIDT (R648). -/
def execSidt (m : MemOp) (s : State) : Host.Outcome State Fault Refusal :=
  run (storeTable m s.tables.idtr) s

/-- LGDT (R644). -/
def execLgdt (m : MemOp) (s : State) : Host.Outcome State Fault Refusal :=
  run (do
    let t ← loadTable m
    update fun u => u.withTables { u.tables with gdtr := t }) s

/-- LIDT (R645). -/
def execLidt (m : MemOp) (s : State) : Host.Outcome State Fault Refusal :=
  run (do
    let t ← loadTable m
    update fun u => u.withTables { u.tables with idtr := t }) s

/-! ## The machine status word (R649, R657) -/

/-- The machine status word: bits 15:5 are reserved bits of CR0, free (R649, U12). -/
def Cr0.msw (c : Cr0) (free : BitVec 26) : HWord := (c.toWord free).setWidth 16

/-- SMSW (R649). -/
def execSmsw (rm : Rm) (s : State) : Host.Outcome State Fault Refusal :=
  run (do
    let p ← placeRm .w rm
    let free ← drawBits 26
    putSel p (s.cr0.msw free)) s

/-- CR0 after LMSW: MP, EM, TS from the operand, PE set but never cleared (R657). -/
def Cr0.loadMsw (c : Cr0) (v : HWord) : Cr0 :=
  { c with pe := c.pe || v.getLsbD 0, mp := v.getLsbD 1, em := v.getLsbD 2, ts := v.getLsbD 3 }

/-- LMSW (R657). -/
def execLmsw (rm : Rm) (s : State) : Host.Outcome State Fault Refusal :=
  run (do
    needCpl0
    let v ← readRm .w rm
    update fun t => t.putCr0 (t.cr0.loadMsw v)) s

end Sys2Proof.Machine
end

