-- ==== Sys2Proof/Machine/Dispatch.lean ====
section
/-!
DEFINITION. The dispatch of every instruction to its meaning.
-/

namespace Sys2Proof.Machine

def exec (i : Instr) (s : State) : Host.Outcome State Fault Refusal :=
  match i with
  | .pfxEs => Sys2Proof.Machine.execPfxEs s
  | .pfxCs => Sys2Proof.Machine.execPfxCs s
  | .pfxSs => Sys2Proof.Machine.execPfxSs s
  | .pfxDs => Sys2Proof.Machine.execPfxDs s
  | .pfxFs => Sys2Proof.Machine.execPfxFs s
  | .pfxGs => Sys2Proof.Machine.execPfxGs s
  | .pfxOpsize => Sys2Proof.Machine.execPfxOpsize s
  | .pfxAddrsize => Sys2Proof.Machine.execPfxAddrsize s
  | .pfxLock => Sys2Proof.Machine.execPfxLock s
  | .pfxRepne => Sys2Proof.Machine.execPfxRepne s
  | .pfxRep => Sys2Proof.Machine.execPfxRep s
  | .movRmR w reg rm => Sys2Proof.Machine.execMovRmR w reg rm s
  | .movRRm w reg rm => Sys2Proof.Machine.execMovRRm w reg rm s
  | .movRm8Imm rm imm => Sys2Proof.Machine.execMovRm8Imm rm imm s
  | .movRmImm rm imm => Sys2Proof.Machine.execMovRmImm rm imm s
  | .movR8Imm reg imm => Sys2Proof.Machine.execMovR8Imm reg imm s
  | .movRImm reg imm => Sys2Proof.Machine.execMovRImm reg imm s
  | .movAccMoffs w off => Sys2Proof.Machine.execMovAccMoffs w off s
  | .movMoffsAcc w off => Sys2Proof.Machine.execMovMoffsAcc w off s
  | .movSregRm sr rm => Sys2Proof.Machine.execMovSregRm sr rm s
  | .movRmSreg sr rm => Sys2Proof.Machine.execMovRmSreg sr rm s
  | .movsx w reg rm => Sys2Proof.Machine.execMovsx w reg rm s
  | .movzx w reg rm => Sys2Proof.Machine.execMovzx w reg rm s
  | .pushR reg => Sys2Proof.Machine.execPushR reg s
  | .pushImm imm => Sys2Proof.Machine.execPushImm imm s
  | .pushImm8 imm => Sys2Proof.Machine.execPushImm8 imm s
  | .pushSreg sr => Sys2Proof.Machine.execPushSreg sr s
  | .pushFs => Sys2Proof.Machine.execPushFs s
  | .pushGs => Sys2Proof.Machine.execPushGs s
  | .pusha => Sys2Proof.Machine.execPusha s
  | .popRm rm => Sys2Proof.Machine.execPopRm rm s
  | .popR reg => Sys2Proof.Machine.execPopR reg s
  | .popEs => Sys2Proof.Machine.execPopEs s
  | .popSs => Sys2Proof.Machine.execPopSs s
  | .popDs => Sys2Proof.Machine.execPopDs s
  | .popFs => Sys2Proof.Machine.execPopFs s
  | .popGs => Sys2Proof.Machine.execPopGs s
  | .popa => Sys2Proof.Machine.execPopa s
  | .nop => Sys2Proof.Machine.execNop s
  | .xchgAccR reg => Sys2Proof.Machine.execXchgAccR reg s
  | .xchgRmR w reg rm => Sys2Proof.Machine.execXchgRmR w reg rm s
  | .inImm w port => Sys2Proof.Machine.execInImm w port s
  | .inDx w => Sys2Proof.Machine.execInDx w s
  | .outImm w port => Sys2Proof.Machine.execOutImm w port s
  | .outDx w => Sys2Proof.Machine.execOutDx w s
  | .lea reg m => Sys2Proof.Machine.execLea reg m s
  | .lds reg m => Sys2Proof.Machine.execLds reg m s
  | .les reg m => Sys2Proof.Machine.execLes reg m s
  | .lfs reg m => Sys2Proof.Machine.execLfs reg m s
  | .lgs reg m => Sys2Proof.Machine.execLgs reg m s
  | .lss reg m => Sys2Proof.Machine.execLss reg m s
  | .clc => Sys2Proof.Machine.execClc s
  | .cld => Sys2Proof.Machine.execCld s
  | .cli => Sys2Proof.Machine.execCli s
  | .cmc => Sys2Proof.Machine.execCmc s
  | .lahf => Sys2Proof.Machine.execLahf s
  | .popf => Sys2Proof.Machine.execPopf s
  | .pushf => Sys2Proof.Machine.execPushf s
  | .sahf => Sys2Proof.Machine.execSahf s
  | .stc => Sys2Proof.Machine.execStc s
  | .std => Sys2Proof.Machine.execStd s
  | .sti => Sys2Proof.Machine.execSti s
  | .clts => Sys2Proof.Machine.execClts s
  | .addRmR d w reg rm => Sys2Proof.Machine.execAddRmR d w reg rm s
  | .addAlImm imm => Sys2Proof.Machine.execAddAlImm imm s
  | .addEaxImm imm => Sys2Proof.Machine.execAddEaxImm imm s
  | .addRm8Imm rm imm => Sys2Proof.Machine.execAddRm8Imm rm imm s
  | .addRmImm rm imm => Sys2Proof.Machine.execAddRmImm rm imm s
  | .addRmImm8s rm imm => Sys2Proof.Machine.execAddRmImm8s rm imm s
  | .orRmR d w reg rm => Sys2Proof.Machine.execOrRmR d w reg rm s
  | .orAlImm imm => Sys2Proof.Machine.execOrAlImm imm s
  | .orEaxImm imm => Sys2Proof.Machine.execOrEaxImm imm s
  | .orRm8Imm rm imm => Sys2Proof.Machine.execOrRm8Imm rm imm s
  | .orRmImm rm imm => Sys2Proof.Machine.execOrRmImm rm imm s
  | .orRmImm8s rm imm => Sys2Proof.Machine.execOrRmImm8s rm imm s
  | .adcRmR d w reg rm => Sys2Proof.Machine.execAdcRmR d w reg rm s
  | .adcAlImm imm => Sys2Proof.Machine.execAdcAlImm imm s
  | .adcEaxImm imm => Sys2Proof.Machine.execAdcEaxImm imm s
  | .adcRm8Imm rm imm => Sys2Proof.Machine.execAdcRm8Imm rm imm s
  | .adcRmImm rm imm => Sys2Proof.Machine.execAdcRmImm rm imm s
  | .adcRmImm8s rm imm => Sys2Proof.Machine.execAdcRmImm8s rm imm s
  | .sbbRmR d w reg rm => Sys2Proof.Machine.execSbbRmR d w reg rm s
  | .sbbAlImm imm => Sys2Proof.Machine.execSbbAlImm imm s
  | .sbbEaxImm imm => Sys2Proof.Machine.execSbbEaxImm imm s
  | .sbbRm8Imm rm imm => Sys2Proof.Machine.execSbbRm8Imm rm imm s
  | .sbbRmImm rm imm => Sys2Proof.Machine.execSbbRmImm rm imm s
  | .sbbRmImm8s rm imm => Sys2Proof.Machine.execSbbRmImm8s rm imm s
  | .andRmR d w reg rm => Sys2Proof.Machine.execAndRmR d w reg rm s
  | .andAlImm imm => Sys2Proof.Machine.execAndAlImm imm s
  | .andEaxImm imm => Sys2Proof.Machine.execAndEaxImm imm s
  | .andRm8Imm rm imm => Sys2Proof.Machine.execAndRm8Imm rm imm s
  | .andRmImm rm imm => Sys2Proof.Machine.execAndRmImm rm imm s
  | .andRmImm8s rm imm => Sys2Proof.Machine.execAndRmImm8s rm imm s
  | .subRmR d w reg rm => Sys2Proof.Machine.execSubRmR d w reg rm s
  | .subAlImm imm => Sys2Proof.Machine.execSubAlImm imm s
  | .subEaxImm imm => Sys2Proof.Machine.execSubEaxImm imm s
  | .subRm8Imm rm imm => Sys2Proof.Machine.execSubRm8Imm rm imm s
  | .subRmImm rm imm => Sys2Proof.Machine.execSubRmImm rm imm s
  | .subRmImm8s rm imm => Sys2Proof.Machine.execSubRmImm8s rm imm s
  | .xorRmR d w reg rm => Sys2Proof.Machine.execXorRmR d w reg rm s
  | .xorAlImm imm => Sys2Proof.Machine.execXorAlImm imm s
  | .xorEaxImm imm => Sys2Proof.Machine.execXorEaxImm imm s
  | .xorRm8Imm rm imm => Sys2Proof.Machine.execXorRm8Imm rm imm s
  | .xorRmImm rm imm => Sys2Proof.Machine.execXorRmImm rm imm s
  | .xorRmImm8s rm imm => Sys2Proof.Machine.execXorRmImm8s rm imm s
  | .cmpRmR d w reg rm => Sys2Proof.Machine.execCmpRmR d w reg rm s
  | .cmpAlImm imm => Sys2Proof.Machine.execCmpAlImm imm s
  | .cmpEaxImm imm => Sys2Proof.Machine.execCmpEaxImm imm s
  | .cmpRm8Imm rm imm => Sys2Proof.Machine.execCmpRm8Imm rm imm s
  | .cmpRmImm rm imm => Sys2Proof.Machine.execCmpRmImm rm imm s
  | .cmpRmImm8s rm imm => Sys2Proof.Machine.execCmpRmImm8s rm imm s
  | .incRm w rm => Sys2Proof.Machine.execIncRm w rm s
  | .incR reg => Sys2Proof.Machine.execIncR reg s
  | .decRm w rm => Sys2Proof.Machine.execDecRm w rm s
  | .decR reg => Sys2Proof.Machine.execDecR reg s
  | .negRm w rm => Sys2Proof.Machine.execNegRm w rm s
  | .aaa => Sys2Proof.Machine.execAaa s
  | .aas => Sys2Proof.Machine.execAas s
  | .daa => Sys2Proof.Machine.execDaa s
  | .das => Sys2Proof.Machine.execDas s
  | .aam imm => Sys2Proof.Machine.execAam imm s
  | .aad imm => Sys2Proof.Machine.execAad imm s
  | .mulRm w rm => Sys2Proof.Machine.execMulRm w rm s
  | .imulRm w rm => Sys2Proof.Machine.execImulRm w rm s
  | .imulRRm reg rm => Sys2Proof.Machine.execImulRRm reg rm s
  | .imulRRmImm reg rm imm => Sys2Proof.Machine.execImulRRmImm reg rm imm s
  | .imulRRmImm8 reg rm imm => Sys2Proof.Machine.execImulRRmImm8 reg rm imm s
  | .divRm w rm => Sys2Proof.Machine.execDivRm w rm s
  | .idivRm w rm => Sys2Proof.Machine.execIdivRm w rm s
  | .cbw => Sys2Proof.Machine.execCbw s
  | .cwde => Sys2Proof.Machine.execCwde s
  | .cwd => Sys2Proof.Machine.execCwd s
  | .cdq => Sys2Proof.Machine.execCdq s
  | .testAlImm imm => Sys2Proof.Machine.execTestAlImm imm s
  | .testEaxImm imm => Sys2Proof.Machine.execTestEaxImm imm s
  | .testRm8Imm rm imm => Sys2Proof.Machine.execTestRm8Imm rm imm s
  | .testRmImm rm imm => Sys2Proof.Machine.execTestRmImm rm imm s
  | .testRmR w reg rm => Sys2Proof.Machine.execTestRmR w reg rm s
  | .notRm w rm => Sys2Proof.Machine.execNotRm w rm s
  | .rolRm1 w rm => Sys2Proof.Machine.execRolRm1 w rm s
  | .rolRmCl w rm => Sys2Proof.Machine.execRolRmCl w rm s
  | .rolRmImm w rm imm => Sys2Proof.Machine.execRolRmImm w rm imm s
  | .rorRm1 w rm => Sys2Proof.Machine.execRorRm1 w rm s
  | .rorRmCl w rm => Sys2Proof.Machine.execRorRmCl w rm s
  | .rorRmImm w rm imm => Sys2Proof.Machine.execRorRmImm w rm imm s
  | .rclRm1 w rm => Sys2Proof.Machine.execRclRm1 w rm s
  | .rclRmCl w rm => Sys2Proof.Machine.execRclRmCl w rm s
  | .rclRmImm w rm imm => Sys2Proof.Machine.execRclRmImm w rm imm s
  | .rcrRm1 w rm => Sys2Proof.Machine.execRcrRm1 w rm s
  | .rcrRmCl w rm => Sys2Proof.Machine.execRcrRmCl w rm s
  | .rcrRmImm w rm imm => Sys2Proof.Machine.execRcrRmImm w rm imm s
  | .shlRm1 w rm => Sys2Proof.Machine.execShlRm1 w rm s
  | .shlRmCl w rm => Sys2Proof.Machine.execShlRmCl w rm s
  | .shlRmImm w rm imm => Sys2Proof.Machine.execShlRmImm w rm imm s
  | .shrRm1 w rm => Sys2Proof.Machine.execShrRm1 w rm s
  | .shrRmCl w rm => Sys2Proof.Machine.execShrRmCl w rm s
  | .shrRmImm w rm imm => Sys2Proof.Machine.execShrRmImm w rm imm s
  | .sarRm1 w rm => Sys2Proof.Machine.execSarRm1 w rm s
  | .sarRmCl w rm => Sys2Proof.Machine.execSarRmCl w rm s
  | .sarRmImm w rm imm => Sys2Proof.Machine.execSarRmImm w rm imm s
  | .shldImm reg rm imm => Sys2Proof.Machine.execShldImm reg rm imm s
  | .shldCl reg rm => Sys2Proof.Machine.execShldCl reg rm s
  | .shrdImm reg rm imm => Sys2Proof.Machine.execShrdImm reg rm imm s
  | .shrdCl reg rm => Sys2Proof.Machine.execShrdCl reg rm s
  | .movs w => Sys2Proof.Machine.execMovs w s
  | .cmps w => Sys2Proof.Machine.execCmps w s
  | .scas w => Sys2Proof.Machine.execScas w s
  | .stos w => Sys2Proof.Machine.execStos w s
  | .lods w => Sys2Proof.Machine.execLods w s
  | .ins w => Sys2Proof.Machine.execIns w s
  | .outs w => Sys2Proof.Machine.execOuts w s
  | .xlat => Sys2Proof.Machine.execXlat s
  | .btImm rm imm => Sys2Proof.Machine.execBtImm rm imm s
  | .btsImm rm imm => Sys2Proof.Machine.execBtsImm rm imm s
  | .btrImm rm imm => Sys2Proof.Machine.execBtrImm rm imm s
  | .btcImm rm imm => Sys2Proof.Machine.execBtcImm rm imm s
  | .btR reg rm => Sys2Proof.Machine.execBtR reg rm s
  | .btsR reg rm => Sys2Proof.Machine.execBtsR reg rm s
  | .btrR reg rm => Sys2Proof.Machine.execBtrR reg rm s
  | .btcR reg rm => Sys2Proof.Machine.execBtcR reg rm s
  | .bsf reg rm => Sys2Proof.Machine.execBsf reg rm s
  | .bsr reg rm => Sys2Proof.Machine.execBsr reg rm s
  | .jmpRel8 d => Sys2Proof.Machine.execJmpRel8 d s
  | .jmpRel d => Sys2Proof.Machine.execJmpRel d s
  | .jmpRm rm => Sys2Proof.Machine.execJmpRm rm s
  | .jmpFar off sel => Sys2Proof.Machine.execJmpFar off sel s
  | .jmpMemFar m => Sys2Proof.Machine.execJmpMemFar m s
  | .callRel d => Sys2Proof.Machine.execCallRel d s
  | .callRm rm => Sys2Proof.Machine.execCallRm rm s
  | .callFar off sel => Sys2Proof.Machine.execCallFar off sel s
  | .callMemFar m => Sys2Proof.Machine.execCallMemFar m s
  | .pushRm rm => Sys2Proof.Machine.execPushRm rm s
  | .retNear => Sys2Proof.Machine.execRetNear s
  | .retNearImm n => Sys2Proof.Machine.execRetNearImm n s
  | .retFar => Sys2Proof.Machine.execRetFar s
  | .retFarImm n => Sys2Proof.Machine.execRetFarImm n s
  | .jccRel8 cc d => Sys2Proof.Machine.execJccRel8 cc d s
  | .jccRel cc d => Sys2Proof.Machine.execJccRel cc d s
  | .jcxz d => Sys2Proof.Machine.execJcxz d s
  | .loop d => Sys2Proof.Machine.execLoop d s
  | .loope d => Sys2Proof.Machine.execLoope d s
  | .loopne d => Sys2Proof.Machine.execLoopne d s
  | .setcc cc rm => Sys2Proof.Machine.execSetcc cc rm s
  | .enter size level => Sys2Proof.Machine.execEnter size level s
  | .leave => Sys2Proof.Machine.execLeave s
  | .int n => Sys2Proof.Machine.execInt n s
  | .int3 => Sys2Proof.Machine.execInt3 s
  | .into => Sys2Proof.Machine.execInto s
  | .bound reg m => Sys2Proof.Machine.execBound reg m s
  | .iret => Sys2Proof.Machine.execIret s
  | .hlt => Sys2Proof.Machine.execHlt s
  | .movRCr reg cr => Sys2Proof.Machine.execMovRCr reg cr s
  | .movCrR cr reg => Sys2Proof.Machine.execMovCrR cr reg s
  | .movRDr reg dr => Sys2Proof.Machine.execMovRDr reg dr s
  | .movDrR dr reg => Sys2Proof.Machine.execMovDrR dr reg s
  | .movRTr reg tr => Sys2Proof.Machine.execMovRTr reg tr s
  | .movTrR tr reg => Sys2Proof.Machine.execMovTrR tr reg s
  | .wait => Sys2Proof.Machine.execWait s
  | .esc ttt lll rm => Sys2Proof.Machine.execEsc ttt lll rm s
  | .arpl reg rm => Sys2Proof.Machine.execArpl reg rm s
  | .lar reg rm => Sys2Proof.Machine.execLar reg rm s
  | .lsl reg rm => Sys2Proof.Machine.execLsl reg rm s
  | .sldt rm => Sys2Proof.Machine.execSldt rm s
  | .str rm => Sys2Proof.Machine.execStr rm s
  | .lldt rm => Sys2Proof.Machine.execLldt rm s
  | .ltr rm => Sys2Proof.Machine.execLtr rm s
  | .verr rm => Sys2Proof.Machine.execVerr rm s
  | .verw rm => Sys2Proof.Machine.execVerw rm s
  | .sgdt m => Sys2Proof.Machine.execSgdt m s
  | .sidt m => Sys2Proof.Machine.execSidt m s
  | .lgdt m => Sys2Proof.Machine.execLgdt m s
  | .lidt m => Sys2Proof.Machine.execLidt m s
  | .smsw rm => Sys2Proof.Machine.execSmsw rm s
  | .lmsw rm => Sys2Proof.Machine.execLmsw rm s

end Sys2Proof.Machine
end

