-- ==== Sys2Proof/WellFormed.lean ====
section
/-!
DEFINITION. Which terms of the syntax are instructions of the machine under given size attributes: the terms that some byte
sequence encodes (30_encoding.md R160 to R204, R236).
-/

namespace Sys2Proof

/-- A full-size immediate or displacement fits the operand size (R188, R190): 16 bits when the attribute is 16. -/
def fitsSize (is32 : Bool) (v : Word) : Bool :=
  is32 || decide (v.toNat < 65536)

/-- A memory operand has an encoding under the address size (R181 to R184). BP and EBP as a base need a displacement (the
mod 00 slot is taken by the direct address) and ESP as a base needs an s-i-b byte. -/
def MemOp.wellFormed (addr32 : Bool) : MemOp → Bool
  | .m16 base disp => !addr32 && !(base == .bp && disp == .none)
  | .abs16 _ => !addr32
  | .m32 base disp => addr32 && base != .sp && !(base == .bp && disp == .none)
  | .abs32 _ => addr32
  | .sib _ _ base disp => addr32 && !(base == .bp && disp == .none)
  | .sibAbs _ _ _ => addr32

/-- A mod r/m operand has an encoding under the address size (R180). -/
def Rm.wellFormed (addr32 : Bool) : Rm → Bool
  | .reg _ => true
  | .mem m => m.wellFormed addr32

/-- The term is an instruction that some byte sequence encodes under the size attributes. -/
def WellFormed (c : Ctx) : Instr → Bool
  | .pfxEs => true
  | .pfxCs => true
  | .pfxSs => true
  | .pfxDs => true
  | .pfxFs => true
  | .pfxGs => true
  | .pfxOpsize => true
  | .pfxAddrsize => true
  | .pfxLock => true
  | .pfxRepne => true
  | .pfxRep => true
  | .movRmR _ _ rm => rm.wellFormed c.addr32
  | .movRRm _ _ rm => rm.wellFormed c.addr32
  | .movRm8Imm rm _ => rm.wellFormed c.addr32
  | .movRmImm rm imm => rm.wellFormed c.addr32 && fitsSize c.op32 imm
  | .movR8Imm _ _ => true
  | .movRImm _ imm => fitsSize c.op32 imm
  | .movAccMoffs _ off => fitsSize c.addr32 off
  | .movMoffsAcc _ off => fitsSize c.addr32 off
  | .movSregRm sr rm => sr != .cs && rm.wellFormed c.addr32
  | .movRmSreg _ rm => rm.wellFormed c.addr32
  | .movsx _ _ rm => rm.wellFormed c.addr32
  | .movzx _ _ rm => rm.wellFormed c.addr32
  | .pushR _ => true
  | .pushImm imm => fitsSize c.op32 imm
  | .pushImm8 _ => true
  | .pushSreg sr => sr == .es || sr == .cs || sr == .ss || sr == .ds
  | .pushFs => true
  | .pushGs => true
  | .pusha => true
  | .popRm rm => rm.wellFormed c.addr32
  | .popR _ => true
  | .popEs => true
  | .popSs => true
  | .popDs => true
  | .popFs => true
  | .popGs => true
  | .popa => true
  | .nop => true
  | .xchgAccR reg => reg != .ax
  | .xchgRmR _ _ rm => rm.wellFormed c.addr32
  | .inImm _ _ => true
  | .inDx _ => true
  | .outImm _ _ => true
  | .outDx _ => true
  | .lea _ m => m.wellFormed c.addr32
  | .lds _ m => m.wellFormed c.addr32
  | .les _ m => m.wellFormed c.addr32
  | .lfs _ m => m.wellFormed c.addr32
  | .lgs _ m => m.wellFormed c.addr32
  | .lss _ m => m.wellFormed c.addr32
  | .clc => true
  | .cld => true
  | .cli => true
  | .cmc => true
  | .lahf => true
  | .popf => true
  | .pushf => true
  | .sahf => true
  | .stc => true
  | .std => true
  | .sti => true
  | .clts => true
  | .addRmR _ _ _ rm => rm.wellFormed c.addr32
  | .addAlImm _ => true
  | .addEaxImm imm => fitsSize c.op32 imm
  | .addRm8Imm rm _ => rm.wellFormed c.addr32
  | .addRmImm rm imm => rm.wellFormed c.addr32 && fitsSize c.op32 imm
  | .addRmImm8s rm _ => rm.wellFormed c.addr32
  | .orRmR _ _ _ rm => rm.wellFormed c.addr32
  | .orAlImm _ => true
  | .orEaxImm imm => fitsSize c.op32 imm
  | .orRm8Imm rm _ => rm.wellFormed c.addr32
  | .orRmImm rm imm => rm.wellFormed c.addr32 && fitsSize c.op32 imm
  | .orRmImm8s rm _ => rm.wellFormed c.addr32
  | .adcRmR _ _ _ rm => rm.wellFormed c.addr32
  | .adcAlImm _ => true
  | .adcEaxImm imm => fitsSize c.op32 imm
  | .adcRm8Imm rm _ => rm.wellFormed c.addr32
  | .adcRmImm rm imm => rm.wellFormed c.addr32 && fitsSize c.op32 imm
  | .adcRmImm8s rm _ => rm.wellFormed c.addr32
  | .sbbRmR _ _ _ rm => rm.wellFormed c.addr32
  | .sbbAlImm _ => true
  | .sbbEaxImm imm => fitsSize c.op32 imm
  | .sbbRm8Imm rm _ => rm.wellFormed c.addr32
  | .sbbRmImm rm imm => rm.wellFormed c.addr32 && fitsSize c.op32 imm
  | .sbbRmImm8s rm _ => rm.wellFormed c.addr32
  | .andRmR _ _ _ rm => rm.wellFormed c.addr32
  | .andAlImm _ => true
  | .andEaxImm imm => fitsSize c.op32 imm
  | .andRm8Imm rm _ => rm.wellFormed c.addr32
  | .andRmImm rm imm => rm.wellFormed c.addr32 && fitsSize c.op32 imm
  | .andRmImm8s rm _ => rm.wellFormed c.addr32
  | .subRmR _ _ _ rm => rm.wellFormed c.addr32
  | .subAlImm _ => true
  | .subEaxImm imm => fitsSize c.op32 imm
  | .subRm8Imm rm _ => rm.wellFormed c.addr32
  | .subRmImm rm imm => rm.wellFormed c.addr32 && fitsSize c.op32 imm
  | .subRmImm8s rm _ => rm.wellFormed c.addr32
  | .xorRmR _ _ _ rm => rm.wellFormed c.addr32
  | .xorAlImm _ => true
  | .xorEaxImm imm => fitsSize c.op32 imm
  | .xorRm8Imm rm _ => rm.wellFormed c.addr32
  | .xorRmImm rm imm => rm.wellFormed c.addr32 && fitsSize c.op32 imm
  | .xorRmImm8s rm _ => rm.wellFormed c.addr32
  | .cmpRmR _ _ _ rm => rm.wellFormed c.addr32
  | .cmpAlImm _ => true
  | .cmpEaxImm imm => fitsSize c.op32 imm
  | .cmpRm8Imm rm _ => rm.wellFormed c.addr32
  | .cmpRmImm rm imm => rm.wellFormed c.addr32 && fitsSize c.op32 imm
  | .cmpRmImm8s rm _ => rm.wellFormed c.addr32
  | .incRm _ rm => rm.wellFormed c.addr32
  | .incR _ => true
  | .decRm _ rm => rm.wellFormed c.addr32
  | .decR _ => true
  | .negRm _ rm => rm.wellFormed c.addr32
  | .aaa => true
  | .aas => true
  | .daa => true
  | .das => true
  | .aam _ => true
  | .aad _ => true
  | .mulRm _ rm => rm.wellFormed c.addr32
  | .imulRm _ rm => rm.wellFormed c.addr32
  | .imulRRm _ rm => rm.wellFormed c.addr32
  | .imulRRmImm _ rm imm => rm.wellFormed c.addr32 && fitsSize c.op32 imm
  | .imulRRmImm8 _ rm _ => rm.wellFormed c.addr32
  | .divRm _ rm => rm.wellFormed c.addr32
  | .idivRm _ rm => rm.wellFormed c.addr32
  | .cbw => !c.op32
  | .cwde => c.op32
  | .cwd => !c.op32
  | .cdq => c.op32
  | .testAlImm _ => true
  | .testEaxImm imm => fitsSize c.op32 imm
  | .testRm8Imm rm _ => rm.wellFormed c.addr32
  | .testRmImm rm imm => rm.wellFormed c.addr32 && fitsSize c.op32 imm
  | .testRmR _ _ rm => rm.wellFormed c.addr32
  | .notRm _ rm => rm.wellFormed c.addr32
  | .rolRm1 _ rm => rm.wellFormed c.addr32
  | .rolRmCl _ rm => rm.wellFormed c.addr32
  | .rolRmImm _ rm _ => rm.wellFormed c.addr32
  | .rorRm1 _ rm => rm.wellFormed c.addr32
  | .rorRmCl _ rm => rm.wellFormed c.addr32
  | .rorRmImm _ rm _ => rm.wellFormed c.addr32
  | .rclRm1 _ rm => rm.wellFormed c.addr32
  | .rclRmCl _ rm => rm.wellFormed c.addr32
  | .rclRmImm _ rm _ => rm.wellFormed c.addr32
  | .rcrRm1 _ rm => rm.wellFormed c.addr32
  | .rcrRmCl _ rm => rm.wellFormed c.addr32
  | .rcrRmImm _ rm _ => rm.wellFormed c.addr32
  | .shlRm1 _ rm => rm.wellFormed c.addr32
  | .shlRmCl _ rm => rm.wellFormed c.addr32
  | .shlRmImm _ rm _ => rm.wellFormed c.addr32
  | .shrRm1 _ rm => rm.wellFormed c.addr32
  | .shrRmCl _ rm => rm.wellFormed c.addr32
  | .shrRmImm _ rm _ => rm.wellFormed c.addr32
  | .sarRm1 _ rm => rm.wellFormed c.addr32
  | .sarRmCl _ rm => rm.wellFormed c.addr32
  | .sarRmImm _ rm _ => rm.wellFormed c.addr32
  | .shldImm _ rm _ => rm.wellFormed c.addr32
  | .shldCl _ rm => rm.wellFormed c.addr32
  | .shrdImm _ rm _ => rm.wellFormed c.addr32
  | .shrdCl _ rm => rm.wellFormed c.addr32
  | .movs _ => true
  | .cmps _ => true
  | .scas _ => true
  | .stos _ => true
  | .lods _ => true
  | .ins _ => true
  | .outs _ => true
  | .xlat => true
  | .btImm rm _ => rm.wellFormed c.addr32
  | .btsImm rm _ => rm.wellFormed c.addr32
  | .btrImm rm _ => rm.wellFormed c.addr32
  | .btcImm rm _ => rm.wellFormed c.addr32
  | .btR _ rm => rm.wellFormed c.addr32
  | .btsR _ rm => rm.wellFormed c.addr32
  | .btrR _ rm => rm.wellFormed c.addr32
  | .btcR _ rm => rm.wellFormed c.addr32
  | .bsf _ rm => rm.wellFormed c.addr32
  | .bsr _ rm => rm.wellFormed c.addr32
  | .jmpRel8 _ => true
  | .jmpRel d => fitsSize c.op32 d
  | .jmpRm rm => rm.wellFormed c.addr32
  | .jmpFar off _ => fitsSize c.op32 off
  | .jmpMemFar m => m.wellFormed c.addr32
  | .callRel d => fitsSize c.op32 d
  | .callRm rm => rm.wellFormed c.addr32
  | .callFar off _ => fitsSize c.op32 off
  | .callMemFar m => m.wellFormed c.addr32
  | .pushRm rm => rm.wellFormed c.addr32
  | .retNear => true
  | .retNearImm _ => true
  | .retFar => true
  | .retFarImm _ => true
  | .jccRel8 _ _ => true
  | .jccRel _ d => fitsSize c.op32 d
  | .jcxz _ => true
  | .loop _ => true
  | .loope _ => true
  | .loopne _ => true
  | .setcc _ rm => rm.wellFormed c.addr32
  | .enter _ _ => true
  | .leave => true
  | .int _ => true
  | .int3 => true
  | .into => true
  | .bound _ m => m.wellFormed c.addr32
  | .iret => true
  | .hlt => true
  | .movRCr _ _ => true
  | .movCrR _ _ => true
  | .movRDr _ _ => true
  | .movDrR _ _ => true
  | .movRTr _ _ => true
  | .movTrR _ _ => true
  | .wait => true
  | .esc _ _ rm => rm.wellFormed c.addr32
  | .arpl _ rm => rm.wellFormed c.addr32
  | .lar _ rm => rm.wellFormed c.addr32
  | .lsl _ rm => rm.wellFormed c.addr32
  | .sldt rm => rm.wellFormed c.addr32
  | .str rm => rm.wellFormed c.addr32
  | .lldt rm => rm.wellFormed c.addr32
  | .ltr rm => rm.wellFormed c.addr32
  | .verr rm => rm.wellFormed c.addr32
  | .verw rm => rm.wellFormed c.addr32
  | .sgdt m => m.wellFormed c.addr32
  | .sidt m => m.wellFormed c.addr32
  | .lgdt m => m.wellFormed c.addr32
  | .lidt m => m.wellFormed c.addr32
  | .smsw rm => rm.wellFormed c.addr32
  | .lmsw rm => rm.wellFormed c.addr32

end Sys2Proof
end

