-- ==== Sys2Proof/Decode.lean ====
section
/-!
DEFINITION. The decoder, total on any bytes, and the encoder, both from the encoding tables of 30_encoding.md
(R160 to R204, R236, R237). A prefix byte decodes to its own constructor (R163, log entry 10).
-/

namespace Sys2Proof

/-! ## Fields (R170 to R179) -/

/-- Why a byte sequence is not an instruction (R236, R237). All but the last raise the invalid-opcode exception. -/
inductive Reject where
  /-- A blank cell of the opcode maps. -/
  | reservedOpcode
  /-- A blank slot of an opcode group, or a reg field other than 000 in 8F, C6, C7. -/
  | reservedExtension
  /-- A register operand where memory is required. -/
  | registerOperand
  /-- sreg3 = 110 or 111, or MOV to CS. -/
  | reservedSreg
  /-- An eee value the lists omit. -/
  | reservedEee
  /-- MOV to or from CRn, DRn, TRn with mod other than 11. -/
  | memoryOperand
  /-- SETcc with a reg field other than 000, which the spec says to refuse (92_eei_decisions.md D23). -/
  | setccReg
deriving DecidableEq, Repr

/-- The general register a 3-bit field names (R173). -/
def Gpr.ofBits (b : BitVec 3) : Gpr :=
  match b.toNat with
  | 0 => .ax
  | 1 => .cx
  | 2 => .dx
  | 3 => .bx
  | 4 => .sp
  | 5 => .bp
  | 6 => .si
  | _ => .di

/-- The 3-bit encoding of a general register (R173). -/
def Gpr.toBits : Gpr → BitVec 3
  | .ax => 0
  | .cx => 1
  | .dx => 2
  | .bx => 3
  | .sp => 4
  | .bp => 5
  | .si => 6
  | .di => 7

/-- The segment register the sreg3 field names, none for 110 and 111 (R175). -/
def Sreg.ofBits (b : BitVec 3) : Option Sreg :=
  match b.toNat with
  | 0 => some .es
  | 1 => some .cs
  | 2 => some .ss
  | 3 => some .ds
  | 4 => some .fs
  | 5 => some .gs
  | _ => none

/-- The sreg3 encoding of a segment register (R175). -/
def Sreg.toBits : Sreg → BitVec 3
  | .es => 0
  | .cs => 1
  | .ss => 2
  | .ds => 3
  | .fs => 4
  | .gs => 5

/-- The condition the tttn field names (R178). -/
def Cond.ofBits (b : BitVec 4) : Cond :=
  match b.toNat with
  | 0 => .o
  | 1 => .no
  | 2 => .b
  | 3 => .nb
  | 4 => .e
  | 5 => .ne
  | 6 => .be
  | 7 => .nbe
  | 8 => .s
  | 9 => .ns
  | 10 => .p
  | 11 => .np
  | 12 => .l
  | 13 => .nl
  | 14 => .le
  | _ => .nle

/-- The tttn encoding of a condition (R178). -/
def Cond.toBits : Cond → BitVec 4
  | .o => 0
  | .no => 1
  | .b => 2
  | .nb => 3
  | .e => 4
  | .ne => 5
  | .be => 6
  | .nbe => 7
  | .s => 8
  | .ns => 9
  | .p => 10
  | .np => 11
  | .l => 12
  | .nl => 13
  | .le => 14
  | .nle => 15

/-- The control register the eee field names (R179). -/
def CrReg.ofBits (b : BitVec 3) : Option CrReg :=
  match b.toNat with
  | 0 => some .cr0
  | 2 => some .cr2
  | 3 => some .cr3
  | _ => none

/-- The eee encoding of a control register (R179). -/
def CrReg.toBits : CrReg → BitVec 3
  | .cr0 => 0
  | .cr2 => 2
  | .cr3 => 3

/-- The debug register the eee field names (R179). -/
def DrReg.ofBits (b : BitVec 3) : Option DrReg :=
  match b.toNat with
  | 0 => some .dr0
  | 1 => some .dr1
  | 2 => some .dr2
  | 3 => some .dr3
  | 6 => some .dr6
  | 7 => some .dr7
  | _ => none

/-- The eee encoding of a debug register (R179). -/
def DrReg.toBits : DrReg → BitVec 3
  | .dr0 => 0
  | .dr1 => 1
  | .dr2 => 2
  | .dr3 => 3
  | .dr6 => 6
  | .dr7 => 7

/-- The test register the eee field names (R179). -/
def TrReg.ofBits (b : BitVec 3) : Option TrReg :=
  match b.toNat with
  | 6 => some .tr6
  | 7 => some .tr7
  | _ => none

/-- The eee encoding of a test register (R179). -/
def TrReg.toBits : TrReg → BitVec 3
  | .tr6 => 6
  | .tr7 => 7

/-- The 16-bit base and index the r/m field names (R181). -/
def Base16.ofBits (b : BitVec 3) : Base16 :=
  match b.toNat with
  | 0 => .bxsi
  | 1 => .bxdi
  | 2 => .bpsi
  | 3 => .bpdi
  | 4 => .si
  | 5 => .di
  | 6 => .bp
  | _ => .bx

/-- The r/m encoding of a 16-bit base and index (R181). -/
def Base16.toBits : Base16 → BitVec 3
  | .bxsi => 0
  | .bxdi => 1
  | .bpsi => 2
  | .bpdi => 3
  | .si => 4
  | .di => 5
  | .bp => 6
  | .bx => 7

/-- The mod field: bits 7:6 of the mod r/m byte, and the ss field of the s-i-b byte (R180, R184). -/
def modOf (b : Byte) : BitVec 2 := b.extractLsb' 6 2

/-- The reg field: bits 5:3 of the mod r/m byte, and the index field of the s-i-b byte (R180, R184). -/
def regOf (b : Byte) : BitVec 3 := b.extractLsb' 3 3

/-- The r/m field: bits 2:0 of the mod r/m byte, and the base field of the s-i-b byte (R180, R184). -/
def rmOf (b : Byte) : BitVec 3 := b.extractLsb' 0 3

/-- A 16-bit field of an instruction, low byte first (R102, R187). -/
def le16 (b0 b1 : Byte) : HWord := b1 ++ b0

/-- A 32-bit field of an instruction, low byte first (R102, R187). -/
def le32 (b0 b1 b2 b3 : Byte) : Word := b3 ++ b2 ++ b1 ++ b0

/-- The bytes of a 16-bit field, low byte first (R102). -/
def bytes16 (v : HWord) : List Byte := [v.extractLsb' 0 8, v.extractLsb' 8 8]

/-- The bytes of a 32-bit field, low byte first (R102). -/
def bytes32 (v : Word) : List Byte :=
  [v.extractLsb' 0 8, v.extractLsb' 8 8, v.extractLsb' 16 8, v.extractLsb' 24 8]

/-! ## Operands (R180 to R185) -/

/-- A 16-bit memory operand from mod and r/m (R181); none while bytes are missing. -/
def parseMem16 (md : BitVec 2) (rm : BitVec 3) (bs : List Byte) : Option (MemOp × List Byte) :=
  match md.toNat, bs with
  | 0, bs =>
    if rm = 6 then
      match bs with
      | b0 :: b1 :: r => some (.abs16 (le16 b0 b1), r)
      | _ => none
    else some (.m16 (Base16.ofBits rm) .none, bs)
  | 1, b0 :: r => some (.m16 (Base16.ofBits rm) (.d8 b0), r)
  | 2, b0 :: b1 :: r => some (.m16 (Base16.ofBits rm) (.d16 (le16 b0 b1)), r)
  | _, _ => none

/-- A 32-bit memory operand that has an s-i-b byte (R184); none while bytes are missing. -/
def parseSib (md : BitVec 2) (sib : Byte) (bs : List Byte) : Option (MemOp × List Byte) :=
  let ss := modOf sib
  let index := Gpr.ofBits (regOf sib)
  let base := rmOf sib
  match md.toNat, bs with
  | 0, bs =>
    if base = 5 then
      match bs with
      | b0 :: b1 :: b2 :: b3 :: r => some (.sibAbs ss index (le32 b0 b1 b2 b3), r)
      | _ => none
    else some (.sib ss index (Gpr.ofBits base) .none, bs)
  | 1, b0 :: r => some (.sib ss index (Gpr.ofBits base) (.d8 b0), r)
  | 2, b0 :: b1 :: b2 :: b3 :: r => some (.sib ss index (Gpr.ofBits base) (.d32 (le32 b0 b1 b2 b3)), r)
  | _, _ => none

/-- A 32-bit memory operand from mod and r/m (R183, R184); none while bytes are missing. -/
def parseMem32 (md : BitVec 2) (rm : BitVec 3) (bs : List Byte) : Option (MemOp × List Byte) :=
  if rm = 4 then
    match bs with
    | [] => none
    | sib :: r => parseSib md sib r
  else
    match md.toNat, bs with
    | 0, bs =>
      if rm = 5 then
        match bs with
        | b0 :: b1 :: b2 :: b3 :: r => some (.abs32 (le32 b0 b1 b2 b3), r)
        | _ => none
      else some (.m32 (Gpr.ofBits rm) .none, bs)
    | 1, b0 :: r => some (.m32 (Gpr.ofBits rm) (.d8 b0), r)
    | 2, b0 :: b1 :: b2 :: b3 :: r => some (.m32 (Gpr.ofBits rm) (.d32 (le32 b0 b1 b2 b3)), r)
    | _, _ => none

/-- The mod r/m operand (R180): a register when mod = 11, else memory under the address size. -/
def parseRm (addr32 : Bool) (modrm : Byte) (bs : List Byte) : Option (Rm × List Byte) :=
  if modOf modrm = 3 then some (.reg (Gpr.ofBits (rmOf modrm)), bs)
  else
    (bif addr32 then parseMem32 (modOf modrm) (rmOf modrm) bs else parseMem16 (modOf modrm) (rmOf modrm) bs).map
      fun p => (.mem p.1, p.2)

/-! ## What follows the opcode (R161, R188 to R190, R220) -/

/-- What an instruction has after its opcode and mod r/m bytes. -/
inductive Tail where
  | done (i : Instr)
  | ib (k : Byte → Instr)
  | iw (k : HWord → Instr)
  | iv (k : Word → Instr)
  | iwib (k : HWord → Byte → Instr)
  | ptr (k : Word → HWord → Instr)
  | moffs (k : Word → Instr)
  | bad (r : Reject)

/-- What an opcode is followed by: a tail, or a mod r/m byte whose reg field and operand decide the tail. -/
inductive Shape where
  | tail (t : Tail)
  | modrm (k : BitVec 3 → Rm → Tail)

/-- The outcome of decoding a byte sequence: an instruction with the bytes left over, too few bytes, or no instruction. -/
inductive Parse where
  | ok (i : Instr) (rest : List Byte)
  | more
  | bad (r : Reject)
deriving DecidableEq, Repr

/-- A full-size field: 2 bytes zero-extended when the attribute is 16, else 4 bytes (R188); none while bytes are missing. -/
def parseFull (is32 : Bool) (bs : List Byte) : Option (Word × List Byte) :=
  match is32, bs with
  | false, b0 :: b1 :: r => some ((le16 b0 b1).setWidth 32, r)
  | true, b0 :: b1 :: b2 :: b3 :: r => some (le32 b0 b1 b2 b3, r)
  | _, _ => none

/-- Read the tail of an instruction (R188 to R190). -/
def parseTail (c : Ctx) (t : Tail) (bs : List Byte) : Parse :=
  match t with
  | .done i => .ok i bs
  | .ib k =>
    match bs with
    | b0 :: r => .ok (k b0) r
    | _ => .more
  | .iw k =>
    match bs with
    | b0 :: b1 :: r => .ok (k (le16 b0 b1)) r
    | _ => .more
  | .iv k =>
    match parseFull c.op32 bs with
    | some (v, r) => .ok (k v) r
    | none => .more
  | .iwib k =>
    match bs with
    | b0 :: b1 :: b2 :: r => .ok (k (le16 b0 b1) b2) r
    | _ => .more
  | .ptr k =>
    match parseFull c.op32 bs with
    | some (v, b0 :: b1 :: r) => .ok (k v (le16 b0 b1)) r
    | _ => .more
  | .moffs k =>
    match parseFull c.addr32 bs with
    | some (v, r) => .ok (k v) r
    | none => .more
  | .bad r => .bad r

/-- Read what follows the opcode (R161). -/
def parseShape (c : Ctx) (sh : Shape) (bs : List Byte) : Parse :=
  match sh with
  | .tail t => parseTail c t bs
  | .modrm k =>
    match bs with
    | [] => .more
    | b :: r =>
      match parseRm c.addr32 b r with
      | none => .more
      | some (rm, r') => parseTail c (k (regOf b) rm) r'

/-- A form that needs a memory operand (operand code M, R237). -/
def needMem (k : MemOp → Tail) : Rm → Tail
  | .mem m => k m
  | .reg _ => .bad .registerOperand

/-- A form that needs a register operand (operand code R, R236). -/
def needReg (k : Gpr → Tail) : Rm → Tail
  | .reg r => k r
  | .mem _ => .bad .memoryOperand

/-- A form whose reg field must be 000 (R202). -/
def needZero (reg : BitVec 3) (t : Tail) : Tail :=
  if reg = 0 then t else .bad .reservedExtension

/-! ## Opcode groups (R202) -/

/-- The arithmetic form r/m with r of the operation `ooo` (R203). -/
def aluRmR (o : BitVec 3) (d w : Bool) (reg : Gpr) (rm : Rm) : Instr :=
  match o.toNat with
  | 0 => .addRmR d w reg rm
  | 1 => .orRmR d w reg rm
  | 2 => .adcRmR d w reg rm
  | 3 => .sbbRmR d w reg rm
  | 4 => .andRmR d w reg rm
  | 5 => .subRmR d w reg rm
  | 6 => .xorRmR d w reg rm
  | _ => .cmpRmR d w reg rm

/-- The arithmetic form AL, imm8 of the operation `ooo` (R203). -/
def aluAlImm (o : BitVec 3) (imm : Byte) : Instr :=
  match o.toNat with
  | 0 => .addAlImm imm
  | 1 => .orAlImm imm
  | 2 => .adcAlImm imm
  | 3 => .sbbAlImm imm
  | 4 => .andAlImm imm
  | 5 => .subAlImm imm
  | 6 => .xorAlImm imm
  | _ => .cmpAlImm imm

/-- The arithmetic form eAX, imm of the operation `ooo` (R203). -/
def aluEaxImm (o : BitVec 3) (imm : Word) : Instr :=
  match o.toNat with
  | 0 => .addEaxImm imm
  | 1 => .orEaxImm imm
  | 2 => .adcEaxImm imm
  | 3 => .sbbEaxImm imm
  | 4 => .andEaxImm imm
  | 5 => .subEaxImm imm
  | 6 => .xorEaxImm imm
  | _ => .cmpEaxImm imm

/-- Group 1, opcode 80 (R202). -/
def aluRm8Imm (o : BitVec 3) (rm : Rm) (imm : Byte) : Instr :=
  match o.toNat with
  | 0 => .addRm8Imm rm imm
  | 1 => .orRm8Imm rm imm
  | 2 => .adcRm8Imm rm imm
  | 3 => .sbbRm8Imm rm imm
  | 4 => .andRm8Imm rm imm
  | 5 => .subRm8Imm rm imm
  | 6 => .xorRm8Imm rm imm
  | _ => .cmpRm8Imm rm imm

/-- Group 1, opcode 81 (R202). -/
def aluRmImm (o : BitVec 3) (rm : Rm) (imm : Word) : Instr :=
  match o.toNat with
  | 0 => .addRmImm rm imm
  | 1 => .orRmImm rm imm
  | 2 => .adcRmImm rm imm
  | 3 => .sbbRmImm rm imm
  | 4 => .andRmImm rm imm
  | 5 => .subRmImm rm imm
  | 6 => .xorRmImm rm imm
  | _ => .cmpRmImm rm imm

/-- Group 1, opcode 83 (R202). -/
def aluRmImm8s (o : BitVec 3) (rm : Rm) (imm : Byte) : Instr :=
  match o.toNat with
  | 0 => .addRmImm8s rm imm
  | 1 => .orRmImm8s rm imm
  | 2 => .adcRmImm8s rm imm
  | 3 => .sbbRmImm8s rm imm
  | 4 => .andRmImm8s rm imm
  | 5 => .subRmImm8s rm imm
  | 6 => .xorRmImm8s rm imm
  | _ => .cmpRmImm8s rm imm

/-- Group 2 by 1, opcodes D0 and D1 (R202): /6 is blank. -/
def grp2One (w : Bool) (ext : BitVec 3) (rm : Rm) : Tail :=
  match ext.toNat with
  | 0 => .done (.rolRm1 w rm)
  | 1 => .done (.rorRm1 w rm)
  | 2 => .done (.rclRm1 w rm)
  | 3 => .done (.rcrRm1 w rm)
  | 4 => .done (.shlRm1 w rm)
  | 5 => .done (.shrRm1 w rm)
  | 6 => .bad .reservedExtension
  | _ => .done (.sarRm1 w rm)

/-- Group 2 by CL, opcodes D2 and D3 (R202): /6 is blank. -/
def grp2Cl (w : Bool) (ext : BitVec 3) (rm : Rm) : Tail :=
  match ext.toNat with
  | 0 => .done (.rolRmCl w rm)
  | 1 => .done (.rorRmCl w rm)
  | 2 => .done (.rclRmCl w rm)
  | 3 => .done (.rcrRmCl w rm)
  | 4 => .done (.shlRmCl w rm)
  | 5 => .done (.shrRmCl w rm)
  | 6 => .bad .reservedExtension
  | _ => .done (.sarRmCl w rm)

/-- Group 2 by an immediate, opcodes C0 and C1 (R202): /6 is blank. -/
def grp2Imm (w : Bool) (ext : BitVec 3) (rm : Rm) : Tail :=
  match ext.toNat with
  | 0 => .ib (.rolRmImm w rm)
  | 1 => .ib (.rorRmImm w rm)
  | 2 => .ib (.rclRmImm w rm)
  | 3 => .ib (.rcrRmImm w rm)
  | 4 => .ib (.shlRmImm w rm)
  | 5 => .ib (.shrRmImm w rm)
  | 6 => .bad .reservedExtension
  | _ => .ib (.sarRmImm w rm)

/-- Group 3, opcodes F6 and F7 (R202): /0 has an immediate, /1 is blank. -/
def grp3 (w : Bool) (ext : BitVec 3) (rm : Rm) : Tail :=
  match ext.toNat with
  | 0 => bif w then .iv (.testRmImm rm) else .ib (.testRm8Imm rm)
  | 1 => .bad .reservedExtension
  | 2 => .done (.notRm w rm)
  | 3 => .done (.negRm w rm)
  | 4 => .done (.mulRm w rm)
  | 5 => .done (.imulRm w rm)
  | 6 => .done (.divRm w rm)
  | _ => .done (.idivRm w rm)

/-- Group 4, opcode FE (R202). -/
def grp4 (ext : BitVec 3) (rm : Rm) : Tail :=
  match ext.toNat with
  | 0 => .done (.incRm false rm)
  | 1 => .done (.decRm false rm)
  | _ => .bad .reservedExtension

/-- Group 5, opcode FF (R202). -/
def grp5 (ext : BitVec 3) (rm : Rm) : Tail :=
  match ext.toNat with
  | 0 => .done (.incRm true rm)
  | 1 => .done (.decRm true rm)
  | 2 => .done (.callRm rm)
  | 3 => needMem (fun m => .done (.callMemFar m)) rm
  | 4 => .done (.jmpRm rm)
  | 5 => needMem (fun m => .done (.jmpMemFar m)) rm
  | 6 => .done (.pushRm rm)
  | _ => .bad .reservedExtension

/-- Group 6, opcode 0F 00 (R202). -/
def grp6 (ext : BitVec 3) (rm : Rm) : Tail :=
  match ext.toNat with
  | 0 => .done (.sldt rm)
  | 1 => .done (.str rm)
  | 2 => .done (.lldt rm)
  | 3 => .done (.ltr rm)
  | 4 => .done (.verr rm)
  | 5 => .done (.verw rm)
  | _ => .bad .reservedExtension

/-- Group 7, opcode 0F 01 (R202). -/
def grp7 (ext : BitVec 3) (rm : Rm) : Tail :=
  match ext.toNat with
  | 0 => needMem (fun m => .done (.sgdt m)) rm
  | 1 => needMem (fun m => .done (.sidt m)) rm
  | 2 => needMem (fun m => .done (.lgdt m)) rm
  | 3 => needMem (fun m => .done (.lidt m)) rm
  | 4 => .done (.smsw rm)
  | 6 => .done (.lmsw rm)
  | _ => .bad .reservedExtension

/-- Group 8, opcode 0F BA (R202): /0 to /3 are blank. -/
def grp8 (ext : BitVec 3) (rm : Rm) : Tail :=
  match ext.toNat with
  | 4 => .ib (.btImm rm)
  | 5 => .ib (.btsImm rm)
  | 6 => .ib (.btrImm rm)
  | 7 => .ib (.btcImm rm)
  | _ => .bad .reservedExtension

/-- MOV Sreg, r/m16 (8E): CS and the values 110, 111 are reserved (R236). -/
def movSregTail (reg : BitVec 3) (rm : Rm) : Tail :=
  match Sreg.ofBits reg with
  | some .cs => .bad .reservedSreg
  | some sr => .done (.movSregRm sr rm)
  | none => .bad .reservedSreg

/-- MOV r/m16, Sreg (8C): the values 110, 111 are reserved (R236). -/
def movFromSregTail (reg : BitVec 3) (rm : Rm) : Tail :=
  match Sreg.ofBits reg with
  | some sr => .done (.movRmSreg sr rm)
  | none => .bad .reservedSreg

/-- MOV to or from a control register (0F 20, 0F 22; R236). -/
def crTail (k : CrReg → Gpr → Instr) (reg : BitVec 3) (rm : Rm) : Tail :=
  match CrReg.ofBits reg with
  | some cr => needReg (fun r => .done (k cr r)) rm
  | none => .bad .reservedEee

/-- MOV to or from a debug register (0F 21, 0F 23; R236). -/
def drTail (k : DrReg → Gpr → Instr) (reg : BitVec 3) (rm : Rm) : Tail :=
  match DrReg.ofBits reg with
  | some dr => needReg (fun r => .done (k dr r)) rm
  | none => .bad .reservedEee

/-- MOV to or from a test register (0F 24, 0F 26; R236). -/
def trTail (k : TrReg → Gpr → Instr) (reg : BitVec 3) (rm : Rm) : Tail :=
  match TrReg.ofBits reg with
  | some tr => needReg (fun r => .done (k tr r)) rm
  | none => .bad .reservedEee

/-! ## Opcode maps (R200, R201): one definition per eight opcodes -/

/-- The arithmetic opcodes of operation `ooo`, columns 0 to 5 (R203). -/
def aluRow (o : BitVec 3) (col : Nat) (other : Shape) : Shape :=
  match col with
  | 0 => .modrm fun reg rm => .done (aluRmR o false false (Gpr.ofBits reg) rm)
  | 1 => .modrm fun reg rm => .done (aluRmR o false true (Gpr.ofBits reg) rm)
  | 2 => .modrm fun reg rm => .done (aluRmR o true false (Gpr.ofBits reg) rm)
  | 3 => .modrm fun reg rm => .done (aluRmR o true true (Gpr.ofBits reg) rm)
  | 4 => .tail (.ib (aluAlImm o))
  | 5 => .tail (.iv (aluEaxImm o))
  | _ => other

/-- One of two instructions without operands, by the column. -/
def pairRow (col : Nat) (i j : Instr) : Shape :=
  .tail (.done (if col = 6 then i else j))

/-- Opcodes 60 to 67. -/
def row60 (col : Nat) : Shape :=
  match col with
  | 0 => .tail (.done .pusha)
  | 1 => .tail (.done .popa)
  | 2 => .modrm fun reg rm => needMem (fun m => .done (.bound (Gpr.ofBits reg) m)) rm
  | 3 => .modrm fun reg rm => .done (.arpl (Gpr.ofBits reg) rm)
  | 4 => .tail (.done .pfxFs)
  | 5 => .tail (.done .pfxGs)
  | 6 => .tail (.done .pfxOpsize)
  | _ => .tail (.done .pfxAddrsize)

/-- Opcodes 68 to 6F. -/
def row68 (col : Nat) : Shape :=
  match col with
  | 0 => .tail (.iv .pushImm)
  | 1 => .modrm fun reg rm => .iv (.imulRRmImm (Gpr.ofBits reg) rm)
  | 2 => .tail (.ib .pushImm8)
  | 3 => .modrm fun reg rm => .ib (.imulRRmImm8 (Gpr.ofBits reg) rm)
  | 4 => .tail (.done (.ins false))
  | 5 => .tail (.done (.ins true))
  | 6 => .tail (.done (.outs false))
  | _ => .tail (.done (.outs true))

/-- Opcodes 80 to 87; 82 is blank. -/
def row80 (col : Nat) : Shape :=
  match col with
  | 0 => .modrm fun ext rm => .ib (aluRm8Imm ext rm)
  | 1 => .modrm fun ext rm => .iv (aluRmImm ext rm)
  | 2 => .tail (.bad .reservedOpcode)
  | 3 => .modrm fun ext rm => .ib (aluRmImm8s ext rm)
  | 4 => .modrm fun reg rm => .done (.testRmR false (Gpr.ofBits reg) rm)
  | 5 => .modrm fun reg rm => .done (.testRmR true (Gpr.ofBits reg) rm)
  | 6 => .modrm fun reg rm => .done (.xchgRmR false (Gpr.ofBits reg) rm)
  | _ => .modrm fun reg rm => .done (.xchgRmR true (Gpr.ofBits reg) rm)

/-- Opcodes 88 to 8F. -/
def row88 (col : Nat) : Shape :=
  match col with
  | 0 => .modrm fun reg rm => .done (.movRmR false (Gpr.ofBits reg) rm)
  | 1 => .modrm fun reg rm => .done (.movRmR true (Gpr.ofBits reg) rm)
  | 2 => .modrm fun reg rm => .done (.movRRm false (Gpr.ofBits reg) rm)
  | 3 => .modrm fun reg rm => .done (.movRRm true (Gpr.ofBits reg) rm)
  | 4 => .modrm movFromSregTail
  | 5 => .modrm fun reg rm => needMem (fun m => .done (.lea (Gpr.ofBits reg) m)) rm
  | 6 => .modrm movSregTail
  | _ => .modrm fun ext rm => needZero ext (.done (.popRm rm))

/-- Opcodes 98 to 9F; 98 and 99 have two names by the operand size (R241). -/
def row98 (c : Ctx) (col : Nat) : Shape :=
  match col with
  | 0 => .tail (.done (bif c.op32 then .cwde else .cbw))
  | 1 => .tail (.done (bif c.op32 then .cdq else .cwd))
  | 2 => .tail (.ptr .callFar)
  | 3 => .tail (.done .wait)
  | 4 => .tail (.done .pushf)
  | 5 => .tail (.done .popf)
  | 6 => .tail (.done .sahf)
  | _ => .tail (.done .lahf)

/-- Opcodes A0 to A7. -/
def rowA0 (col : Nat) : Shape :=
  match col with
  | 0 => .tail (.moffs (.movAccMoffs false))
  | 1 => .tail (.moffs (.movAccMoffs true))
  | 2 => .tail (.moffs (.movMoffsAcc false))
  | 3 => .tail (.moffs (.movMoffsAcc true))
  | 4 => .tail (.done (.movs false))
  | 5 => .tail (.done (.movs true))
  | 6 => .tail (.done (.cmps false))
  | _ => .tail (.done (.cmps true))

/-- Opcodes A8 to AF. -/
def rowA8 (col : Nat) : Shape :=
  match col with
  | 0 => .tail (.ib .testAlImm)
  | 1 => .tail (.iv .testEaxImm)
  | 2 => .tail (.done (.stos false))
  | 3 => .tail (.done (.stos true))
  | 4 => .tail (.done (.lods false))
  | 5 => .tail (.done (.lods true))
  | 6 => .tail (.done (.scas false))
  | _ => .tail (.done (.scas true))

/-- Opcodes C0 to C7. -/
def rowC0 (col : Nat) : Shape :=
  match col with
  | 0 => .modrm (grp2Imm false)
  | 1 => .modrm (grp2Imm true)
  | 2 => .tail (.iw .retNearImm)
  | 3 => .tail (.done .retNear)
  | 4 => .modrm fun reg rm => needMem (fun m => .done (.les (Gpr.ofBits reg) m)) rm
  | 5 => .modrm fun reg rm => needMem (fun m => .done (.lds (Gpr.ofBits reg) m)) rm
  | 6 => .modrm fun ext rm => needZero ext (.ib (.movRm8Imm rm))
  | _ => .modrm fun ext rm => needZero ext (.iv (.movRmImm rm))

/-- Opcodes C8 to CF. -/
def rowC8 (col : Nat) : Shape :=
  match col with
  | 0 => .tail (.iwib .enter)
  | 1 => .tail (.done .leave)
  | 2 => .tail (.iw .retFarImm)
  | 3 => .tail (.done .retFar)
  | 4 => .tail (.done .int3)
  | 5 => .tail (.ib .int)
  | 6 => .tail (.done .into)
  | _ => .tail (.done .iret)

/-- Opcodes D0 to D7; D6 is blank. -/
def rowD0 (col : Nat) : Shape :=
  match col with
  | 0 => .modrm (grp2One false)
  | 1 => .modrm (grp2One true)
  | 2 => .modrm (grp2Cl false)
  | 3 => .modrm (grp2Cl true)
  | 4 => .tail (.ib .aam)
  | 5 => .tail (.ib .aad)
  | 6 => .tail (.bad .reservedOpcode)
  | _ => .tail (.done .xlat)

/-- Opcodes E0 to E7. -/
def rowE0 (col : Nat) : Shape :=
  match col with
  | 0 => .tail (.ib .loopne)
  | 1 => .tail (.ib .loope)
  | 2 => .tail (.ib .loop)
  | 3 => .tail (.ib .jcxz)
  | 4 => .tail (.ib (.inImm false))
  | 5 => .tail (.ib (.inImm true))
  | 6 => .tail (.ib (.outImm false))
  | _ => .tail (.ib (.outImm true))

/-- Opcodes E8 to EF. -/
def rowE8 (col : Nat) : Shape :=
  match col with
  | 0 => .tail (.iv .callRel)
  | 1 => .tail (.iv .jmpRel)
  | 2 => .tail (.ptr .jmpFar)
  | 3 => .tail (.ib .jmpRel8)
  | 4 => .tail (.done (.inDx false))
  | 5 => .tail (.done (.inDx true))
  | 6 => .tail (.done (.outDx false))
  | _ => .tail (.done (.outDx true))

/-- Opcodes F0 to F7; F1 is blank. -/
def rowF0 (col : Nat) : Shape :=
  match col with
  | 0 => .tail (.done .pfxLock)
  | 1 => .tail (.bad .reservedOpcode)
  | 2 => .tail (.done .pfxRepne)
  | 3 => .tail (.done .pfxRep)
  | 4 => .tail (.done .hlt)
  | 5 => .tail (.done .cmc)
  | 6 => .modrm (grp3 false)
  | _ => .modrm (grp3 true)

/-- Opcodes F8 to FF. -/
def rowF8 (col : Nat) : Shape :=
  match col with
  | 0 => .tail (.done .clc)
  | 1 => .tail (.done .stc)
  | 2 => .tail (.done .cli)
  | 3 => .tail (.done .sti)
  | 4 => .tail (.done .cld)
  | 5 => .tail (.done .std)
  | 6 => .modrm grp4
  | _ => .modrm grp5

/-- The one-byte opcode map (R200). 0F is not here: it opens the two-byte map. -/
def oneByte (c : Ctx) (op : Byte) : Shape :=
  let col := op.toNat % 8
  let low := rmOf op
  match op.toNat / 8 with
  | 0 => aluRow 0 col (pairRow col (.pushSreg .es) .popEs)
  | 1 => aluRow 1 col (.tail (if col = 6 then .done (.pushSreg .cs) else .bad .reservedOpcode))
  | 2 => aluRow 2 col (pairRow col (.pushSreg .ss) .popSs)
  | 3 => aluRow 3 col (pairRow col (.pushSreg .ds) .popDs)
  | 4 => aluRow 4 col (pairRow col .pfxEs .daa)
  | 5 => aluRow 5 col (pairRow col .pfxCs .das)
  | 6 => aluRow 6 col (pairRow col .pfxSs .aaa)
  | 7 => aluRow 7 col (pairRow col .pfxDs .aas)
  | 8 => .tail (.done (.incR (Gpr.ofBits low)))
  | 9 => .tail (.done (.decR (Gpr.ofBits low)))
  | 10 => .tail (.done (.pushR (Gpr.ofBits low)))
  | 11 => .tail (.done (.popR (Gpr.ofBits low)))
  | 12 => row60 col
  | 13 => row68 col
  | 14 => .tail (.ib (.jccRel8 (Cond.ofBits (op.extractLsb' 0 4))))
  | 15 => .tail (.ib (.jccRel8 (Cond.ofBits (op.extractLsb' 0 4))))
  | 16 => row80 col
  | 17 => row88 col
  | 18 => .tail (.done (if col = 0 then .nop else .xchgAccR (Gpr.ofBits low)))
  | 19 => row98 c col
  | 20 => rowA0 col
  | 21 => rowA8 col
  | 22 => .tail (.ib (.movR8Imm (Gpr.ofBits low)))
  | 23 => .tail (.iv (.movRImm (Gpr.ofBits low)))
  | 24 => rowC0 col
  | 25 => rowC8 col
  | 26 => rowD0 col
  | 27 => .modrm fun reg rm => .done (.esc low reg rm)
  | 28 => rowE0 col
  | 29 => rowE8 col
  | 30 => rowF0 col
  | _ => rowF8 col

/-- Opcodes 0F 00 to 0F 07 (R201). -/
def rowX00 (col : Nat) : Shape :=
  match col with
  | 0 => .modrm grp6
  | 1 => .modrm grp7
  | 2 => .modrm fun reg rm => .done (.lar (Gpr.ofBits reg) rm)
  | 3 => .modrm fun reg rm => .done (.lsl (Gpr.ofBits reg) rm)
  | 6 => .tail (.done .clts)
  | _ => .tail (.bad .reservedOpcode)

/-- Opcodes 0F 20 to 0F 27 (R201). -/
def rowX20 (col : Nat) : Shape :=
  match col with
  | 0 => .modrm (crTail fun cr r => .movRCr r cr)
  | 1 => .modrm (drTail fun dr r => .movRDr r dr)
  | 2 => .modrm (crTail fun cr r => .movCrR cr r)
  | 3 => .modrm (drTail fun dr r => .movDrR dr r)
  | 4 => .modrm (trTail fun tr r => .movRTr r tr)
  | 6 => .modrm (trTail fun tr r => .movTrR tr r)
  | _ => .tail (.bad .reservedOpcode)

/-- Opcodes 0F A0 to 0F A7 (R201). -/
def rowXA0 (col : Nat) : Shape :=
  match col with
  | 0 => .tail (.done .pushFs)
  | 1 => .tail (.done .popFs)
  | 3 => .modrm fun reg rm => .done (.btR (Gpr.ofBits reg) rm)
  | 4 => .modrm fun reg rm => .ib (.shldImm (Gpr.ofBits reg) rm)
  | 5 => .modrm fun reg rm => .done (.shldCl (Gpr.ofBits reg) rm)
  | _ => .tail (.bad .reservedOpcode)

/-- Opcodes 0F A8 to 0F AF (R201). -/
def rowXA8 (col : Nat) : Shape :=
  match col with
  | 0 => .tail (.done .pushGs)
  | 1 => .tail (.done .popGs)
  | 3 => .modrm fun reg rm => .done (.btsR (Gpr.ofBits reg) rm)
  | 4 => .modrm fun reg rm => .ib (.shrdImm (Gpr.ofBits reg) rm)
  | 5 => .modrm fun reg rm => .done (.shrdCl (Gpr.ofBits reg) rm)
  | 7 => .modrm fun reg rm => .done (.imulRRm (Gpr.ofBits reg) rm)
  | _ => .tail (.bad .reservedOpcode)

/-- Opcodes 0F B0 to 0F B7 (R201). -/
def rowXB0 (col : Nat) : Shape :=
  match col with
  | 2 => .modrm fun reg rm => needMem (fun m => .done (.lss (Gpr.ofBits reg) m)) rm
  | 3 => .modrm fun reg rm => .done (.btrR (Gpr.ofBits reg) rm)
  | 4 => .modrm fun reg rm => needMem (fun m => .done (.lfs (Gpr.ofBits reg) m)) rm
  | 5 => .modrm fun reg rm => needMem (fun m => .done (.lgs (Gpr.ofBits reg) m)) rm
  | 6 => .modrm fun reg rm => .done (.movzx false (Gpr.ofBits reg) rm)
  | 7 => .modrm fun reg rm => .done (.movzx true (Gpr.ofBits reg) rm)
  | _ => .tail (.bad .reservedOpcode)

/-- Opcodes 0F B8 to 0F BF (R201). -/
def rowXB8 (col : Nat) : Shape :=
  match col with
  | 2 => .modrm grp8
  | 3 => .modrm fun reg rm => .done (.btcR (Gpr.ofBits reg) rm)
  | 4 => .modrm fun reg rm => .done (.bsf (Gpr.ofBits reg) rm)
  | 5 => .modrm fun reg rm => .done (.bsr (Gpr.ofBits reg) rm)
  | 6 => .modrm fun reg rm => .done (.movsx false (Gpr.ofBits reg) rm)
  | 7 => .modrm fun reg rm => .done (.movsx true (Gpr.ofBits reg) rm)
  | _ => .tail (.bad .reservedOpcode)

/-- SETcc with its reg field (R236). -/
def setccTail (cc : Cond) (ext : BitVec 3) (rm : Rm) : Tail :=
  if ext = 0 then .done (.setcc cc rm) else .bad .setccReg

/-- The two-byte opcode map, after 0F (R201). -/
def twoByte (op : Byte) : Shape :=
  let col := op.toNat % 8
  match op.toNat / 8 with
  | 0 => rowX00 col
  | 4 => rowX20 col
  | 16 => .tail (.iv (.jccRel (Cond.ofBits (op.extractLsb' 0 4))))
  | 17 => .tail (.iv (.jccRel (Cond.ofBits (op.extractLsb' 0 4))))
  | 18 => .modrm (setccTail (Cond.ofBits (op.extractLsb' 0 4)))
  | 19 => .modrm (setccTail (Cond.ofBits (op.extractLsb' 0 4)))
  | 20 => rowXA0 col
  | 21 => rowXA8 col
  | 22 => rowXB0 col
  | 23 => rowXB8 col
  | _ => .tail (.bad .reservedOpcode)

/-- The decoder (R161): the instruction at the head of a byte sequence under the size attributes, with the bytes after it. -/
def decode (c : Ctx) (bs : List Byte) : Parse :=
  match bs with
  | [] => .more
  | op :: r =>
    if op = 0x0F then
      match r with
      | [] => .more
      | op2 :: r2 => parseShape c (twoByte op2) r2
    else parseShape c (oneByte c op) r

/-! ## The encoder, from the same tables -/

/-- The mod r/m (or s-i-b) byte from its three fields (R160). -/
def packByte (md : BitVec 2) (reg rm : BitVec 3) : Byte := md ++ reg ++ rm

/-- The bytes of a full-size field (R188). -/
def encodeFull (is32 : Bool) (v : Word) : List Byte :=
  bif is32 then bytes32 v else bytes16 (v.setWidth 16)

/-- The mod field and bytes of a 16-bit displacement form (R181). -/
def encodeDisp16 : Disp16 → BitVec 2 × List Byte
  | .none => (0, [])
  | .d8 d => (1, [d])
  | .d16 d => (2, bytes16 d)

/-- The mod field and bytes of a 32-bit displacement form (R183). -/
def encodeDisp32 : Disp32 → BitVec 2 × List Byte
  | .none => (0, [])
  | .d8 d => (1, [d])
  | .d32 d => (2, bytes32 d)

/-- The mod r/m, s-i-b and displacement bytes of a memory operand (R181 to R184). -/
def encodeMem (reg : BitVec 3) : MemOp → List Byte
  | .m16 base disp => packByte (encodeDisp16 disp).1 reg base.toBits :: (encodeDisp16 disp).2
  | .abs16 d => packByte 0 reg 6 :: bytes16 d
  | .m32 base disp => packByte (encodeDisp32 disp).1 reg base.toBits :: (encodeDisp32 disp).2
  | .abs32 d => packByte 0 reg 5 :: bytes32 d
  | .sib ss index base disp =>
    packByte (encodeDisp32 disp).1 reg 4 :: packByte ss index.toBits base.toBits :: (encodeDisp32 disp).2
  | .sibAbs ss index d => packByte 0 reg 4 :: packByte ss index.toBits 5 :: bytes32 d

/-- The mod r/m, s-i-b and displacement bytes of an operand (R180). -/
def encodeRm (reg : BitVec 3) : Rm → List Byte
  | .reg r => [packByte 3 reg r.toBits]
  | .mem m => encodeMem reg m

/-- An opcode byte with the w bit in bit 0 (R170). -/
def opW (op : Byte) (w : Bool) : Byte := op + bif w then 1 else 0

/-- An opcode byte with a register number in bits 2:0 (R173). -/
def opR (op : BitVec 5) (r : Gpr) : Byte := op ++ r.toBits

/-- An opcode byte with a condition in bits 3:0 (R178). -/
def opC (op : BitVec 4) (cc : Cond) : Byte := op ++ cc.toBits

/-- The bytes of a well-formed instruction, from the bit patterns of Table 8-1 as opcode_table.json gives them. -/
def encode (c : Ctx) : Instr → List Byte
  | .pfxEs => [0x26]
  | .pfxCs => [0x2E]
  | .pfxSs => [0x36]
  | .pfxDs => [0x3E]
  | .pfxFs => [0x64]
  | .pfxGs => [0x65]
  | .pfxOpsize => [0x66]
  | .pfxAddrsize => [0x67]
  | .pfxLock => [0xF0]
  | .pfxRepne => [0xF2]
  | .pfxRep => [0xF3]
  | .movRmR w reg rm => opW 0x88 w :: encodeRm reg.toBits rm
  | .movRRm w reg rm => opW 0x8A w :: encodeRm reg.toBits rm
  | .movRm8Imm rm imm => 0xC6 :: (encodeRm 0 rm ++ [imm])
  | .movRmImm rm imm => 0xC7 :: (encodeRm 0 rm ++ encodeFull c.op32 imm)
  | .movR8Imm reg imm => [opR 22 reg, imm]
  | .movRImm reg imm => opR 23 reg :: encodeFull c.op32 imm
  | .movAccMoffs w off => opW 0xA0 w :: encodeFull c.addr32 off
  | .movMoffsAcc w off => opW 0xA2 w :: encodeFull c.addr32 off
  | .movSregRm sr rm => 0x8E :: encodeRm sr.toBits rm
  | .movRmSreg sr rm => 0x8C :: encodeRm sr.toBits rm
  | .movsx w reg rm => 0x0F :: opW 0xBE w :: encodeRm reg.toBits rm
  | .movzx w reg rm => 0x0F :: opW 0xB6 w :: encodeRm reg.toBits rm
  | .pushR reg => [opR 10 reg]
  | .pushImm imm => 0x68 :: encodeFull c.op32 imm
  | .pushImm8 imm => [0x6A, imm]
  | .pushSreg sr => [0b00#2 ++ sr.toBits ++ 0b110#3]
  | .pushFs => [0x0F, 0xA0]
  | .pushGs => [0x0F, 0xA8]
  | .pusha => [0x60]
  | .popRm rm => 0x8F :: encodeRm 0 rm
  | .popR reg => [opR 11 reg]
  | .popEs => [0x07]
  | .popSs => [0x17]
  | .popDs => [0x1F]
  | .popFs => [0x0F, 0xA1]
  | .popGs => [0x0F, 0xA9]
  | .popa => [0x61]
  | .nop => [0x90]
  | .xchgAccR reg => [opR 18 reg]
  | .xchgRmR w reg rm => opW 0x86 w :: encodeRm reg.toBits rm
  | .inImm w port => [opW 0xE4 w, port]
  | .inDx w => [opW 0xEC w]
  | .outImm w port => [opW 0xE6 w, port]
  | .outDx w => [opW 0xEE w]
  | .lea reg m => 0x8D :: encodeMem reg.toBits m
  | .lds reg m => 0xC5 :: encodeMem reg.toBits m
  | .les reg m => 0xC4 :: encodeMem reg.toBits m
  | .lfs reg m => 0x0F :: 0xB4 :: encodeMem reg.toBits m
  | .lgs reg m => 0x0F :: 0xB5 :: encodeMem reg.toBits m
  | .lss reg m => 0x0F :: 0xB2 :: encodeMem reg.toBits m
  | .clc => [0xF8]
  | .cld => [0xFC]
  | .cli => [0xFA]
  | .cmc => [0xF5]
  | .lahf => [0x9F]
  | .popf => [0x9D]
  | .pushf => [0x9C]
  | .sahf => [0x9E]
  | .stc => [0xF9]
  | .std => [0xFD]
  | .sti => [0xFB]
  | .clts => [0x0F, 0x06]
  | .addRmR d w reg rm => opW (0x00 + bif d then 2 else 0) w :: encodeRm reg.toBits rm
  | .addAlImm imm => [0x04, imm]
  | .addEaxImm imm => 0x05 :: encodeFull c.op32 imm
  | .addRm8Imm rm imm => 0x80 :: (encodeRm 0 rm ++ [imm])
  | .addRmImm rm imm => 0x81 :: (encodeRm 0 rm ++ encodeFull c.op32 imm)
  | .addRmImm8s rm imm => 0x83 :: (encodeRm 0 rm ++ [imm])
  | .orRmR d w reg rm => opW (0x08 + bif d then 2 else 0) w :: encodeRm reg.toBits rm
  | .orAlImm imm => [0x0C, imm]
  | .orEaxImm imm => 0x0D :: encodeFull c.op32 imm
  | .orRm8Imm rm imm => 0x80 :: (encodeRm 1 rm ++ [imm])
  | .orRmImm rm imm => 0x81 :: (encodeRm 1 rm ++ encodeFull c.op32 imm)
  | .orRmImm8s rm imm => 0x83 :: (encodeRm 1 rm ++ [imm])
  | .adcRmR d w reg rm => opW (0x10 + bif d then 2 else 0) w :: encodeRm reg.toBits rm
  | .adcAlImm imm => [0x14, imm]
  | .adcEaxImm imm => 0x15 :: encodeFull c.op32 imm
  | .adcRm8Imm rm imm => 0x80 :: (encodeRm 2 rm ++ [imm])
  | .adcRmImm rm imm => 0x81 :: (encodeRm 2 rm ++ encodeFull c.op32 imm)
  | .adcRmImm8s rm imm => 0x83 :: (encodeRm 2 rm ++ [imm])
  | .sbbRmR d w reg rm => opW (0x18 + bif d then 2 else 0) w :: encodeRm reg.toBits rm
  | .sbbAlImm imm => [0x1C, imm]
  | .sbbEaxImm imm => 0x1D :: encodeFull c.op32 imm
  | .sbbRm8Imm rm imm => 0x80 :: (encodeRm 3 rm ++ [imm])
  | .sbbRmImm rm imm => 0x81 :: (encodeRm 3 rm ++ encodeFull c.op32 imm)
  | .sbbRmImm8s rm imm => 0x83 :: (encodeRm 3 rm ++ [imm])
  | .andRmR d w reg rm => opW (0x20 + bif d then 2 else 0) w :: encodeRm reg.toBits rm
  | .andAlImm imm => [0x24, imm]
  | .andEaxImm imm => 0x25 :: encodeFull c.op32 imm
  | .andRm8Imm rm imm => 0x80 :: (encodeRm 4 rm ++ [imm])
  | .andRmImm rm imm => 0x81 :: (encodeRm 4 rm ++ encodeFull c.op32 imm)
  | .andRmImm8s rm imm => 0x83 :: (encodeRm 4 rm ++ [imm])
  | .subRmR d w reg rm => opW (0x28 + bif d then 2 else 0) w :: encodeRm reg.toBits rm
  | .subAlImm imm => [0x2C, imm]
  | .subEaxImm imm => 0x2D :: encodeFull c.op32 imm
  | .subRm8Imm rm imm => 0x80 :: (encodeRm 5 rm ++ [imm])
  | .subRmImm rm imm => 0x81 :: (encodeRm 5 rm ++ encodeFull c.op32 imm)
  | .subRmImm8s rm imm => 0x83 :: (encodeRm 5 rm ++ [imm])
  | .xorRmR d w reg rm => opW (0x30 + bif d then 2 else 0) w :: encodeRm reg.toBits rm
  | .xorAlImm imm => [0x34, imm]
  | .xorEaxImm imm => 0x35 :: encodeFull c.op32 imm
  | .xorRm8Imm rm imm => 0x80 :: (encodeRm 6 rm ++ [imm])
  | .xorRmImm rm imm => 0x81 :: (encodeRm 6 rm ++ encodeFull c.op32 imm)
  | .xorRmImm8s rm imm => 0x83 :: (encodeRm 6 rm ++ [imm])
  | .cmpRmR d w reg rm => opW (0x38 + bif d then 2 else 0) w :: encodeRm reg.toBits rm
  | .cmpAlImm imm => [0x3C, imm]
  | .cmpEaxImm imm => 0x3D :: encodeFull c.op32 imm
  | .cmpRm8Imm rm imm => 0x80 :: (encodeRm 7 rm ++ [imm])
  | .cmpRmImm rm imm => 0x81 :: (encodeRm 7 rm ++ encodeFull c.op32 imm)
  | .cmpRmImm8s rm imm => 0x83 :: (encodeRm 7 rm ++ [imm])
  | .incRm w rm => opW 0xFE w :: encodeRm 0 rm
  | .incR reg => [opR 8 reg]
  | .decRm w rm => opW 0xFE w :: encodeRm 1 rm
  | .decR reg => [opR 9 reg]
  | .negRm w rm => opW 0xF6 w :: encodeRm 3 rm
  | .aaa => [0x37]
  | .aas => [0x3F]
  | .daa => [0x27]
  | .das => [0x2F]
  | .aam imm => [0xD4, imm]
  | .aad imm => [0xD5, imm]
  | .mulRm w rm => opW 0xF6 w :: encodeRm 4 rm
  | .imulRm w rm => opW 0xF6 w :: encodeRm 5 rm
  | .imulRRm reg rm => 0x0F :: 0xAF :: encodeRm reg.toBits rm
  | .imulRRmImm reg rm imm => 0x69 :: (encodeRm reg.toBits rm ++ encodeFull c.op32 imm)
  | .imulRRmImm8 reg rm imm => 0x6B :: (encodeRm reg.toBits rm ++ [imm])
  | .divRm w rm => opW 0xF6 w :: encodeRm 6 rm
  | .idivRm w rm => opW 0xF6 w :: encodeRm 7 rm
  | .cbw => [0x98]
  | .cwde => [0x98]
  | .cwd => [0x99]
  | .cdq => [0x99]
  | .testAlImm imm => [0xA8, imm]
  | .testEaxImm imm => 0xA9 :: encodeFull c.op32 imm
  | .testRm8Imm rm imm => 0xF6 :: (encodeRm 0 rm ++ [imm])
  | .testRmImm rm imm => 0xF7 :: (encodeRm 0 rm ++ encodeFull c.op32 imm)
  | .testRmR w reg rm => opW 0x84 w :: encodeRm reg.toBits rm
  | .notRm w rm => opW 0xF6 w :: encodeRm 2 rm
  | .rolRm1 w rm => opW 0xD0 w :: encodeRm 0 rm
  | .rolRmCl w rm => opW 0xD2 w :: encodeRm 0 rm
  | .rolRmImm w rm imm => opW 0xC0 w :: (encodeRm 0 rm ++ [imm])
  | .rorRm1 w rm => opW 0xD0 w :: encodeRm 1 rm
  | .rorRmCl w rm => opW 0xD2 w :: encodeRm 1 rm
  | .rorRmImm w rm imm => opW 0xC0 w :: (encodeRm 1 rm ++ [imm])
  | .rclRm1 w rm => opW 0xD0 w :: encodeRm 2 rm
  | .rclRmCl w rm => opW 0xD2 w :: encodeRm 2 rm
  | .rclRmImm w rm imm => opW 0xC0 w :: (encodeRm 2 rm ++ [imm])
  | .rcrRm1 w rm => opW 0xD0 w :: encodeRm 3 rm
  | .rcrRmCl w rm => opW 0xD2 w :: encodeRm 3 rm
  | .rcrRmImm w rm imm => opW 0xC0 w :: (encodeRm 3 rm ++ [imm])
  | .shlRm1 w rm => opW 0xD0 w :: encodeRm 4 rm
  | .shlRmCl w rm => opW 0xD2 w :: encodeRm 4 rm
  | .shlRmImm w rm imm => opW 0xC0 w :: (encodeRm 4 rm ++ [imm])
  | .shrRm1 w rm => opW 0xD0 w :: encodeRm 5 rm
  | .shrRmCl w rm => opW 0xD2 w :: encodeRm 5 rm
  | .shrRmImm w rm imm => opW 0xC0 w :: (encodeRm 5 rm ++ [imm])
  | .sarRm1 w rm => opW 0xD0 w :: encodeRm 7 rm
  | .sarRmCl w rm => opW 0xD2 w :: encodeRm 7 rm
  | .sarRmImm w rm imm => opW 0xC0 w :: (encodeRm 7 rm ++ [imm])
  | .shldImm reg rm imm => 0x0F :: 0xA4 :: (encodeRm reg.toBits rm ++ [imm])
  | .shldCl reg rm => 0x0F :: 0xA5 :: encodeRm reg.toBits rm
  | .shrdImm reg rm imm => 0x0F :: 0xAC :: (encodeRm reg.toBits rm ++ [imm])
  | .shrdCl reg rm => 0x0F :: 0xAD :: encodeRm reg.toBits rm
  | .movs w => [opW 0xA4 w]
  | .cmps w => [opW 0xA6 w]
  | .scas w => [opW 0xAE w]
  | .stos w => [opW 0xAA w]
  | .lods w => [opW 0xAC w]
  | .ins w => [opW 0x6C w]
  | .outs w => [opW 0x6E w]
  | .xlat => [0xD7]
  | .btImm rm imm => 0x0F :: 0xBA :: (encodeRm 4 rm ++ [imm])
  | .btsImm rm imm => 0x0F :: 0xBA :: (encodeRm 5 rm ++ [imm])
  | .btrImm rm imm => 0x0F :: 0xBA :: (encodeRm 6 rm ++ [imm])
  | .btcImm rm imm => 0x0F :: 0xBA :: (encodeRm 7 rm ++ [imm])
  | .btR reg rm => 0x0F :: 0xA3 :: encodeRm reg.toBits rm
  | .btsR reg rm => 0x0F :: 0xAB :: encodeRm reg.toBits rm
  | .btrR reg rm => 0x0F :: 0xB3 :: encodeRm reg.toBits rm
  | .btcR reg rm => 0x0F :: 0xBB :: encodeRm reg.toBits rm
  | .bsf reg rm => 0x0F :: 0xBC :: encodeRm reg.toBits rm
  | .bsr reg rm => 0x0F :: 0xBD :: encodeRm reg.toBits rm
  | .jmpRel8 d => [0xEB, d]
  | .jmpRel d => 0xE9 :: encodeFull c.op32 d
  | .jmpRm rm => 0xFF :: encodeRm 4 rm
  | .jmpFar off sel => 0xEA :: (encodeFull c.op32 off ++ bytes16 sel)
  | .jmpMemFar m => 0xFF :: encodeMem 5 m
  | .callRel d => 0xE8 :: encodeFull c.op32 d
  | .callRm rm => 0xFF :: encodeRm 2 rm
  | .callFar off sel => 0x9A :: (encodeFull c.op32 off ++ bytes16 sel)
  | .callMemFar m => 0xFF :: encodeMem 3 m
  | .pushRm rm => 0xFF :: encodeRm 6 rm
  | .retNear => [0xC3]
  | .retNearImm n => 0xC2 :: bytes16 n
  | .retFar => [0xCB]
  | .retFarImm n => 0xCA :: bytes16 n
  | .jccRel8 cc d => [opC 7 cc, d]
  | .jccRel cc d => 0x0F :: opC 8 cc :: encodeFull c.op32 d
  | .jcxz d => [0xE3, d]
  | .loop d => [0xE2, d]
  | .loope d => [0xE1, d]
  | .loopne d => [0xE0, d]
  | .setcc cc rm => 0x0F :: opC 9 cc :: encodeRm 0 rm
  | .enter size level => 0xC8 :: (bytes16 size ++ [level])
  | .leave => [0xC9]
  | .int n => [0xCD, n]
  | .int3 => [0xCC]
  | .into => [0xCE]
  | .bound reg m => 0x62 :: encodeMem reg.toBits m
  | .iret => [0xCF]
  | .hlt => [0xF4]
  | .movRCr reg cr => [0x0F, 0x20, packByte 3 cr.toBits reg.toBits]
  | .movCrR cr reg => [0x0F, 0x22, packByte 3 cr.toBits reg.toBits]
  | .movRDr reg dr => [0x0F, 0x21, packByte 3 dr.toBits reg.toBits]
  | .movDrR dr reg => [0x0F, 0x23, packByte 3 dr.toBits reg.toBits]
  | .movRTr reg tr => [0x0F, 0x24, packByte 3 tr.toBits reg.toBits]
  | .movTrR tr reg => [0x0F, 0x26, packByte 3 tr.toBits reg.toBits]
  | .wait => [0x9B]
  | .esc ttt lll rm => (0b11011#5 ++ ttt) :: encodeRm lll rm
  | .arpl reg rm => 0x63 :: encodeRm reg.toBits rm
  | .lar reg rm => 0x0F :: 0x02 :: encodeRm reg.toBits rm
  | .lsl reg rm => 0x0F :: 0x03 :: encodeRm reg.toBits rm
  | .sldt rm => 0x0F :: 0x00 :: encodeRm 0 rm
  | .str rm => 0x0F :: 0x00 :: encodeRm 1 rm
  | .lldt rm => 0x0F :: 0x00 :: encodeRm 2 rm
  | .ltr rm => 0x0F :: 0x00 :: encodeRm 3 rm
  | .verr rm => 0x0F :: 0x00 :: encodeRm 4 rm
  | .verw rm => 0x0F :: 0x00 :: encodeRm 5 rm
  | .sgdt m => 0x0F :: 0x01 :: encodeMem 0 m
  | .sidt m => 0x0F :: 0x01 :: encodeMem 1 m
  | .lgdt m => 0x0F :: 0x01 :: encodeMem 2 m
  | .lidt m => 0x0F :: 0x01 :: encodeMem 3 m
  | .smsw rm => 0x0F :: 0x01 :: encodeRm 4 rm
  | .lmsw rm => 0x0F :: 0x01 :: encodeRm 6 rm

/-! ## Words numbered as spec/opcode_table.json numbers them -/

/-- The bytes of an instruction whose table number is `w`. The table reads the matched bytes as one number with the first
byte leftmost (R220), so the first byte is the highest. -/
def tableBytes : Nat → Nat → List Byte
  | 0, _ => []
  | n + 1, w => BitVec.ofNat 8 (w / 256 ^ n) :: tableBytes n w

/-- The length to which the host's words are padded: the longest instruction (R162). -/
def maxInstrLen : Nat := 15

/-- The bytes of the table word followed by zeros up to the longest instruction (R162, R220; log entry 6). -/
def tableWordBytes (nbits w : Nat) : List Byte :=
  (tableBytes (nbits / 8) w ++ List.replicate maxInstrLen 0).take maxInstrLen

/-- The instruction the decoder reads from a table word, with the 16-bit size attributes in force after reset (R172, R792). -/
def decodeTableWord (nbits w : Nat) : Option Instr :=
  match decode ⟨false, false⟩ (tableWordBytes nbits w) with
  | .ok i _ => some i
  | _ => none

end Sys2Proof
end

