-- ==== Sys2Proof/Machine/Fetch.lean ====
section
/-!
DEFINITION. Instruction fetch and decoding in the machine (10_state.md R33, R34, R61; 20_memory.md R144; 30_encoding.md R161,
R162, R172), and where a program's next instruction stands in memory.
-/

namespace Sys2Proof.Machine

/-! ## Bytes (R34, R144) -/

/-- The offset in CS of the byte `i` bytes after those already read of the instruction (R33), not taken modulo 2^16 in 16-bit code: the
bytes of an instruction that crosses FFFFh lie at 10000h and up, where `State.crossesEnd` and the limit admit them (log entry 51). -/
def State.fetchOffset (s : State) (i : Nat) : Nat := s.fetch.start.toNat + s.fetch.pfx.count + i

/-- The byte the prefetch queue delivers for an address: the byte in memory, or one of those a store has replaced since
(R144, U23; log entry 14). -/
def queued (a : Word) : List Host.Cell → Byte → M Byte
  | [], b => pure b
  | (x, old) :: rest, b =>
    if x = a.toNat then do
      let stale ← drawBit
      bif stale then pure old else queued a rest b
    else queued a rest b

/-- The bytes the prefetch queue may hold for a linear address from before a change of the page mapping, but for those that a fetch
would deliver now in any case (R144; log entry 14). -/
def State.aheadBytes (s : State) (la : Word) : List Byte :=
  ((s.fetch.ahead.filter fun c => c.1 == la.toNat).map fun c => c.2).filter
    fun b => (peekBytes s la).isEmpty || (peekBytes s la).any (· != b)

/-- One of several bytes the queue may hold, by draws, or none of them (R144, U23). -/
def drawByte : List Byte → M (Option Byte)
  | [] => pure none
  | b :: bs => do
    let held ← drawBit
    bif held then pure (some b) else drawByte bs

/-- The byte at an offset belongs to an instruction that crosses offset FFFFh in Real Address Mode (R34, R731, D11). In the other modes
the bytes of an instruction that crosses FFFFh lie at 10000h and up as far as the limit allows, without wrap (log entry 51). -/
def State.crossesEnd (s : State) (off : Nat) : Bool :=
  s.realMode && decide (s.fetch.start.toNat ≤ 0xFFFF) && decide (0xFFFF < off)

/-- Fetch the byte `i` bytes on: within the limit of CS and, in Real Address Mode, not across FFFFh, from the queue or translated as a
read at the current level (R34, R132, R144, R731). -/
def fetchByte (i : Nat) : M Byte := do
  let s ← get
  let off := s.fetchOffset i
  check ((!s.protMode || s.segs.cs.valid) && decide (off ≤ s.segs.cs.limit.toNat) && !s.crossesEnd off) (excGP 0)
  let la := s.segs.cs.base + BitVec.ofNat 32 off
  let ahead ← drawByte (s.aheadBytes la)
  match ahead with
  | some b => pure b
  | none => do
    let a ← translate la false s.userLevel
    let b ← physReadByte a
    queued a s.fetch.stale b

/-! ## Instructions (R161, R162, R172) -/

/-- The instruction starts among the bytes that may have been decoded before a change of CR0.PE (R144; log entry 15), which run on
without a wrap at 2^16 (log entry 54). -/
def State.inWindow (s : State) : Bool :=
  match s.fetch.window with
  | some w => decide ((s.fetch.start - w.start).toNat < s.params.prefetchBytes)
  | none => false

/-- The change of CR0.PE changed the code size (R144). -/
def State.sizeChanged (s : State) : Bool :=
  match s.fetch.window with
  | some w => w.code32 != s.code32
  | none => false

/-- Whether the instruction is decoded with the old code size: a draw where that is possible (R144; log entry 15). -/
def useOldSize : M Bool := do
  let possible ← look fun s => s.inWindow && s.sizeChanged
  if possible then drawBit else pure false

/-- JMP: the jump that R796 puts after a change of CR0.PE, which takes effect in the new mode. -/
def isJump : Instr → Bool
  | .jmpRel8 _ | .jmpRel _ | .jmpRm _ | .jmpFar _ _ | .jmpMemFar _ => true
  | _ => false

/-- Whether a decoded instruction runs with the semantics of the mode before a change of CR0.PE: a draw where that is possible, the
same as that of its size where the size shows it; prefixes are only recorded, and a JMP runs in the new mode (R144, R796, R800; log
entry 15). -/
def useOldMode (i : Instr) (flip : Bool) : M Bool := do
  let s ← get
  if isPrefix i || isJump i || !s.inWindow then pure false
  else if s.sizeChanged then pure flip
  else drawBit

/-- The size attributes of decoding (R172). -/
def State.ctx (s : State) (flip : Bool) : Ctx := { op32 := s.op32 ^^ flip, addr32 := s.addr32 ^^ flip }

/-- Read bytes until they make an instruction: it and how many bytes it took. No more than the longest instruction allows
(#GP(0), R162); a reserved encoding raises #UD (R236, R237), SETcc with a nonzero reg field is declined (D23). A reserved form is
known by its opcode and mod r/m byte: it raises #UD once its addressing bytes are fetched, before its immediate (R161; log entry 39).
SETcc of that form is declined after a LOCK or repeat prefix too, before the check of the prefix (log entry 25). -/
def fetchBytes (c : Ctx) : Nat → List Byte → M (Instr × Nat)
  | 0, _ => raise (excGP 0)
  | fuel + 1, bs => do
    let b ← fetchByte bs.length
    let bs' := bs ++ [b]
    match decode c bs' with
    | .ok i _ => pure (i, bs'.length)
    | .more => fetchBytes c fuel bs'
    | .bad .setccReg => refuse .setccReg
    | .bad _ => raise excUD

/-- The offset of the byte after the instruction: modulo 2^16 in 16-bit code, else modulo 2^32, the code size being that of its
decoding (R34; log entry 15). -/
def State.nextEip (s : State) (len : Nat) (flip : Bool) : Word :=
  let e := s.fetch.start + BitVec.ofNat 32 (s.fetch.pfx.count + len)
  bif s.code32 ^^ flip then e else (e.setWidth 16).setWidth 32

/-- The prefixes with which a decoded instruction runs: where it was decoded with the old code size and runs in the new mode, both
its attributes are turned over (log entry 15). -/
def Prefixes.decoded (p : Prefixes) (flip : Bool) : Prefixes :=
  bif flip then { p with op66 := !p.op66, ad67 := !p.ad67 } else p

/-- The state in which a decoded instruction runs, in the old mode or the new: EIP at the next one, and the instruction kept in case
it repeats or waits (R33, R450, R611; log entries 15, 26). -/
def State.readyAs (s : State) (i : Instr) (p : Prefixes) (next : Word) (old : Bool) : State :=
  (s.withEip next).withFetch
    { s.fetch with pfx := p, oldMode := old, held := some { instr := i, pfx := p, next := next, oldMode := old } }

/-- The state in which a fetched instruction or prefix runs (R33). -/
def State.ready (s : State) (i : Instr) (len : Nat) (flip old : Bool) : State :=
  bif isPrefix i then s.withEip (s.nextEip len flip)
  else s.readyAs i (s.fetch.pfx.decoded (flip && !old)) (s.nextEip len flip) old

/-- Fetch and decode the next instruction or prefix: it, and the state it runs in (R161). -/
def fetchInstr : M Instr := do
  let flip ← useOldSize
  let s ← get
  let (i, len) ← fetchBytes (s.ctx flip) (maxInstrLen - s.fetch.pfx.count) []
  let old ← useOldMode i flip
  update fun t => t.ready i len flip old
  pure i

/-! ## Instruction breakpoints (R751, R755) -/

/-- Breakpoint `i` matches the execution of the instruction whose first byte is at a linear address (R751). -/
def Debug.matchesExec (d : Debug) (i : Nat) (la : Word) : Bool :=
  d.dr7.rw i == 0 && d.dr7.len i == 0 && d.dr i == la

/-- The breakpoints that match the execution of an instruction: bit `i` for those `sel` selects (R751). -/
def Debug.execHits (d : Debug) (la : Word) (sel : Nat → Bool) : BitVec 4 :=
  BitVec.ofBool (d.matchesExec 3 la && sel 3) ++ BitVec.ofBool (d.matchesExec 2 la && sel 2) ++
  BitVec.ofBool (d.matchesExec 1 la && sel 1) ++ BitVec.ofBool (d.matchesExec 0 la && sel 0)

/-! ## Placing an instruction -/

/-- Write bytes from a linear address on, wherever a fetch from there may read (R129). -/
def State.placeBytes (s : State) : Word → List Byte → State
  | _, [] => s
  | la, b :: bs =>
    State.placeBytes (s.withMem ((peekFrames s la).foldl (fun m a => Memory.write m a.toNat b) s.mem)) (la + 1) bs

/-- The linear address of the byte the next step fetches first (R12, R33). -/
def State.fetchAddress (s : State) : Word :=
  s.segs.cs.base + (if s.fetch.pfx.count = 0 then s.eip else s.fetch.start + BitVec.ofNat 32 s.fetch.pfx.count)

/-- Nothing stands between the next step and its instruction: no pending trap, interrupt, halt or reset, an empty queue, no
instruction to go on with. -/
def State.unobstructed (s : State) : State :=
  ((((s.flushQueue).inOwnMode).withHeld none).withPend
    { s.pend with activity := .running, hits := 0, bs := false, bt := false }).withPins
    { s.pins with intr := [], nmiPending := false, reset := false }

end Sys2Proof.Machine
end

