-- ==== Sys2Proof/Machine/Cycle.lean ====
section
/-!
DEFINITION. What one step does (60_exceptions.md R726 to R729): the events recognised at an instruction boundary, then one
prefix, one instruction, or one iteration of a repeated string instruction.
-/

namespace Sys2Proof.Machine

/-! ## Running what was fetched -/

/-- The outcome of a fetched instruction: the checks of its LOCK and repeat prefixes, then its meaning (R451, R615). -/
def runFetched (i : Instr) (s : State) : Host.Outcome State Fault Refusal :=
  match prefixFault i s with
  | some e => conclude s (.error (.exc e s))
  | none => exec i s

/-- Fetch the next instruction or prefix and run it; a fault of the fetch is taken (R729). -/
def fetchAndRun (s : State) : Host.Outcome State Fault Refusal :=
  match fetchInstr s with
  | .ok (i, t) => runFetched i t
  | .error e => conclude s (.error e)

/-! ## Events at a boundary (R726 to R729, R751 to R756) -/

/-- The event of a debug exception: the saved EFLAGS image is not given RF (R755). -/
def debugEvent (s : State) : Event :=
  { vector := 1, kind := .exception, code := none, ret := s.eip, faultRet := s.eip, rf := false, cs := none }

/-- The event of an external interrupt (R726, R727). -/
def externalEvent (v : Byte) (s : State) : Event :=
  { vector := v, kind := .external, code := none, ret := s.eip, faultRet := s.eip, rf := false, cs := none }

/-- The breakpoints that matched without being enabled, as DR6 tells them: a free choice of them (R755). -/
def State.nearTold (s : State) : BitVec 4 := s.pend.near &&& Config.freeBits 4 s.draws

/-- A debug trap waits and MOV SS does not hold it off (R59, R729). -/
def State.trapDue (s : State) : Bool :=
  (s.pend.bs || s.pend.bt || s.pend.hits != 0) && s.pend.shadow != .movSs

/-- The state in which a waiting debug trap is taken: all its conditions in DR6, nothing pending (R756). -/
def State.reportTrap (s : State) : State :=
  ((s.withDebug { s.dregs with dr6 := s.dregs.dr6.report s.pend.hits s.nearTold s.pend.bs s.pend.bt }).withPend
    { s.pend with hits := 0, near := 0, bs := false, bt := false }).withDraws (s.draws + 1)

/-- The state in which an NMI is taken (R727). -/
def State.acceptNmi (s : State) : State :=
  s.withPins { s.pins with nmiPending := false, nmiBlocked := true }

/-- An NMI waits and nothing holds it off (R727, R728). -/
def State.nmiDue (s : State) : Bool :=
  s.pins.nmiPending && !s.pins.nmiBlocked && s.pend.shadow != .movSs

/-- INTR is recognised (R726, R728). -/
def State.intrOpen (s : State) : Bool := s.flags.intf && s.pend.shadow == .none

/-- The start of an instruction: the shadow is over, its first byte is at EIP, and no mode but that of CR0 is in force until it is
decoded (R59, R701). Of the breakpoints that are not enabled only those that match from here on may be told in DR6 (R755; log entry
63). -/
def State.beginInstr (s : State) : State :=
  (s.withPend { s.pend with
    shadow := .none, near := s.dregs.execHits (s.segs.cs.base + s.eip) fun i => !s.dregs.dr7.enabled i }).withFetch
    { s.fetch with start := s.eip, oldMode := false }

/-- The enabled instruction breakpoints that the next instruction hits, unless RF suppresses them (R751, R755). -/
def State.breakHits (s : State) : BitVec 4 :=
  bif s.flags.rf then 0 else s.dregs.execHits (s.segs.cs.base + s.eip) s.dregs.dr7.enabled

/-- The state in which an instruction breakpoint fault is taken (R751). -/
def State.reportBreak (s : State) (hits : BitVec 4) : State :=
  (s.withDebug { s.dregs with dr6 := s.dregs.dr6.report hits s.nearTold false false }).withDraws (s.draws + 1)

/-- The state in which an instruction that repeats or waits goes on, as it was decoded (R450, R611; log entry 26). -/
def State.resume (s : State) (h : Held) : State :=
  s.beginInstr.readyAs h.instr h.pfx h.next h.oldMode

/-- Begin the next instruction: one that repeats or waits goes on as it was decoded; before another an instruction breakpoint
faults, and reports nothing but itself (R756; log entry 11), else it is fetched and run (R729). -/
def startInstr (s : State) : Host.Outcome State Fault Refusal :=
  match s.fetch.held with
  | some h => runFetched h.instr (s.resume h)
  | none =>
    if s.breakHits = 0 then fetchAndRun s.beginInstr
    else take (debugEvent s) (s.beginInstr.reportBreak s.breakHits)

/-- With no event to take: a halted processor stays halted, else the next instruction begins (R600, R743; log entry 27). -/
def proceed (s : State) : Host.Outcome State Fault Refusal :=
  if s.pend.activity = .halted then .next (s.withShadow .none) else startInstr s

/-- INTR, after the debug trap and NMI: an acknowledge takes the next vector (R726; log entry 40). -/
def afterNmi (s : State) : Host.Outcome State Fault Refusal :=
  match s.pins.intr with
  | [] => proceed s
  | v :: rest =>
    if s.intrOpen then take (externalEvent v s) (s.withPins { s.pins with intr := rest }) else proceed s

/-- An instruction boundary: the debug trap, NMI, INTR, then the next instruction (R728, R729). -/
def boundary (s : State) : Host.Outcome State Fault Refusal :=
  if s.trapDue then take (debugEvent s) s.reportTrap
  else if s.nmiDue then take (externalEvent 2 s) s.acceptNmi
  else afterNmi s

/-- RESET: the state after reset, whatever the processor was doing; memory and the parameters of the platform stay, INTR, BUSY# and
ERROR# are the environment's, the input is released (R790 to R795; log entry 50). The record of ports and the count of draws go
on. -/
def State.onReset (s : State) : State :=
  (((State.resetOf s.params s.mem).withPins
    { (State.resetOf s.params s.mem).pins with intr := s.pins.intr, busy := s.pins.busy, error := s.pins.error }).withIo
    s.io).withDraws s.draws

/-- One step: RESET first of all; nothing once shut down; the rest of an instruction whose prefixes have been read; else a boundary
(R790, R746, R616). -/
def stepOnce (s : State) : Host.Outcome State Fault Refusal :=
  if s.pins.reset then .next s.onReset
  else if s.pend.activity = .shutdown then .fault .shutdown
  else if s.fetch.pfx.count = 0 then boundary s
  else fetchAndRun s

end Sys2Proof.Machine
end

