-- ==== Sys2Proof/Machine/Step.lean ====
section
/-!
DEFINITION. The step of the machine, and the placement of an instruction where the step fetches (log entry 5).
-/

namespace Sys2Proof.Machine

/-- One step of the machine (60_exceptions.md R728, R729). -/
def step (s : State) : Host.Outcome State Fault Refusal := stepOnce s

/-- The state with an instruction, given by its table number, stored where the next step fetches, and nothing in its way
(log entries 5, 6). -/
def State.withFetchWord (s : State) (nbits w : Nat) : State :=
  (s.unobstructed).placeBytes s.fetchAddress (tableWordBytes nbits w)

end Sys2Proof.Machine
end

