-- ==== Sys2Proof/Safety.lean ====
section
/-!
DEFINITION. What the statements speak of: legal states, what an access or an instruction leaves unchanged, where a result goes,
and the completion of an instruction.
-/

namespace Sys2Proof.Machine

/-! ## Legal states -/

/-- The mode bits are a legal mode: in Real Address Mode CPL is 0 and VM is 0, in Virtual 8086 Mode CPL is 3
(10_state.md R37, R40; 00_scope.md R15). -/
def State.modeLegal (s : State) : Bool :=
  (s.cr0.pe || (s.cpl == 0 && !s.flags.vm)) && (!s.flags.vm || s.cpl == 3)

/-- The modes are legal while the processor executes: a processor that is shut down has no mode to speak of (R746). -/
def State.modeOk (s : State) : Bool := s.pend.activity == .shutdown || s.modeLegal

/-- Memory is in its canonical form. -/
def State.memOk (s : State) : Bool := Memory.wf s.mem

/-! ## What stays -/

/-- Everything of the system is unchanged: CPL, segment, control, table, debug and test registers, pins, ports. -/
structure SameSystem (s t : State) : Prop where
  cpl : t.cpl = s.cpl
  segs : t.segs = s.segs
  cr0 : t.cr0 = s.cr0
  cr2 : t.cr2 = s.cr2
  cr3 : t.cr3 = s.cr3
  tables : t.tables = s.tables
  dregs : t.dregs = s.dregs
  test : t.test = s.test
  pins : t.pins = s.pins
  params : t.params = s.params
  io : t.io = s.io

/-- The byte with A and D of an entry of the page tables: of the directory entry of some linear address, or of its table entry
where the directory entry is present (20_memory.md R130, R131). -/
def State.entryByte (s : State) (a : Word) : Prop :=
  ∃ la : Word, a = pdeAddress s la ∨
    (entryPresent (s.dwordAt (pdeAddress s la)) = true ∧ a = pteAddress (s.dwordAt (pdeAddress s la)) la)

/-- No store: with paging off every byte is as before, with paging on every byte is but those with A and D of page-table entries,
which lose no bit and gain none but those two (20_memory.md R134). -/
structure SameMemory (s t : State) : Prop where
  unpaged : s.pagingOn = false → t.mem = s.mem
  paged : s.memOk = true → ∀ a, t.byteAt a = s.byteAt a ∨
    (s.entryByte a ∧ ∃ b : Byte, t.byteAt a = s.byteAt a ||| (b &&& 0x60))

/-- What the operand accesses of an instruction leave unchanged: every register, and memory as `SameMemory` says. -/
structure Quiet (s t : State) : Prop where
  sys : SameSystem s t
  regs : t.regs = s.regs
  eip : t.eip = s.eip
  flags : t.flags = s.flags
  pfx : t.fetch.pfx = s.fetch.pfx
  start : t.fetch.start = s.fetch.start
  oldMode : t.fetch.oldMode = s.fetch.oldMode
  held : t.fetch.held = s.fetch.held
  shadow : t.pend.shadow = s.pend.shadow
  activity : t.pend.activity = s.pend.activity
  bs : t.pend.bs = s.pend.bs
  bt : t.pend.bt = s.pend.bt
  memOk : s.memOk = true → t.memOk = true
  mem : SameMemory s t

/-! ## Results -/

/-- Every address is RAM. -/
def AllRam (s : State) (ps : List Word) : Prop := ∀ a ∈ ps, memKind s.params.memMap a.toNat = .ram

/-- A store to these addresses takes place: memory in its canonical form, every address RAM. -/
def Storable (s : State) (ps : List Word) : Prop := s.memOk = true ∧ AllRam s ps

/-- The byte at `a` after bytes `bs` were stored at addresses `ps`, the `i`th at the `i`th, where it was `old`. -/
def storedByte : List Word → List Byte → Word → Byte → Byte
  | p :: ps, b :: bs, a, old => storedByte ps bs a (if p = a then b else old)
  | _, _, _, old => old

/-- Memory of `t` is memory of `s` with bytes `bs` stored at addresses `ps`, and every other byte as before. -/
def Stored (ps : List Word) (bs : List Byte) (s t : State) : Prop :=
  ∀ a : Word, t.byteAt a = storedByte ps bs a (s.byteAt a)

/-- The byte at `a` after several values of `n` bytes were stored one after the other, where it was `old`. -/
def storedAll (n : Nat) : List (List Word × Word) → Word → Byte → Byte
  | [], _, old => old
  | (ps, v) :: rest, a, old => storedAll n rest a (storedByte ps (bytesOf n v) a old)

/-! ## Completion -/

/-- The instruction completes: it answers a next state with a property, which says what its own effect is. -/
def Completes (i : Instr) (s : State) (post : State → Prop) : Prop :=
  ∃ t, exec i s = .next t ∧ post t

/-- From `s` an instruction ends in `t` with the registers of an expected state `e`: general registers, EIP, EFLAGS and everything
of the system; no prefix is left, the semantics are those of the mode in force, the instruction kept to go on with is that of `e`, and
the single-step trap waits if TF was set (60_exceptions.md R752). -/
structure Ends (s e t : State) : Prop where
  regs : t.regs = e.regs
  eip : t.eip = e.eip
  flags : t.flags = e.flags
  sys : SameSystem e t
  pfx : t.fetch.pfx = Prefixes.empty
  oldMode : t.fetch.oldMode = false
  held : t.fetch.held = e.fetch.held
  shadow : t.pend.shadow = e.pend.shadow
  activity : t.pend.activity = e.pend.activity
  bs : t.pend.bs = (s.pend.bs || s.flags.tf)
  bt : t.pend.bt = e.pend.bt

/-- The expected state of an instruction that is over: RF cleared (60_exceptions.md R755), no instruction to go on with. -/
def State.over (e : State) : State := (e.mapFlags fun f => { f with rf := false }).withHeld none

/-- `Ends`, as every completed instruction ends. -/
def Done (s e t : State) : Prop := Ends s e.over t

/-- `Done`, and no store. -/
def DoneQuiet (s e t : State) : Prop := Done s e t ∧ SameMemory s t

/-- `Done`, and bytes `bs` stored at addresses `ps`, the operand accesses having led to `u`. -/
def DoneStored (ps : List Word) (bs : List Byte) (s e u t : State) : Prop :=
  Done s e t ∧ SameMemory s u ∧ Stored ps bs u t

/-- A place that takes a result: a register, or RAM. -/
def Place.ready (s : State) : Place → Prop
  | .reg _ => True
  | .mem ps => Storable s ps

/-- `Done`, with the result `v` in the register or at the addresses of its place, and no other store. -/
def DonePlace (k : Width) (p : Place) (v : BitVec k.bits) (s e u t : State) : Prop :=
  match p with
  | .reg r => DoneQuiet s (e.setReg k r v) t
  | .mem ps => DoneStored ps (bytesOf k.bytes (v.setWidth 32)) s e u t

/-- Several planned stores take place: memory in its canonical form, every address RAM. -/
def AllStorable (s : State) (stores : List (List Word × Word)) : Prop :=
  s.memOk = true ∧ ∀ p ∈ stores, AllRam s p.1

/-- `Done`, and several values of `n` bytes stored in their order, the operand accesses having led to `u`. -/
def DoneStores (n : Nat) (stores : List (List Word × Word)) (s e u t : State) : Prop :=
  Done s e t ∧ SameMemory s u ∧ ∀ a, t.byteAt a = storedAll n stores a (u.byteAt a)

/-- `DoneQuiet`, with all six status flags free (U3, U4). -/
def DoneFreeFlags (s e t : State) : Prop :=
  ∃ cf pf af zf sf of, DoneQuiet s (e.withFlags
    { s.flags with cf := cf, pf := pf, af := af, zf := zf, sf := sf, of := of }) t

/-- The instruction raises an exception as a fault: it is taken with the offset of the instruction's first byte saved and RF set in
the image of EFLAGS, in the state before the instruction but for what `State.abandon` keeps of `u` (60_exceptions.md R701, R712,
R755). -/
def Faults (i : Instr) (s : State) (vector : Byte) (code : Option HWord) (u : State) : Prop :=
  exec i s = take { vector := vector, kind := .exception, code := code, ret := s.fetch.start, faultRet := s.fetch.start,
                    rf := true, cs := none } (s.abandon u)

/-- The double-width accumulator replaced by its halves: AH:AL, DX:AX, EDX:EAX. -/
def State.setWide (s : State) (k : Width) (hi lo : BitVec k.bits) : State :=
  match k with
  | .b => s.setReg .w .ax (hi ++ lo)
  | .w => (s.setReg .w .dx hi).setReg .w .ax lo
  | .d => (s.setReg .d .dx hi).setReg .d .ax lo

/-- The `n` bytes from the top of the stack up, as one block without wrap, reach beyond the limit of SS, an expand-up segment
(20_memory.md R112; log entry 33). -/
abbrev State.stackFallsShort (s : State) (n : Nat) : Prop :=
  s.segs.ss.ar.ce = false ∧ s.segs.ss.limit.toNat + 1 < (if s.stack32 then s.regs.esp.toNat else s.regs.esp.toNat % 65536) + n

/-- ESP replaced. -/
def State.withEsp (s : State) (v : Word) : State := s.withRegs { s.regs with esp := v }

/-! ## Families of one shape -/

/-- The seven two-operand operations that write a result (42_arithmetic.md R330). -/
inductive AluKind where
  | add
  | or
  | adc
  | sbb
  | and
  | sub
  | xor
deriving DecidableEq, Repr

/-- The register/memory with register form. -/
def AluKind.rmR : AluKind → Bool → Bool → Gpr → Rm → Instr
  | .add => .addRmR
  | .or => .orRmR
  | .adc => .adcRmR
  | .sbb => .sbbRmR
  | .and => .andRmR
  | .sub => .subRmR
  | .xor => .xorRmR

/-- The immediate to AL form. -/
def AluKind.alImm : AluKind → Byte → Instr
  | .add => .addAlImm
  | .or => .orAlImm
  | .adc => .adcAlImm
  | .sbb => .sbbAlImm
  | .and => .andAlImm
  | .sub => .subAlImm
  | .xor => .xorAlImm

/-- The immediate to eAX form. -/
def AluKind.eaxImm : AluKind → Word → Instr
  | .add => .addEaxImm
  | .or => .orEaxImm
  | .adc => .adcEaxImm
  | .sbb => .sbbEaxImm
  | .and => .andEaxImm
  | .sub => .subEaxImm
  | .xor => .xorEaxImm

/-- The byte immediate to byte operand form. -/
def AluKind.rm8Imm : AluKind → Rm → Byte → Instr
  | .add => .addRm8Imm
  | .or => .orRm8Imm
  | .adc => .adcRm8Imm
  | .sbb => .sbbRm8Imm
  | .and => .andRm8Imm
  | .sub => .subRm8Imm
  | .xor => .xorRm8Imm

/-- The full-size immediate form. -/
def AluKind.rmImm : AluKind → Rm → Word → Instr
  | .add => .addRmImm
  | .or => .orRmImm
  | .adc => .adcRmImm
  | .sbb => .sbbRmImm
  | .and => .andRmImm
  | .sub => .subRmImm
  | .xor => .xorRmImm

/-- The sign-extended byte immediate form. -/
def AluKind.rmImm8s : AluKind → Rm → Byte → Instr
  | .add => .addRmImm8s
  | .or => .orRmImm8s
  | .adc => .adcRmImm8s
  | .sbb => .sbbRmImm8s
  | .and => .andRmImm8s
  | .sub => .subRmImm8s
  | .xor => .xorRmImm8s

/-- The result: R331, R332, R334, R335, R390 to R392. -/
def AluKind.result {n : Nat} (o : AluKind) (a b : BitVec n) (cf : Bool) : BitVec n :=
  match o with
  | .add => a + b
  | .or => a ||| b
  | .adc => a + b + BitVec.ofNat n cf.toNat
  | .sbb => a - b - BitVec.ofNat n cf.toNat
  | .and => a &&& b
  | .sub => a - b
  | .xor => a ^^^ b

/-- The flags: of a sum, of a difference, or of a logical result with AF free (R39; U2). -/
def AluKind.flags {n : Nat} (o : AluKind) (f : Flags) (a b : BitVec n) (af : Bool) : Flags :=
  match o with
  | .add => f.add a b false
  | .adc => f.add a b f.cf
  | .sub => f.sub a b false
  | .sbb => f.sub a b f.cf
  | .or => f.logic (a ||| b) af
  | .and => f.logic (a &&& b) af
  | .xor => f.logic (a ^^^ b) af

/-- The seven shifts and rotates (43_logic_shift.md R400). -/
inductive ShiftKind where
  | rol
  | ror
  | rcl
  | rcr
  | shl
  | shr
  | sar
deriving DecidableEq, Repr

/-- The form by 1. -/
def ShiftKind.by1 : ShiftKind → Bool → Rm → Instr
  | .rol => .rolRm1
  | .ror => .rorRm1
  | .rcl => .rclRm1
  | .rcr => .rcrRm1
  | .shl => .shlRm1
  | .shr => .shrRm1
  | .sar => .sarRm1

/-- The form by CL. -/
def ShiftKind.byCl : ShiftKind → Bool → Rm → Instr
  | .rol => .rolRmCl
  | .ror => .rorRmCl
  | .rcl => .rclRmCl
  | .rcr => .rcrRmCl
  | .shl => .shlRmCl
  | .shr => .shrRmCl
  | .sar => .sarRmCl

/-- The form by an immediate count. -/
def ShiftKind.byImm : ShiftKind → Bool → Rm → Byte → Instr
  | .rol => .rolRmImm
  | .ror => .rorRmImm
  | .rcl => .rclRmImm
  | .rcr => .rcrRmImm
  | .shl => .shlRmImm
  | .shr => .shrRmImm
  | .sar => .sarRmImm

/-- The outcome of a count of at least 1. -/
def ShiftKind.outcome {n : Nat} : ShiftKind → BitVec n → Bool → Nat → Shifted n
  | .rol => Machine.rol
  | .ror => Machine.ror
  | .rcl => Machine.rcl
  | .rcr => Machine.rcr
  | .shl => Machine.shl
  | .shr => Machine.shr
  | .sar => Machine.sar

/-- The flags: a rotate changes CF and OF, a shift SF, ZF, PF and AF too; OF is free but for a count of 1, AF always (U1, U2). -/
def ShiftKind.flags {n : Nat} (o : ShiftKind) (f : Flags) (r : Shifted n) (c : Nat) (ofFree afFree : Bool) : Flags :=
  match o with
  | .rol | .ror | .rcl | .rcr => { f with cf := r.cf, of := if c = 1 then r.of1 else ofFree }
  | .shl | .shr | .sar => { f.szp r.val with cf := r.cf, of := if c = 1 then r.of1 else ofFree, af := afFree }

/-- The forms before which LOCK is accepted: a read-modify-write with a memory destination (48_processor_control.md R615). -/
def takesLock (i : Instr) : Prop :=
  ∃ m : MemOp,
    (∃ o : AluKind, (∃ w reg, i = o.rmR false w reg (.mem m)) ∨ (∃ b, i = o.rm8Imm (.mem m) b) ∨ (∃ v, i = o.rmImm (.mem m) v) ∨
      (∃ b, i = o.rmImm8s (.mem m) b)) ∨
    (∃ w, i = .notRm w (.mem m) ∨ i = .negRm w (.mem m) ∨ i = .incRm w (.mem m) ∨ i = .decRm w (.mem m)) ∨
    (∃ w reg, i = .xchgRmR w reg (.mem m)) ∨
    (∃ b, i = .btsImm (.mem m) b ∨ i = .btrImm (.mem m) b ∨ i = .btcImm (.mem m) b) ∨
    (∃ reg, i = .btsR reg (.mem m) ∨ i = .btrR reg (.mem m) ∨ i = .btcR reg (.mem m))

/-- The instructions before which a repeat prefix is accepted: the string instructions (44_string_rep.md R451). -/
def takesRep (i : Instr) : Prop :=
  ∃ w, i = .movs w ∨ i = .cmps w ∨ i = .scas w ∨ i = .stos w ∨ i = .lods w ∨ i = .ins w ∨ i = .outs w

/-! ## Repetition (44_string_rep.md R450, R452) -/

/-- What a string instruction makes of the state `e` after its element: with no repeat prefix `e`; with one, the count is one
lower, and unless that or the comparison ends the repetition EIP goes back to the first prefix, RF stays and so does the instruction to
go on with. -/
def afterElement (compares : Bool) (s e : State) : State :=
  match s.fetch.pfx.rep with
  | none => e.over
  | some kind =>
    let c := e.setAddrReg .cx (addrReg e .cx - 1)
    if c.repeatOver kind compares then c.over else c.withEip s.fetch.start

/-- An element is executed: no repeat prefix, or a count that is not 0. -/
def elementRuns (s : State) : Prop := s.fetch.pfx.rep = none ∨ addrReg s .cx ≠ 0

/-! ## Taking an exception or interrupt -/

/-- The state in which a handler starts: the registers of an expected state, no prefix left, no instruction to go on with, the mode
that CR0 gives, no shadow, running. -/
structure Entered (e t : State) : Prop where
  regs : t.regs = e.regs
  eip : t.eip = e.eip
  flags : t.flags = e.flags
  sys : SameSystem e t
  pfx : t.fetch.pfx = Prefixes.empty
  oldMode : t.fetch.oldMode = false
  held : t.fetch.held = none
  shadow : t.pend.shadow = .none
  activity : t.pend.activity = .running

/-- Memory after stores of `n` bytes, as `DoneStores` says it. -/
def StoresMade (n : Nat) (stores : List (List Word × Word)) (s u t : State) : Prop :=
  SameMemory s u ∧ ∀ a, t.byteAt a = storedAll n stores a (u.byteAt a)

/-- Delivery in Real Address Mode has its way: the vector's entry lies in the table and holds `entry`, and the three words pushed,
FLAGS, CS and the saved IP, go to `stores` (60_exceptions.md R721). No instruction of the old mode is in execution. -/
def RealDelivery (s : State) (vector : Byte) (cs : HWord) (ret : Word) (entry : List Byte) (stores : List (List Word × Word))
    (esp : Word) (u : State) : Prop :=
  s.fetch.oldMode = false ∧ s.realMode = true ∧ vector.toNat * 4 + 3 ≤ s.tables.idtr.limit.toNat ∧
  (∃ u0, sysRead (s.tables.idtr.base + BitVec.ofNat 32 (vector.toNat * 4)) 4 s = .ok (entry, u0) ∧
    planStack 2 [s.flags.toWord &&& 0xFFFF, cs.setWidth 32, ret] u0 = .ok ((stores, esp), u)) ∧
  AllStorable s stores

/-- The registers in which a handler starts in Real Address Mode: IF and TF clear, CS:IP from the entry, limit and rights of CS as
they were (R721, D8; log entry 16). -/
def realHandler (s : State) (entry : List Byte) (esp : Word) (rf : Bool) : State :=
  let word (l : List Byte) : HWord := l.getD 1 0 ++ l.getD 0 0
  let cs := word (entry.drop 2)
  (((s.withEsp esp).withFlags { s.flags with intf := false, tf := false, rf := rf }).setSeg .cs
    { s.segs.cs with sel := cs, base := cs.setWidth 32 * 16, valid := true }).withEip ((word entry).setWidth 32)

/-! ## Segments, levels and tasks -/

/-- What a segment register holds after a load outside Protected Mode: base selector * 16; in Real Address Mode limit and rights as
they were (D8; log entry 16), in Virtual 8086 Mode limit FFFFh, read/write, DPL 3 (20_memory.md R111). -/
def State.realSeg (s : State) (r : Sreg) (sel : HWord) : SegReg :=
  let g : SegReg := if s.v86Mode then { s.seg r with limit := 0xFFFF, ar := { Rights.reset (r == .cs) with dpl := 3 } } else s.seg r
  { g with sel := sel, base := sel.setWidth 32 * 16, valid := true }

/-- A segment register may stay in use at the level `cpl`: its selector names a place within its descriptor table, and what it holds is
a data or readable code segment whose DPL is, unless that is conforming code, no less than the level and the RPL of the selector
(46_control_transfer.md R515, 20_memory.md R123, 90_conflicts.md C22; log entry 60). -/
abbrev SegReg.StaysValid (g : SegReg) (t : Tables) (cpl : BitVec 2) : Prop :=
  descAddress t g.sel ≠ none ∧ g.ar.s = true ∧ (g.ar.code = true → g.ar.rw = true) ∧
  (¬ (g.ar.code = true ∧ g.ar.ce = true) → cpl.toNat ≤ g.ar.dpl.toNat ∧ (g.sel.extractLsb' 0 2).toNat ≤ g.ar.dpl.toNat)

/-- A data segment register after a return to the level `cpl` under the descriptor tables `t`: null where it holds a segment that may not
stay in use (R515). -/
def SegReg.afterReturn (g : SegReg) (t : Tables) (cpl : BitVec 2) : SegReg :=
  if g.valid = true ∧ ¬ g.StaysValid t cpl then SegReg.invalid 0 else g

/-- The segment registers after a return to an outer level: CS and SS as returned to, the others as `SegReg.afterReturn` leaves them. -/
def Segs.afterReturn (g : Segs) (t : Tables) (cpl : BitVec 2) (cs ss : SegReg) : Segs :=
  { es := g.es.afterReturn t cpl, cs := cs, ss := ss, ds := g.ds.afterReturn t cpl, fs := g.fs.afterReturn t cpl,
    gs := g.gs.afterReturn t cpl }

/-- The ESP that an outer or inner level starts from: all of it, or SP alone (10_state.md R41). -/
def newEsp (whole : Bool) (old new : Word) : Word := if whole then new else old.extractLsb' 16 16 ++ new.setWidth 16

/-- A far JMP and the far CALL with the same target, and the state that reading it leaves: the direct forms, and the indirect ones
whose memory operand holds the offset and, above it, the selector (46_control_transfer.md R503, R512). -/
def FarForms (s : State) (sel : HWord) (off : Word) (jmp call : Instr) (u0 : State) : Prop :=
  (jmp = .jmpFar off sel ∧ call = .callFar off sel ∧ u0 = s) ∨
  ∃ m sr at_, ∃ v : BitVec s.opWidth.bits, ∃ u1 u2, jmp = .jmpMemFar m ∧ call = .callMemFar m ∧
    addressOf m s = .ok ((sr, at_), u1) ∧ readAt s.opWidth sr at_ u1 = .ok (v, u2) ∧
    readAt .w sr (at_ + BitVec.ofNat 32 s.opWidth.bytes) u2 = .ok (sel, u0) ∧ off = v.setWidth 32

/-- The event of an exception that is raised in the context of a new task: its first instruction is saved (60_exceptions.md R764). -/
def lateEvent (vector : Byte) (code : Option HWord) (y : State) : Event :=
  { vector := vector, kind := .exception, code := code, ret := y.eip, faultRet := y.eip, rf := true, cs := none }

/-- A task switch that led to `y` is over: the registers and the memory of `y`, the debug trap of the T bit waiting
(60_exceptions.md R753). -/
structure Switched (trap : Bool) (y t : State) : Prop where
  regs : t.regs = y.regs
  eip : t.eip = y.eip
  flags : t.flags = y.flags
  sys : SameSystem y t
  mem : t.mem = y.mem
  bt : t.pend.bt = (y.pend.bt || trap)
  pfx : t.fetch.pfx = Prefixes.empty
  oldMode : t.fetch.oldMode = false
  held : t.fetch.held = none

/-! ## Memory as a function, for copies and task switches (46_control_transfer.md R509, R540; 60_exceptions.md R761) -/

/-- Bytes stored in a memory. -/
def storedIn (ps : List Word) (bs : List Byte) (f : Word → Byte) : Word → Byte := fun a => storedByte ps bs a (f a)

/-- Copies made in a memory one after the other, each from what stands there by then. -/
def copiedIn : List (List Word × List Word) → (Word → Byte) → Word → Byte
  | [], f => f
  | (rd, wr) :: rest, f => copiedIn rest (storedIn wr (rd.map f) f)

/-- Memory after the stores of a task switch: the image of the old task, its descriptor's busy bit clear, that of the new one set, and
the back link, each where this kind of switch makes it (60_exceptions.md R761, R762). -/
def switchedIn (save oldBusy newBusy link : List Word) (image : List Word) (back : HWord) (f : Word → Byte) : Word → Byte :=
  let f1 := storedIn save (dwordBytes image) f
  let f2 := storedIn oldBusy (oldBusy.map fun p => f1 p &&& 0xFD) f1
  let f3 := storedIn newBusy (newBusy.map fun p => f2 p ||| 0x02) f2
  storedIn link [back.extractLsb' 0 8, back.extractLsb' 8 8] f3

/-! ## The step -/

/-- No event stands before the next instruction: RESET is not asserted, the processor runs, no prefix is read, no trap, NMI or INTR
is to be taken (60_exceptions.md R728, R729). -/
def State.eventless (s : State) : Prop :=
  s.pins.reset = false ∧ s.pend.activity = .running ∧ s.fetch.pfx = Prefixes.empty ∧ s.trapDue = false ∧ s.nmiDue = false ∧
  (s.pins.intr = [] ∨ s.intrOpen = false)

/-- Nothing stands between the step and the instruction at CS:EIP: no event, no instruction to go on with, no breakpoint at the
instruction. -/
def State.clear (s : State) : Prop := s.eventless ∧ s.fetch.held = none ∧ s.breakHits = 0

/-- The prefetch queue holds nothing but what memory holds, and nothing of another mode (20_memory.md R144). -/
def State.queueClean (s : State) : Prop := s.fetch.stale = [] ∧ s.fetch.ahead = [] ∧ s.fetch.window = none

/-- Bytes `bs` stand at offset `off` of CS, within its limit and in memory, with paging off, and in Real Address Mode the instruction
does not cross offset FFFFh (10_state.md R34; log entry 51). -/
def FetchesBytes (s : State) (off : Nat) (bs : List Byte) : Prop :=
  s.pagingOn = false ∧ (s.protMode = true → s.segs.cs.valid = true) ∧
  (s.realMode = true → s.fetch.start.toNat ≤ 0xFFFF → off + bs.length ≤ 0x10000) ∧
  ∀ k b, bs[k]? = some b → off + k ≤ s.segs.cs.limit.toNat ∧ s.byteAt (s.segs.cs.base + BitVec.ofNat 32 (off + k)) = b ∧
    (memKind s.params.memMap (s.segs.cs.base + BitVec.ofNat 32 (off + k)).toNat = .ram ∨
      memKind s.params.memMap (s.segs.cs.base + BitVec.ofNat 32 (off + k)).toNat = .rom)

/-- EIP after bytes that end at an offset: modulo 2^16 in 16-bit code (10_state.md R34). -/
def State.eipAfter (s : State) (off : Nat) : Word :=
  bif s.code32 then BitVec.ofNat 32 off else BitVec.ofNat 32 (off % 65536)

end Sys2Proof.Machine
end

