-- ==== Sys2Proof/Certificates/Slice0/Obligations.lean ====
section
/-!
DEFINITION. The statements for the provers. A hypothesis that an operand access answers (`readRm … = .ok …`) says that the operand
is readable; `u` is the state it leaves, which differs from `s` as `Quiet` says (statement OperandAccess).
-/

open Sys2Proof Sys2Proof.Machine

/-! ## Reset and invariants -/

/-- R791 to R793, R795 (70_reset_and_hazards.md): the values the rules give at reset hold of State.reset; a step with RESET asserted
leads from every state to one with those values, in which memory and the parameters of the platform are as before (log entry 50), and ET
tells an 80387. Reset meets the two invariants of every step and fetches its first instruction at FFFFFFF0h. -/
def Obligations.ResetValues : Prop :=
  let isReset (s : State) : Prop :=
    s.flags.toWord = 0x00000002 ∧ s.eip = 0x0000FFF0 ∧ s.cpl = 0 ∧
    (s.segs.cs.sel = 0xF000 ∧ s.segs.cs.base = 0xFFFF0000 ∧ s.segs.cs.limit = 0xFFFF ∧ s.segs.cs.ar.present = true ∧
      s.segs.cs.ar.code = true ∧ s.segs.cs.ar.db = false) ∧
    (∀ r : Sreg, r ≠ .cs → (s.seg r).sel = 0 ∧ (s.seg r).base = 0 ∧ (s.seg r).limit = 0xFFFF ∧ (s.seg r).ar.present = true ∧
      (s.seg r).ar.code = false ∧ (s.seg r).ar.rw = true ∧ (s.seg r).ar.ce = false ∧ (s.seg r).ar.db = false) ∧
    (s.cr0.pe = false ∧ s.cr0.mp = false ∧ s.cr0.em = false ∧ s.cr0.ts = false ∧ s.cr0.pg = false ∧
      (s.cr0.et = true ↔ s.params.coproc = .i387)) ∧
    s.tables.idtr = { base := 0, limit := 0x03FF } ∧
    (s.dregs.dr7.enables = 0 ∧ s.dregs.dr7.le = false ∧ s.dregs.dr7.ge = false ∧ s.dregs.dr7.gd = false ∧ s.dregs.dr7.ctl = 0) ∧
    s.reg .b .si = 0x03 ∧
    s.tlb = [] ∧ s.pend.shadow = .none ∧ s.pend.activity = .running ∧ s.pins.nmiBlocked = false ∧ s.pins.nmiPending = false ∧
    s.queueClean ∧ s.fetchAddress = 0xFFFFFFF0
  isReset State.reset ∧ State.reset.memOk = true ∧ State.reset.modeLegal = true ∧ State.reset.modeOk = true ∧
  ∀ s : State, s.pins.reset = true →
    ∃ t, step s = .next t ∧ isReset t ∧ t.mem = s.mem ∧ t.params = s.params ∧ t.pins.reset = false

/-- Every step keeps memory in its canonical form: addresses strictly rising, no entry equal to what an unlisted address reads as (log
entry 1). -/
def Obligations.StepKeepsMemoryForm : Prop :=
  ∀ s t : State, s.memOk = true → step s = .next t → t.memOk = true

/-- Every step leads from a legal mode to a legal mode: Real Address Mode has CPL 0 and VM 0, Virtual 8086 Mode has CPL 3, unless
the processor shuts down. -/
def Obligations.StepKeepsMode : Prop :=
  ∀ s t : State, s.modeOk = true → step s = .next t → t.modeOk = true

/-! ## Encoding -/

/-- Decoding an encoded well-formed instruction gives it back, with exactly the bytes that follow it left over. -/
def Obligations.DecodeEncode : Prop :=
  ∀ (c : Ctx) (i : Instr) (rest : List Byte), WellFormed c i = true → decode c (encode c i ++ rest) = .ok i rest

/-- Words written out from the spec's encodings decode to the instructions they stand for (30_encoding.md R180 to R184, R200 to
R204; the worked examples of R250, R255, R331, R401, R410, R481, R512, R601). SETcc with a nonzero reg field is declined, which is the
spec's decision D23 (U18; log entry 25). -/
def Obligations.DecodedWords : Prop :=
  let c16 : Ctx := ⟨false, false⟩
  let c32 : Ctx := ⟨true, true⟩
  decode c16 [0xB8, 0x34, 0x12] = .ok (.movRImm .ax 0x1234) [] ∧
  decode c32 [0x6A, 0xFF] = .ok (.pushImm8 0xFF) [] ∧
  decode c16 [0x00, 0xD8] = .ok (.addRmR false false .bx (.reg .ax)) [] ∧
  decode c16 [0xC0, 0xE0, 0x09] = .ok (.shlRmImm false (.reg .ax) 9) [] ∧
  decode c32 [0x0F, 0xA4, 0xD8, 0x04] = .ok (.shldImm .bx (.reg .ax) 4) [] ∧
  decode c32 [0x0F, 0xA3, 0x08] = .ok (.btR .cx (.mem (.m32 .ax .none))) [] ∧
  decode c16 [0xEA, 0x00, 0x00, 0x00, 0xF0] = .ok (.jmpFar 0 0xF000) [] ∧
  decode c16 [0x0F, 0x20, 0xC0] = .ok (.movRCr .ax .cr0) [] ∧
  decode c32 [0x8B, 0x44, 0xB5, 0x08] = .ok (.movRRm true .ax (.mem (.sib 2 .si .bp (.d8 8)))) [] ∧
  decode c16 [0x8B, 0x46, 0xFE] = .ok (.movRRm true .ax (.mem (.m16 .bp (.d8 0xFE)))) [] ∧
  decode c16 [0x0F, 0x90, 0xC8] = .bad .setccReg

/-! ## The step -/

/-- A step runs the instruction that the bytes at CS:EIP decode to: from `beginInstr`, EIP past the instruction, the instruction kept
in case it repeats or waits. After prefixes (which are steps of their own) it runs the instruction that follows them. One that was kept
goes on as it was decoded, whatever stands in memory by then (R450, R452, R611, R144; log entries 26, 51). -/
def Obligations.StepRunsDecoded : Prop :=
  let running (s : State) (i : Instr) (next : Word) : State :=
    if isPrefix i then s.withEip next
    else ((s.withEip next).inOwnMode).withHeld (some { instr := i, pfx := s.fetch.pfx, next := next, oldMode := false })
  (∀ (s : State) (i : Instr) (bs : List Byte), s.clear → s.queueClean → decode (s.beginInstr.ctx false) bs = .ok i [] →
    bs.length ≤ maxInstrLen → FetchesBytes s.beginInstr s.eip.toNat bs →
    step s = exec i (running s.beginInstr i (s.beginInstr.eipAfter (s.eip.toNat + bs.length)))) ∧
  (∀ (s : State) (i : Instr) (bs : List Byte), s.pins.reset = false → s.pend.activity ≠ .shutdown → s.fetch.pfx.count ≠ 0 →
    s.queueClean → decode (s.ctx false) bs = .ok i [] → s.fetch.pfx.count + bs.length ≤ maxInstrLen →
    FetchesBytes s (s.fetch.start.toNat + s.fetch.pfx.count) bs →
    let run := running s i (s.eipAfter (s.fetch.start.toNat + s.fetch.pfx.count + bs.length))
    prefixFault i run = none → step s = exec i run) ∧
  (∀ (s : State) (h : Held), s.eventless → s.fetch.held = some h →
    let run := (((s.beginInstr.withEip h.next).withPfx h.pfx).withOldMode h.oldMode).withHeld (some h)
    prefixFault h.instr run = none → step s = exec h.instr run)

/-- The eleven prefixes complete: each is recorded, nothing else changes. An instruction after prefixes: a repeat prefix before anything
but a string instruction, and LOCK before anything but a form that takes it, raise #UD; LOCK where it is taken raises #GP(0) outside Real
Address Mode with CPL > IOPL where it is IOPL-sensitive; else the instruction runs. A step at a reserved encoding raises #UD; the reserved
opcodes, group extensions and register numbers, and the register operands where memory is required, are such (R163 to R168, R236, R237,
R450, R451, R615; D29, D30; log entry 39). -/
def Obligations.PrefixesAndReserved : Prop :=
  (∀ s : State,
    let p := s.fetch.pfx
    let recorded (q : Prefixes) : Host.Outcome State Fault Refusal := .next (s.withPfx { q with count := p.count + 1 })
    exec .pfxEs s = recorded { p with seg := some .es } ∧ exec .pfxCs s = recorded { p with seg := some .cs } ∧
    exec .pfxSs s = recorded { p with seg := some .ss } ∧ exec .pfxDs s = recorded { p with seg := some .ds } ∧
    exec .pfxFs s = recorded { p with seg := some .fs } ∧ exec .pfxGs s = recorded { p with seg := some .gs } ∧
    exec .pfxOpsize s = recorded { p with op66 := true } ∧ exec .pfxAddrsize s = recorded { p with ad67 := true } ∧
    exec .pfxLock s = recorded { p with lock := true } ∧ exec .pfxRepne s = recorded { p with rep := some .repne } ∧
    exec .pfxRep s = recorded { p with rep := some .rep }) ∧
  (let raised (ret : Word) (vector : Byte) (code : Option HWord) (s : State) : Host.Outcome State Fault Refusal :=
     take { vector := vector, kind := .exception, code := code, ret := ret, faultRet := ret, rf := true, cs := none } s
   let arrives (s : State) (bs : List Byte) : Prop := s.pins.reset = false ∧ s.pend.activity ≠ .shutdown ∧ s.fetch.pfx.count ≠ 0 ∧
     s.queueClean ∧ s.fetch.pfx.count + bs.length ≤ maxInstrLen ∧ FetchesBytes s (s.fetch.start.toNat + s.fetch.pfx.count) bs
   (∀ (s : State) (i : Instr) (bs : List Byte), arrives s bs → decode (s.ctx false) bs = .ok i [] → isPrefix i = false →
     let next := s.eipAfter (s.fetch.start.toNat + s.fetch.pfx.count + bs.length)
     let p := s.fetch.pfx
     let run := ((s.withEip next).inOwnMode).withHeld (some { instr := i, pfx := p, next := next, oldMode := false })
     let wrong := (p.rep ≠ none ∧ ¬ takesRep i) ∨ (p.lock = true ∧ ¬ takesLock i)
     let barred := p.lock = true ∧ s.params.lockIopl = true ∧ s.cr0.pe = true ∧ s.flags.iopl.toNat < s.cpl.toNat
     (wrong → step s = raised s.fetch.start 6 none run) ∧
     (¬ wrong → barred → step s = raised s.fetch.start 13 (some 0) run) ∧
     (¬ wrong → ¬ barred → step s = exec i run)) ∧
   (∀ (s : State) (bs : List Byte) (r : Reject), arrives s bs → decode (s.ctx false) bs = .bad r → r ≠ .setccReg →
     step s = raised s.fetch.start 6 none s) ∧
   (∀ (s : State) (bs : List Byte) (r : Reject), s.clear → s.queueClean → decode (s.beginInstr.ctx false) bs = .bad r →
     r ≠ .setccReg → bs.length ≤ maxInstrLen → FetchesBytes s.beginInstr s.eip.toNat bs →
     step s = raised s.eip 6 none s.beginInstr)) ∧
  (∀ (c : Ctx) (rest : List Byte),
    let reserved (bs : List Byte) : Prop := ∃ r, r ≠ Reject.setccReg ∧ decode c (bs ++ rest) = .bad r
    let extensions : List (List Byte × List Nat) :=
      [([0x8F], [1, 2, 3, 4, 5, 6, 7]), ([0xC6], [1, 2, 3, 4, 5, 6, 7]), ([0xC7], [1, 2, 3, 4, 5, 6, 7]), ([0x8C], [6, 7]),
       ([0x8E], [1, 6, 7]), ([0xC0], [6]), ([0xC1], [6]), ([0xD0], [6]), ([0xD1], [6]), ([0xD2], [6]), ([0xD3], [6]), ([0xF6], [1]),
       ([0xF7], [1]), ([0xFE], [2, 3, 4, 5, 6, 7]), ([0xFF], [3, 5, 7]), ([0x0F, 0x00], [6, 7]), ([0x0F, 0x01], [0, 1, 2, 3, 5, 7]),
       ([0x0F, 0xBA], [0, 1, 2, 3]), ([0x0F, 0x20], [1, 4, 5, 6, 7]), ([0x0F, 0x22], [1, 4, 5, 6, 7]), ([0x0F, 0x21], [4, 5]),
       ([0x0F, 0x23], [4, 5]), ([0x0F, 0x24], [0, 1, 2, 3, 4, 5]), ([0x0F, 0x26], [0, 1, 2, 3, 4, 5])]
    let needsMemory : List (List Byte) := [[0x8D], [0x62], [0xC4], [0xC5], [0x0F, 0xB2], [0x0F, 0xB4], [0x0F, 0xB5]]
    let blank (n : Nat) : Prop := n = 0x04 ∨ n = 0x05 ∨ (0x07 ≤ n ∧ n ≤ 0x1F) ∨ n = 0x25 ∨ (0x27 ≤ n ∧ n ≤ 0x7F) ∨
      n ∈ [0xA2, 0xA6, 0xA7, 0xAA, 0xAE, 0xB0, 0xB1, 0xB8, 0xB9] ∨ 0xC0 ≤ n
    (∀ b ∈ [0x82, 0xD6, 0xF1], reserved [b]) ∧ (∀ b : Byte, blank b.toNat → reserved [0x0F, b]) ∧
    (∀ p ∈ extensions, ∀ m : Byte, 0xC0 ≤ m.toNat → m.toNat / 8 % 8 ∈ p.2 → reserved (p.1 ++ [m])) ∧
    (∀ op ∈ needsMemory, ∀ m : Byte, 0xC0 ≤ m.toNat → reserved (op ++ [m])))

/-! ## Accesses -/

/-- The operand accesses change no register and store nothing (D6; 20_memory.md R110, R134). -/
def Obligations.OperandAccess : Prop :=
  (∀ k rm s v u, readRm k rm s = .ok (v, u) → Quiet s u) ∧
  (∀ k rm s p u, placeRm k rm s = .ok (p, u) → Quiet s u) ∧
  (∀ k rm s p v u, modifyRm k rm s = .ok ((p, v), u) → Quiet s u) ∧
  (∀ r off n w s ps u, plan r off n w s = .ok (ps, u) → Quiet s u) ∧
  (∀ n vs s x u, planStack n vs s = .ok (x, u) → Quiet s u) ∧
  (∀ above n s v u, stackRead above n s = .ok (v, u) → Quiet s u)

/-- With paging off and no breakpoint set up, an access within the segment's limit and rights reaches the consecutive physical
addresses from base + offset on; a segment violation raises #SS(0) for SS and #GP(0) for the others; both change nothing
(R110, R112 to R114, R129). That an access which starts at FFFFh passes in a segment with a larger limit is the model's choice
(log entry 46, DESIGN CHOICE: R112 against R116). -/
def Obligations.SegmentedAccess : Prop :=
  ∀ (s : State) (r : Sreg) (off : Word) (n : Nat) (w : Bool), s.pagingOn = false → s.dregs.dr7.ctl = 0 →
    (((s.protMode = true → (s.seg r).valid = true ∧ (if w then (s.seg r).ar.code = false ∧ (s.seg r).ar.rw = true
          else (s.seg r).ar.code = false ∨ (s.seg r).ar.rw = true)) ∧
        ((s.seg r).ar.code = true ∨ (s.seg r).ar.ce = false) ∧ off.toNat + n ≤ (s.seg r).limit.toNat + 1) →
      plan r off n w s = .ok (addrsFrom ((s.seg r).base + off) n, s)) ∧
    ((off.toNat + n > (s.seg r).limit.toNat + 1 ∧ ((s.seg r).ar.code = true ∨ (s.seg r).ar.ce = false)) →
      plan r off n w s = .error (.exc (if r = .ss then ⟨12, some 0⟩ else ⟨13, some 0⟩) s)) ∧
    ((s.protMode = true → (s.seg r).valid = true ∧ (w = true → (s.seg r).ar.rw = true)) ∧ (s.seg r).ar.code = false ∧
        (s.seg r).ar.ce = true ∧ (s.seg r).limit.toNat < off.toNat ∧
        off.toNat + n ≤ (if (s.seg r).ar.db then 0x100000000 else 0x10000) →
      plan r off n w s = .ok (addrsFrom ((s.seg r).base + off) n, s)) ∧
    ((s.seg r).ar.code = false ∧ (s.seg r).ar.ce = true ∧ (off.toNat ≤ (s.seg r).limit.toNat ∨
        (if (s.seg r).ar.db then 0x100000000 else 0x10000) < off.toNat + n) →
      plan r off n w s = .error (.exc (if r = .ss then ⟨12, some 0⟩ else ⟨13, some 0⟩) s)) ∧
    (s.protMode = true ∧ (s.seg r).valid = false →
      plan r off n w s = .error (.exc (if r = .ss then ⟨12, some 0⟩ else ⟨13, some 0⟩) s)) ∧
    (s.protMode = true ∧ (if w then (s.seg r).ar.code = true ∨ (s.seg r).ar.rw = false
        else (s.seg r).ar.code = true ∧ (s.seg r).ar.rw = false) →
      plan r off n w s = .error (.exc (if r = .ss then ⟨12, some 0⟩ else ⟨13, some 0⟩) s))

/-- With paging on and no entry in the TLB, an address whose directory and table entries are present and permit the access
translates to frame and offset, and the walk sets A in both entries and D in the table entry for a write; one whose entry is not
present, or that user level may not access or write, raises the page fault: CR2 takes the address, the error code has P, W/R and U/S
(R130 to R135; its bits 15:3 are free, U9). With an entry in the TLB that agrees with the tables the address translates by it and nothing
changes; where the two differ one of them decides (R136, U21; log entry 13). -/
def Obligations.PagedTranslation : Prop :=
  ∀ (s : State) (la : Word) (w user : Bool), s.pagingOn = true →
    let pa : Word := s.cr3 ++ la.extractLsb' 22 10 ++ 0#2
    let pde := s.dwordAt pa
    let ta : Word := pde.extractLsb' 12 20 ++ la.extractLsb' 12 10 ++ 0#2
    let pte := s.dwordAt ta
    let mayUse := user = false ∨ (pde.getLsbD 2 = true ∧ pte.getLsbD 2 = true ∧
      (w = false ∨ (pde.getLsbD 1 = true ∧ pte.getLsbD 1 = true)))
    let faults (present : Bool) : Prop := ∃ free : BitVec 13, ∃ u,
      translate la w user s = .error (.exc ⟨14, some (free ++ BitVec.ofBool user ++ BitVec.ofBool w ++ BitVec.ofBool present)⟩ u) ∧
      u.cr2 = la ∧ u.mem = s.mem ∧ u.regs = s.regs
    (tlbFind s.tlb la w user = none → AllRam s (addrsFrom pa 4) →
      (pde.getLsbD 0 = false → faults false) ∧
      (pde.getLsbD 0 = true → AllRam s (addrsFrom ta 4) →
        (pte.getLsbD 0 = false → faults false) ∧
        (pte.getLsbD 0 = true → ¬ mayUse → faults true) ∧
        (pte.getLsbD 0 = true → mayUse → ∃ u,
          translate la w user s = .ok (pte.extractLsb' 12 20 ++ la.extractLsb' 0 12, u) ∧ Quiet s u ∧
          (s.memOk = true → (u.dwordAt pa).getLsbD 5 = true ∧ (u.dwordAt ta).getLsbD 5 = true ∧
            (w = true → (u.dwordAt ta).getLsbD 6 = true)) ∧
          ∃ e, tlbFind u.tlb la w user = some e ∧ e.frame = pte.extractLsb' 12 20))) ∧
    (∀ e, tlbFind s.tlb la w user = some e →
      let cached (u : State) : Prop := translate la w user s = .ok (e.frame ++ la.extractLsb' 0 12, u)
      let agrees := pde.getLsbD 0 = true ∧ pte.getLsbD 0 = true ∧ mayUse ∧ pte.extractLsb' 12 20 = e.frame ∧
        pde.getLsbD 5 = true ∧ pte.getLsbD 5 = true ∧ (w = true → pte.getLsbD 6 = true)
      (agrees → cached s) ∧
      (¬ agrees → ∃ u, Quiet s u ∧ (cached u ∨ translate la w user s = walkTables la w user u)))

/-- Bytes stored in RAM read back, a doubleword as its value, and every other byte is as before (R101, R102). -/
def Obligations.StoreThenRead : Prop :=
  ∀ (s : State) (a : Word) (v : Word), s.memOk = true → AllRam s (addrsFrom a 4) → ∃ t,
    physWrite (addrsFrom a 4) (bytesOf 4 v) s = .ok ((), t) ∧
    (∃ bs, physRead (addrsFrom a 4) t = .ok (bs, t) ∧ wordOf bs = v) ∧
    t.byteAt a = v.extractLsb' 0 8 ∧ t.byteAt (a + 3) = v.extractLsb' 24 8 ∧
    (∀ x, x ∉ addrsFrom a 4 → t.byteAt x = s.byteAt x) ∧ t.regs = s.regs ∧ t.flags = s.flags ∧ SameSystem s t

/-! ## Data transfer (40_data_transfer.md) -/

/-- MOV r, r/m and AL/eAX, moffs; MOVSX; MOVZX; XLAT: the value read goes to the register, no flag changes (R250, R253, R254,
R449). -/
def Obligations.MovesToRegister : Prop :=
  (∀ s w reg rm v u, readRm (s.widthOf w) rm s = .ok (v, u) →
    Completes (.movRRm w reg rm) s (DoneQuiet s (s.setReg (s.widthOf w) reg v))) ∧
  (∀ s w off v u, readAt (s.widthOf w) (s.segOr .ds) off s = .ok (v, u) →
    Completes (.movAccMoffs w off) s (DoneQuiet s (s.setReg (s.widthOf w) .ax v))) ∧
  (∀ s reg rm (v : Byte) u, readRm .b rm s = .ok (v, u) →
    Completes (.movsx false reg rm) s (DoneQuiet s (s.setReg s.opWidth reg (v.signExtend s.opWidth.bits))) ∧
    Completes (.movzx false reg rm) s (DoneQuiet s (s.setReg s.opWidth reg (v.setWidth s.opWidth.bits)))) ∧
  (∀ s reg rm (v : HWord) u, readRm .w rm s = .ok (v, u) →
    Completes (.movsx true reg rm) s (DoneQuiet s (s.setReg s.opWidth reg (v.signExtend s.opWidth.bits))) ∧
    Completes (.movzx true reg rm) s (DoneQuiet s (s.setReg s.opWidth reg (v.setWidth s.opWidth.bits)))) ∧
  (∀ (s : State) (v : Byte) u,
    readAt .b (s.segOr .ds) (addrTrunc s (s.regs.ebx + (s.reg .b .ax).setWidth 32)) s = .ok (v, u) →
    Completes .xlat s (DoneQuiet s (s.setReg .b .ax v)))

/-- MOV reg, imm; LEA; NOP; XCHG eAX, reg; CBW, CWDE, CWD, CDQ: they complete in every state, and change no flag (R250, R261, R264,
R370, R371, R610). LEA of an address the spec leaves undefined writes a free value (U7). -/
def Obligations.RegisterOnly : Prop :=
  ∀ s : State,
    (∀ reg (imm : Byte), Completes (.movR8Imm reg imm) s (DoneQuiet s (s.setReg .b reg imm))) ∧
    (∀ reg (imm : Word), Completes (.movRImm reg imm) s (DoneQuiet s (s.setReg s.opWidth reg (imm.setWidth s.opWidth.bits)))) ∧
    (∀ reg m, undefinedAddress m = false →
      Completes (.lea reg m) s (DoneQuiet s (s.setReg s.opWidth reg ((offsetOf s.regs m).setWidth s.opWidth.bits)))) ∧
    (∀ reg m, Completes (.lea reg m) s fun t => ∃ v : BitVec s.opWidth.bits, DoneQuiet s (s.setReg s.opWidth reg v) t) ∧
    Completes .nop s (DoneQuiet s s) ∧
    (∀ reg, Completes (.xchgAccR reg) s
      (DoneQuiet s ((s.setReg s.opWidth .ax (s.reg s.opWidth reg)).setReg s.opWidth reg (s.reg s.opWidth .ax)))) ∧
    (s.op32 = false → Completes .cbw s (DoneQuiet s (s.setReg .w .ax ((s.reg .b .ax).signExtend 16))) ∧
      Completes .cwd s (DoneQuiet s (s.setReg .w .dx (if (s.reg .w .ax).toInt < 0 then 0xFFFF else 0)))) ∧
    (s.op32 = true → Completes .cwde s (DoneQuiet s (s.setReg .d .ax ((s.reg .w .ax).signExtend 32))) ∧
      Completes .cdq s (DoneQuiet s (s.setReg .d .dx (if (s.reg .d .ax).toInt < 0 then 0xFFFFFFFF else 0)))) ∧
    (∀ i, i = .cbw ∨ i = .cwde ∨ i = .cwd ∨ i = .cdq → ∃ t, exec i s = .next t)

/-- MOV r/m, r and r/m, imm and moffs, AL/eAX; SETcc: the value goes to the operand; XCHG r/m, r: the two operands change places. No
flag changes (R250, R261, R530). -/
def Obligations.MovesToOperand : Prop :=
  (∀ s w reg rm p u, placeRm (s.widthOf w) rm s = .ok (p, u) → p.ready s →
    Completes (.movRmR w reg rm) s (DonePlace (s.widthOf w) p (s.reg (s.widthOf w) reg) s s u)) ∧
  (∀ s rm (imm : Byte) p u, placeRm .b rm s = .ok (p, u) → p.ready s →
    Completes (.movRm8Imm rm imm) s (DonePlace .b p imm s s u)) ∧
  (∀ s rm (imm : Word) p u, placeRm s.opWidth rm s = .ok (p, u) → p.ready s →
    Completes (.movRmImm rm imm) s (DonePlace s.opWidth p (imm.setWidth s.opWidth.bits) s s u)) ∧
  (∀ s w off ps u, plan (s.segOr .ds) off (s.widthOf w).bytes true s = .ok (ps, u) → Storable s ps →
    Completes (.movMoffsAcc w off) s (DonePlace (s.widthOf w) (.mem ps) (s.reg (s.widthOf w) .ax) s s u)) ∧
  (∀ s cc rm p u, placeRm .b rm s = .ok (p, u) → p.ready s →
    Completes (.setcc cc rm) s (DonePlace .b p (if s.flags.cond cc then 1 else 0) s s u)) ∧
  (∀ s w reg rm p v u, modifyRm (s.widthOf w) rm s = .ok ((p, v), u) → p.ready s →
    Completes (.xchgRmR w reg rm) s fun t => match p with
      | .reg r => DoneQuiet s ((s.setReg (s.widthOf w) r (s.reg (s.widthOf w) reg)).setReg (s.widthOf w) reg v) t
      | .mem ps => DoneStored ps (bytesOf (s.widthOf w).bytes ((s.reg (s.widthOf w) reg).setWidth 32)) s
          (s.setReg (s.widthOf w) reg v) u t)

/-- MOV r/m16, Sreg; SLDT; STR; SMSW: 16 bits to memory or to a 16-bit register; with operand size 32 the upper half of the
register is free, and bits 15:5 of the machine status word are (R252, R649 to R651; U5, U12). -/
def Obligations.SelectorStores : Prop :=
  ∀ (s : State) (rm : Rm) (i : Instr) (v : HWord → Prop),
    ((∃ sr, i = .movRmSreg sr rm ∧ v = (· = (s.seg sr).sel)) ∨
      (i = .sldt rm ∧ s.protMode = true ∧ v = (· = s.tables.ldtr.sel)) ∨
      (i = .str rm ∧ s.protMode = true ∧ v = (· = s.tables.tr.sel)) ∨
      (i = .smsw rm ∧ v = fun x => x.getLsbD 0 = s.cr0.pe ∧ x.getLsbD 1 = s.cr0.mp ∧ x.getLsbD 2 = s.cr0.em ∧
        x.getLsbD 3 = s.cr0.ts ∧ x.getLsbD 4 = s.cr0.et)) →
    ∀ p u, placeRm .w rm s = .ok (p, u) → p.ready s →
      Completes i s fun t => ∃ x, v x ∧ match p with
        | .reg r =>
          if s.op32 then ∃ high : HWord, DoneQuiet s (s.setReg .d r (high ++ x)) t else DoneQuiet s (s.setReg .w r x) t
        | .mem ps => DoneStored ps (bytesOf 2 (x.setWidth 32)) s s u t

/-- Where a push goes: the pointer moves down by the operand's bytes, modulo the width of the stack, and the bytes lie at SS:eSP;
in Real Address Mode a pointer from 1 to n - 1 shuts the processor down instead (R127, R746). -/
def Obligations.PushAddress : Prop :=
  ∀ (s : State) (n : Nat) (v : Word), n = 2 ∨ n = 4 →
    let sp : Nat := if s.stack32 then s.regs.esp.toNat else s.regs.esp.toNat % 65536
    let t : Word := if s.stack32 then s.regs.esp - BitVec.ofNat 32 n
      else s.regs.esp.extractLsb' 16 16 ++ (s.regs.esp.setWidth 16 - BitVec.ofNat 16 n)
    let off : Word := if s.stack32 then t else t &&& 0xFFFF
    (s.realMode = true ∧ 0 < sp ∧ sp < n → planStack n [v] s = .error (.shutdown s)) ∧
    (¬ (s.realMode = true ∧ 0 < sp ∧ sp < n) → ∀ ps u, plan .ss off n true s = .ok (ps, u) →
      planStack n [v] s = .ok (([(ps, v)], t), u)) ∧
    (¬ (s.realMode = true ∧ 0 < sp ∧ sp < n) → ∀ e, plan .ss off n true s = .error e → planStack n [v] s = .error e)

/-- PUSH of a register, an immediate, a memory operand and EFLAGS: the value of the operand size is stored at the planned place,
eSP moves there (R255, R307). PUSH eSP pushes the old eSP. PUSH of a segment register: two bytes of selector, or four whose upper half is
free (R256, U5). -/
def Obligations.Pushes : Prop :=
  (∀ (s : State) (i : Instr) (v : Word) (u0 : State),
     ((∃ reg, i = .pushR reg ∧ v = s.regs.get reg ∧ u0 = s) ∨
       (i = .pushImm v ∧ u0 = s) ∨
       (∃ imm : Byte, i = .pushImm8 imm ∧ v = imm.signExtend 32 ∧ u0 = s) ∨
       (∃ rm, ∃ x : BitVec s.opWidth.bits, i = .pushRm rm ∧ readRm s.opWidth rm s = .ok (x, u0) ∧ v = x.setWidth 32) ∨
       (i = .pushf ∧ (s.v86Mode = true → s.flags.iopl = 3) ∧
         v = (if s.op32 then s.flags.toWord &&& 0x00FCFFFF else s.flags.toWord &&& 0xFFFF) ∧ u0 = s)) →
     ∀ stores esp u, planStack s.opWidth.bytes [v] u0 = .ok ((stores, esp), u) → AllStorable s stores →
       Completes i s (DoneStores s.opWidth.bytes stores s (s.withEsp esp) u)) ∧
  (∀ (s : State) (i : Instr) (sr : Sreg),
     (i = .pushSreg sr ∨ (i = .pushFs ∧ sr = .fs) ∨ (i = .pushGs ∧ sr = .gs)) →
     (s.op32 = false → ∀ stores esp u, planStack 2 [(s.seg sr).sel.setWidth 32] s = .ok ((stores, esp), u) → AllStorable s stores →
       Completes i s (DoneStores 2 stores s (s.withEsp esp) u)) ∧
     (s.op32 = true → ∀ w u0, selWord (s.seg sr).sel s = .ok (w, u0) → w.setWidth 16 = (s.seg sr).sel ∧
       ∀ stores esp u, planStack 4 [w] u0 = .ok ((stores, esp), u) → AllStorable s stores →
         Completes i s (DoneStores 4 stores s (s.withEsp esp) u)))

/-- PUSHA stores the eight registers, eSP with its old value; POPA loads them but eSP, which moves over all eight slots;
a slot of the eight that is not within the limit raises #SS(0) before any is read. R260 says only that the check is "for the whole block
first": that each slot is checked by itself, with the wrap of Pop, is the model's reading, log entry 33 (DEDUCED) (R257, R260). -/
def Obligations.PushaPopa : Prop :=
  (∀ (s : State) stores esp u,
    (s.realMode = true → let sp := if s.stack32 then s.regs.esp.toNat else s.regs.esp.toNat % 65536
      sp % 2 = 0 ∨ 15 < sp) →
    planStack s.opWidth.bytes [s.regs.eax, s.regs.ecx, s.regs.edx, s.regs.ebx, s.regs.esp, s.regs.ebp, s.regs.esi, s.regs.edi] s =
      .ok ((stores, esp), u) → AllStorable s stores →
    Completes .pusha s (DoneStores s.opWidth.bytes stores s (s.withEsp esp) u)) ∧
  (∀ (s : State) di si bp bx dx cx ax u1 u2 u3 u4 u5 u6 u,
    let n := s.opWidth.bytes
    let k := s.opWidth
    let load (r : Regs) (g : Gpr) (v : Word) : Regs := r.write k g (v.setWidth k.bits)
    stackSlots n 8 s = .ok ((), s) →
    stackRead 0 n s = .ok (di, u1) → stackRead n n u1 = .ok (si, u2) → stackRead (2 * n) n u2 = .ok (bp, u3) →
    stackRead (4 * n) n u3 = .ok (bx, u4) → stackRead (5 * n) n u4 = .ok (dx, u5) → stackRead (6 * n) n u5 = .ok (cx, u6) →
    stackRead (7 * n) n u6 = .ok (ax, u) →
    Completes .popa s (DoneQuiet s ((s.withEsp (moveSp s.stack32 s.regs.esp (BitVec.ofNat 32 (8 * n)))).withRegs
      (load (load (load (load (load (load (load
        { s.regs with esp := moveSp s.stack32 s.regs.esp (BitVec.ofNat 32 (8 * n)) }
        .di di) .si si) .bp bp) .bx bx) .dx dx) .cx cx) .ax ax)))) ∧
  (∀ s : State, slotsLegal s.segs.ss s.protMode s.stack32 s.opWidth.bytes 8 s.regs.esp = false → Faults .popa s 12 (some 0) s)

/-- POP r, POP r/m, POPF: the value at the top of the stack goes to its destination, eSP moves up by the operand's bytes; POP eSP
leaves the value popped; an address based on ESP uses the moved ESP (R258, R305, R128). -/
def Obligations.Pops : Prop :=
  ∀ (s : State) (v : Word) (u : State), stackRead 0 s.opWidth.bytes s = .ok (v, u) →
    let popped (x : State) := x.withEsp (moveSp s.stack32 s.regs.esp (BitVec.ofNat 32 s.opWidth.bytes))
    (∀ reg, Completes (.popR reg) s (DoneQuiet s ((popped s).setReg s.opWidth reg (v.setWidth s.opWidth.bits)))) ∧
    (∀ rm p u', placeRm s.opWidth rm (popped u) = .ok (p, u') → p.ready s →
      Completes (.popRm rm) s (DonePlace s.opWidth p (v.setWidth s.opWidth.bits) s (popped s) u')) ∧
    ((s.v86Mode = true → s.flags.iopl = 3) → Completes .popf s fun t =>
      let w := Flags.ofWord v
      let f : Flags := { w with
        intf := if s.realMode = true ∨ s.cpl.toNat ≤ s.flags.iopl.toNat then w.intf else s.flags.intf
        iopl := if s.cpl = 0 then w.iopl else s.flags.iopl
        rf := s.flags.rf
        vm := s.flags.vm }
      Ends s (((popped s).withFlags f).withHeld none) t ∧ SameMemory s t)

/-- MOV Sreg, POP Sreg and LDS, LES, LFS, LGS, LSS in Real Address Mode and Virtual 8086 Mode: the selector is loaded with base
selector * 16, limit and rights as they were in Real Address Mode (D8; log entry 16), FFFFh and read/write with DPL 3 in Virtual 8086
Mode; MOV SS and POP SS set the shadow, LSS does not (R251, R259, R265 to R270, R111, R59). That the selector of LDS to LSS is read at
the offset + n in 32 bits, without the wrap at 2^16, is the model's choice: log entry 49 (DESIGN CHOICE). -/
def Obligations.SegmentLoadsReal : Prop :=
  ∀ s : State, s.protMode = false →
    let loaded (e : State) (sr : Sreg) (sel : HWord) : State := e.setSeg sr (s.realSeg sr sel)
    let shadowed (e : State) (sr : Sreg) : State := if sr = .ss then e.withShadow .movSs else e
    (∀ sr rm (sel : HWord) u, readRm .w rm s = .ok (sel, u) →
      Completes (.movSregRm sr rm) s (DoneQuiet s (shadowed (loaded s sr sel) sr))) ∧
    (∀ (v : Word) u, stackRead 0 s.opWidth.bytes s = .ok (v, u) →
      let after (sr : Sreg) := (shadowed (loaded s sr (v.setWidth 16)) sr).withEsp
        (moveSp s.stack32 s.regs.esp (BitVec.ofNat 32 s.opWidth.bytes))
      Completes .popEs s (DoneQuiet s (after .es)) ∧ Completes .popSs s (DoneQuiet s (after .ss)) ∧
      Completes .popDs s (DoneQuiet s (after .ds)) ∧ Completes .popFs s (DoneQuiet s (after .fs)) ∧
      Completes .popGs s (DoneQuiet s (after .gs))) ∧
    (∀ m reg sr off v (sel : HWord) u1 u2 u, addressOf m s = .ok ((sr, off), u1) → readAt s.opWidth sr off u1 = .ok (v, u2) →
      readAt .w sr (off + BitVec.ofNat 32 s.opWidth.bytes) u2 = .ok (sel, u) →
      let after (r : Sreg) := (loaded s r sel).setReg s.opWidth reg v
      Completes (.lds reg m) s (DoneQuiet s (after .ds)) ∧ Completes (.les reg m) s (DoneQuiet s (after .es)) ∧
      Completes (.lfs reg m) s (DoneQuiet s (after .fs)) ∧ Completes (.lgs reg m) s (DoneQuiet s (after .gs)) ∧
      Completes (.lss reg m) s (DoneQuiet s (after .ss)))

/-- Loading a segment register in Protected Mode, its descriptor already marked accessed: DS, ES, FS and GS take a null selector as
invalid (its base and limit: log entry 47), and a present, visible data or readable code segment; SS a present writable data segment of
the current level; each violation raises the exception the rule names (R115, R123, R124). MOV Sreg, POP Sreg and LDS, LES, LFS, LGS, LSS
complete with what the load answers in the register and fault with the exception it raises; MOV SS and POP SS set the shadow, LSS does
not; POP SS moves eSP by the size of the new stack (R251, R259, R265 to R270, R59; log entry 35; the place of the selector of LDS to LSS:
log entry 49). -/
def Obligations.SegmentLoadsProtected : Prop :=
  (∀ (s : State) (sel : HWord), s.protMode = true →
    let rpl := sel.extractLsb' 0 2
    let code : HWord := sel &&& 0xFFFC
    (∀ r : Sreg, r ≠ .ss → sel.toNat < 4 → loadSeg r sel s = .ok (SegReg.invalid sel, s)) ∧
    (sel.toNat < 4 → loadSeg .ss sel s = .error (.exc ⟨13, some 0⟩ s)) ∧
    (4 ≤ sel.toNat → ∀ r : Sreg, descAddress s.tables sel = none → loadSeg r sel s = .error (.exc ⟨13, some code⟩ s)) ∧
    (4 ≤ sel.toNat → ∀ (d : Desc) (u : State), fetchDesc sel s = .ok (some d, u) → d.d1.getLsbD 8 = true →
      let visible := d.conforming = true ∨ (rpl.toNat ≤ d.dpl.toNat ∧ s.cpl.toNat ≤ d.dpl.toNat)
      (∀ r : Sreg, r ≠ .ss →
        (¬ (d.isData = true ∨ d.readableCode = true) ∨ ¬ visible → loadSeg r sel s = .error (.exc ⟨13, some code⟩ u)) ∧
        ((d.isData = true ∨ d.readableCode = true) ∧ visible →
          (d.present = false → loadSeg r sel s = .error (.exc ⟨11, some code⟩ u)) ∧
          (d.present = true → loadSeg r sel s = .ok (d.toSeg sel, u)))) ∧
      (¬ (rpl = s.cpl ∧ d.writableData = true ∧ d.dpl = s.cpl) → loadSeg .ss sel s = .error (.exc ⟨13, some code⟩ u)) ∧
      ((rpl = s.cpl ∧ d.writableData = true ∧ d.dpl = s.cpl) →
        (d.present = false → loadSeg .ss sel s = .error (.exc ⟨12, some code⟩ u)) ∧
        (d.present = true → loadSeg .ss sel s = .ok (d.toSeg sel, u))))) ∧
  (∀ s : State, s.protMode = true →
    let n := s.opWidth.bytes
    let shadowed (e : State) (sr : Sreg) : State := if sr = .ss then e.withShadow .movSs else e
    let loads (i : Instr) (sr : Sreg) (sel : HWord) (u : State) (after : State → State) : Prop :=
      (∀ g w, loadSeg sr sel u = .ok (g, w) → Completes i s fun t => Done s (after (s.setSeg sr g)) t ∧ t.mem = w.mem) ∧
      (∀ e w, e.vector ≠ 9 → loadSeg sr sel u = .error (.exc e w) → Faults i s e.vector e.code w)
    (∀ sr rm (sel : HWord) u, readRm .w rm s = .ok (sel, u) → loads (.movSregRm sr rm) sr sel u fun e => shadowed e sr) ∧
    (∀ i sr, (i, sr) ∈ [(Instr.popEs, Sreg.es), (.popSs, .ss), (.popDs, .ds), (.popFs, .fs), (.popGs, .gs)] →
      ∀ (v : Word) u, stackRead 0 n s = .ok (v, u) →
        loads i sr (v.setWidth 16) u fun e => (shadowed e sr).withEsp (moveSp e.stack32 s.regs.esp (BitVec.ofNat 32 n))) ∧
    (∀ m reg i sr, (i, sr) ∈ [(Instr.lds reg m, Sreg.ds), (.les reg m, .es), (.lfs reg m, .fs), (.lgs reg m, .gs), (.lss reg m, .ss)] →
      ∀ r off v (sel : HWord) u1 u2 u, addressOf m s = .ok ((r, off), u1) → readAt s.opWidth r off u1 = .ok (v, u2) →
        readAt .w r (off + BitVec.ofNat 32 n) u2 = .ok (sel, u) → loads i sr sel u fun e => e.setReg s.opWidth reg v))

/-- IN and OUT: with access to the port granted, IN puts the device's value, which is free, in the accumulator, and OUT hands the
accumulator to the device; nothing else changes (R262, R263, R104). -/
def Obligations.Ports : Prop :=
  ∀ (s : State) (w : Bool) (port : Nat) (u : State), ioCheck port (s.widthOf w).bytes s = .ok ((), u) →
    (∀ i, (∃ b : Byte, i = .inImm w b ∧ port = b.toNat) ∨ (i = .inDx w ∧ port = (s.reg .w .dx).toNat) →
      Completes i s fun t => ∃ v : BitVec (s.widthOf w).bits, DoneQuiet s
        ((s.withIo (.read port (s.widthOf w).bytes (v.setWidth 32) :: s.io)).setReg (s.widthOf w) .ax v) t) ∧
    (∀ i, (∃ b : Byte, i = .outImm w b ∧ port = b.toNat) ∨ (i = .outDx w ∧ port = (s.reg .w .dx).toNat) →
      Completes i s (DoneQuiet s
        (s.withIo (.write port (s.widthOf w).bytes ((s.reg (s.widthOf w) .ax).setWidth 32) :: s.io))))

/-- Access to a port is granted in Real Address Mode and in Protected Mode with CPL at most IOPL; else the permission bitmap of a 32-bit
task state segment decides, two bytes of it that must lie within the segment: a bit set for one of the `n` ports refuses. Where access is
refused IN, OUT, INS and OUTS raise #GP(0) (R138). -/
def Obligations.IoPermission : Prop :=
  (∀ (s : State) (port n : Nat),
    let granted := s.realMode = true ∨ (s.protMode = true ∧ s.cpl.toNat ≤ s.flags.iopl.toNat)
    let tr := s.tables.tr
    let refused (u : State) : Prop := ioCheck port n s = .error (.exc ⟨13, some 0⟩ u)
    (granted → ioCheck port n s = .ok ((), s)) ∧
    (¬ granted → tr.typ ≠ 9 ∧ tr.typ ≠ 11 → refused s) ∧
    (¬ granted → tr.typ = 9 ∨ tr.typ = 11 → ∀ (lo hi : Byte) (u1 : State), sysRead (tr.base + 0x66) 2 s = .ok ([lo, hi], u1) →
      let off := (hi ++ lo : HWord).toNat + port / 8
      (tr.limit.toNat < off + 1 → refused u1) ∧
      (off + 1 ≤ tr.limit.toNat → ∀ (b0 b1 : Byte) (u : State), sysRead (tr.base + BitVec.ofNat 32 off) 2 u1 = .ok ([b0, b1], u) →
        let bit (k : Nat) : Bool := (b1 ++ b0 : HWord).getLsbD (port % 8 + k)
        ((∃ k, k < n ∧ bit k = true) → refused u) ∧
        ((∀ k, k < n → bit k = false) → ioCheck port n s = .ok ((), u) ∧ Quiet s u)))) ∧
  (∀ (s : State) (w : Bool) (port : Nat) (u : State), ioCheck port (s.widthOf w).bytes s = .error (.exc ⟨13, some 0⟩ u) →
    (∀ b : Byte, port = b.toNat → Faults (.inImm w b) s 13 (some 0) u ∧ Faults (.outImm w b) s 13 (some 0) u) ∧
    (port = (s.reg .w .dx).toNat → Faults (.inDx w) s 13 (some 0) u ∧ Faults (.outDx w) s 13 (some 0) u ∧
      (elementRuns s → Faults (.ins w) s 13 (some 0) u ∧ Faults (.outs w) s 13 (some 0) u)))

/-! ## Flag control (41_flag_control.md) -/

/-- SAHF: the opcode 9E loads SF, ZF, AF, PF and CF from bits 7, 6, 4, 2 and 0 of AH, in every state and mode, and changes nothing
else (R308; RF is cleared as by every completed instruction, R755). -/
def Obligations.SahfLoadsFlags : Prop :=
  ∀ (s : State) (c : Ctx),
    let ah : Byte := s.regs.eax.extractLsb' 8 8
    decode c [0x9E] = .ok .sahf [] ∧ Completes .sahf s (DoneQuiet s (s.mapFlags fun f => { f with
      sf := ah.getLsbD 7, zf := ah.getLsbD 6, af := ah.getLsbD 4, pf := ah.getLsbD 2, cf := ah.getLsbD 0 }))

/-- STC: the opcode F9 sets CF, in every state and mode, and changes nothing else (R309; RF is cleared as by every completed
instruction, R755). -/
def Obligations.StcSetsCarry : Prop :=
  ∀ (s : State) (c : Ctx),
    decode c [0xF9] = .ok .stc [] ∧ Completes .stc s (DoneQuiet s (s.mapFlags fun f => { f with cf := true }))

/-- CLC, CLD, CMC, LAHF, STD: each opcode decodes to its instruction, which completes in every state and changes what its rule says
and nothing else; CLI and STI where CPL and IOPL allow them, STI with its shadow; CLTS at CPL 0 (R300 to R304, R310 to R312, R59). -/
def Obligations.FlagControl : Prop :=
  (∀ (s : State) (c : Ctx),
    let with_ (g : Flags → Flags) : State := s.mapFlags g
    (decode c [0xF8] = .ok .clc [] ∧ Completes .clc s (DoneQuiet s (with_ fun f => { f with cf := false }))) ∧
    (decode c [0xFC] = .ok .cld [] ∧ Completes .cld s (DoneQuiet s (with_ fun f => { f with df := false }))) ∧
    (decode c [0xF5] = .ok .cmc [] ∧ Completes .cmc s (DoneQuiet s (with_ fun f => { f with cf := !f.cf }))) ∧
    (decode c [0x9F] = .ok .lahf [] ∧ Completes .lahf s fun t => DoneQuiet s (s.setReg .b .sp (t.regs.eax.extractLsb' 8 8)) t ∧
      t.regs.eax.extractLsb' 8 8 = BitVec.ofBool s.flags.sf ++ BitVec.ofBool s.flags.zf ++ 0#1 ++ BitVec.ofBool s.flags.af ++ 0#1 ++
        BitVec.ofBool s.flags.pf ++ 1#1 ++ BitVec.ofBool s.flags.cf) ∧
    (decode c [0xFD] = .ok .std [] ∧ Completes .std s (DoneQuiet s (with_ fun f => { f with df := true })))) ∧
  (∀ s : State,
    (s.realMode = true ∨ s.cpl.toNat ≤ s.flags.iopl.toNat →
      Completes .cli s (DoneQuiet s (s.mapFlags fun f => { f with intf := false })) ∧
      (s.flags.intf = true → Completes .sti s (DoneQuiet s s)) ∧
      (s.flags.intf = false →
        Completes .sti s (DoneQuiet s ((s.mapFlags fun f => { f with intf := true }).withShadow .sti)))) ∧
    (s.cpl = 0 → Completes .clts s (DoneQuiet s (s.withCr0 { s.cr0 with ts := false }))))

/-! ## Arithmetic and logic (42_arithmetic.md, 43_logic_shift.md) -/

/-- What the flags of a sum, of a difference and of a result mean, at every operand width: CF an unsigned result that does not fit, OF a
signed one, AF a carry or borrow of the low nibble, ZF and SF zero and sign of the result, PF an even number of ones in its low byte
(R39, R331, R332, R334, R335). -/
def Obligations.SumFlags : Prop :=
  ∀ (k : Width) (f : Flags) (a b : BitVec k.bits) (c : Bool),
    let sum := a.toNat + b.toNat + c.toNat
    let ssum := a.toInt + b.toInt + c.toNat
    let sdiff := a.toInt - b.toInt - c.toNat
    let fits (x : Int) := -(2 ^ (k.bits - 1) : Int) ≤ x ∧ x < 2 ^ (k.bits - 1)
    let evenOnes (x : BitVec k.bits) := ((List.range 8).countP fun i => x.getLsbD i) % 2 = 0
    ((f.add a b c).cf = true ↔ 2 ^ k.bits ≤ sum) ∧ ((f.add a b c).of = true ↔ ¬ fits ssum) ∧
    ((f.add a b c).af = true ↔ 16 ≤ a.toNat % 16 + b.toNat % 16 + c.toNat) ∧
    ((f.add a b c).zf = true ↔ sum % 2 ^ k.bits = 0) ∧ ((f.add a b c).sf = true ↔ 2 ^ (k.bits - 1) ≤ sum % 2 ^ k.bits) ∧
    ((f.add a b c).pf = true ↔ evenOnes (BitVec.ofNat k.bits sum)) ∧
    ((f.sub a b c).cf = true ↔ a.toNat < b.toNat + c.toNat) ∧ ((f.sub a b c).of = true ↔ ¬ fits sdiff) ∧
    ((f.sub a b c).af = true ↔ a.toNat % 16 < b.toNat % 16 + c.toNat) ∧
    ((f.sub a b c).zf = true ↔ sdiff % 2 ^ k.bits = 0) ∧ ((f.sub a b c).sf = true ↔ 2 ^ (k.bits - 1) ≤ sdiff % 2 ^ k.bits) ∧
    ((f.sub a b c).pf = true ↔ evenOnes (BitVec.ofInt k.bits sdiff)) ∧
    (∀ r : BitVec k.bits, ((f.szp r).zf = true ↔ r.toNat = 0) ∧ ((f.szp r).sf = true ↔ r.toInt < 0) ∧
      ((f.szp r).pf = true ↔ evenOnes r))

/-- ADD, OR, ADC, SBB, AND, SUB, XOR with a register destination, r op r/m, and on the accumulator, which completes in every state:
the result to the register, with its flags; AF of the logical ones is free. The same operations with a register or memory destination:
r/m op reg, or r/m op an immediate, a byte immediate sign-extended (R330 to R335, R390 to R392; U2). -/
def Obligations.TwoOperand : Prop :=
  (∀ (o : AluKind) (s : State),
     let result (i : Instr) (k : Width) (reg : Gpr) (b : BitVec k.bits) : Prop :=
       Completes i s fun t => ∃ af, DoneQuiet s
         ((s.setReg k reg (o.result (s.reg k reg) b s.flags.cf)).withFlags (o.flags s.flags (s.reg k reg) b af)) t
     (∀ w reg rm b u, readRm (s.widthOf w) rm s = .ok (b, u) → result (o.rmR true w reg rm) (s.widthOf w) reg b) ∧
     (∀ imm : Byte, result (o.alImm imm) .b .ax imm) ∧
     (∀ imm : Word, result (o.eaxImm imm) s.opWidth .ax (imm.setWidth s.opWidth.bits))) ∧
  (∀ (o : AluKind) (s : State) (rm : Rm),
     let result (i : Instr) (k : Width) (b : BitVec k.bits) : Prop :=
       ∀ p a u, modifyRm k rm s = .ok ((p, a), u) → p.ready s → Completes i s fun t =>
         ∃ af, DonePlace k p (o.result a b s.flags.cf) s (s.withFlags (o.flags s.flags a b af)) u t
     (∀ w reg, result (o.rmR false w reg rm) (s.widthOf w) (s.reg (s.widthOf w) reg)) ∧
     (∀ imm : Byte, result (o.rm8Imm rm imm) .b imm) ∧
     (∀ imm : Word, result (o.rmImm rm imm) s.opWidth (imm.setWidth s.opWidth.bits)) ∧
     (∀ imm : Byte, result (o.rmImm8s rm imm) s.opWidth (imm.signExtend s.opWidth.bits)))

/-- CMP and TEST: the flags of SUB and of AND (AF free), no operand written (R337, R393; U2). INC and DEC keep CF and set the others
as ADD and SUB of 1 do, NEG has the flags of 0 - DEST, NOT changes no flag (R333, R336, R338, R394). -/
def Obligations.CompareAndOneOperand : Prop :=
  (∀ s : State,
     let cmp (i : Instr) (k : Width) (a b : BitVec k.bits) : Prop :=
       Completes i s (DoneQuiet s (s.withFlags (s.flags.sub a b false)))
     let test (i : Instr) (k : Width) (a b : BitVec k.bits) : Prop :=
       Completes i s fun t => ∃ af, DoneQuiet s (s.withFlags (s.flags.logic (a &&& b) af)) t
     (∀ w reg rm v u, readRm (s.widthOf w) rm s = .ok (v, u) →
       cmp (.cmpRmR false w reg rm) (s.widthOf w) v (s.reg (s.widthOf w) reg) ∧
       cmp (.cmpRmR true w reg rm) (s.widthOf w) (s.reg (s.widthOf w) reg) v ∧
       test (.testRmR w reg rm) (s.widthOf w) v (s.reg (s.widthOf w) reg)) ∧
     (∀ imm : Byte, cmp (.cmpAlImm imm) .b (s.reg .b .ax) imm ∧ test (.testAlImm imm) .b (s.reg .b .ax) imm) ∧
     (∀ imm : Word, cmp (.cmpEaxImm imm) s.opWidth (s.reg s.opWidth .ax) (imm.setWidth s.opWidth.bits) ∧
       test (.testEaxImm imm) s.opWidth (s.reg s.opWidth .ax) (imm.setWidth s.opWidth.bits)) ∧
     (∀ rm (imm : Byte) (v : Byte) u, readRm .b rm s = .ok (v, u) →
       cmp (.cmpRm8Imm rm imm) .b v imm ∧ test (.testRm8Imm rm imm) .b v imm) ∧
     (∀ rm v u, readRm s.opWidth rm s = .ok (v, u) →
       (∀ imm : Word, cmp (.cmpRmImm rm imm) s.opWidth v (imm.setWidth s.opWidth.bits) ∧
         test (.testRmImm rm imm) s.opWidth v (imm.setWidth s.opWidth.bits)) ∧
       (∀ imm : Byte, cmp (.cmpRmImm8s rm imm) s.opWidth v (imm.signExtend s.opWidth.bits)))) ∧
  (∀ s : State,
     let result (i : Instr) (k : Width) (rm : Rm) (value : BitVec k.bits → BitVec k.bits)
         (flags : BitVec k.bits → Flags) : Prop :=
       ∀ p v u, modifyRm k rm s = .ok ((p, v), u) → p.ready s →
         Completes i s (DonePlace k p (value v) s (s.withFlags (flags v)) u)
     (∀ w rm, result (.incRm w rm) (s.widthOf w) rm (· + 1) fun v => { s.flags.add v 1 false with cf := s.flags.cf }) ∧
     (∀ w rm, result (.decRm w rm) (s.widthOf w) rm (· - 1) fun v => { s.flags.sub v 1 false with cf := s.flags.cf }) ∧
     (∀ w rm, result (.negRm w rm) (s.widthOf w) rm (fun v => -v) fun v => s.flags.sub 0 v false) ∧
     (∀ w rm, result (.notRm w rm) (s.widthOf w) rm (fun v => v ^^^ BitVec.allOnes _) fun _ => s.flags) ∧
     (∀ reg, Completes (.incR reg) s (DoneQuiet s ((s.setReg s.opWidth reg (s.reg s.opWidth reg + 1)).withFlags
       { s.flags.add (s.reg s.opWidth reg) 1 false with cf := s.flags.cf }))) ∧
     (∀ reg, Completes (.decR reg) s (DoneQuiet s ((s.setReg s.opWidth reg (s.reg s.opWidth reg - 1)).withFlags
       { s.flags.sub (s.reg s.opWidth reg) 1 false with cf := s.flags.cf }))))

/-- AAA, AAS, DAA, DAS, AAM with a second byte that is not 0, AAD: AX and the flags as the rules compute them, the undefined flags free
(R340 to R343, R366, R367; U4). -/
def Obligations.Adjusts : Prop :=
  ∀ s : State,
    let al := s.reg .b .ax
    let ah := s.reg .b .sp
    let f := s.flags
    let low := 9 < al.toNat % 16 ∨ f.af = true
    let high := 0x99 < al.toNat ∨ f.cf = true
    let ascii (i : Instr) (x y : Byte) : Prop := Completes i s fun t => ∃ pf zf sf of,
      if low then DoneQuiet s ((s.setReg .w .ax ((ah + y) ++ ((al + x) &&& 0x0F))).withFlags
        { f with af := true, cf := true, pf := pf, zf := zf, sf := sf, of := of }) t
      else DoneQuiet s ((s.setReg .w .ax (ah ++ (al &&& 0x0F))).withFlags
        { f with af := false, cf := false, pf := pf, zf := zf, sf := sf, of := of }) t
    let sums : Byte := al + (if low then 6 else 0) + (if high then 0x60 else 0)
    let diff : Byte := al - (if low then 6 else 0) - (if high then 0x60 else 0)
    ascii .aaa 6 1 ∧ ascii .aas (-6) (-1) ∧
    Completes .daa s (fun t => ∃ of, DoneQuiet s ((s.setReg .b .ax sums).withFlags
      { f.szp sums with af := decide low, cf := decide high, of := of }) t) ∧
    Completes .das s (fun t => ∃ of, DoneQuiet s ((s.setReg .b .ax diff).withFlags
      { f.szp diff with af := decide low, cf := decide (high ∨ (low ∧ al.toNat < 6)), of := of }) t) ∧
    (∀ b : Byte, b ≠ 0 → Completes (.aam b) s fun t => ∃ of af cf, DoneQuiet s ((s.setReg .w .ax
      (BitVec.ofNat 8 (al.toNat / b.toNat) ++ BitVec.ofNat 8 (al.toNat % b.toNat))).withFlags
      { f.szp (BitVec.ofNat 8 (al.toNat % b.toNat)) with of := of, af := af, cf := cf }) t) ∧
    (∀ b : Byte, Completes (.aad b) s fun t => ∃ of af cf, DoneQuiet s ((s.setReg .w .ax (0#8 ++ (ah * b + al))).withFlags
      { f.szp (ah * b + al) with of := of, af := af, cf := cf }) t)

/-- MUL and IMUL: the double-width product, or its low half in a register; CF and OF tell whether the high half matters, the other
status flags are free (R350 to R353; U4). -/
def Obligations.Multiply : Prop :=
  ∀ s : State,
    let done (i : Instr) (e : State) (isOver : Prop) : Prop := Completes i s fun t => ∃ c sf zf af pf, (c = true ↔ isOver) ∧
      DoneQuiet s (e.withFlags { s.flags with cf := c, of := c, sf := sf, zf := zf, af := af, pf := pf }) t
    (∀ w rm (v : BitVec (s.widthOf w).bits) u, readRm (s.widthOf w) rm s = .ok (v, u) →
      let k := s.widthOf w
      let a := s.reg k .ax
      (∃ hi lo : BitVec k.bits, (hi ++ lo).toNat = a.toNat * v.toNat ∧ done (.mulRm w rm) (s.setWide k hi lo) (hi ≠ 0)) ∧
      (∃ hi lo : BitVec k.bits, (hi ++ lo).toInt = a.toInt * v.toInt ∧
        done (.imulRm w rm) (s.setWide k hi lo) (lo.toInt ≠ a.toInt * v.toInt))) ∧
    (∀ reg rm (v : BitVec s.opWidth.bits) u, readRm s.opWidth rm s = .ok (v, u) →
      let k := s.opWidth
      let low (i : Instr) (a b : BitVec k.bits) : Prop :=
        done i (s.setReg k reg (a * b)) ((a * b).toInt ≠ a.toInt * b.toInt)
      low (.imulRRm reg rm) (s.reg k reg) v ∧
      (∀ imm : Word, low (.imulRRmImm reg rm imm) v (imm.setWidth k.bits)) ∧
      (∀ imm : Byte, low (.imulRRmImm8 reg rm imm) v (imm.signExtend k.bits)))

/-- DIV and IDIV: the quotient and the remainder where the quotient fits, all status flags free; #DE for a zero divisor or a quotient
that does not fit, and for AAM by 0 (R354, R355, R366; U4, U25). -/
def Obligations.Divide : Prop :=
  (∀ (s : State) w rm (v : BitVec (s.widthOf w).bits) u, readRm (s.widthOf w) rm s = .ok (v, u) →
    let k := s.widthOf w
    let d := s.wideAcc k
    (∀ q r : BitVec k.bits, d.toNat = q.toNat * v.toNat + r.toNat → r.toNat < v.toNat →
      Completes (.divRm w rm) s (DoneFreeFlags s (s.setWide k r q))) ∧
    (∀ q r : BitVec k.bits, d.toInt = q.toInt * v.toInt + r.toInt → r.toInt.natAbs < v.toInt.natAbs →
      (r.toInt = 0 ∨ (r.toInt < 0 ↔ d.toInt < 0)) → Completes (.idivRm w rm) s (DoneFreeFlags s (s.setWide k r q))) ∧
    (v = 0 ∨ 2 ^ k.bits ≤ d.toNat / v.toNat → Faults (.divRm w rm) s 0 none u) ∧
    (v = 0 ∨ (∀ q : BitVec k.bits, q.toInt ≠ d.toInt.tdiv v.toInt) → Faults (.idivRm w rm) s 0 none u)) ∧
  (∀ s : State, Faults (.aam 0) s 0 none s)

/-! ## Shifts (43_logic_shift.md) -/

/-- What shifts and rotates compute, at every width and for every count from 1 to 31: the result as a number, CF the last bit
shifted out, OF for a count of 1 (R401 to R403, R405 to R408). -/
def Obligations.ShiftValues : Prop :=
  ∀ (k : Width) (a : BitVec k.bits) (cf : Bool) (c : Nat), 1 ≤ c → c ≤ 31 →
    let n := k.bits
    ((shl a cf c).val.toNat = a.toNat * 2 ^ c % 2 ^ n ∧ ((shl a cf c).cf = true ↔ a.toNat * 2 ^ c / 2 ^ n % 2 = 1) ∧
      (shl a cf c).of1 = ((shl a cf c).val.msb ^^ (shl a cf c).cf)) ∧
    ((shr a cf c).val.toNat = a.toNat / 2 ^ c ∧ ((shr a cf c).cf = true ↔ a.toNat / 2 ^ (c - 1) % 2 = 1) ∧
      (shr a cf c).of1 = a.msb) ∧
    ((sar a cf c).val.toInt = a.toInt / 2 ^ c ∧ ((sar a cf c).cf = true ↔ a.toInt / 2 ^ (c - 1) % 2 = 1) ∧
      (sar a cf c).of1 = false) ∧
    ((rol a cf c).val = a.rotateLeft c ∧ (rol a cf c).cf = (a.rotateLeft c).getLsbD 0 ∧
      (rol a cf c).of1 = ((a.rotateLeft c).msb ^^ (a.rotateLeft c).getLsbD 0)) ∧
    ((ror a cf c).val = a.rotateRight c ∧ (ror a cf c).cf = (a.rotateRight c).msb ∧
      (ror a cf c).of1 = ((a.rotateRight c).msb ^^ (a.rotateRight c).getLsbD (n - 2))) ∧
    (BitVec.ofBool (rcl a cf c).cf ++ (rcl a cf c).val = (BitVec.ofBool cf ++ a).rotateLeft c ∧
      (rcl a cf c).of1 = ((rcl a cf c).val.msb ^^ (rcl a cf c).cf)) ∧
    (BitVec.ofBool (rcr a cf c).cf ++ (rcr a cf c).val = (BitVec.ofBool cf ++ a).rotateRight c ∧ (rcr a cf c).of1 = (a.msb ^^ cf))

/-- ROL, ROR, RCL, RCR, SHL, SHR, SAR by 1, by CL and by an immediate: the count is taken modulo 32; with count 0 the operand is only
examined, and nothing changes; a rotate through CF whose count comes to 0 only modulo the width + 1 stores the old value (R400 to R408, D15,
D6; U1, U2; log entry 38, and for that store 59, DESIGN CHOICE). -/
def Obligations.Shifts : Prop :=
  ∀ (o : ShiftKind) (s : State) (w : Bool) (rm : Rm),
    let k := s.widthOf w
    let shifts (i : Instr) (count : Byte) : Prop :=
      let c := count.toNat % 32
      (c = 0 → ∀ x v u1 u, targetRm rm s = .ok (x, u1) → inspect k x u1 = .ok (v, u) → Completes i s (DoneQuiet s s)) ∧
      (c ≠ 0 → ∀ p (v : BitVec k.bits) u, modifyRm k rm s = .ok ((p, v), u) → p.ready s → Completes i s fun t => ∃ of af,
        let r := o.outcome v s.flags.cf c
        DonePlace k p r.val s (s.withFlags (o.flags s.flags r c of af)) u t)
    shifts (o.by1 w rm) 1 ∧ shifts (o.byCl w rm) (s.reg .b .cx) ∧ ∀ imm, shifts (o.byImm w rm imm) imm

/-- SHLD and SHRD: for a count below the operand size the bits of the two operands joined, shifted; OF and AF free. With a count of 0
the operand is only examined, and nothing changes; one of the operand size or more leaves the destination and the flags free (R410, R411;
U2, U3, D19; log entry 38). -/
def Obligations.DoubleShifts : Prop :=
  ∀ (s : State) (reg : Gpr) (rm : Rm),
    let k := s.opWidth
    let b := s.reg k reg
    let shifts (i : Instr) (count : Byte) (value : BitVec k.bits → Nat → BitVec k.bits) (last : Nat → Nat) : Prop :=
      let c := count.toNat % 32
      (c = 0 → ∀ x v u1 u, targetRm rm s = .ok (x, u1) → inspect k x u1 = .ok (v, u) → Completes i s (DoneQuiet s s)) ∧
      (c ≠ 0 → ∀ p (a : BitVec k.bits) u, modifyRm k rm s = .ok ((p, a), u) → p.ready s →
        (c < k.bits → Completes i s fun t => ∃ of af, DonePlace k p (value a c) s
          (s.withFlags { s.flags.szp (value a c) with cf := a.getLsbD (last c), of := of, af := af }) u t) ∧
        (k.bits ≤ c → Completes i s fun t => ∃ r cf pf af zf sf of, DonePlace k p r s
          (s.withFlags { s.flags with cf := cf, pf := pf, af := af, zf := zf, sf := sf, of := of }) u t))
    let left (a : BitVec k.bits) (c : Nat) : BitVec k.bits := ((a ++ b) <<< c).extractLsb' k.bits k.bits
    let right (a : BitVec k.bits) (c : Nat) : BitVec k.bits := ((b ++ a) >>> c).setWidth k.bits
    (∀ imm, shifts (.shldImm reg rm imm) imm left (k.bits - ·) ∧ shifts (.shrdImm reg rm imm) imm right (· - 1)) ∧
    shifts (.shldCl reg rm) (s.reg .b .cx) left (k.bits - ·) ∧ shifts (.shrdCl reg rm) (s.reg .b .cx) right (· - 1)

/-! ## Strings (44_string_rep.md) -/

/-- A string instruction repeated with a count of 0 does nothing. MOVS, STOS, LODS: one element at DS:eSI (or the override's segment)
and ES:eDI, the index registers up or down by its size; with a repeat prefix one iteration (R440, R441, R444, R445, R450, R452). -/
def Obligations.StringMovesAndCountZero : Prop :=
  (∀ (s : State) (w : Bool), s.fetch.pfx.rep.isSome = true → addrReg s .cx = 0 →
    ∀ i, i = .movs w ∨ i = .cmps w ∨ i = .scas w ∨ i = .stos w ∨ i = .lods w ∨ i = .ins w ∨ i = .outs w →
      Completes i s (DoneQuiet s s)) ∧
  ∀ (s : State) (w : Bool), elementRuns s →
    let k := s.widthOf w
    let n := k.bytes
    let move (e : State) (r : Gpr) : State :=
      e.setAddrReg r (if s.flags.df then addrReg e r - BitVec.ofNat 32 n else addrReg e r + BitVec.ofNat 32 n)
    (∀ (v : BitVec k.bits) u1 ps u, readAt k (s.segOr .ds) (addrReg s .si) s = .ok (v, u1) →
      plan .es (addrReg s .di) n true u1 = .ok (ps, u) → Storable s ps →
      Completes (.movs w) s fun t => Ends s (afterElement false s (move (move s .si) .di)) t ∧ SameMemory s u ∧
        Stored ps (bytesOf n (v.setWidth 32)) u t) ∧
    (∀ ps u, plan .es (addrReg s .di) n true s = .ok (ps, u) → Storable s ps →
      Completes (.stos w) s fun t => Ends s (afterElement false s (move s .di)) t ∧ SameMemory s u ∧
        Stored ps (bytesOf n ((s.reg k .ax).setWidth 32)) u t) ∧
    (∀ (v : BitVec k.bits) u, readAt k (s.segOr .ds) (addrReg s .si) s = .ok (v, u) →
      Completes (.lods w) s fun t => Ends s (afterElement false s (move (s.setReg k .ax v) .si)) t ∧ SameMemory s t)

/-- CMPS and SCAS: the flags of the first element less the second, of the accumulator less the element; with REPE or REPNE the
comparison may end the repetition (R442, R443, R450, R452). INS and OUTS with access to the port granted: one element from or to the port
in DX, the device's value free (R446, R447, R450, R452). -/
def Obligations.StringComparesAndPorts : Prop :=
  (∀ (s : State) (w : Bool), elementRuns s →
     let k := s.widthOf w
     let n := k.bytes
     let move (e : State) (r : Gpr) : State :=
       e.setAddrReg r (if s.flags.df then addrReg e r - BitVec.ofNat 32 n else addrReg e r + BitVec.ofNat 32 n)
     (∀ (a b : BitVec k.bits) u1 u, readAt k (s.segOr .ds) (addrReg s .si) s = .ok (a, u1) →
       readAt k .es (addrReg s .di) u1 = .ok (b, u) →
       Completes (.cmps w) s fun t =>
         Ends s (afterElement true s (move (move (s.withFlags (s.flags.sub a b false)) .si) .di)) t ∧ SameMemory s t) ∧
     (∀ (b : BitVec k.bits) u, readAt k .es (addrReg s .di) s = .ok (b, u) →
       Completes (.scas w) s fun t =>
         Ends s (afterElement true s (move (s.withFlags (s.flags.sub (s.reg k .ax) b false)) .di)) t ∧ SameMemory s t)) ∧
  (∀ (s : State) (w : Bool) (u1 : State), elementRuns s →
     let k := s.widthOf w
     let n := k.bytes
     let port := (s.reg .w .dx).toNat
     let move (e : State) (r : Gpr) : State :=
       e.setAddrReg r (if s.flags.df then addrReg e r - BitVec.ofNat 32 n else addrReg e r + BitVec.ofNat 32 n)
     ioCheck port n s = .ok ((), u1) →
     (∀ ps u, plan .es (addrReg s .di) n true u1 = .ok (ps, u) → Storable s ps →
       Completes (.ins w) s fun t => ∃ v : BitVec k.bits,
         Ends s (afterElement false s (move (s.withIo (.read port n (v.setWidth 32) :: s.io)) .di)) t ∧ SameMemory s u ∧
         Stored ps (bytesOf n (v.setWidth 32)) u t) ∧
     (∀ (v : BitVec k.bits) u, readAt k (s.segOr .ds) (addrReg s .si) u1 = .ok (v, u) →
       Completes (.outs w) s fun t =>
         Ends s (afterElement false s (move (s.withIo (.write port n (v.setWidth 32) :: s.io)) .si)) t ∧ SameMemory s t))

/-! ## Bits (45_bit.md) -/

/-- BT, BTS, BTR, BTC: CF takes the bit, the others set, clear or complement it; a register bit offset is signed and reaches beyond
the memory operand; the other status flags are free (R480 to R484; U4). BSF and BSR: the index of the lowest and of the highest 1 bit; ZF
for a source of 0, which leaves the destination free; the other status flags are free (R485, R486; U4, U14). -/
def Obligations.BitInstructions : Prop :=
  (∀ s : State,
     let k := s.opWidth
     let f (cf sf zf af pf of : Bool) : Flags := { s.flags with cf := cf, sf := sf, zf := zf, af := af, pf := pf, of := of }
     let tests (i : Instr) (v : BitVec k.bits) (bit : Nat) : Prop := Completes i s fun t => ∃ sf zf af pf of,
       DoneQuiet s (s.withFlags (f (v.getLsbD bit) sf zf af pf of)) t
     let changes (i : Instr) (p : Place) (v : BitVec k.bits) (bit : Nat) (u : State) (new : Bool → Bool) : Prop :=
       Completes i s fun t => ∃ r : BitVec k.bits, ∃ sf zf af pf of,
         (∀ j, j < k.bits → r.getLsbD j = if j = bit then new (v.getLsbD j) else v.getLsbD j) ∧
         DonePlace k p r s (s.withFlags (f (v.getLsbD bit) sf zf af pf of)) u t
     (∀ rm (imm : Byte) v u, readRm k rm s = .ok (v, u) → tests (.btImm rm imm) v (imm.toNat % k.bits)) ∧
     (∀ rm (imm : Byte) p v u, modifyRm k rm s = .ok ((p, v), u) → p.ready s →
       changes (.btsImm rm imm) p v (imm.toNat % k.bits) u (fun _ => true) ∧
       changes (.btrImm rm imm) p v (imm.toNat % k.bits) u (fun _ => false) ∧
       changes (.btcImm rm imm) p v (imm.toNat % k.bits) u (!·)) ∧
     (∀ reg r, let bit := (s.reg k reg).toNat % k.bits
       tests (.btR reg (.reg r)) (s.reg k r) bit ∧
       changes (.btsR reg (.reg r)) (.reg r) (s.reg k r) bit s (fun _ => true) ∧
       changes (.btrR reg (.reg r)) (.reg r) (s.reg k r) bit s (fun _ => false) ∧
       changes (.btcR reg (.reg r)) (.reg r) (s.reg k r) bit s (!·)) ∧
     (∀ reg m sr off u1, addressOf m s = .ok ((sr, off), u1) →
       let o := (s.reg k reg).toInt
       let bit := (o % k.bits).toNat
       let at_ := addrTrunc s (off + BitVec.ofInt 32 (k.bytes * (o / k.bits)))
       (∀ v u, readAt k sr at_ u1 = .ok (v, u) → tests (.btR reg (.mem m)) v bit) ∧
       (∀ p v u, modifyAt k sr at_ u1 = .ok ((p, v), u) → p.ready s →
         changes (.btsR reg (.mem m)) p v bit u (fun _ => true) ∧
         changes (.btrR reg (.mem m)) p v bit u (fun _ => false) ∧
         changes (.btcR reg (.mem m)) p v bit u (!·)))) ∧
  (∀ (s : State) (reg : Gpr) (rm : Rm) (v : BitVec s.opWidth.bits) (u : State), readRm s.opWidth rm s = .ok (v, u) →
     let k := s.opWidth
     let done (i : Instr) (r : BitVec k.bits) (zf : Bool) (t : State) : Prop := exec i s = .next t ∧ ∃ sf af pf cf of,
       DoneQuiet s ((s.setReg k reg r).withFlags { s.flags with zf := zf, sf := sf, af := af, pf := pf, cf := cf, of := of }) t
     (∀ i, v.getLsbD i = true → (∀ j, j < i → v.getLsbD j = false) → ∃ t, done (.bsf reg rm) (BitVec.ofNat k.bits i) false t) ∧
     (∀ i, v.getLsbD i = true → (∀ j, i < j → v.getLsbD j = false) → ∃ t, done (.bsr reg rm) (BitVec.ofNat k.bits i) false t) ∧
     (v = 0 → (∃ t r, done (.bsf reg rm) r true t) ∧ ∃ t r, done (.bsr reg rm) r true t))

/-! ## Control transfer (46_control_transfer.md) -/

/-- JMP short, near and indirect, Jcc, JCXZ, LOOP, LOOPE, LOOPNE: the target is EIP plus the displacement at the operand size; beyond
the limit of CS a taken one raises #GP(0) and changes nothing (R500 to R502, R520 to R524, R178). -/
def Obligations.NearJumps : Prop :=
  ∀ s : State,
    let limit := s.segs.cs.limit.toNat
    let target (d : Word) : Word := if s.op32 then s.eip + d else (s.eip + d) &&& 0xFFFF
    let full (d : Word) : Word := if s.op32 then d else (d.setWidth 16).signExtend 32
    let jumps (i : Instr) (e : State) (d : Word) : Prop :=
      ((target d).toNat ≤ limit → Completes i s (DoneQuiet s (e.withEip (target d)))) ∧
      (limit < (target d).toNat → Faults i s 13 (some 0) s)
    let stays (i : Instr) (e : State) : Prop := Completes i s (DoneQuiet s e)
    (∀ d : Byte, jumps (.jmpRel8 d) s (d.signExtend 32)) ∧
    (∀ d : Word, jumps (.jmpRel d) s (full d)) ∧
    (∀ cc, (s.flags.cond cc = true → (∀ d : Byte, jumps (.jccRel8 cc d) s (d.signExtend 32)) ∧
        ∀ d : Word, jumps (.jccRel cc d) s (full d)) ∧
      (s.flags.cond cc = false → (∀ d : Byte, stays (.jccRel8 cc d) s) ∧ ∀ d : Word, stays (.jccRel cc d) s)) ∧
    (∀ d : Byte, (addrReg s .cx = 0 → jumps (.jcxz d) s (d.signExtend 32)) ∧ (addrReg s .cx ≠ 0 → stays (.jcxz d) s)) ∧
    (let c := addrTrunc s (addrReg s .cx - 1)
     let e := s.setAddrReg .cx c
     ∀ d : Byte,
      (c ≠ 0 → jumps (.loop d) e (d.signExtend 32)) ∧ (c = 0 → stays (.loop d) e) ∧
      (c ≠ 0 ∧ s.flags.zf = true → jumps (.loope d) e (d.signExtend 32)) ∧
      (c = 0 ∨ s.flags.zf = false → stays (.loope d) e) ∧
      (c ≠ 0 ∧ s.flags.zf = false → jumps (.loopne d) e (d.signExtend 32)) ∧
      (c = 0 ∨ s.flags.zf = true → stays (.loopne d) e)) ∧
    (∀ rm (v : BitVec s.opWidth.bits) u, readRm s.opWidth rm s = .ok (v, u) →
      (v.toNat ≤ limit → Completes (.jmpRm rm) s (DoneQuiet s (s.withEip (v.setWidth 32)))) ∧
      (limit < v.toNat → Faults (.jmpRm rm) s 13 (some 0) u))

/-- Near CALL pushes the address of the next instruction and goes to its target, checked before the push; near RET pops its target
and releases its parameters, nothing released when the target is beyond the limit of CS (R504, R505, R513). -/
def Obligations.NearCallsReturns : Prop :=
  ∀ s : State,
    let limit := s.segs.cs.limit.toNat
    let n := s.opWidth.bytes
    let calls (i : Instr) (u0 : State) (t : Word) : Prop :=
      (t.toNat ≤ limit → ∀ stores esp u, planStack n [s.eip] u0 = .ok ((stores, esp), u) → AllStorable s stores →
        Completes i s (DoneStores n stores s ((s.withEsp esp).withEip t) u)) ∧
      (limit < t.toNat → Faults i s 13 (some 0) u0)
    (∀ d : Word, let full : Word := if s.op32 then d else (d.setWidth 16).signExtend 32
      calls (.callRel d) s (if s.op32 then s.eip + full else (s.eip + full) &&& 0xFFFF)) ∧
    (∀ rm (v : BitVec s.opWidth.bits) u0, readRm s.opWidth rm s = .ok (v, u0) → calls (.callRm rm) u0 (v.setWidth 32)) ∧
    (∀ t u, stackRead 0 n s = .ok (t, u) →
      let returns (i : Instr) (extra : Word) : Prop :=
        (t.toNat ≤ limit → Completes i s (DoneQuiet s
          ((s.withEsp (moveSp s.stack32 s.regs.esp (BitVec.ofNat 32 n + extra))).withEip t))) ∧
        (limit < t.toNat → Faults i s 13 (some 0) u)
      returns .retNear 0 ∧ ∀ imm : HWord, returns (.retNearImm imm) (imm.setWidth 32))

/-- Far JMP, CALL and RET in Real Address Mode and Virtual 8086 Mode: CS takes the selector with base selector * 16; CALL pushes CS
and the next offset (with 32 bits the upper half of the CS doubleword is free); an offset above FFFFh raises #GP(0)
(R503, R512, R514, R111, D8; U5; log entry 16). That the memory forms read the selector at the offset + n in 32 bits, without the wrap at
2^16, is the model's choice: log entry 49 (DESIGN CHOICE). -/
def Obligations.FarReal : Prop :=
  ∀ s : State, s.protMode = false →
    let n := s.opWidth.bytes
    let at_ (e : State) (sel : HWord) (off : Word) : State := (e.setSeg .cs (s.realSeg .cs sel)).withEip off
    let transfers (jmp call : Instr) (sel : HWord) (off : Word) (u0 : State) : Prop :=
      (off.toNat ≤ 0xFFFF → Completes jmp s (DoneQuiet s (at_ s sel off)) ∧
        ∃ w u1, selWord s.segs.cs.sel u0 = .ok (w, u1) ∧ w.setWidth 16 = s.segs.cs.sel ∧
          ∀ stores esp u, planStack n [w, s.eip] u1 = .ok ((stores, esp), u) → AllStorable s stores →
            Completes call s (DoneStores n stores s (at_ (s.withEsp esp) sel off) u)) ∧
      (0xFFFF < off.toNat → Faults jmp s 13 (some 0) u0 ∧ Faults call s 13 (some 0) u0)
    (∀ off sel, transfers (.jmpFar off sel) (.callFar off sel) sel (if s.op32 then off else off &&& 0xFFFF) s) ∧
    (∀ m sr at0 (v : BitVec s.opWidth.bits) (sel : HWord) u1 u2 u, addressOf m s = .ok ((sr, at0), u1) →
      readAt s.opWidth sr at0 u1 = .ok (v, u2) → readAt .w sr (at0 + BitVec.ofNat 32 n) u2 = .ok (sel, u) →
      transfers (.jmpMemFar m) (.callMemFar m) sel (v.setWidth 32) u) ∧
    (∀ ip cs u1 u, stackRead 0 n s = .ok (ip, u1) → stackRead n n u1 = .ok (cs, u) →
      let returns (i : Instr) (extra : Word) : Prop :=
        (ip.toNat ≤ 0xFFFF → Completes i s (DoneQuiet s
          (at_ (s.withEsp (moveSp s.stack32 s.regs.esp (BitVec.ofNat 32 (2 * n) + extra))) (cs.setWidth 16) ip))) ∧
        (0xFFFF < ip.toNat → Faults i s 13 (some 0) u)
      returns .retFar 0 ∧ ∀ imm : HWord, returns (.retFarImm imm) (imm.setWidth 32))

/-- Far JMP and CALL, direct and indirect, in Protected Mode to a present code segment of the current level, or a conforming one of an
inner level, its descriptor already accessed: CS takes the descriptor with RPL = CPL; a null selector and a violated check raise the
exceptions of the rules, for CALL no room on the stack first, then an offset beyond the limit (R503, R506, R507, R512). The model's own:
room is checked slot by slot with the wrap of Push (log entry 33, DEDUCED), and the memory forms (FarForms) read the selector at the offset
+ n in 32 bits, without the wrap at 2^16 (log entry 49, DESIGN CHOICE). -/
def Obligations.FarProtected : Prop :=
  ∀ (s : State) (off : Word) (sel : HWord) (jmp call : Instr) (u0 : State), s.protMode = true → FarForms s sel off jmp call u0 →
    let n := s.opWidth.bytes
    let o : Word := if s.op32 then off else off &&& 0xFFFF
    let code : HWord := sel &&& 0xFFFC
    let both (p : Instr → Prop) : Prop := p jmp ∧ p call
    let room := roomFor s.segs.ss true s.stack32 n 2 s.regs.esp
    (sel.toNat < 4 → both fun i => Faults i s 13 (some 0) u0) ∧
    (4 ≤ sel.toNat → descAddress s.tables sel = none → both fun i => Faults i s 13 (some code) u0) ∧
    (4 ≤ sel.toNat → ∀ (d : Desc) (u1 : State), fetchDesc sel u0 = .ok (some d, u1) → d.isCode = true →
      let allowed := if d.conforming then d.dpl.toNat ≤ s.cpl.toNat
        else (sel.extractLsb' 0 2).toNat ≤ s.cpl.toNat ∧ d.dpl = s.cpl
      (¬ allowed → both fun i => Faults i s 13 (some code) u1) ∧
      (allowed → d.present = false → both fun i => Faults i s 11 (some code) u1) ∧
      (allowed → d.present = true →
        (room = false → Faults call s 12 (some 0) u1) ∧
        (d.limit.toNat < o.toNat → Faults jmp s 13 (some 0) u1 ∧ (room = true → Faults call s 13 (some 0) u1)) ∧
        (o.toNat ≤ d.limit.toNat → d.d1.getLsbD 8 = true →
          let at_ (e : State) : State := (e.setSeg .cs (d.toSeg (sel.extractLsb' 2 14 ++ s.cpl))).withEip o
          Completes jmp s (DoneQuiet s (at_ s)) ∧
          ∃ w u2, selWord s.segs.cs.sel u1 = .ok (w, u2) ∧ w.setWidth 16 = s.segs.cs.sel ∧
            ∀ stores esp u, room = true → planStack n [w, s.eip] u2 = .ok ((stores, esp), u) → AllStorable s stores →
              Completes call s (DoneStores n stores s (at_ (s.withEsp esp)) u))))

/-- Far JMP and CALL through an 80386 call gate: the checks of the gate and of its code segment, in their order. To the same level CS:EIP
is the gate's, CALL pushes CS and EIP as doublewords. CALL to an inner level takes the stack of that level from the task state segment,
pushes the old SS and ESP, copies the parameters with their order kept, pushes CS and EIP, and CPL is that of the code segment
(R506, R508, R509; U5). The descriptors loaded are already marked accessed: no store marks them. The model's own: room is checked slot
by slot with the wrap of Push, and the order of the accesses (log entry 33, DEDUCED); the memory forms (FarForms) read the selector at
the offset + n in 32 bits, without the wrap at 2^16 (log entry 49, DESIGN CHOICE). -/
def Obligations.CallGates : Prop :=
  ∀ (s : State) (off : Word) (sel : HWord) (jmp call : Instr) (u0 : State) (g : Desc) (u1 : State), s.protMode = true →
    FarForms s sel off jmp call u0 → 4 ≤ sel.toNat → fetchDesc sel u0 = .ok (some g, u1) → g.isSystem 12 = true →
    let both (p : Instr → Prop) : Prop := p jmp ∧ p call
    let csel := g.gateSel
    let code : HWord := csel &&& 0xFFFC
    let visible := s.cpl.toNat ≤ g.dpl.toNat ∧ (sel.extractLsb' 0 2).toNat ≤ g.dpl.toNat
    (¬ visible → both fun i => Faults i s 13 (some (sel &&& 0xFFFC)) u1) ∧
    (visible → g.present = false → both fun i => Faults i s 11 (some (sel &&& 0xFFFC)) u1) ∧
    (visible → g.present = true → csel.toNat < 4 → both fun i => Faults i s 13 (some 0) u1) ∧
    (visible → g.present = true → 4 ≤ csel.toNat → descAddress s.tables csel = none → both fun i => Faults i s 13 (some code) u1) ∧
    (visible → g.present = true → 4 ≤ csel.toNat → ∀ (c : Desc) (u2 : State), fetchDesc csel u1 = .ok (some c, u2) →
      (¬ (c.isCode = true ∧ c.dpl.toNat ≤ s.cpl.toNat) → both fun i => Faults i s 13 (some code) u2) ∧
      (c.isCode = true ∧ c.dpl.toNat ≤ s.cpl.toNat →
        let same := c.conforming = true ∨ c.dpl = s.cpl
        (same → c.present = false → both fun i => Faults i s 11 (some code) u2) ∧
        (¬ same → Faults jmp s 13 (some code) u2 ∧ (c.present = false → Faults call s 11 (some code) u2)) ∧
        (same → c.present = true → c.d1.getLsbD 8 = true →
          let room := roomFor s.segs.ss true s.stack32 4 2 s.regs.esp
          let at_ (e : State) : State := (e.setSeg .cs (c.toSeg (csel.extractLsb' 2 14 ++ s.cpl))).withEip g.gateOff
          (room = false → Faults call s 12 (some 0) u2) ∧
          (c.limit.toNat < g.gateOff.toNat → Faults jmp s 13 (some 0) u2 ∧ (room = true → Faults call s 13 (some 0) u2)) ∧
          (g.gateOff.toNat ≤ c.limit.toNat → Completes jmp s (DoneQuiet s (at_ s)) ∧
            ∀ w u3 stores esp u, room = true → selWord s.segs.cs.sel u2 = .ok (w, u3) →
              planStack 4 [w, s.eip] u3 = .ok ((stores, esp), u) → AllStorable s stores →
              w.setWidth 16 = s.segs.cs.sel ∧ Completes call s (DoneStores 4 stores s (at_ (s.withEsp esp)) u))) ∧
        (¬ same → c.present = true → c.d1.getLsbD 8 = true → ∀ sp ss acc u3, innerStack c.dpl u2 = .ok ((sp, ss, acc), u3) →
          let start := newEsp ss.ar.db s.regs.esp sp
          let room := roomFor ss true ss.ar.db 4 (4 + g.gateCount) start
          (room = false → Faults call s 12 (some 0) u3) ∧
          (room = true → c.limit.toNat < g.gateOff.toNat → Faults call s 13 (some 0) u3) ∧
          (room = true → g.gateOff.toNat ≤ c.limit.toNat → acc = [] →
            ∀ oldSs u4 oldCs u5 link esp1 u6 params esp2 u7 ret esp3 u,
              selWord s.segs.ss.sel u3 = .ok (oldSs, u4) → selWord s.segs.cs.sel u4 = .ok (oldCs, u5) →
              planPushes ss ss.ar.db false ⟨12, some 0⟩ 4 start [oldSs, s.regs.esp] u5 = .ok ((link, esp1), u6) →
              planParams u2 ss g.gateCount esp1 u6 = .ok ((params, esp2), u7) →
              planPushes ss ss.ar.db false ⟨12, some 0⟩ 4 esp2 [oldCs, s.eip] u7 = .ok ((ret, esp3), u) →
              AllStorable s (link ++ ret) → (∀ p ∈ params, AllRam s (p.1 ++ p.2)) →
              oldSs.setWidth 16 = s.segs.ss.sel ∧ oldCs.setWidth 16 = s.segs.cs.sel ∧ Completes call s fun t =>
                Done s (((((s.setSeg .ss ss).withEsp esp3).withCpl c.dpl).setSeg .cs
                  (c.toSeg (csel.extractLsb' 2 14 ++ c.dpl))).withEip g.gateOff) t ∧ SameMemory s u ∧
                ∀ a, t.byteAt a = storedAll 4 ret a (copiedIn params (fun b => storedAll 4 link b (u.byteAt b)) a)))))

/-- The stack of an inner level from the task state segment, for a call gate and for an interrupt: its bytes beyond the limit raise
#TS(TR), a selector that names no writable data segment of that level #TS(SS), one not present #SS(SS) (R509, R137). RET far in Protected
Mode: the checks in their order, to an outer level the whole top of the stack, without wrap; to the same level CS:EIP come from the stack
and eSP moves over them and the parameters; to an outer level SS:eSP come from beyond the parameters, after eSP has moved over the return
address and the parameters, CPL is the RPL of CS, and data segment registers the level may not use are null (R515; log entries 33, 47; what
is `settled`: log entry 15; what these registers are tested for: log entry 60). -/
def Obligations.RetFarProtected : Prop :=
  (∀ (s : State) (n : BitVec 2),
    let tr := s.tables.tr
    (tr.limit.toNat < 9 + 8 * n.toNat → innerStack n s = .error (.exc ⟨10, some (tr.sel &&& 0xFFFC)⟩ s)) ∧
    (9 + 8 * n.toNat ≤ tr.limit.toNat → ∀ (sp : List Byte) u1 (lo hi : Byte) u2,
      sysRead (tr.base + BitVec.ofNat 32 (4 + 8 * n.toNat)) 4 s = .ok (sp, u1) →
      sysRead (tr.base + BitVec.ofNat 32 (8 + 8 * n.toNat)) 2 u1 = .ok ([lo, hi], u2) →
      let sel : HWord := hi ++ lo
      let code : HWord := sel &&& 0xFFFC
      (sel.toNat < 4 → innerStack n s = .error (.exc ⟨10, some 0⟩ u2)) ∧
      (4 ≤ sel.toNat → descAddress s.tables sel = none → innerStack n s = .error (.exc ⟨10, some code⟩ u2)) ∧
      (4 ≤ sel.toNat → ∀ d u, fetchDesc sel u2 = .ok (some d, u) →
        let good := sel.extractLsb' 0 2 = n ∧ d.dpl = n ∧ d.writableData = true
        (¬ good → innerStack n s = .error (.exc ⟨10, some code⟩ u)) ∧
        (good → d.present = false → innerStack n s = .error (.exc ⟨12, some code⟩ u)) ∧
        (good → d.present = true → d.d1.getLsbD 8 = true → innerStack n s = .ok ((wordOf sp, d.toSeg sel, []), u))))) ∧
  (∀ (s : State) (csWord : Word) (u1 : State) (i : Instr) (extra : Word), s.protMode = true →
    (i = .retFar ∧ extra = 0) ∨ (∃ imm : HWord, i = .retFarImm imm ∧ extra = imm.setWidth 32) →
    let n := s.opWidth.bytes
    let x := extra.toNat
    stackRead n n s = .ok (csWord, u1) →
    let sel : HWord := csWord.setWidth 16
    let rpl := sel.extractLsb' 0 2
    let code : HWord := sel &&& 0xFFFC
    let good (d : Desc) : Prop := d.isCode = true ∧ (if d.conforming then d.dpl.toNat ≤ rpl.toNat else d.dpl = rpl)
    let popped := moveSp s.stack32 s.regs.esp (BitVec.ofNat 32 (2 * n) + extra)
    (rpl.toNat < s.cpl.toNat → Faults i s 13 (some code) u1) ∧
    (s.cpl.toNat < rpl.toNat → (∀ u, stackBlock (4 * n + x) u1 = .error (.exc ⟨12, some 0⟩ u) → Faults i s 12 (some 0) u) ∧
      (s.stackFallsShort (4 * n + x) → Faults i s 12 (some 0) u1)) ∧
    (s.cpl.toNat ≤ rpl.toNat → (rpl = s.cpl ∨ stackBlock (4 * n + x) u1 = .ok ((), u1)) →
      (sel.toNat < 4 → Faults i s 13 (some 0) u1) ∧
      (4 ≤ sel.toNat → descAddress s.tables sel = none → Faults i s 13 (some code) u1) ∧
      (4 ≤ sel.toNat → ∀ (d : Desc) (u2 : State), fetchDesc sel u1 = .ok (some d, u2) →
        (¬ good d → Faults i s 13 (some code) u2) ∧
        (good d → d.present = false → Faults i s 11 (some code) u2) ∧
        (good d → d.present = true → rpl = s.cpl → ∀ ip u, stackRead 0 n u2 = .ok (ip, u) →
          (d.limit.toNat < ip.toNat → Faults i s 13 (some 0) u) ∧
          (ip.toNat ≤ d.limit.toNat → d.d1.getLsbD 8 = true → Completes i s (DoneQuiet s
            (((s.withEsp popped).setSeg .cs (d.toSeg sel)).withEip ip)))) ∧
        (good d → d.present = true → s.cpl.toNat < rpl.toNat → ∀ ssWord u3, stackRead (3 * n + x) n u2 = .ok (ssWord, u3) →
          let ssel : HWord := ssWord.setWidth 16
          let scode : HWord := ssel &&& 0xFFFC
          (ssel.toNat < 4 → Faults i s 13 (some 0) u3) ∧
          (4 ≤ ssel.toNat → descAddress s.tables ssel = none → Faults i s 13 (some scode) u3) ∧
          (4 ≤ ssel.toNat → ∀ (sd : Desc) (u4 : State), fetchDesc ssel u3 = .ok (some sd, u4) →
            let fine := ssel.extractLsb' 0 2 = rpl ∧ sd.writableData = true ∧ sd.dpl = rpl
            (¬ fine → Faults i s 13 (some scode) u4) ∧ (fine → sd.present = false → Faults i s 12 (some scode) u4) ∧
            (fine → sd.present = true → ∀ ip u5 esp u, stackRead 0 n u4 = .ok (ip, u5) →
              stackRead (2 * n + x) n u5 = .ok (esp, u) →
              (d.limit.toNat < ip.toNat → Faults i s 13 (some 0) u) ∧
              (ip.toNat ≤ d.limit.toNat → d.d1.getLsbD 8 = true → sd.d1.getLsbD 8 = true →
                Completes i s (DoneQuiet s (((((s.withCpl rpl).withSegs
                  (s.segs.afterReturn s.tables rpl (d.toSeg sel) (sd.toSeg ssel))).withEip ip).withEsp
                  (moveSp (sd.d1.getLsbD 22) (newEsp s.op32 popped esp) extra)).settled)))))))))

/-- ENTER of level 0 pushes eBP, copies eSP to eBP and lowers eSP by its first operand; of a higher level (modulo 32) it also copies
the outer frame pointers and pushes its own; LEAVE undoes it (R540, R541; what is pushed and the width of eBP: log entry 34). -/
def Obligations.EnterLeave : Prop :=
  ∀ s : State,
    let n := s.opWidth.bytes
    let part (old new : Word) : Word := if s.stack32 then new else old.extractLsb' 16 16 ++ new.extractLsb' 0 16
    let push (esp : Word) := planPush s.segs.ss s.stack32 s.userLevel ⟨12, some 0⟩ esp n
    let framed (size : HWord) (frame last : Word) : State := s.withRegs { s.regs with
      ebp := part s.regs.ebp frame, esp := moveSp s.stack32 last (-(size.setWidth 32)) }
    (∀ size (level : Byte) wr esp u, level.toNat % 32 = 0 → push s.regs.esp s = .ok ((wr, esp), u) → Storable s wr →
      Completes (.enter size level) s (DoneStored wr (bytesOf n s.regs.ebp) s (framed size esp esp) u)) ∧
    (∀ size (level : Byte) wr esp u1 display last u2 link final u, 1 ≤ level.toNat % 32 →
      push s.regs.esp s = .ok ((wr, esp), u1) →
      planDisplay n (level.toNat % 32 - 1) s.regs.ebp esp u1 = .ok ((display, last), u2) →
      push last u2 = .ok ((link, final), u) → Storable s (wr ++ link) → (∀ p ∈ display, AllRam s (p.1 ++ p.2)) →
      Completes (.enter size level) s fun t => Done s (framed size esp final) t ∧ SameMemory s u ∧
        ∀ a, t.byteAt a =
          storedIn link (bytesOf n esp) (copiedIn display (storedIn wr (bytesOf n s.regs.ebp) u.byteAt)) a) ∧
    (∀ (v : Word) u,
      let s1 := s.withEsp (part s.regs.esp s.regs.ebp)
      stackRead 0 n s1 = .ok (v, u) →
      Completes .leave s (DoneQuiet s ((s1.withEsp (moveSp s.stack32 s1.regs.esp (BitVec.ofNat 32 n))).setReg s.opWidth .bp
        (v.setWidth s.opWidth.bits))))

/-! ## Interrupts (47_interrupt.md) -/

/-- INT n, INT 3 and INTO are software interrupts that save the address of the next instruction; in Real Address Mode FLAGS, CS and
IP are pushed, IF, TF and RF cleared, CS:IP loaded from the vector's entry. INTO with OF = 0 goes on; BOUND raises #BR outside the
two signed bounds and goes on within them (R570 to R573, R721; RF: log entry 32; limit and rights of CS: log entry 16; the mode of the entry:
log entry 15). That BOUND reads its upper bound at the offset + n in 32 bits, without the wrap at 2^16, is the model's choice: log entry 49
(DESIGN CHOICE). -/
def Obligations.SoftwareInterrupts : Prop :=
  ∀ s : State,
    let interrupts (i : Instr) (v : Byte) : Prop :=
      exec i s = deliver chainLength { vector := v, kind := .software, code := none, ret := s.eip, faultRet := s.fetch.start,
                                       rf := false, cs := none } s ∧
      ∀ entry stores esp u, RealDelivery s v s.segs.cs.sel s.eip entry stores esp u →
        Completes i s fun t => Entered (realHandler s entry esp false) t ∧ StoresMade 2 stores s u t
    (∀ v, (s.v86Mode = true → s.flags.iopl = 3) → interrupts (.int v) v) ∧ interrupts .int3 3 ∧
    (s.flags.of = true → interrupts .into 4) ∧ (s.flags.of = false → Completes .into s (DoneQuiet s s)) ∧
    (∀ reg m sr off (lo hi : BitVec s.opWidth.bits) u1 u2 u, addressOf m s = .ok ((sr, off), u1) →
      readAt s.opWidth sr off u1 = .ok (lo, u2) →
      readAt s.opWidth sr (off + BitVec.ofNat 32 s.opWidth.bytes) u2 = .ok (hi, u) →
      let x := (s.reg s.opWidth reg).toInt
      (lo.toInt ≤ x ∧ x ≤ hi.toInt → Completes (.bound reg m) s (DoneQuiet s s)) ∧
      (x < lo.toInt ∨ hi.toInt < x → Faults (.bound reg m) s 5 none u))

/-- IRET in Real Address Mode, in Virtual 8086 Mode with IOPL 3, and in Protected Mode to the same level: EIP, CS and the flags the
level may write come from the stack, NMI is no longer held off; a frame that the limit of SS cuts off, as one block, raises #SS(0)
(R578, R112, R727; log entries 16, 33). -/
def Obligations.InterruptReturn : Prop :=
  (∀ s : State, s.realMode = true ∨ (s.v86Mode = true ∧ s.flags.iopl = 3) ∨ (s.protMode = true ∧ s.flags.nt = false) →
    s.stackFallsShort (3 * s.opWidth.bytes) → Faults .iret s 12 (some 0) s) ∧
  ∀ (s : State) ip cs fl u1 u2 u,
    let n := s.opWidth.bytes
    let s0 := s.withPins { s.pins with nmiBlocked := false }
    stackBlock (3 * n) s0 = .ok ((), s0) → stackRead 0 n s0 = .ok (ip, u1) → stackRead n n u1 = .ok (cs, u2) →
    stackRead (2 * n) n u2 = .ok (fl, u) →
    let w := Flags.ofWord fl
    let f : Flags := { w with
      intf := if s.cpl.toNat ≤ s.flags.iopl.toNat then w.intf else s.flags.intf
      iopl := if s.cpl = 0 then w.iopl else s.flags.iopl
      rf := if s.op32 then w.rf else s.flags.rf
      vm := s.flags.vm }
    let sel : HWord := cs.setWidth 16
    let back (g : SegReg) : State := ((((s0.withEsp (moveSp s.stack32 s.regs.esp (BitVec.ofNat 32 (3 * n)))).setSeg .cs g).withEip
      ip).withFlags f).withHeld none
    (s.realMode = true ∨ (s.v86Mode = true ∧ s.flags.iopl = 3) → ip.toNat ≤ 0xFFFF → Completes .iret s fun t =>
      Ends s (back (s.realSeg .cs sel)) t ∧ SameMemory s t) ∧
    (s.protMode = true ∧ s.flags.nt = false → ¬ (s.op32 = true ∧ w.vm = true ∧ s.cpl = 0) → 4 ≤ sel.toNat →
      sel.extractLsb' 0 2 = s.cpl → ∀ (d : Desc) (u3 : State), fetchDesc sel u = .ok (some d, u3) → d.isCode = true →
      (if d.conforming then d.dpl.toNat ≤ s.cpl.toNat else d.dpl = s.cpl) → d.present = true → d.d1.getLsbD 8 = true →
      ip.toNat ≤ d.limit.toNat → Completes .iret s fun t => Ends s (back (d.toSeg sel)) t ∧ SameMemory s t)

/-- IRET in Protected Mode to an outer level: CS:EIP, SS:eSP and the flags that the level of the IRET may write come from the stack, CPL is
the RPL of CS, data segment registers the new level may not use are null. A 32-bit IRET at CPL 0 with VM in the image returns to Virtual
8086 Mode: EFLAGS whole, CPL 3, ESP and all six segment registers from the stack. The five slots, and the 36 bytes, are checked as one
block each (R578, R515, R112; log entries 16, 33, 47; what is `settled`: log entry 15; what the data segment registers are
tested for: log entry 60). -/
def Obligations.InterruptReturnOuter : Prop :=
  ∀ (s : State) ip csWord fl u1 u2 u3, s.protMode = true → s.flags.nt = false →
    let n := s.opWidth.bytes
    let s0 := s.withPins { s.pins with nmiBlocked := false }
    stackBlock (3 * n) s0 = .ok ((), s0) → stackRead 0 n s0 = .ok (ip, u1) → stackRead n n u1 = .ok (csWord, u2) →
    stackRead (2 * n) n u2 = .ok (fl, u3) →
    let w := Flags.ofWord fl
    let cs : HWord := csWord.setWidth 16
    let rpl := cs.extractLsb' 0 2
    let toV86 := s.op32 = true ∧ w.vm = true ∧ s.cpl = 0
    (toV86 → s.stackFallsShort 36 → Faults .iret s 12 (some 0) u3) ∧
    (toV86 → stackBlock 36 u3 = .ok ((), u3) →
      (0xFFFF < ip.toNat → Faults .iret s 13 (some 0) u3) ∧
      (ip.toNat ≤ 0xFFFF → ∀ esp ss es ds fs gs u4 u5 u6 u7 u8 u, stackRead 12 4 u3 = .ok (esp, u4) →
        stackRead 16 4 u4 = .ok (ss, u5) → stackRead 20 4 u5 = .ok (es, u6) → stackRead 24 4 u6 = .ok (ds, u7) →
        stackRead 28 4 u7 = .ok (fs, u8) → stackRead 32 4 u8 = .ok (gs, u) →
        let real (code : Bool) (x : Word) : SegReg :=
          { sel := x.setWidth 16, base := (x.setWidth 16 : HWord).setWidth 32 * 16, limit := 0xFFFF,
            ar := { Rights.reset code with dpl := 3 }, valid := true }
        Completes .iret s fun t => Ends s (((((((s0.withFlags w).withCpl 3).withSegs
          { es := real false es, cs := real true csWord, ss := real false ss, ds := real false ds, fs := real false fs,
            gs := real false gs }).withEip ip).withEsp esp).settled).withHeld none) t ∧ SameMemory s t)) ∧
    (¬ toV86 → s.cpl.toNat < rpl.toNat → 4 ≤ cs.toNat → ∀ (d : Desc) (u4 : State), fetchDesc cs u3 = .ok (some d, u4) →
      d.isCode = true → (if d.conforming then d.dpl.toNat ≤ rpl.toNat else d.dpl = rpl) → d.present = true →
      (s.stackFallsShort (5 * n) → Faults .iret s 12 (some 0) u4) ∧ (stackBlock (5 * n) u4 = .ok ((), u4) →
      ∀ esp u5 ssWord u6, stackRead (3 * n) n u4 = .ok (esp, u5) → stackRead (4 * n) n u5 = .ok (ssWord, u6) →
      let ss : HWord := ssWord.setWidth 16
      let code : HWord := ss &&& 0xFFFC
      (ss.toNat < 4 → Faults .iret s 13 (some 0) u6) ∧
      (4 ≤ ss.toNat → ∀ (sd : Desc) (u : State), fetchDesc ss u6 = .ok (some sd, u) →
        let fine := ss.extractLsb' 0 2 = rpl ∧ sd.writableData = true ∧ sd.dpl = rpl
        (¬ fine → Faults .iret s 13 (some code) u) ∧ (fine → sd.present = false → Faults .iret s 12 (some code) u) ∧
        (fine → sd.present = true → d.limit.toNat < ip.toNat → Faults .iret s 13 (some 0) u) ∧
        (fine → sd.present = true → ip.toNat ≤ d.limit.toNat → d.d1.getLsbD 8 = true → sd.d1.getLsbD 8 = true →
          let f : Flags := { w with
            intf := if s.cpl.toNat ≤ s.flags.iopl.toNat then w.intf else s.flags.intf
            iopl := if s.cpl = 0 then w.iopl else s.flags.iopl
            rf := if s.op32 then w.rf else s.flags.rf
            vm := s.flags.vm }
          Completes .iret s fun t => Ends s (((((((s0.withCpl rpl).withSegs
            (s.segs.afterReturn s.tables rpl (d.toSeg cs) (sd.toSeg ss))).withEip ip).withFlags f).withEsp
            (newEsp s.op32 s.regs.esp esp)).settled).withHeld none) t ∧ SameMemory s t))))

/-! ## Processor control (48_processor_control.md) -/

/-- The moves to and from CR0, CR2 and CR3 at CPL 0, all status flags free: reserved bits read as free values (U12), CR3 takes bits 31:12
and empties the TLB, and PG set with PE clear is declined, for the spec gives it no effect (R601, R44, R46, R47; U4, U13). The moves to
and from the debug and test registers at CPL 0, all status flags free; with GD set a debug register move raises the debug exception with BD
told in DR6, and perhaps breakpoints that matched without being enabled (R602, R603, R52 to R57, R754, R755; U4, U12).
That a MOV to CR0, CR3, DR6 or DR7 with a nonzero reserved bit completes and drops the bit is the model's choice (log entry 12, DESIGN CHOICE), where U12 has such a write refused; a held debug trap
is not reported with BD: log entry 11; which breakpoints may be told: log entry 63. -/
def Obligations.SpecialRegisters : Prop :=
  (∀ (s : State) (reg : Gpr), s.cpl = 0 →
     let v := s.reg .d reg
     (Completes (.movRCr reg .cr0) s fun t => ∃ x : Word, DoneFreeFlags s (s.setReg .d reg x) t ∧ x.getLsbD 0 = s.cr0.pe ∧
       x.getLsbD 1 = s.cr0.mp ∧ x.getLsbD 2 = s.cr0.em ∧ x.getLsbD 3 = s.cr0.ts ∧ x.getLsbD 4 = s.cr0.et ∧
       x.getLsbD 31 = s.cr0.pg) ∧
     Completes (.movRCr reg .cr2) s (DoneFreeFlags s (s.setReg .d reg s.cr2)) ∧
     (Completes (.movRCr reg .cr3) s fun t => ∃ low : BitVec 12, DoneFreeFlags s (s.setReg .d reg (s.cr3 ++ low)) t) ∧
     (¬ (v.getLsbD 31 = true ∧ v.getLsbD 0 = false) → Completes (.movCrR .cr0 reg) s (DoneFreeFlags s (s.withCr0
       { pe := v.getLsbD 0, mp := v.getLsbD 1, em := v.getLsbD 2, ts := v.getLsbD 3, et := v.getLsbD 4,
         pg := v.getLsbD 31 }))) ∧
     (v.getLsbD 31 = true ∧ v.getLsbD 0 = false → exec (.movCrR .cr0 reg) s = .refused .pagingWithoutProtection) ∧
     Completes (.movCrR .cr2 reg) s (DoneFreeFlags s (s.withCr2 v)) ∧
     (Completes (.movCrR .cr3 reg) s fun t => DoneFreeFlags s (s.withCr3 (v.extractLsb' 12 20)) t ∧ t.tlb = [])) ∧
  (∀ (s : State) (reg : Gpr), s.cpl = 0 →
     let v := s.reg .d reg
     let d := s.dregs
     (d.dr7.gd = false →
       (let reads (dr : DrReg) (x : Word) : Prop := Completes (.movRDr reg dr) s (DoneFreeFlags s (s.setReg .d reg x))
        reads .dr0 d.dr0 ∧ reads .dr1 d.dr1 ∧ reads .dr2 d.dr2 ∧ reads .dr3 d.dr3) ∧
       (Completes (.movRDr reg .dr6) s fun t => ∃ x : Word, DoneFreeFlags s (s.setReg .d reg x) t ∧
         x.extractLsb' 0 4 = d.dr6.b ∧ x.getLsbD 13 = d.dr6.bd ∧ x.getLsbD 14 = d.dr6.bs ∧ x.getLsbD 15 = d.dr6.bt) ∧
       (Completes (.movRDr reg .dr7) s fun t => ∃ x : Word, DoneFreeFlags s (s.setReg .d reg x) t ∧
         x.extractLsb' 0 8 = d.dr7.enables ∧ x.getLsbD 8 = d.dr7.le ∧ x.getLsbD 9 = d.dr7.ge ∧ x.getLsbD 13 = false ∧
         x.extractLsb' 16 16 = d.dr7.ctl) ∧
       (let writes (dr : DrReg) (d' : Debug) : Prop := Completes (.movDrR dr reg) s (DoneFreeFlags s (s.withDebug d'))
        writes .dr0 { d with dr0 := v } ∧ writes .dr1 { d with dr1 := v } ∧ writes .dr2 { d with dr2 := v } ∧
        writes .dr3 { d with dr3 := v } ∧
        writes .dr6 { d with dr6 :=
          { b := v.extractLsb' 0 4, bd := v.getLsbD 13, bs := v.getLsbD 14, bt := v.getLsbD 15 } } ∧
        writes .dr7 { d with dr7 :=
          { enables := v.extractLsb' 0 8, le := v.getLsbD 8, ge := v.getLsbD 9, gd := v.getLsbD 13,
            ctl := v.extractLsb' 16 16 } })) ∧
     (d.dr7.gd = true → ∀ dr i, i = .movRDr reg dr ∨ i = .movDrR dr reg →
       ∃ (near : BitVec 4) (n : Nat), near &&& s.pend.near = near ∧
         Faults i s 1 none ((s.withDebug { d with dr6 := { d.dr6 with b := d.dr6.b ||| near, bd := true } }).withDraws n)) ∧
     Completes (.movRTr reg .tr6) s (DoneFreeFlags s (s.setReg .d reg s.test.tr6)) ∧
     Completes (.movRTr reg .tr7) s (DoneFreeFlags s (s.setReg .d reg s.test.tr7)) ∧
     Completes (.movTrR .tr6 reg) s (DoneFreeFlags s (s.withTest { s.test with tr6 := v })) ∧
     Completes (.movTrR .tr7 reg) s (DoneFreeFlags s (s.withTest { s.test with tr7 := v })))

/-- HLT stops the processor at CPL 0. WAIT goes on when a coprocessor is neither busy nor in error or there is none, waits while it
is busy, raises #MF on an error and #NM with MP and TS. ESC raises #NM with EM or TS, stops with no coprocessor, raises #MF on an error
but for the control forms, checks the first byte or bytes of a memory operand, raises vector 9 for a later part outside the segment, and
else leaves to the coprocessor its memory operand, AX for DF E0, BUSY# and ERROR# (R600, R611, R612, R711; U20, log entry 23). -/
def Obligations.HltWaitEsc : Prop :=
  ∀ s : State,
    let present := s.params.coproc ≠ .none
    (s.cpl = 0 → Completes .hlt s (DoneQuiet s (s.withActivity .halted))) ∧
    (s.cr0.ts = true ∧ s.cr0.mp = true → Faults .wait s 7 none s) ∧
    (¬ (s.cr0.ts = true ∧ s.cr0.mp = true) →
      (¬ (present ∧ s.pins.busy = true) → ¬ (present ∧ s.pins.error = true) → Completes .wait s (DoneQuiet s s)) ∧
      (¬ (present ∧ s.pins.busy = true) → present ∧ s.pins.error = true → Faults .wait s 16 none s) ∧
      (present ∧ s.pins.busy = true → exec .wait s = .next (((s.withEip s.fetch.start).withPfx Prefixes.empty).inOwnMode))) ∧
    ∀ (ttt lll : BitVec 3) (rm : Rm),
      let i := Instr.esc ttt lll rm
      (s.cr0.em = true ∨ s.cr0.ts = true → Faults i s 7 none s) ∧
      (s.cr0.em = false ∧ s.cr0.ts = false →
        (¬ present → exec i s = .fault .noCoprocessor) ∧
        (present →
          let runs := s.pins.error = false ∨ Config.escNoWait ttt lll (escByte lll rm) = true
          let e (busy error : Bool) : State := s.withPins { s.pins with busy := busy, error := error }
          (¬ runs → Faults i s 16 none s) ∧
          (runs → ∀ r, rm = .reg r → Completes i s fun t => ∃ busy error, ∃ x : HWord, DoneQuiet s
            (if ttt = 7 ∧ lll = 4 ∧ r = .ax then (e busy error).setReg .w .ax x else e busy error) t) ∧
          (runs → ∀ m sr off u1, rm = .mem m → addressOf m s = .ok ((sr, off), u1) →
            let operand := Config.escOperand ttt lll (BitVec.ofBool s.op32 ++ BitVec.ofBool s.protMode)
            let n := operand.1 % 128
            let first := (s.seg sr).legal s.protMode off (max 1 (min n 2)) operand.2
            let all := (s.seg sr).legal s.protMode off n operand.2
            (first = false → Faults i s (if sr = .ss then 12 else 13) (some 0) u1) ∧
            (first = true → n ≠ 0 → all = false → exec i s = take
              { vector := 9, kind := .exception, code := none, ret := s.eip, faultRet := s.eip, rf := false, cs := none }
              (s.abandon u1)) ∧
            (first = true → n = 0 → Completes i s fun t => ∃ busy error, DoneQuiet s (e busy error) t) ∧
            (first = true → n ≠ 0 → all = true → ∀ ps u,
              planLinear ((s.seg sr).base + off) n operand.2 s.userLevel u1 = .ok (ps, u) →
              (operand.2 = false → AllRam s ps → Completes i s fun t => ∃ busy error, DoneQuiet s (e busy error) t) ∧
              (operand.2 = true → Storable s ps → Completes i s fun t => ∃ busy error bs, bs.length = n ∧
                DoneStored ps bs s (e busy error) u t)))))

/-! ## Protection control (49_protection_control.md) -/

/-- ARPL, LAR, LSL, VERR and VERW in Protected Mode: ZF tells whether the selector was raised, or names a descriptor the rule accepts
and the level may see; only then the destination is written; none of them raises an exception for the selector
(R641 to R643, R652; log entry 38). -/
def Obligations.SelectorChecks : Prop :=
  ∀ (s : State) (rm : Rm), s.protMode = true →
    let zf (b : Bool) : State := s.withFlags { s.flags with zf := b }
    (∀ reg x (v : HWord) u0 u1, targetRm rm s = .ok (x, u0) → inspect .w x u0 = .ok (v, u1) →
      let rpl := s.reg .w reg &&& 3
      ((v &&& 3).toNat < rpl.toNat → ∀ p u, placeOf .w x u1 = .ok (p, u) → p.ready s →
        Completes (.arpl reg rm) s (DonePlace .w p (v &&& 0xFFFC ||| rpl) s (zf true) u)) ∧
      (rpl.toNat ≤ (v &&& 3).toNat → Completes (.arpl reg rm) s (DoneQuiet s (zf false)))) ∧
    (∀ (sel : HWord) u0, readRm .w rm s = .ok (sel, u0) →
      let fails : Prop := ∀ i, (∃ reg, i = .lar reg rm) ∨ (∃ reg, i = .lsl reg rm) ∨ i = .verr rm ∨ i = .verw rm →
        Completes i s (DoneQuiet s (zf false))
      (sel.toNat < 4 → fails) ∧ (4 ≤ sel.toNat → descAddress s.tables sel = none → fails) ∧
      (4 ≤ sel.toNat → ∀ (d : Desc) (u : State), fetchDesc sel u0 = .ok (some d, u) →
        let rpl := sel.extractLsb' 0 2
        let sees := d.conforming = true ∨ (s.cpl.toNat ≤ d.dpl.toNat ∧ rpl.toNat ≤ d.dpl.toNat)
        let lar := sees ∧ (d.s = true ∨ d.typ ∈ [1, 2, 3, 4, 5, 9, 11, 12])
        let lsl := sees ∧ (d.s = true ∨ d.typ ∈ [1, 2, 3, 9, 11])
        let verr := sees ∧ (d.isData = true ∨ d.readableCode = true)
        let verw := sees ∧ d.writableData = true
        let loads (i : Instr) (ok : Prop) (reg : Gpr) (x : Word) : Prop :=
          (ok → Completes i s (DoneQuiet s ((zf true).setReg s.opWidth reg (x.setWidth s.opWidth.bits)))) ∧
          (¬ ok → Completes i s (DoneQuiet s (zf false)))
        let tells (i : Instr) (ok : Prop) : Prop :=
          (ok → Completes i s (DoneQuiet s (zf true))) ∧ (¬ ok → Completes i s (DoneQuiet s (zf false)))
        (∀ reg, loads (.lar reg rm) lar reg (d.d1 &&& 0x00F0FF00) ∧ loads (.lsl reg rm) lsl reg d.limit) ∧
        tells (.verr rm) verr ∧ tells (.verw rm) verw))

/-- LLDT, LTR, LGDT, LIDT, LMSW where CPL and mode allow them, SGDT and SIDT everywhere: the table registers, and the busy bit that LTR
sets in memory; a selector in the LDT, beyond the GDT's limit or of a wrong type raises #GP, an 80286 task state segment is declined
(D18), a descriptor not present #NP; LMSW sets PE and never clears it (R644 to R648, R657; U6). That LTR writes byte 5 of the descriptor
alone is the model's choice: log entry 61. -/
def Obligations.TableRegisters : Prop :=
  ∀ s : State,
    let put (t : Tables) : State := s.withTables t
    (∀ m sr off u1 ps u, addressOf m s = .ok ((sr, off), u1) → plan sr off 6 true u1 = .ok (ps, u) → Storable s ps →
      let stores (i : Instr) (t : TableReg) : Prop := Completes i s fun x => ∃ last : Byte,
        DoneStored ps (bytesOf 2 (t.limit.setWidth 32) ++ (if s.op32 then bytesOf 4 t.base else bytesOf 3 t.base ++ [last]))
          s s u x
      stores (.sgdt m) s.tables.gdtr ∧ stores (.sidt m) s.tables.idtr) ∧
    (s.cpl = 0 →
      (∀ m sr off u1 (b0 b1 b2 b3 b4 b5 : Byte) u, addressOf m s = .ok ((sr, off), u1) →
        memRead sr off 6 u1 = .ok ([b0, b1, b2, b3, b4, b5], u) →
        let t : TableReg := { limit := b1 ++ b0, base := (if s.op32 then b5 else 0) ++ b4 ++ b3 ++ b2 }
        Completes (.lgdt m) s (DoneQuiet s (put { s.tables with gdtr := t })) ∧
        Completes (.lidt m) s (DoneQuiet s (put { s.tables with idtr := t }))) ∧
      (∀ rm (v : HWord) u, readRm .w rm s = .ok (v, u) → Completes (.lmsw rm) s (DoneQuiet s (s.withCr0
        { s.cr0 with pe := s.cr0.pe || v.getLsbD 0, mp := v.getLsbD 1, em := v.getLsbD 2, ts := v.getLsbD 3 })))) ∧
    (s.cpl = 0 ∧ s.protMode = true → ∀ rm (sel : HWord) u0, readRm .w rm s = .ok (sel, u0) →
      (sel.toNat < 4 → Completes (.lldt rm) s
        (DoneQuiet s (put { s.tables with ldtr := { s.tables.ldtr with sel := sel, valid := false } })) ∧
        Faults (.ltr rm) s 13 (some 0) u0) ∧
      (4 ≤ sel.toNat → sel.getLsbD 2 = true →
        Faults (.lldt rm) s 13 (some (sel &&& 0xFFFC)) u0 ∧ Faults (.ltr rm) s 13 (some (sel &&& 0xFFFC)) u0) ∧
      (4 ≤ sel.toNat → sel.getLsbD 2 = false → descAddress s.tables sel = none →
        Faults (.lldt rm) s 13 (some (sel &&& 0xFFFC)) u0 ∧ Faults (.ltr rm) s 13 (some (sel &&& 0xFFFC)) u0) ∧
      (4 ≤ sel.toNat → sel.getLsbD 2 = false → ∀ (d : Desc) (u1 : State), fetchDesc sel u0 = .ok (some d, u1) →
        (d.isSystem 2 = false → Faults (.lldt rm) s 13 (some (sel &&& 0xFFFC)) u1) ∧
        (d.isSystem 2 = true → d.present = false → Faults (.lldt rm) s 11 (some (sel &&& 0xFFFC)) u1) ∧
        (d.isSystem 2 = true → d.present = true → Completes (.lldt rm) s
          (DoneQuiet s (put { s.tables with ldtr := { sel := sel, base := d.base, limit := d.limit, valid := true } }))) ∧
        (d.isSystem 1 = false → d.isSystem 9 = false → Faults (.ltr rm) s 13 (some (sel &&& 0xFFFC)) u1) ∧
        (d.isSystem 1 = true → exec (.ltr rm) s = .refused .format286) ∧
        (d.isSystem 9 = true → d.present = false → Faults (.ltr rm) s 11 (some (sel &&& 0xFFFC)) u1) ∧
        (d.isSystem 9 = true → d.present = true → ∀ p u, planBusy d.addr u1 = .ok ([p], u) → Storable s [p] →
          Completes (.ltr rm) s (DoneStored [p] [u.byteAt p ||| 2] s
            (put { s.tables with tr := { sel := sel, base := d.base, limit := d.limit, typ := 11 } }) u))))

/-- What a level or a mode may not do is trapped before anything changes: #GP(0) for the CPL 0 instructions, for CLI and STI with
CPL > IOPL, for PUSHF, POPF, INT n and IRET in Virtual 8086 Mode with IOPL < 3; #UD outside Protected Mode
(R43, R302, R305 to R307, R311, R312, R570, R578, R600 to R603, R640, R644 to R647, R657). -/
def Obligations.PrivilegeTraps : Prop :=
  ∀ s : State,
    (s.cpl ≠ 0 → ∀ i, (i = .hlt ∨ i = .clts ∨ (∃ m, i = .lgdt m ∨ i = .lidt m) ∨ (∃ rm, i = .lmsw rm) ∨
        (∃ reg cr, i = .movRCr reg cr ∨ i = .movCrR cr reg) ∨ (∃ reg dr, i = .movRDr reg dr ∨ i = .movDrR dr reg) ∨
        (∃ reg tr, i = .movRTr reg tr ∨ i = .movTrR tr reg) ∨
        (s.protMode = true ∧ ∃ rm, i = .lldt rm ∨ i = .ltr rm)) → Faults i s 13 (some 0) s) ∧
    (s.realMode = false → s.flags.iopl.toNat < s.cpl.toNat → Faults .cli s 13 (some 0) s ∧ Faults .sti s 13 (some 0) s) ∧
    (s.v86Mode = true → s.flags.iopl ≠ 3 → Faults .pushf s 13 (some 0) s ∧ Faults .popf s 13 (some 0) s ∧
      (∀ v, Faults (.int v) s 13 (some 0) s) ∧ Faults .iret s 13 (some 0) s) ∧
    (s.protMode = false → ∀ i, (∃ rm, i = .lldt rm ∨ i = .ltr rm ∨ i = .sldt rm ∨ i = .str rm ∨ i = .verr rm ∨ i = .verw rm) ∨
      (∃ reg rm, i = .arpl reg rm ∨ i = .lar reg rm ∨ i = .lsl reg rm) → Faults i s 6 none s)

/-! ## Taking an exception or interrupt (60_exceptions.md) -/

/-- Taking an event in Real Address Mode: FLAGS, CS and the saved IP are pushed as words, IF and TF cleared, CS:IP loaded from the
vector's entry; entry to the debug exception's handler clears GD (R721, R754, R755; RF: log entry 32; that INT 1 and INTR leave
GD: log entry 55; limit and rights of CS stay, D8: log entry 16). -/
def Obligations.ExceptionEntryReal : Prop :=
  ∀ (s : State) (ev : Event) entry stores esp u,
    RealDelivery s ev.vector (ev.cs.getD s.segs.cs.sel) ev.ret entry stores esp u →
    let h := realHandler s entry esp (s.flags.rf && ev.kind != .software)
    ∃ t, take ev s = .next t ∧ StoresMade 2 stores s u t ∧ Entered
      (if ev.vector = 1 ∧ ev.kind = .exception then h.withDebug { s.dregs with dr7 := { s.dregs.dr7 with gd := false } } else h) t

/-- Taking an event in Protected Mode through an interrupt or trap gate to the same level, the descriptor of the code segment
already accessed: EFLAGS, CS, EIP and the error code are pushed as doublewords, TF, NT, VM and RF cleared, IF too through an interrupt
gate, CS:EIP taken from the gate; the gate's DPL matters to software interrupts only (R722, R754, R755). The model's own: the room for
the frame is checked slot by slot with the wrap of Push (log entry 33, DEDUCED), and GD is cleared for the debug exception alone (log
entry 55, DESIGN CHOICE). -/
def Obligations.ExceptionEntryProtected : Prop :=
  ∀ (s : State) (ev : Event) bs u1 c u2 frame u3 stores esp u, s.fetch.oldMode = false → s.protMode = true →
    let la := s.tables.idtr.base + BitVec.ofNat 32 (ev.vector.toNat * 8)
    let g := Desc.ofBytes la bs
    ev.vector.toNat * 8 + 7 ≤ s.tables.idtr.limit.toNat → sysRead la 8 s = .ok (bs, u1) →
    g.s = false ∧ (g.typ = 14 ∨ g.typ = 15) ∧ (ev.kind = .software → s.cpl.toNat ≤ g.dpl.toNat) ∧ g.present = true →
    4 ≤ g.gateSel.toNat → fetchDesc g.gateSel u1 = .ok (some c, u2) → c.isCode = true ∧ c.present = true ∧
      (c.dpl = s.cpl ∨ (c.conforming = true ∧ c.dpl.toNat < s.cpl.toNat)) → c.d1.getLsbD 8 = true →
    frameTail u2 ev u2 = .ok (frame, u3) → roomFor s.segs.ss true s.stack32 4 frame.length s.regs.esp = true →
    planStack 4 frame u3 = .ok ((stores, esp), u) →
    g.gateOff.toNat ≤ c.limit.toNat → AllStorable s stores →
    let image := ({ s.flags with rf := s.flags.rf || ev.rf } : Flags).toWord
    let h := (((s.withEsp esp).setSeg .cs (c.toSeg (g.gateSel.extractLsb' 2 14 ++ s.cpl))).withEip g.gateOff).withFlags
      { s.flags with tf := false, nt := false, vm := false, rf := false, intf := s.flags.intf && g.typ != 14 }
    (∃ high high' : HWord, frame = [image, high ++ ev.cs.getD s.segs.cs.sel, ev.ret] ++
      match ev.code with | none => [] | some x => [high' ++ x]) ∧
    ∃ t, take ev s = .next t ∧ StoresMade 4 stores s u t ∧ Entered
      (if ev.vector = 1 ∧ ev.kind = .exception then h.withDebug { s.dregs with dr7 := { s.dregs.dr7 with gd := false } } else h) t

/-- Taking an event through an interrupt or trap gate to an inner level, from Protected Mode or from Virtual 8086 Mode, the descriptors
of the code segment and of the stack already accessed: on the stack of that level the old SS and ESP, EFLAGS, CS, EIP and the error
code, from Virtual 8086 Mode below GS, FS, DS and ES, which are then null; CPL is that of the code segment. The checks of the code
segment before that, at any level: null, beyond its table, type and level, presence, and last, from Virtual 8086 Mode, DPL 0 and
non-conforming (R722, R723, R754, R755; U5; EXT of the error codes is in DoubleFault). The model's own: the room on the new stack is
checked slot by slot with the wrap of Push (log entry 33, DEDUCED); a null register has base and limit 0 (log entry 47) and GD is cleared
for the debug exception alone (log entry 55), both DESIGN CHOICE. -/
def Obligations.InnerEntry : Prop :=
  (∀ (s : State) (ev : Event) bs u1, s.fetch.oldMode = false → s.cr0.pe = true →
    let la := s.tables.idtr.base + BitVec.ofNat 32 (ev.vector.toNat * 8)
    let g := Desc.ofBytes la bs
    let sel := g.gateSel
    let raises (e : Exc) (u : State) : Prop := enter ev s = .error (.exc e u)
    ev.vector.toNat * 8 + 7 ≤ s.tables.idtr.limit.toNat → sysRead la 8 s = .ok (bs, u1) →
    g.s = false ∧ (g.typ = 14 ∨ g.typ = 15) ∧ (ev.kind = .software → s.cpl.toNat ≤ g.dpl.toNat) ∧ g.present = true →
    (sel.toNat < 4 → raises ⟨13, some 0⟩ u1) ∧
    (4 ≤ sel.toNat → descAddress s.tables sel = none → raises ⟨13, some (sel &&& 0xFFFC)⟩ u1) ∧
    (4 ≤ sel.toNat → ∀ (c : Desc) (u : State), fetchDesc sel u1 = .ok (some c, u) →
      let target := c.isCode = true ∧ c.dpl.toNat ≤ s.cpl.toNat
      (¬ target → raises ⟨13, some (sel &&& 0xFFFC)⟩ u) ∧
      (target → c.present = false → raises ⟨11, some (sel &&& 0xFFFC)⟩ u) ∧
      (target → c.present = true → s.flags.vm = true → ¬ (c.conforming = false ∧ c.dpl = 0) →
        raises ⟨13, some (sel &&& 0xFFFC)⟩ u))) ∧
  ∀ (s : State) (ev : Event) bs u1 c u2 sp ss u3 head u4 tail u5 stores esp u, s.fetch.oldMode = false → s.cr0.pe = true →
    let la := s.tables.idtr.base + BitVec.ofNat 32 (ev.vector.toNat * 8)
    let g := Desc.ofBytes la bs
    ev.vector.toNat * 8 + 7 ≤ s.tables.idtr.limit.toNat → sysRead la 8 s = .ok (bs, u1) →
    g.s = false ∧ (g.typ = 14 ∨ g.typ = 15) ∧ (ev.kind = .software → s.cpl.toNat ≤ g.dpl.toNat) ∧ g.present = true →
    4 ≤ g.gateSel.toNat → fetchDesc g.gateSel u1 = .ok (some c, u2) →
    c.isCode = true ∧ c.present = true ∧ c.conforming = false ∧ c.dpl.toNat < s.cpl.toNat ∧ (s.flags.vm = true → c.dpl = 0) →
    c.d1.getLsbD 8 = true → innerStack c.dpl u2 = .ok ((sp, ss, []), u3) → frameHead u2 u3 = .ok (head, u4) →
    frameTail u2 ev u4 = .ok (tail, u5) →
    let start := newEsp ss.ar.db s.regs.esp sp
    roomFor ss true ss.ar.db 4 (head ++ tail).length start = true → g.gateOff.toNat ≤ c.limit.toNat →
    planPushes ss ss.ar.db false ⟨12, some 0⟩ 4 start (head ++ tail) u5 = .ok ((stores, esp), u) → AllStorable s stores →
    let image := ({ s.flags with rf := s.flags.rf || ev.rf } : Flags).toWord
    let null := SegReg.invalid 0
    let data : Segs := if s.flags.vm then { s.segs with es := null, ds := null, fs := null, gs := null } else s.segs
    let h := ((((s.withEsp esp).withSegs { data with ss := ss, cs := c.toSeg (g.gateSel.extractLsb' 2 14 ++ c.dpl) }).withCpl
      c.dpl).withEip g.gateOff).withFlags
      { s.flags with tf := false, nt := false, vm := false, rf := false, intf := s.flags.intf && g.typ != 14 }
    (∃ h1 h2 h3 h4 h5 h6 h7 : HWord,
      head = (if s.flags.vm then [h1 ++ s.segs.gs.sel, h2 ++ s.segs.fs.sel, h3 ++ s.segs.ds.sel, h4 ++ s.segs.es.sel] else []) ++
        [h5 ++ s.segs.ss.sel, s.regs.esp] ∧
      tail = [image, h6 ++ ev.cs.getD s.segs.cs.sel, ev.ret] ++ match ev.code with | none => [] | some x => [h7 ++ x]) ∧
    ∃ t, take ev s = .next t ∧ StoresMade 4 stores s u t ∧ Entered
      (if ev.vector = 1 ∧ ev.kind = .exception then h.withDebug { s.dregs with dr7 := { s.dregs.dr7 with gd := false } } else h) t

/-- An exception while an event is delivered: two contributory ones, or a page fault and then a contributory one or a page fault,
give the double fault with error code 0; any other pair delivers the second, with EXT set in its error code unless the first is a
software interrupt; an exception while the double fault is delivered shuts the processor down, and no step but RESET leads out
(R730, R746, R715, R710; log entry 29). -/
def Obligations.DoubleFault : Prop :=
  (∀ (n : Nat) (ev : Event) (s : State) (e : Exc) (u : State), enter ev s = .error (.exc e u) →
    let contributory : List Byte := [0, 10, 11, 12, 13]
    let isFault := ev.kind = .exception
    let double := isFault ∧ ((ev.vector ∈ contributory ∧ e.vector ∈ contributory) ∨
      (ev.vector = 14 ∧ (e.vector ∈ contributory ∨ e.vector = 14)))
    let ext := ev.kind ≠ .software ∧ e.vector ≠ 14
    let next : Event :=
      { vector := e.vector, kind := .exception, code := if ext then e.code.map (· ||| 1) else e.code, ret := ev.faultRet,
        faultRet := ev.faultRet, rf := true, cs := none }
    (isFault ∧ ev.vector = 8 → deliver (n + 1) ev s = .next (s.abandon u).shutDown) ∧
    (double → ∃ ret cs u', deliver (n + 1) ev s = deliver n
      { vector := 8, kind := .exception, code := some 0, ret := ret, faultRet := ret, rf := false, cs := some cs } u' ∧
      Quiet (s.abandon u).inOwnMode u') ∧
    (¬ (isFault ∧ ev.vector = 8) → ¬ double → deliver (n + 1) ev s = deliver n next (s.abandon u).inOwnMode)) ∧
  (∀ s : State, s.pins.reset = false → s.pend.activity = .shutdown → step s = .fault .shutdown)

/-- The order of events at an instruction boundary: the debug trap, then NMI, then INTR; MOV SS holds off the first two, any shadow
and IF = 0 the third; with none of them a halted processor stays halted (R59, R726 to R729, R756, R600). That the STI shadow does not
hold off NMI is read from R59 and R727 against R728 (log entry 11; log entries 27, 40). -/
def Obligations.BoundaryOrder : Prop :=
  ∀ s : State, s.pins.reset = false → s.pend.activity ≠ .shutdown → s.fetch.pfx.count = 0 →
    let event (v : Byte) (kind : EventKind) : Event :=
      { vector := v, kind := kind, code := none, ret := s.eip, faultRet := s.eip, rf := false, cs := none }
    let free := s.pend.shadow ≠ .movSs
    let trap := (s.pend.bs = true ∨ s.pend.bt = true ∨ s.pend.hits ≠ 0) ∧ free
    let nmi := s.pins.nmiPending = true ∧ s.pins.nmiBlocked = false ∧ free
    let open_ := s.flags.intf = true ∧ s.pend.shadow = .none
    (trap → ∃ near : BitVec 4, near &&& s.pend.near = near ∧ ∃ u, step s = take (event 1 .exception) u ∧
      u.dregs = { s.dregs with dr6 := { s.dregs.dr6 with b := s.dregs.dr6.b ||| s.pend.hits ||| near
                                                         bs := s.dregs.dr6.bs || s.pend.bs
                                                         bt := s.dregs.dr6.bt || s.pend.bt } } ∧
      u.pend = { s.pend with hits := 0, near := 0, bs := false, bt := false } ∧ u.regs = s.regs ∧ u.mem = s.mem ∧
      u.flags = s.flags ∧ u.segs = s.segs) ∧
    (¬ trap → nmi →
      step s = take (event 2 .external) (s.withPins { s.pins with nmiPending := false, nmiBlocked := true })) ∧
    (¬ trap → ¬ nmi → open_ → ∀ v rest, s.pins.intr = v :: rest →
      step s = take (event v .external) (s.withPins { s.pins with intr := rest })) ∧
    (¬ trap → ¬ nmi → ¬ open_ ∨ s.pins.intr = [] → s.pend.activity = .halted → step s = .next (s.withShadow .none))

/-! ## Tasks (60_exceptions.md R760 to R764) -/

/-- What a task switch does. With a limit below 67h it raises #TS and changes nothing. Else the old task's registers are saved in its task
state segment, busy bits and the back link are written as the kind of switch has them, and all the registers of the new task are loaded,
with TS set and the local enables of DR7 clear; GDTR, IDTR, CR2 and the other debug registers stay. Then the LDT and the segment registers
are validated in their order, in the new task, with the exceptions of the rule; in Virtual 8086 Mode all six are loaded that way
(R761 to R763, R137; U5; log entries 30, 47, 52). With a null selector in TR a JMP or IRET clears no busy bit, and a busy bit is
written as byte 5 of its descriptor alone, that of the old task with no check of its descriptor; every access up to the back link goes
through the page mapping of the old CR3: the model's choices, log entries 57, 61 and 62. -/
def Obligations.TaskState : Prop :=
  (∀ (s : State) (tsel : HWord) (new : Desc) (kind : TaskKind) (cs : HWord) (eip : Word) (f : Flags),
    (new.limit.toNat < 0x67 → taskSwitch tsel new kind cs eip f s = .error (.exc ⟨10, some (tsel &&& 0xFFFC)⟩ s)) ∧
    (0x67 ≤ new.limit.toNat → ∀ save u1 oldBusy u2 newBusy u3 bytes u4 link u5 image u,
      sysPlan (s.tables.tr.base + 0x20) 64 s = .ok (save, u1) →
      (if (kind = .jmp ∨ kind = .iret) ∧ 4 ≤ s.tables.tr.sel.toNat then
        planBusy (s.tables.gdtr.base + (s.tables.tr.sel &&& 0xFFF8).setWidth 32) u1 = .ok (oldBusy, u2) else oldBusy = [] ∧ u2 = u1) →
      (if kind = .iret then newBusy = [] ∧ u3 = u2 else planBusy new.addr u2 = .ok (newBusy, u3)) →
      planLinear new.base 104 false false u3 = .ok (bytes, u4) →
      (if kind = .call ∨ kind = .int then sysPlan new.base 2 u4 = .ok (link, u5) else link = [] ∧ u5 = u4) →
      taskImage s cs eip f u5 = .ok (image, u) → s.memOk = true → AllRam s (save ++ bytes ++ oldBusy ++ newBusy ++ link) →
      let nests := kind = .call ∨ kind = .int
      let after := switchedIn save oldBusy newBusy link image s.tables.tr.sel u.byteAt
      let read := bytes.map (switchedIn save oldBusy newBusy [] image s.tables.tr.sel u.byteAt)
      let dword (off : Nat) : Word := wordOf ((read.drop off).take 4)
      let word (off : Nat) : HWord := read.getD (off + 1) 0 ++ read.getD off 0
      let loaded := Flags.ofWord (dword 0x24)
      (∃ h1 h2 h3 h4 h5 h6 : HWord, image = [eip, f.toWord, s.regs.eax, s.regs.ecx, s.regs.edx, s.regs.ebx, s.regs.esp, s.regs.ebp,
        s.regs.esi, s.regs.edi, h1 ++ s.segs.es.sel, h2 ++ cs, h3 ++ s.segs.ss.sel, h4 ++ s.segs.ds.sel, h5 ++ s.segs.fs.sel,
        h6 ++ s.segs.gs.sel]) ∧
      ∃ x : State, taskSwitch tsel new kind cs eip f s =
          (do inNewTask taskSegments; pure ((dword 0x64).getLsbD 0) : M Bool) x ∧
        (∀ a, x.byteAt a = after a) ∧ x.eip = dword 0x20 ∧ x.cpl = (if loaded.vm then 3 else s.cpl) ∧
        x.flags = { loaded with nt := decide nests || loaded.nt } ∧
        x.regs = { eax := dword 0x28, ecx := dword 0x2C, edx := dword 0x30, ebx := dword 0x34, esp := dword 0x38,
                   ebp := dword 0x3C, esi := dword 0x40, edi := dword 0x44 } ∧
        x.segs = { es := SegReg.invalid (word 0x48), cs := SegReg.invalid (word 0x4C), ss := SegReg.invalid (word 0x50),
                   ds := SegReg.invalid (word 0x54), fs := SegReg.invalid (word 0x58), gs := SegReg.invalid (word 0x5C) } ∧
        x.cr0 = { s.cr0 with ts := true } ∧ x.cr2 = s.cr2 ∧ x.cr3 = (dword 0x1C).extractLsb' 12 20 ∧ x.tlb = [] ∧
        x.tables = { s.tables with tr := { sel := tsel, base := new.base, limit := new.limit, typ := 11 }
                                   ldtr := { sel := word 0x60, base := 0, limit := 0, valid := false } } ∧
        x.dregs = { s.dregs with dr7 := { s.dregs.dr7 with enables := s.dregs.dr7.enables &&& 0xAA, le := false } } ∧
        x.test = s.test ∧ x.pins = s.pins ∧ x.params = s.params ∧ x.io = s.io)) ∧
  (∀ x : State,
    let sel := x.tables.ldtr.sel
    let bad (u : State) : Prop := taskLdt x = .error (.exc ⟨10, some (sel &&& 0xFFFC)⟩ u)
    (sel.toNat < 4 → taskLdt x = .ok ((), x)) ∧
    (4 ≤ sel.toNat → sel.getLsbD 2 = true ∨ descAddress x.tables sel = none → bad x) ∧
    (4 ≤ sel.toNat → sel.getLsbD 2 = false → ∀ d u, fetchDesc sel x = .ok (some d, u) →
      (¬ (d.isSystem 2 = true ∧ d.present = true) → bad u) ∧
      (d.isSystem 2 = true ∧ d.present = true → taskLdt x = .ok ((), u.withTables
        { u.tables with ldtr := { sel := sel, base := d.base, limit := d.limit, valid := true } })))) ∧
  (∀ (x : State) (r : Sreg) (m : M Unit), (r = .cs ∧ m = taskCs) ∨ (r = .ss ∧ m = taskSs) ∨ (r ≠ .cs ∧ r ≠ .ss ∧ m = taskData r) →
    let sel := (x.seg r).sel
    let rpl := sel.extractLsb' 0 2
    let code : HWord := sel &&& 0xFFFC
    let raises (vector : Byte) (u : State) : Prop := m x = .error (.exc ⟨vector, some code⟩ u)
    (sel.toNat < 4 → if r = .cs ∨ r = .ss then raises 10 x else m x = .ok ((), x)) ∧
    (4 ≤ sel.toNat → descAddress x.tables sel = none → raises 10 x) ∧
    (4 ≤ sel.toNat → ∀ d u, fetchDesc sel x = .ok (some d, u) →
      let good : Prop := if r = .cs then d.isCode = true ∧ (if d.conforming then d.dpl.toNat ≤ rpl.toNat else d.dpl = rpl)
        else if r = .ss then d.writableData = true ∧ rpl = x.cpl ∧ d.dpl = x.cpl
        else (d.isData = true ∨ d.readableCode = true) ∧
          (d.conforming = true ∨ (rpl.toNat ≤ d.dpl.toNat ∧ x.cpl.toNat ≤ d.dpl.toNat))
      (¬ good → raises 10 u) ∧
      (good → d.present = false → if r = .ss then raises 12 u else raises 11 u) ∧
      (good → d.present = true → d.d1.getLsbD 8 = true → m x = .ok ((),
        if r = .cs then (u.setSeg r (d.toSeg sel)).withCpl rpl else u.setSeg r (d.toSeg sel))))) ∧
  (∀ x y : State, taskLdt x = .ok ((), y) →
    (y.flags.vm = true →
      let real (g : SegReg) (code : Bool) : SegReg :=
        { sel := g.sel, base := g.sel.setWidth 32 * 16, limit := 0xFFFF, ar := { Rights.reset code with dpl := 3 }, valid := true }
      let all : Segs :=
        { es := real y.segs.es false, cs := real y.segs.cs true, ss := real y.segs.ss false,
          ds := real y.segs.ds false, fs := real y.segs.fs false, gs := real y.segs.gs false }
      taskSegments x = .ok ((), (y.withSegs all).withCpl 3)) ∧
    (y.flags.vm = false → ∀ y1 y2 y3 y4 y5 y6, taskCs y = .ok ((), y1) → taskSs y1 = .ok ((), y2) →
      taskData .ds y2 = .ok ((), y3) → taskData .es y3 = .ok ((), y4) → taskData .fs y4 = .ok ((), y5) →
      taskData .gs y5 = .ok ((), y6) → taskSegments x = .ok ((), y6)))

/-- What switches tasks: JMP and CALL to an available 80386 task state segment or through a task gate, an event through a task gate, IRET
with NT set. The callers' checks raise the exceptions of their rules (a busy task #GP, or #TS for IRET to one that is not busy), 80286 task
state segments are declined (D18). A fault before the new registers are loaded is one of the instruction in the old task; a later one,
with EIP beyond the limit of CS the last, is taken in the new task with its EIP saved; else the switch is over, and the T bit's trap waits
(R760, R762, R764, R753, R510, R724, R578; log entries 30, 52, 57, 61, 62; what is `settled`: log entry 15). That the memory forms (FarForms) read
the selector at the offset + n in 32 bits, without the wrap at 2^16, is the model's choice: log entry 49 (DESIGN CHOICE). -/
def Obligations.TaskSwitches : Prop :=
  ∀ s : State,
    let run (i : Instr) (u : State) (tsel : HWord) (d : Desc) (kind : TaskKind) (f : Flags) : Prop :=
      let r := taskSwitch tsel d kind s.segs.cs.sel s.eip f u
      (∀ trap y, r = .ok (trap, y) →
        (y.eip.toNat ≤ y.segs.cs.limit.toNat → Completes i s (Switched trap y.settled)) ∧
        (y.segs.cs.limit.toNat < y.eip.toNat → exec i s = take (lateEvent 13 (some 0) y) y.settled)) ∧
      (∀ e y, e.vector ≠ 9 → r = .error (.late e y) → exec i s = take (lateEvent e.vector e.code y) y) ∧
      (∀ e y, e.vector ≠ 9 → r = .error (.exc e y) → Faults i s e.vector e.code y)
    (s.protMode = true → ∀ (off : Word) (sel : HWord) (jmp call : Instr) (u0 : State) (d : Desc) (u1 : State),
      FarForms s sel off jmp call u0 → 4 ≤ sel.toNat → fetchDesc sel u0 = .ok (some d, u1) →
      let both (p : Instr → TaskKind → Prop) : Prop := p jmp .jmp ∧ p call .call
      let code : HWord := sel &&& 0xFFFC
      let visible := s.cpl.toNat ≤ d.dpl.toNat ∧ (sel.extractLsb' 0 2).toNat ≤ d.dpl.toNat
      (d.isSystem 11 = true → both fun i _ => Faults i s 13 (some code) u1) ∧
      (d.isSystem 1 = true ∨ d.isSystem 3 = true → both fun i _ => exec i s = .refused .format286) ∧
      (d.isSystem 9 = true →
        (¬ (visible ∧ sel.getLsbD 2 = false) → both fun i _ => Faults i s 13 (some code) u1) ∧
        (visible → sel.getLsbD 2 = false → d.present = false → both fun i _ => Faults i s 11 (some code) u1) ∧
        (visible → sel.getLsbD 2 = false → d.present = true → both fun i k => run i u1 sel d k s.flags)) ∧
      (d.isSystem 5 = true →
        let tsel := d.gateSel
        let tcode : HWord := tsel &&& 0xFFFC
        (¬ visible → both fun i _ => Faults i s 13 (some code) u1) ∧
        (visible → d.present = false → both fun i _ => Faults i s 11 (some code) u1) ∧
        (visible → d.present = true →
          (tsel.toNat < 4 ∨ tsel.getLsbD 2 = true ∨ descAddress s.tables tsel = none →
            both fun i _ => Faults i s 13 (some tcode) u1) ∧
          (4 ≤ tsel.toNat → tsel.getLsbD 2 = false → ∀ t u2, fetchDesc tsel u1 = .ok (some t, u2) →
            (t.isSystem 1 = true ∨ t.isSystem 3 = true → both fun i _ => exec i s = .refused .format286) ∧
            (t.isSystem 1 = false ∧ t.isSystem 3 = false ∧ t.isSystem 9 = false → both fun i _ => Faults i s 13 (some tcode) u2) ∧
            (t.isSystem 9 = true → t.present = false → both fun i _ => Faults i s 11 (some tcode) u2) ∧
            (t.isSystem 9 = true → t.present = true → both fun i k => run i u2 tsel t k s.flags))))) ∧
    (s.protMode = true → s.flags.nt = true → ∀ (lo hi : Byte) (u1 : State),
      sysRead s.tables.tr.base 2 (s.withPins { s.pins with nmiBlocked := false }) = .ok ([lo, hi], u1) →
      let link : HWord := hi ++ lo
      let code : HWord := link &&& 0xFFFC
      (link.toNat < 4 ∨ link.getLsbD 2 = true ∨ descAddress s.tables link = none → Faults .iret s 10 (some code) u1) ∧
      (4 ≤ link.toNat → link.getLsbD 2 = false → ∀ d u2, fetchDesc link u1 = .ok (some d, u2) →
        (d.isSystem 3 = true → exec .iret s = .refused .format286) ∧
        (d.isSystem 3 = false → d.isSystem 11 = false → Faults .iret s 10 (some code) u2) ∧
        (d.isSystem 11 = true → d.present = false → Faults .iret s 11 (some code) u2) ∧
        (d.isSystem 11 = true → d.present = true → run .iret u2 link d .iret { s.flags with nt := false }))) ∧
    (∀ (ev : Event) bs u1 t u2 trap y, s.fetch.oldMode = false → s.cr0.pe = true →
      let la := s.tables.idtr.base + BitVec.ofNat 32 (ev.vector.toNat * 8)
      let g := Desc.ofBytes la bs
      ev.vector.toNat * 8 + 7 ≤ s.tables.idtr.limit.toNat → sysRead la 8 s = .ok (bs, u1) →
      g.isSystem 5 = true ∧ (ev.kind = .software → s.cpl.toNat ≤ g.dpl.toNat) ∧ g.present = true →
      4 ≤ g.gateSel.toNat → g.gateSel.getLsbD 2 = false → fetchDesc g.gateSel u1 = .ok (some t, u2) →
      t.isSystem 9 = true → t.present = true →
      taskSwitch g.gateSel t .int (ev.cs.getD s.segs.cs.sel) ev.ret s.flags u2 = .ok (trap, y) →
      y.eip.toNat ≤ y.segs.cs.limit.toNat →
      let handler (e : State) : State :=
        if ev.vector = 1 ∧ ev.kind = .exception then e.withDebug { e.dregs with dr7 := { e.dregs.dr7 with gd := false } } else e
      (ev.code = none → ∃ x, take ev s = .next x ∧ Entered (handler y.settled) x ∧ x.mem = y.mem ∧ x.pend.bt = (y.pend.bt || trap)) ∧
      (∀ c w u3 stores esp u, ev.code = some c →
        let y' := ((y.withPend { y.pend with bt := y.pend.bt || trap }).flushQueue).settled
        selWord c y' = .ok (w, u3) → planStack 4 [w] u3 = .ok ((stores, esp), u) → AllStorable y stores →
        w.setWidth 16 = c ∧ ∃ x, take ev s = .next x ∧ StoresMade 4 stores y u x ∧ Entered (handler (y.settled.withEsp esp)) x ∧
          x.pend.bt = (y.pend.bt || trap)))
end

