-- ==== Sys2Proof/Laws/State.lean ====
section
/-!
SUPPORT. One lemma per field per update of the state: what each update leaves in each field. Every one is true by unfolding, so
that no later proof unfolds a record update.
-/

namespace Sys2Proof.Machine

/-! ## withRegs -/

@[simp] theorem State.withRegs_regs (s : State) (v : Regs) : (s.withRegs v).regs = v := rfl
@[simp] theorem State.withRegs_eip (s : State) (v : Regs) : (s.withRegs v).eip = s.eip := rfl
@[simp] theorem State.withRegs_flags (s : State) (v : Regs) : (s.withRegs v).flags = s.flags := rfl
@[simp] theorem State.withRegs_cpl (s : State) (v : Regs) : (s.withRegs v).cpl = s.cpl := rfl
@[simp] theorem State.withRegs_segs (s : State) (v : Regs) : (s.withRegs v).segs = s.segs := rfl
@[simp] theorem State.withRegs_cr0 (s : State) (v : Regs) : (s.withRegs v).cr0 = s.cr0 := rfl
@[simp] theorem State.withRegs_cr2 (s : State) (v : Regs) : (s.withRegs v).cr2 = s.cr2 := rfl
@[simp] theorem State.withRegs_cr3 (s : State) (v : Regs) : (s.withRegs v).cr3 = s.cr3 := rfl
@[simp] theorem State.withRegs_tables (s : State) (v : Regs) : (s.withRegs v).tables = s.tables := rfl
@[simp] theorem State.withRegs_dregs (s : State) (v : Regs) : (s.withRegs v).dregs = s.dregs := rfl
@[simp] theorem State.withRegs_test (s : State) (v : Regs) : (s.withRegs v).test = s.test := rfl
@[simp] theorem State.withRegs_mem (s : State) (v : Regs) : (s.withRegs v).mem = s.mem := rfl
@[simp] theorem State.withRegs_tlb (s : State) (v : Regs) : (s.withRegs v).tlb = s.tlb := rfl
@[simp] theorem State.withRegs_fetch (s : State) (v : Regs) : (s.withRegs v).fetch = s.fetch := rfl
@[simp] theorem State.withRegs_pend (s : State) (v : Regs) : (s.withRegs v).pend = s.pend := rfl
@[simp] theorem State.withRegs_pins (s : State) (v : Regs) : (s.withRegs v).pins = s.pins := rfl
@[simp] theorem State.withRegs_params (s : State) (v : Regs) : (s.withRegs v).params = s.params := rfl
@[simp] theorem State.withRegs_io (s : State) (v : Regs) : (s.withRegs v).io = s.io := rfl
@[simp] theorem State.withRegs_draws (s : State) (v : Regs) : (s.withRegs v).draws = s.draws := rfl

/-! ## withEip -/

@[simp] theorem State.withEip_regs (s : State) (v : Word) : (s.withEip v).regs = s.regs := rfl
@[simp] theorem State.withEip_eip (s : State) (v : Word) : (s.withEip v).eip = v := rfl
@[simp] theorem State.withEip_flags (s : State) (v : Word) : (s.withEip v).flags = s.flags := rfl
@[simp] theorem State.withEip_cpl (s : State) (v : Word) : (s.withEip v).cpl = s.cpl := rfl
@[simp] theorem State.withEip_segs (s : State) (v : Word) : (s.withEip v).segs = s.segs := rfl
@[simp] theorem State.withEip_cr0 (s : State) (v : Word) : (s.withEip v).cr0 = s.cr0 := rfl
@[simp] theorem State.withEip_cr2 (s : State) (v : Word) : (s.withEip v).cr2 = s.cr2 := rfl
@[simp] theorem State.withEip_cr3 (s : State) (v : Word) : (s.withEip v).cr3 = s.cr3 := rfl
@[simp] theorem State.withEip_tables (s : State) (v : Word) : (s.withEip v).tables = s.tables := rfl
@[simp] theorem State.withEip_dregs (s : State) (v : Word) : (s.withEip v).dregs = s.dregs := rfl
@[simp] theorem State.withEip_test (s : State) (v : Word) : (s.withEip v).test = s.test := rfl
@[simp] theorem State.withEip_mem (s : State) (v : Word) : (s.withEip v).mem = s.mem := rfl
@[simp] theorem State.withEip_tlb (s : State) (v : Word) : (s.withEip v).tlb = s.tlb := rfl
@[simp] theorem State.withEip_fetch (s : State) (v : Word) : (s.withEip v).fetch = s.fetch := rfl
@[simp] theorem State.withEip_pend (s : State) (v : Word) : (s.withEip v).pend = s.pend := rfl
@[simp] theorem State.withEip_pins (s : State) (v : Word) : (s.withEip v).pins = s.pins := rfl
@[simp] theorem State.withEip_params (s : State) (v : Word) : (s.withEip v).params = s.params := rfl
@[simp] theorem State.withEip_io (s : State) (v : Word) : (s.withEip v).io = s.io := rfl
@[simp] theorem State.withEip_draws (s : State) (v : Word) : (s.withEip v).draws = s.draws := rfl

/-! ## withFlags -/

@[simp] theorem State.withFlags_regs (s : State) (v : Flags) : (s.withFlags v).regs = s.regs := rfl
@[simp] theorem State.withFlags_eip (s : State) (v : Flags) : (s.withFlags v).eip = s.eip := rfl
@[simp] theorem State.withFlags_flags (s : State) (v : Flags) : (s.withFlags v).flags = v := rfl
@[simp] theorem State.withFlags_cpl (s : State) (v : Flags) : (s.withFlags v).cpl = s.cpl := rfl
@[simp] theorem State.withFlags_segs (s : State) (v : Flags) : (s.withFlags v).segs = s.segs := rfl
@[simp] theorem State.withFlags_cr0 (s : State) (v : Flags) : (s.withFlags v).cr0 = s.cr0 := rfl
@[simp] theorem State.withFlags_cr2 (s : State) (v : Flags) : (s.withFlags v).cr2 = s.cr2 := rfl
@[simp] theorem State.withFlags_cr3 (s : State) (v : Flags) : (s.withFlags v).cr3 = s.cr3 := rfl
@[simp] theorem State.withFlags_tables (s : State) (v : Flags) : (s.withFlags v).tables = s.tables := rfl
@[simp] theorem State.withFlags_dregs (s : State) (v : Flags) : (s.withFlags v).dregs = s.dregs := rfl
@[simp] theorem State.withFlags_test (s : State) (v : Flags) : (s.withFlags v).test = s.test := rfl
@[simp] theorem State.withFlags_mem (s : State) (v : Flags) : (s.withFlags v).mem = s.mem := rfl
@[simp] theorem State.withFlags_tlb (s : State) (v : Flags) : (s.withFlags v).tlb = s.tlb := rfl
@[simp] theorem State.withFlags_fetch (s : State) (v : Flags) : (s.withFlags v).fetch = s.fetch := rfl
@[simp] theorem State.withFlags_pend (s : State) (v : Flags) : (s.withFlags v).pend = s.pend := rfl
@[simp] theorem State.withFlags_pins (s : State) (v : Flags) : (s.withFlags v).pins = s.pins := rfl
@[simp] theorem State.withFlags_params (s : State) (v : Flags) : (s.withFlags v).params = s.params := rfl
@[simp] theorem State.withFlags_io (s : State) (v : Flags) : (s.withFlags v).io = s.io := rfl
@[simp] theorem State.withFlags_draws (s : State) (v : Flags) : (s.withFlags v).draws = s.draws := rfl

/-! ## withCpl -/

@[simp] theorem State.withCpl_regs (s : State) (v : BitVec 2) : (s.withCpl v).regs = s.regs := rfl
@[simp] theorem State.withCpl_eip (s : State) (v : BitVec 2) : (s.withCpl v).eip = s.eip := rfl
@[simp] theorem State.withCpl_flags (s : State) (v : BitVec 2) : (s.withCpl v).flags = s.flags := rfl
@[simp] theorem State.withCpl_cpl (s : State) (v : BitVec 2) : (s.withCpl v).cpl = v := rfl
@[simp] theorem State.withCpl_segs (s : State) (v : BitVec 2) : (s.withCpl v).segs = s.segs := rfl
@[simp] theorem State.withCpl_cr0 (s : State) (v : BitVec 2) : (s.withCpl v).cr0 = s.cr0 := rfl
@[simp] theorem State.withCpl_cr2 (s : State) (v : BitVec 2) : (s.withCpl v).cr2 = s.cr2 := rfl
@[simp] theorem State.withCpl_cr3 (s : State) (v : BitVec 2) : (s.withCpl v).cr3 = s.cr3 := rfl
@[simp] theorem State.withCpl_tables (s : State) (v : BitVec 2) : (s.withCpl v).tables = s.tables := rfl
@[simp] theorem State.withCpl_dregs (s : State) (v : BitVec 2) : (s.withCpl v).dregs = s.dregs := rfl
@[simp] theorem State.withCpl_test (s : State) (v : BitVec 2) : (s.withCpl v).test = s.test := rfl
@[simp] theorem State.withCpl_mem (s : State) (v : BitVec 2) : (s.withCpl v).mem = s.mem := rfl
@[simp] theorem State.withCpl_tlb (s : State) (v : BitVec 2) : (s.withCpl v).tlb = s.tlb := rfl
@[simp] theorem State.withCpl_fetch (s : State) (v : BitVec 2) : (s.withCpl v).fetch = s.fetch := rfl
@[simp] theorem State.withCpl_pend (s : State) (v : BitVec 2) : (s.withCpl v).pend = s.pend := rfl
@[simp] theorem State.withCpl_pins (s : State) (v : BitVec 2) : (s.withCpl v).pins = s.pins := rfl
@[simp] theorem State.withCpl_params (s : State) (v : BitVec 2) : (s.withCpl v).params = s.params := rfl
@[simp] theorem State.withCpl_io (s : State) (v : BitVec 2) : (s.withCpl v).io = s.io := rfl
@[simp] theorem State.withCpl_draws (s : State) (v : BitVec 2) : (s.withCpl v).draws = s.draws := rfl

/-! ## withSegs -/

@[simp] theorem State.withSegs_regs (s : State) (v : Segs) : (s.withSegs v).regs = s.regs := rfl
@[simp] theorem State.withSegs_eip (s : State) (v : Segs) : (s.withSegs v).eip = s.eip := rfl
@[simp] theorem State.withSegs_flags (s : State) (v : Segs) : (s.withSegs v).flags = s.flags := rfl
@[simp] theorem State.withSegs_cpl (s : State) (v : Segs) : (s.withSegs v).cpl = s.cpl := rfl
@[simp] theorem State.withSegs_segs (s : State) (v : Segs) : (s.withSegs v).segs = v := rfl
@[simp] theorem State.withSegs_cr0 (s : State) (v : Segs) : (s.withSegs v).cr0 = s.cr0 := rfl
@[simp] theorem State.withSegs_cr2 (s : State) (v : Segs) : (s.withSegs v).cr2 = s.cr2 := rfl
@[simp] theorem State.withSegs_cr3 (s : State) (v : Segs) : (s.withSegs v).cr3 = s.cr3 := rfl
@[simp] theorem State.withSegs_tables (s : State) (v : Segs) : (s.withSegs v).tables = s.tables := rfl
@[simp] theorem State.withSegs_dregs (s : State) (v : Segs) : (s.withSegs v).dregs = s.dregs := rfl
@[simp] theorem State.withSegs_test (s : State) (v : Segs) : (s.withSegs v).test = s.test := rfl
@[simp] theorem State.withSegs_mem (s : State) (v : Segs) : (s.withSegs v).mem = s.mem := rfl
@[simp] theorem State.withSegs_tlb (s : State) (v : Segs) : (s.withSegs v).tlb = s.tlb := rfl
@[simp] theorem State.withSegs_fetch (s : State) (v : Segs) : (s.withSegs v).fetch = s.fetch := rfl
@[simp] theorem State.withSegs_pend (s : State) (v : Segs) : (s.withSegs v).pend = s.pend := rfl
@[simp] theorem State.withSegs_pins (s : State) (v : Segs) : (s.withSegs v).pins = s.pins := rfl
@[simp] theorem State.withSegs_params (s : State) (v : Segs) : (s.withSegs v).params = s.params := rfl
@[simp] theorem State.withSegs_io (s : State) (v : Segs) : (s.withSegs v).io = s.io := rfl
@[simp] theorem State.withSegs_draws (s : State) (v : Segs) : (s.withSegs v).draws = s.draws := rfl

/-! ## withCr0 -/

@[simp] theorem State.withCr0_regs (s : State) (v : Cr0) : (s.withCr0 v).regs = s.regs := rfl
@[simp] theorem State.withCr0_eip (s : State) (v : Cr0) : (s.withCr0 v).eip = s.eip := rfl
@[simp] theorem State.withCr0_flags (s : State) (v : Cr0) : (s.withCr0 v).flags = s.flags := rfl
@[simp] theorem State.withCr0_cpl (s : State) (v : Cr0) : (s.withCr0 v).cpl = s.cpl := rfl
@[simp] theorem State.withCr0_segs (s : State) (v : Cr0) : (s.withCr0 v).segs = s.segs := rfl
@[simp] theorem State.withCr0_cr0 (s : State) (v : Cr0) : (s.withCr0 v).cr0 = v := rfl
@[simp] theorem State.withCr0_cr2 (s : State) (v : Cr0) : (s.withCr0 v).cr2 = s.cr2 := rfl
@[simp] theorem State.withCr0_cr3 (s : State) (v : Cr0) : (s.withCr0 v).cr3 = s.cr3 := rfl
@[simp] theorem State.withCr0_tables (s : State) (v : Cr0) : (s.withCr0 v).tables = s.tables := rfl
@[simp] theorem State.withCr0_dregs (s : State) (v : Cr0) : (s.withCr0 v).dregs = s.dregs := rfl
@[simp] theorem State.withCr0_test (s : State) (v : Cr0) : (s.withCr0 v).test = s.test := rfl
@[simp] theorem State.withCr0_mem (s : State) (v : Cr0) : (s.withCr0 v).mem = s.mem := rfl
@[simp] theorem State.withCr0_tlb (s : State) (v : Cr0) : (s.withCr0 v).tlb = s.tlb := rfl
@[simp] theorem State.withCr0_fetch (s : State) (v : Cr0) : (s.withCr0 v).fetch = s.fetch := rfl
@[simp] theorem State.withCr0_pend (s : State) (v : Cr0) : (s.withCr0 v).pend = s.pend := rfl
@[simp] theorem State.withCr0_pins (s : State) (v : Cr0) : (s.withCr0 v).pins = s.pins := rfl
@[simp] theorem State.withCr0_params (s : State) (v : Cr0) : (s.withCr0 v).params = s.params := rfl
@[simp] theorem State.withCr0_io (s : State) (v : Cr0) : (s.withCr0 v).io = s.io := rfl
@[simp] theorem State.withCr0_draws (s : State) (v : Cr0) : (s.withCr0 v).draws = s.draws := rfl

/-! ## withCr2 -/

@[simp] theorem State.withCr2_regs (s : State) (v : Word) : (s.withCr2 v).regs = s.regs := rfl
@[simp] theorem State.withCr2_eip (s : State) (v : Word) : (s.withCr2 v).eip = s.eip := rfl
@[simp] theorem State.withCr2_flags (s : State) (v : Word) : (s.withCr2 v).flags = s.flags := rfl
@[simp] theorem State.withCr2_cpl (s : State) (v : Word) : (s.withCr2 v).cpl = s.cpl := rfl
@[simp] theorem State.withCr2_segs (s : State) (v : Word) : (s.withCr2 v).segs = s.segs := rfl
@[simp] theorem State.withCr2_cr0 (s : State) (v : Word) : (s.withCr2 v).cr0 = s.cr0 := rfl
@[simp] theorem State.withCr2_cr2 (s : State) (v : Word) : (s.withCr2 v).cr2 = v := rfl
@[simp] theorem State.withCr2_cr3 (s : State) (v : Word) : (s.withCr2 v).cr3 = s.cr3 := rfl
@[simp] theorem State.withCr2_tables (s : State) (v : Word) : (s.withCr2 v).tables = s.tables := rfl
@[simp] theorem State.withCr2_dregs (s : State) (v : Word) : (s.withCr2 v).dregs = s.dregs := rfl
@[simp] theorem State.withCr2_test (s : State) (v : Word) : (s.withCr2 v).test = s.test := rfl
@[simp] theorem State.withCr2_mem (s : State) (v : Word) : (s.withCr2 v).mem = s.mem := rfl
@[simp] theorem State.withCr2_tlb (s : State) (v : Word) : (s.withCr2 v).tlb = s.tlb := rfl
@[simp] theorem State.withCr2_fetch (s : State) (v : Word) : (s.withCr2 v).fetch = s.fetch := rfl
@[simp] theorem State.withCr2_pend (s : State) (v : Word) : (s.withCr2 v).pend = s.pend := rfl
@[simp] theorem State.withCr2_pins (s : State) (v : Word) : (s.withCr2 v).pins = s.pins := rfl
@[simp] theorem State.withCr2_params (s : State) (v : Word) : (s.withCr2 v).params = s.params := rfl
@[simp] theorem State.withCr2_io (s : State) (v : Word) : (s.withCr2 v).io = s.io := rfl
@[simp] theorem State.withCr2_draws (s : State) (v : Word) : (s.withCr2 v).draws = s.draws := rfl

/-! ## withCr3 -/

@[simp] theorem State.withCr3_regs (s : State) (v : BitVec 20) : (s.withCr3 v).regs = s.regs := rfl
@[simp] theorem State.withCr3_eip (s : State) (v : BitVec 20) : (s.withCr3 v).eip = s.eip := rfl
@[simp] theorem State.withCr3_flags (s : State) (v : BitVec 20) : (s.withCr3 v).flags = s.flags := rfl
@[simp] theorem State.withCr3_cpl (s : State) (v : BitVec 20) : (s.withCr3 v).cpl = s.cpl := rfl
@[simp] theorem State.withCr3_segs (s : State) (v : BitVec 20) : (s.withCr3 v).segs = s.segs := rfl
@[simp] theorem State.withCr3_cr0 (s : State) (v : BitVec 20) : (s.withCr3 v).cr0 = s.cr0 := rfl
@[simp] theorem State.withCr3_cr2 (s : State) (v : BitVec 20) : (s.withCr3 v).cr2 = s.cr2 := rfl
@[simp] theorem State.withCr3_cr3 (s : State) (v : BitVec 20) : (s.withCr3 v).cr3 = v := rfl
@[simp] theorem State.withCr3_tables (s : State) (v : BitVec 20) : (s.withCr3 v).tables = s.tables := rfl
@[simp] theorem State.withCr3_dregs (s : State) (v : BitVec 20) : (s.withCr3 v).dregs = s.dregs := rfl
@[simp] theorem State.withCr3_test (s : State) (v : BitVec 20) : (s.withCr3 v).test = s.test := rfl
@[simp] theorem State.withCr3_mem (s : State) (v : BitVec 20) : (s.withCr3 v).mem = s.mem := rfl
@[simp] theorem State.withCr3_tlb (s : State) (v : BitVec 20) : (s.withCr3 v).tlb = s.tlb := rfl
@[simp] theorem State.withCr3_fetch (s : State) (v : BitVec 20) : (s.withCr3 v).fetch = s.fetch := rfl
@[simp] theorem State.withCr3_pend (s : State) (v : BitVec 20) : (s.withCr3 v).pend = s.pend := rfl
@[simp] theorem State.withCr3_pins (s : State) (v : BitVec 20) : (s.withCr3 v).pins = s.pins := rfl
@[simp] theorem State.withCr3_params (s : State) (v : BitVec 20) : (s.withCr3 v).params = s.params := rfl
@[simp] theorem State.withCr3_io (s : State) (v : BitVec 20) : (s.withCr3 v).io = s.io := rfl
@[simp] theorem State.withCr3_draws (s : State) (v : BitVec 20) : (s.withCr3 v).draws = s.draws := rfl

/-! ## withTables -/

@[simp] theorem State.withTables_regs (s : State) (v : Tables) : (s.withTables v).regs = s.regs := rfl
@[simp] theorem State.withTables_eip (s : State) (v : Tables) : (s.withTables v).eip = s.eip := rfl
@[simp] theorem State.withTables_flags (s : State) (v : Tables) : (s.withTables v).flags = s.flags := rfl
@[simp] theorem State.withTables_cpl (s : State) (v : Tables) : (s.withTables v).cpl = s.cpl := rfl
@[simp] theorem State.withTables_segs (s : State) (v : Tables) : (s.withTables v).segs = s.segs := rfl
@[simp] theorem State.withTables_cr0 (s : State) (v : Tables) : (s.withTables v).cr0 = s.cr0 := rfl
@[simp] theorem State.withTables_cr2 (s : State) (v : Tables) : (s.withTables v).cr2 = s.cr2 := rfl
@[simp] theorem State.withTables_cr3 (s : State) (v : Tables) : (s.withTables v).cr3 = s.cr3 := rfl
@[simp] theorem State.withTables_tables (s : State) (v : Tables) : (s.withTables v).tables = v := rfl
@[simp] theorem State.withTables_dregs (s : State) (v : Tables) : (s.withTables v).dregs = s.dregs := rfl
@[simp] theorem State.withTables_test (s : State) (v : Tables) : (s.withTables v).test = s.test := rfl
@[simp] theorem State.withTables_mem (s : State) (v : Tables) : (s.withTables v).mem = s.mem := rfl
@[simp] theorem State.withTables_tlb (s : State) (v : Tables) : (s.withTables v).tlb = s.tlb := rfl
@[simp] theorem State.withTables_fetch (s : State) (v : Tables) : (s.withTables v).fetch = s.fetch := rfl
@[simp] theorem State.withTables_pend (s : State) (v : Tables) : (s.withTables v).pend = s.pend := rfl
@[simp] theorem State.withTables_pins (s : State) (v : Tables) : (s.withTables v).pins = s.pins := rfl
@[simp] theorem State.withTables_params (s : State) (v : Tables) : (s.withTables v).params = s.params := rfl
@[simp] theorem State.withTables_io (s : State) (v : Tables) : (s.withTables v).io = s.io := rfl
@[simp] theorem State.withTables_draws (s : State) (v : Tables) : (s.withTables v).draws = s.draws := rfl

/-! ## withDebug -/

@[simp] theorem State.withDebug_regs (s : State) (v : Debug) : (s.withDebug v).regs = s.regs := rfl
@[simp] theorem State.withDebug_eip (s : State) (v : Debug) : (s.withDebug v).eip = s.eip := rfl
@[simp] theorem State.withDebug_flags (s : State) (v : Debug) : (s.withDebug v).flags = s.flags := rfl
@[simp] theorem State.withDebug_cpl (s : State) (v : Debug) : (s.withDebug v).cpl = s.cpl := rfl
@[simp] theorem State.withDebug_segs (s : State) (v : Debug) : (s.withDebug v).segs = s.segs := rfl
@[simp] theorem State.withDebug_cr0 (s : State) (v : Debug) : (s.withDebug v).cr0 = s.cr0 := rfl
@[simp] theorem State.withDebug_cr2 (s : State) (v : Debug) : (s.withDebug v).cr2 = s.cr2 := rfl
@[simp] theorem State.withDebug_cr3 (s : State) (v : Debug) : (s.withDebug v).cr3 = s.cr3 := rfl
@[simp] theorem State.withDebug_tables (s : State) (v : Debug) : (s.withDebug v).tables = s.tables := rfl
@[simp] theorem State.withDebug_dregs (s : State) (v : Debug) : (s.withDebug v).dregs = v := rfl
@[simp] theorem State.withDebug_test (s : State) (v : Debug) : (s.withDebug v).test = s.test := rfl
@[simp] theorem State.withDebug_mem (s : State) (v : Debug) : (s.withDebug v).mem = s.mem := rfl
@[simp] theorem State.withDebug_tlb (s : State) (v : Debug) : (s.withDebug v).tlb = s.tlb := rfl
@[simp] theorem State.withDebug_fetch (s : State) (v : Debug) : (s.withDebug v).fetch = s.fetch := rfl
@[simp] theorem State.withDebug_pend (s : State) (v : Debug) : (s.withDebug v).pend = s.pend := rfl
@[simp] theorem State.withDebug_pins (s : State) (v : Debug) : (s.withDebug v).pins = s.pins := rfl
@[simp] theorem State.withDebug_params (s : State) (v : Debug) : (s.withDebug v).params = s.params := rfl
@[simp] theorem State.withDebug_io (s : State) (v : Debug) : (s.withDebug v).io = s.io := rfl
@[simp] theorem State.withDebug_draws (s : State) (v : Debug) : (s.withDebug v).draws = s.draws := rfl

/-! ## withTest -/

@[simp] theorem State.withTest_regs (s : State) (v : TestRegs) : (s.withTest v).regs = s.regs := rfl
@[simp] theorem State.withTest_eip (s : State) (v : TestRegs) : (s.withTest v).eip = s.eip := rfl
@[simp] theorem State.withTest_flags (s : State) (v : TestRegs) : (s.withTest v).flags = s.flags := rfl
@[simp] theorem State.withTest_cpl (s : State) (v : TestRegs) : (s.withTest v).cpl = s.cpl := rfl
@[simp] theorem State.withTest_segs (s : State) (v : TestRegs) : (s.withTest v).segs = s.segs := rfl
@[simp] theorem State.withTest_cr0 (s : State) (v : TestRegs) : (s.withTest v).cr0 = s.cr0 := rfl
@[simp] theorem State.withTest_cr2 (s : State) (v : TestRegs) : (s.withTest v).cr2 = s.cr2 := rfl
@[simp] theorem State.withTest_cr3 (s : State) (v : TestRegs) : (s.withTest v).cr3 = s.cr3 := rfl
@[simp] theorem State.withTest_tables (s : State) (v : TestRegs) : (s.withTest v).tables = s.tables := rfl
@[simp] theorem State.withTest_dregs (s : State) (v : TestRegs) : (s.withTest v).dregs = s.dregs := rfl
@[simp] theorem State.withTest_test (s : State) (v : TestRegs) : (s.withTest v).test = v := rfl
@[simp] theorem State.withTest_mem (s : State) (v : TestRegs) : (s.withTest v).mem = s.mem := rfl
@[simp] theorem State.withTest_tlb (s : State) (v : TestRegs) : (s.withTest v).tlb = s.tlb := rfl
@[simp] theorem State.withTest_fetch (s : State) (v : TestRegs) : (s.withTest v).fetch = s.fetch := rfl
@[simp] theorem State.withTest_pend (s : State) (v : TestRegs) : (s.withTest v).pend = s.pend := rfl
@[simp] theorem State.withTest_pins (s : State) (v : TestRegs) : (s.withTest v).pins = s.pins := rfl
@[simp] theorem State.withTest_params (s : State) (v : TestRegs) : (s.withTest v).params = s.params := rfl
@[simp] theorem State.withTest_io (s : State) (v : TestRegs) : (s.withTest v).io = s.io := rfl
@[simp] theorem State.withTest_draws (s : State) (v : TestRegs) : (s.withTest v).draws = s.draws := rfl

/-! ## withMem -/

@[simp] theorem State.withMem_regs (s : State) (v : List Host.Cell) : (s.withMem v).regs = s.regs := rfl
@[simp] theorem State.withMem_eip (s : State) (v : List Host.Cell) : (s.withMem v).eip = s.eip := rfl
@[simp] theorem State.withMem_flags (s : State) (v : List Host.Cell) : (s.withMem v).flags = s.flags := rfl
@[simp] theorem State.withMem_cpl (s : State) (v : List Host.Cell) : (s.withMem v).cpl = s.cpl := rfl
@[simp] theorem State.withMem_segs (s : State) (v : List Host.Cell) : (s.withMem v).segs = s.segs := rfl
@[simp] theorem State.withMem_cr0 (s : State) (v : List Host.Cell) : (s.withMem v).cr0 = s.cr0 := rfl
@[simp] theorem State.withMem_cr2 (s : State) (v : List Host.Cell) : (s.withMem v).cr2 = s.cr2 := rfl
@[simp] theorem State.withMem_cr3 (s : State) (v : List Host.Cell) : (s.withMem v).cr3 = s.cr3 := rfl
@[simp] theorem State.withMem_tables (s : State) (v : List Host.Cell) : (s.withMem v).tables = s.tables := rfl
@[simp] theorem State.withMem_dregs (s : State) (v : List Host.Cell) : (s.withMem v).dregs = s.dregs := rfl
@[simp] theorem State.withMem_test (s : State) (v : List Host.Cell) : (s.withMem v).test = s.test := rfl
@[simp] theorem State.withMem_mem (s : State) (v : List Host.Cell) : (s.withMem v).mem = v := rfl
@[simp] theorem State.withMem_tlb (s : State) (v : List Host.Cell) : (s.withMem v).tlb = s.tlb := rfl
@[simp] theorem State.withMem_fetch (s : State) (v : List Host.Cell) : (s.withMem v).fetch = s.fetch := rfl
@[simp] theorem State.withMem_pend (s : State) (v : List Host.Cell) : (s.withMem v).pend = s.pend := rfl
@[simp] theorem State.withMem_pins (s : State) (v : List Host.Cell) : (s.withMem v).pins = s.pins := rfl
@[simp] theorem State.withMem_params (s : State) (v : List Host.Cell) : (s.withMem v).params = s.params := rfl
@[simp] theorem State.withMem_io (s : State) (v : List Host.Cell) : (s.withMem v).io = s.io := rfl
@[simp] theorem State.withMem_draws (s : State) (v : List Host.Cell) : (s.withMem v).draws = s.draws := rfl

/-! ## withTlb -/

@[simp] theorem State.withTlb_regs (s : State) (v : List TlbEntry) : (s.withTlb v).regs = s.regs := rfl
@[simp] theorem State.withTlb_eip (s : State) (v : List TlbEntry) : (s.withTlb v).eip = s.eip := rfl
@[simp] theorem State.withTlb_flags (s : State) (v : List TlbEntry) : (s.withTlb v).flags = s.flags := rfl
@[simp] theorem State.withTlb_cpl (s : State) (v : List TlbEntry) : (s.withTlb v).cpl = s.cpl := rfl
@[simp] theorem State.withTlb_segs (s : State) (v : List TlbEntry) : (s.withTlb v).segs = s.segs := rfl
@[simp] theorem State.withTlb_cr0 (s : State) (v : List TlbEntry) : (s.withTlb v).cr0 = s.cr0 := rfl
@[simp] theorem State.withTlb_cr2 (s : State) (v : List TlbEntry) : (s.withTlb v).cr2 = s.cr2 := rfl
@[simp] theorem State.withTlb_cr3 (s : State) (v : List TlbEntry) : (s.withTlb v).cr3 = s.cr3 := rfl
@[simp] theorem State.withTlb_tables (s : State) (v : List TlbEntry) : (s.withTlb v).tables = s.tables := rfl
@[simp] theorem State.withTlb_dregs (s : State) (v : List TlbEntry) : (s.withTlb v).dregs = s.dregs := rfl
@[simp] theorem State.withTlb_test (s : State) (v : List TlbEntry) : (s.withTlb v).test = s.test := rfl
@[simp] theorem State.withTlb_mem (s : State) (v : List TlbEntry) : (s.withTlb v).mem = s.mem := rfl
@[simp] theorem State.withTlb_tlb (s : State) (v : List TlbEntry) : (s.withTlb v).tlb = v := rfl
@[simp] theorem State.withTlb_fetch (s : State) (v : List TlbEntry) : (s.withTlb v).fetch = s.fetch := rfl
@[simp] theorem State.withTlb_pend (s : State) (v : List TlbEntry) : (s.withTlb v).pend = s.pend := rfl
@[simp] theorem State.withTlb_pins (s : State) (v : List TlbEntry) : (s.withTlb v).pins = s.pins := rfl
@[simp] theorem State.withTlb_params (s : State) (v : List TlbEntry) : (s.withTlb v).params = s.params := rfl
@[simp] theorem State.withTlb_io (s : State) (v : List TlbEntry) : (s.withTlb v).io = s.io := rfl
@[simp] theorem State.withTlb_draws (s : State) (v : List TlbEntry) : (s.withTlb v).draws = s.draws := rfl

/-! ## withFetch -/

@[simp] theorem State.withFetch_regs (s : State) (v : Fetch) : (s.withFetch v).regs = s.regs := rfl
@[simp] theorem State.withFetch_eip (s : State) (v : Fetch) : (s.withFetch v).eip = s.eip := rfl
@[simp] theorem State.withFetch_flags (s : State) (v : Fetch) : (s.withFetch v).flags = s.flags := rfl
@[simp] theorem State.withFetch_cpl (s : State) (v : Fetch) : (s.withFetch v).cpl = s.cpl := rfl
@[simp] theorem State.withFetch_segs (s : State) (v : Fetch) : (s.withFetch v).segs = s.segs := rfl
@[simp] theorem State.withFetch_cr0 (s : State) (v : Fetch) : (s.withFetch v).cr0 = s.cr0 := rfl
@[simp] theorem State.withFetch_cr2 (s : State) (v : Fetch) : (s.withFetch v).cr2 = s.cr2 := rfl
@[simp] theorem State.withFetch_cr3 (s : State) (v : Fetch) : (s.withFetch v).cr3 = s.cr3 := rfl
@[simp] theorem State.withFetch_tables (s : State) (v : Fetch) : (s.withFetch v).tables = s.tables := rfl
@[simp] theorem State.withFetch_dregs (s : State) (v : Fetch) : (s.withFetch v).dregs = s.dregs := rfl
@[simp] theorem State.withFetch_test (s : State) (v : Fetch) : (s.withFetch v).test = s.test := rfl
@[simp] theorem State.withFetch_mem (s : State) (v : Fetch) : (s.withFetch v).mem = s.mem := rfl
@[simp] theorem State.withFetch_tlb (s : State) (v : Fetch) : (s.withFetch v).tlb = s.tlb := rfl
@[simp] theorem State.withFetch_fetch (s : State) (v : Fetch) : (s.withFetch v).fetch = v := rfl
@[simp] theorem State.withFetch_pend (s : State) (v : Fetch) : (s.withFetch v).pend = s.pend := rfl
@[simp] theorem State.withFetch_pins (s : State) (v : Fetch) : (s.withFetch v).pins = s.pins := rfl
@[simp] theorem State.withFetch_params (s : State) (v : Fetch) : (s.withFetch v).params = s.params := rfl
@[simp] theorem State.withFetch_io (s : State) (v : Fetch) : (s.withFetch v).io = s.io := rfl
@[simp] theorem State.withFetch_draws (s : State) (v : Fetch) : (s.withFetch v).draws = s.draws := rfl

/-! ## withPend -/

@[simp] theorem State.withPend_regs (s : State) (v : Pend) : (s.withPend v).regs = s.regs := rfl
@[simp] theorem State.withPend_eip (s : State) (v : Pend) : (s.withPend v).eip = s.eip := rfl
@[simp] theorem State.withPend_flags (s : State) (v : Pend) : (s.withPend v).flags = s.flags := rfl
@[simp] theorem State.withPend_cpl (s : State) (v : Pend) : (s.withPend v).cpl = s.cpl := rfl
@[simp] theorem State.withPend_segs (s : State) (v : Pend) : (s.withPend v).segs = s.segs := rfl
@[simp] theorem State.withPend_cr0 (s : State) (v : Pend) : (s.withPend v).cr0 = s.cr0 := rfl
@[simp] theorem State.withPend_cr2 (s : State) (v : Pend) : (s.withPend v).cr2 = s.cr2 := rfl
@[simp] theorem State.withPend_cr3 (s : State) (v : Pend) : (s.withPend v).cr3 = s.cr3 := rfl
@[simp] theorem State.withPend_tables (s : State) (v : Pend) : (s.withPend v).tables = s.tables := rfl
@[simp] theorem State.withPend_dregs (s : State) (v : Pend) : (s.withPend v).dregs = s.dregs := rfl
@[simp] theorem State.withPend_test (s : State) (v : Pend) : (s.withPend v).test = s.test := rfl
@[simp] theorem State.withPend_mem (s : State) (v : Pend) : (s.withPend v).mem = s.mem := rfl
@[simp] theorem State.withPend_tlb (s : State) (v : Pend) : (s.withPend v).tlb = s.tlb := rfl
@[simp] theorem State.withPend_fetch (s : State) (v : Pend) : (s.withPend v).fetch = s.fetch := rfl
@[simp] theorem State.withPend_pend (s : State) (v : Pend) : (s.withPend v).pend = v := rfl
@[simp] theorem State.withPend_pins (s : State) (v : Pend) : (s.withPend v).pins = s.pins := rfl
@[simp] theorem State.withPend_params (s : State) (v : Pend) : (s.withPend v).params = s.params := rfl
@[simp] theorem State.withPend_io (s : State) (v : Pend) : (s.withPend v).io = s.io := rfl
@[simp] theorem State.withPend_draws (s : State) (v : Pend) : (s.withPend v).draws = s.draws := rfl

/-! ## withPins -/

@[simp] theorem State.withPins_regs (s : State) (v : Pins) : (s.withPins v).regs = s.regs := rfl
@[simp] theorem State.withPins_eip (s : State) (v : Pins) : (s.withPins v).eip = s.eip := rfl
@[simp] theorem State.withPins_flags (s : State) (v : Pins) : (s.withPins v).flags = s.flags := rfl
@[simp] theorem State.withPins_cpl (s : State) (v : Pins) : (s.withPins v).cpl = s.cpl := rfl
@[simp] theorem State.withPins_segs (s : State) (v : Pins) : (s.withPins v).segs = s.segs := rfl
@[simp] theorem State.withPins_cr0 (s : State) (v : Pins) : (s.withPins v).cr0 = s.cr0 := rfl
@[simp] theorem State.withPins_cr2 (s : State) (v : Pins) : (s.withPins v).cr2 = s.cr2 := rfl
@[simp] theorem State.withPins_cr3 (s : State) (v : Pins) : (s.withPins v).cr3 = s.cr3 := rfl
@[simp] theorem State.withPins_tables (s : State) (v : Pins) : (s.withPins v).tables = s.tables := rfl
@[simp] theorem State.withPins_dregs (s : State) (v : Pins) : (s.withPins v).dregs = s.dregs := rfl
@[simp] theorem State.withPins_test (s : State) (v : Pins) : (s.withPins v).test = s.test := rfl
@[simp] theorem State.withPins_mem (s : State) (v : Pins) : (s.withPins v).mem = s.mem := rfl
@[simp] theorem State.withPins_tlb (s : State) (v : Pins) : (s.withPins v).tlb = s.tlb := rfl
@[simp] theorem State.withPins_fetch (s : State) (v : Pins) : (s.withPins v).fetch = s.fetch := rfl
@[simp] theorem State.withPins_pend (s : State) (v : Pins) : (s.withPins v).pend = s.pend := rfl
@[simp] theorem State.withPins_pins (s : State) (v : Pins) : (s.withPins v).pins = v := rfl
@[simp] theorem State.withPins_params (s : State) (v : Pins) : (s.withPins v).params = s.params := rfl
@[simp] theorem State.withPins_io (s : State) (v : Pins) : (s.withPins v).io = s.io := rfl
@[simp] theorem State.withPins_draws (s : State) (v : Pins) : (s.withPins v).draws = s.draws := rfl

/-! ## withIo -/

@[simp] theorem State.withIo_regs (s : State) (v : List IoEvent) : (s.withIo v).regs = s.regs := rfl
@[simp] theorem State.withIo_eip (s : State) (v : List IoEvent) : (s.withIo v).eip = s.eip := rfl
@[simp] theorem State.withIo_flags (s : State) (v : List IoEvent) : (s.withIo v).flags = s.flags := rfl
@[simp] theorem State.withIo_cpl (s : State) (v : List IoEvent) : (s.withIo v).cpl = s.cpl := rfl
@[simp] theorem State.withIo_segs (s : State) (v : List IoEvent) : (s.withIo v).segs = s.segs := rfl
@[simp] theorem State.withIo_cr0 (s : State) (v : List IoEvent) : (s.withIo v).cr0 = s.cr0 := rfl
@[simp] theorem State.withIo_cr2 (s : State) (v : List IoEvent) : (s.withIo v).cr2 = s.cr2 := rfl
@[simp] theorem State.withIo_cr3 (s : State) (v : List IoEvent) : (s.withIo v).cr3 = s.cr3 := rfl
@[simp] theorem State.withIo_tables (s : State) (v : List IoEvent) : (s.withIo v).tables = s.tables := rfl
@[simp] theorem State.withIo_dregs (s : State) (v : List IoEvent) : (s.withIo v).dregs = s.dregs := rfl
@[simp] theorem State.withIo_test (s : State) (v : List IoEvent) : (s.withIo v).test = s.test := rfl
@[simp] theorem State.withIo_mem (s : State) (v : List IoEvent) : (s.withIo v).mem = s.mem := rfl
@[simp] theorem State.withIo_tlb (s : State) (v : List IoEvent) : (s.withIo v).tlb = s.tlb := rfl
@[simp] theorem State.withIo_fetch (s : State) (v : List IoEvent) : (s.withIo v).fetch = s.fetch := rfl
@[simp] theorem State.withIo_pend (s : State) (v : List IoEvent) : (s.withIo v).pend = s.pend := rfl
@[simp] theorem State.withIo_pins (s : State) (v : List IoEvent) : (s.withIo v).pins = s.pins := rfl
@[simp] theorem State.withIo_params (s : State) (v : List IoEvent) : (s.withIo v).params = s.params := rfl
@[simp] theorem State.withIo_io (s : State) (v : List IoEvent) : (s.withIo v).io = v := rfl
@[simp] theorem State.withIo_draws (s : State) (v : List IoEvent) : (s.withIo v).draws = s.draws := rfl

/-! ## withDraws -/

@[simp] theorem State.withDraws_regs (s : State) (v : Nat) : (s.withDraws v).regs = s.regs := rfl
@[simp] theorem State.withDraws_eip (s : State) (v : Nat) : (s.withDraws v).eip = s.eip := rfl
@[simp] theorem State.withDraws_flags (s : State) (v : Nat) : (s.withDraws v).flags = s.flags := rfl
@[simp] theorem State.withDraws_cpl (s : State) (v : Nat) : (s.withDraws v).cpl = s.cpl := rfl
@[simp] theorem State.withDraws_segs (s : State) (v : Nat) : (s.withDraws v).segs = s.segs := rfl
@[simp] theorem State.withDraws_cr0 (s : State) (v : Nat) : (s.withDraws v).cr0 = s.cr0 := rfl
@[simp] theorem State.withDraws_cr2 (s : State) (v : Nat) : (s.withDraws v).cr2 = s.cr2 := rfl
@[simp] theorem State.withDraws_cr3 (s : State) (v : Nat) : (s.withDraws v).cr3 = s.cr3 := rfl
@[simp] theorem State.withDraws_tables (s : State) (v : Nat) : (s.withDraws v).tables = s.tables := rfl
@[simp] theorem State.withDraws_dregs (s : State) (v : Nat) : (s.withDraws v).dregs = s.dregs := rfl
@[simp] theorem State.withDraws_test (s : State) (v : Nat) : (s.withDraws v).test = s.test := rfl
@[simp] theorem State.withDraws_mem (s : State) (v : Nat) : (s.withDraws v).mem = s.mem := rfl
@[simp] theorem State.withDraws_tlb (s : State) (v : Nat) : (s.withDraws v).tlb = s.tlb := rfl
@[simp] theorem State.withDraws_fetch (s : State) (v : Nat) : (s.withDraws v).fetch = s.fetch := rfl
@[simp] theorem State.withDraws_pend (s : State) (v : Nat) : (s.withDraws v).pend = s.pend := rfl
@[simp] theorem State.withDraws_pins (s : State) (v : Nat) : (s.withDraws v).pins = s.pins := rfl
@[simp] theorem State.withDraws_params (s : State) (v : Nat) : (s.withDraws v).params = s.params := rfl
@[simp] theorem State.withDraws_io (s : State) (v : Nat) : (s.withDraws v).io = s.io := rfl
@[simp] theorem State.withDraws_draws (s : State) (v : Nat) : (s.withDraws v).draws = v := rfl

/-! ## withPfx -/

@[simp] theorem State.withPfx_regs (s : State) (p : Prefixes) : (s.withPfx p).regs = s.regs := rfl
@[simp] theorem State.withPfx_eip (s : State) (p : Prefixes) : (s.withPfx p).eip = s.eip := rfl
@[simp] theorem State.withPfx_flags (s : State) (p : Prefixes) : (s.withPfx p).flags = s.flags := rfl
@[simp] theorem State.withPfx_cpl (s : State) (p : Prefixes) : (s.withPfx p).cpl = s.cpl := rfl
@[simp] theorem State.withPfx_segs (s : State) (p : Prefixes) : (s.withPfx p).segs = s.segs := rfl
@[simp] theorem State.withPfx_cr0 (s : State) (p : Prefixes) : (s.withPfx p).cr0 = s.cr0 := rfl
@[simp] theorem State.withPfx_cr2 (s : State) (p : Prefixes) : (s.withPfx p).cr2 = s.cr2 := rfl
@[simp] theorem State.withPfx_cr3 (s : State) (p : Prefixes) : (s.withPfx p).cr3 = s.cr3 := rfl
@[simp] theorem State.withPfx_tables (s : State) (p : Prefixes) : (s.withPfx p).tables = s.tables := rfl
@[simp] theorem State.withPfx_dregs (s : State) (p : Prefixes) : (s.withPfx p).dregs = s.dregs := rfl
@[simp] theorem State.withPfx_test (s : State) (p : Prefixes) : (s.withPfx p).test = s.test := rfl
@[simp] theorem State.withPfx_mem (s : State) (p : Prefixes) : (s.withPfx p).mem = s.mem := rfl
@[simp] theorem State.withPfx_tlb (s : State) (p : Prefixes) : (s.withPfx p).tlb = s.tlb := rfl
@[simp] theorem State.withPfx_fetch (s : State) (p : Prefixes) : (s.withPfx p).fetch = { s.fetch with pfx := p } := rfl
@[simp] theorem State.withPfx_pend (s : State) (p : Prefixes) : (s.withPfx p).pend = s.pend := rfl
@[simp] theorem State.withPfx_pins (s : State) (p : Prefixes) : (s.withPfx p).pins = s.pins := rfl
@[simp] theorem State.withPfx_params (s : State) (p : Prefixes) : (s.withPfx p).params = s.params := rfl
@[simp] theorem State.withPfx_io (s : State) (p : Prefixes) : (s.withPfx p).io = s.io := rfl
@[simp] theorem State.withPfx_draws (s : State) (p : Prefixes) : (s.withPfx p).draws = s.draws := rfl

/-! ## withStale -/

@[simp] theorem State.withStale_regs (s : State) (l : List Host.Cell) : (s.withStale l).regs = s.regs := rfl
@[simp] theorem State.withStale_eip (s : State) (l : List Host.Cell) : (s.withStale l).eip = s.eip := rfl
@[simp] theorem State.withStale_flags (s : State) (l : List Host.Cell) : (s.withStale l).flags = s.flags := rfl
@[simp] theorem State.withStale_cpl (s : State) (l : List Host.Cell) : (s.withStale l).cpl = s.cpl := rfl
@[simp] theorem State.withStale_segs (s : State) (l : List Host.Cell) : (s.withStale l).segs = s.segs := rfl
@[simp] theorem State.withStale_cr0 (s : State) (l : List Host.Cell) : (s.withStale l).cr0 = s.cr0 := rfl
@[simp] theorem State.withStale_cr2 (s : State) (l : List Host.Cell) : (s.withStale l).cr2 = s.cr2 := rfl
@[simp] theorem State.withStale_cr3 (s : State) (l : List Host.Cell) : (s.withStale l).cr3 = s.cr3 := rfl
@[simp] theorem State.withStale_tables (s : State) (l : List Host.Cell) : (s.withStale l).tables = s.tables := rfl
@[simp] theorem State.withStale_dregs (s : State) (l : List Host.Cell) : (s.withStale l).dregs = s.dregs := rfl
@[simp] theorem State.withStale_test (s : State) (l : List Host.Cell) : (s.withStale l).test = s.test := rfl
@[simp] theorem State.withStale_mem (s : State) (l : List Host.Cell) : (s.withStale l).mem = s.mem := rfl
@[simp] theorem State.withStale_tlb (s : State) (l : List Host.Cell) : (s.withStale l).tlb = s.tlb := rfl
@[simp] theorem State.withStale_fetch (s : State) (l : List Host.Cell) :
    (s.withStale l).fetch = { s.fetch with stale := l } := rfl
@[simp] theorem State.withStale_pend (s : State) (l : List Host.Cell) : (s.withStale l).pend = s.pend := rfl
@[simp] theorem State.withStale_pins (s : State) (l : List Host.Cell) : (s.withStale l).pins = s.pins := rfl
@[simp] theorem State.withStale_params (s : State) (l : List Host.Cell) : (s.withStale l).params = s.params := rfl
@[simp] theorem State.withStale_io (s : State) (l : List Host.Cell) : (s.withStale l).io = s.io := rfl
@[simp] theorem State.withStale_draws (s : State) (l : List Host.Cell) : (s.withStale l).draws = s.draws := rfl

/-! ## withOldMode -/

@[simp] theorem State.withOldMode_regs (s : State) (v : Bool) : (s.withOldMode v).regs = s.regs := rfl
@[simp] theorem State.withOldMode_eip (s : State) (v : Bool) : (s.withOldMode v).eip = s.eip := rfl
@[simp] theorem State.withOldMode_flags (s : State) (v : Bool) : (s.withOldMode v).flags = s.flags := rfl
@[simp] theorem State.withOldMode_cpl (s : State) (v : Bool) : (s.withOldMode v).cpl = s.cpl := rfl
@[simp] theorem State.withOldMode_segs (s : State) (v : Bool) : (s.withOldMode v).segs = s.segs := rfl
@[simp] theorem State.withOldMode_cr0 (s : State) (v : Bool) : (s.withOldMode v).cr0 = s.cr0 := rfl
@[simp] theorem State.withOldMode_cr2 (s : State) (v : Bool) : (s.withOldMode v).cr2 = s.cr2 := rfl
@[simp] theorem State.withOldMode_cr3 (s : State) (v : Bool) : (s.withOldMode v).cr3 = s.cr3 := rfl
@[simp] theorem State.withOldMode_tables (s : State) (v : Bool) : (s.withOldMode v).tables = s.tables := rfl
@[simp] theorem State.withOldMode_dregs (s : State) (v : Bool) : (s.withOldMode v).dregs = s.dregs := rfl
@[simp] theorem State.withOldMode_test (s : State) (v : Bool) : (s.withOldMode v).test = s.test := rfl
@[simp] theorem State.withOldMode_mem (s : State) (v : Bool) : (s.withOldMode v).mem = s.mem := rfl
@[simp] theorem State.withOldMode_tlb (s : State) (v : Bool) : (s.withOldMode v).tlb = s.tlb := rfl
@[simp] theorem State.withOldMode_fetch (s : State) (v : Bool) :
    (s.withOldMode v).fetch = { s.fetch with oldMode := v } := rfl
@[simp] theorem State.withOldMode_pend (s : State) (v : Bool) : (s.withOldMode v).pend = s.pend := rfl
@[simp] theorem State.withOldMode_pins (s : State) (v : Bool) : (s.withOldMode v).pins = s.pins := rfl
@[simp] theorem State.withOldMode_params (s : State) (v : Bool) : (s.withOldMode v).params = s.params := rfl
@[simp] theorem State.withOldMode_io (s : State) (v : Bool) : (s.withOldMode v).io = s.io := rfl
@[simp] theorem State.withOldMode_draws (s : State) (v : Bool) : (s.withOldMode v).draws = s.draws := rfl

/-! ## withHeld -/

@[simp] theorem State.withHeld_regs (s : State) (v : Option Held) : (s.withHeld v).regs = s.regs := rfl
@[simp] theorem State.withHeld_eip (s : State) (v : Option Held) : (s.withHeld v).eip = s.eip := rfl
@[simp] theorem State.withHeld_flags (s : State) (v : Option Held) : (s.withHeld v).flags = s.flags := rfl
@[simp] theorem State.withHeld_cpl (s : State) (v : Option Held) : (s.withHeld v).cpl = s.cpl := rfl
@[simp] theorem State.withHeld_segs (s : State) (v : Option Held) : (s.withHeld v).segs = s.segs := rfl
@[simp] theorem State.withHeld_cr0 (s : State) (v : Option Held) : (s.withHeld v).cr0 = s.cr0 := rfl
@[simp] theorem State.withHeld_cr2 (s : State) (v : Option Held) : (s.withHeld v).cr2 = s.cr2 := rfl
@[simp] theorem State.withHeld_cr3 (s : State) (v : Option Held) : (s.withHeld v).cr3 = s.cr3 := rfl
@[simp] theorem State.withHeld_tables (s : State) (v : Option Held) : (s.withHeld v).tables = s.tables := rfl
@[simp] theorem State.withHeld_dregs (s : State) (v : Option Held) : (s.withHeld v).dregs = s.dregs := rfl
@[simp] theorem State.withHeld_test (s : State) (v : Option Held) : (s.withHeld v).test = s.test := rfl
@[simp] theorem State.withHeld_mem (s : State) (v : Option Held) : (s.withHeld v).mem = s.mem := rfl
@[simp] theorem State.withHeld_tlb (s : State) (v : Option Held) : (s.withHeld v).tlb = s.tlb := rfl
@[simp] theorem State.withHeld_fetch (s : State) (v : Option Held) :
    (s.withHeld v).fetch = { s.fetch with held := v } := rfl
@[simp] theorem State.withHeld_pend (s : State) (v : Option Held) : (s.withHeld v).pend = s.pend := rfl
@[simp] theorem State.withHeld_pins (s : State) (v : Option Held) : (s.withHeld v).pins = s.pins := rfl
@[simp] theorem State.withHeld_params (s : State) (v : Option Held) : (s.withHeld v).params = s.params := rfl
@[simp] theorem State.withHeld_io (s : State) (v : Option Held) : (s.withHeld v).io = s.io := rfl
@[simp] theorem State.withHeld_draws (s : State) (v : Option Held) : (s.withHeld v).draws = s.draws := rfl

/-! ## inOwnMode -/

@[simp] theorem State.inOwnMode_regs (s : State) : (s.inOwnMode).regs = s.regs := rfl
@[simp] theorem State.inOwnMode_eip (s : State) : (s.inOwnMode).eip = s.eip := rfl
@[simp] theorem State.inOwnMode_flags (s : State) : (s.inOwnMode).flags = s.flags := rfl
@[simp] theorem State.inOwnMode_cpl (s : State) : (s.inOwnMode).cpl = s.cpl := rfl
@[simp] theorem State.inOwnMode_segs (s : State) : (s.inOwnMode).segs = s.segs := rfl
@[simp] theorem State.inOwnMode_cr0 (s : State) : (s.inOwnMode).cr0 = s.cr0 := rfl
@[simp] theorem State.inOwnMode_cr2 (s : State) : (s.inOwnMode).cr2 = s.cr2 := rfl
@[simp] theorem State.inOwnMode_cr3 (s : State) : (s.inOwnMode).cr3 = s.cr3 := rfl
@[simp] theorem State.inOwnMode_tables (s : State) : (s.inOwnMode).tables = s.tables := rfl
@[simp] theorem State.inOwnMode_dregs (s : State) : (s.inOwnMode).dregs = s.dregs := rfl
@[simp] theorem State.inOwnMode_test (s : State) : (s.inOwnMode).test = s.test := rfl
@[simp] theorem State.inOwnMode_mem (s : State) : (s.inOwnMode).mem = s.mem := rfl
@[simp] theorem State.inOwnMode_tlb (s : State) : (s.inOwnMode).tlb = s.tlb := rfl
@[simp] theorem State.inOwnMode_fetch (s : State) :
    (s.inOwnMode).fetch = { s.fetch with oldMode := false } := rfl
@[simp] theorem State.inOwnMode_pend (s : State) : (s.inOwnMode).pend = s.pend := rfl
@[simp] theorem State.inOwnMode_pins (s : State) : (s.inOwnMode).pins = s.pins := rfl
@[simp] theorem State.inOwnMode_params (s : State) : (s.inOwnMode).params = s.params := rfl
@[simp] theorem State.inOwnMode_io (s : State) : (s.inOwnMode).io = s.io := rfl
@[simp] theorem State.inOwnMode_draws (s : State) : (s.inOwnMode).draws = s.draws := rfl

/-! ## settled -/

@[simp] theorem State.settled_regs (s : State) : (s.settled).regs = s.regs := rfl
@[simp] theorem State.settled_eip (s : State) : (s.settled).eip = s.eip := rfl
@[simp] theorem State.settled_segs (s : State) : (s.settled).segs = s.segs := rfl
@[simp] theorem State.settled_cr0 (s : State) : (s.settled).cr0 = s.cr0 := rfl
@[simp] theorem State.settled_cr2 (s : State) : (s.settled).cr2 = s.cr2 := rfl
@[simp] theorem State.settled_cr3 (s : State) : (s.settled).cr3 = s.cr3 := rfl
@[simp] theorem State.settled_tables (s : State) : (s.settled).tables = s.tables := rfl
@[simp] theorem State.settled_dregs (s : State) : (s.settled).dregs = s.dregs := rfl
@[simp] theorem State.settled_test (s : State) : (s.settled).test = s.test := rfl
@[simp] theorem State.settled_mem (s : State) : (s.settled).mem = s.mem := rfl
@[simp] theorem State.settled_tlb (s : State) : (s.settled).tlb = s.tlb := rfl
@[simp] theorem State.settled_fetch (s : State) : (s.settled).fetch = s.fetch := rfl
@[simp] theorem State.settled_pend (s : State) : (s.settled).pend = s.pend := rfl
@[simp] theorem State.settled_pins (s : State) : (s.settled).pins = s.pins := rfl
@[simp] theorem State.settled_params (s : State) : (s.settled).params = s.params := rfl
@[simp] theorem State.settled_io (s : State) : (s.settled).io = s.io := rfl
@[simp] theorem State.settled_draws (s : State) : (s.settled).draws = s.draws := rfl
@[simp] theorem State.settled_flags (s : State) :
    (s.settled).flags = { s.flags with vm := s.flags.vm && s.cr0.pe } := rfl
@[simp] theorem State.settled_cpl (s : State) : (s.settled).cpl = bif s.cr0.pe then s.cpl else 0 := rfl

/-- Where PE is set nothing is settled. -/
theorem State.settled_of_pe {s : State} (h : s.cr0.pe = true) : s.settled = s := by
  simp [State.settled, h, State.withCpl, State.withFlags]

/-! ## flushQueue -/

@[simp] theorem State.flushQueue_regs (s : State) : (s.flushQueue).regs = s.regs := rfl
@[simp] theorem State.flushQueue_eip (s : State) : (s.flushQueue).eip = s.eip := rfl
@[simp] theorem State.flushQueue_flags (s : State) : (s.flushQueue).flags = s.flags := rfl
@[simp] theorem State.flushQueue_cpl (s : State) : (s.flushQueue).cpl = s.cpl := rfl
@[simp] theorem State.flushQueue_segs (s : State) : (s.flushQueue).segs = s.segs := rfl
@[simp] theorem State.flushQueue_cr0 (s : State) : (s.flushQueue).cr0 = s.cr0 := rfl
@[simp] theorem State.flushQueue_cr2 (s : State) : (s.flushQueue).cr2 = s.cr2 := rfl
@[simp] theorem State.flushQueue_cr3 (s : State) : (s.flushQueue).cr3 = s.cr3 := rfl
@[simp] theorem State.flushQueue_tables (s : State) : (s.flushQueue).tables = s.tables := rfl
@[simp] theorem State.flushQueue_dregs (s : State) : (s.flushQueue).dregs = s.dregs := rfl
@[simp] theorem State.flushQueue_test (s : State) : (s.flushQueue).test = s.test := rfl
@[simp] theorem State.flushQueue_mem (s : State) : (s.flushQueue).mem = s.mem := rfl
@[simp] theorem State.flushQueue_tlb (s : State) : (s.flushQueue).tlb = s.tlb := rfl
@[simp] theorem State.flushQueue_fetch (s : State) : (s.flushQueue).fetch = { s.fetch with stale := [], ahead := [], window := none } := rfl
@[simp] theorem State.flushQueue_pend (s : State) : (s.flushQueue).pend = s.pend := rfl
@[simp] theorem State.flushQueue_pins (s : State) : (s.flushQueue).pins = s.pins := rfl
@[simp] theorem State.flushQueue_params (s : State) : (s.flushQueue).params = s.params := rfl
@[simp] theorem State.flushQueue_io (s : State) : (s.flushQueue).io = s.io := rfl
@[simp] theorem State.flushQueue_draws (s : State) : (s.flushQueue).draws = s.draws := rfl

/-! ## withShadow -/

@[simp] theorem State.withShadow_regs (s : State) (v : Shadow) : (s.withShadow v).regs = s.regs := rfl
@[simp] theorem State.withShadow_eip (s : State) (v : Shadow) : (s.withShadow v).eip = s.eip := rfl
@[simp] theorem State.withShadow_flags (s : State) (v : Shadow) : (s.withShadow v).flags = s.flags := rfl
@[simp] theorem State.withShadow_cpl (s : State) (v : Shadow) : (s.withShadow v).cpl = s.cpl := rfl
@[simp] theorem State.withShadow_segs (s : State) (v : Shadow) : (s.withShadow v).segs = s.segs := rfl
@[simp] theorem State.withShadow_cr0 (s : State) (v : Shadow) : (s.withShadow v).cr0 = s.cr0 := rfl
@[simp] theorem State.withShadow_cr2 (s : State) (v : Shadow) : (s.withShadow v).cr2 = s.cr2 := rfl
@[simp] theorem State.withShadow_cr3 (s : State) (v : Shadow) : (s.withShadow v).cr3 = s.cr3 := rfl
@[simp] theorem State.withShadow_tables (s : State) (v : Shadow) : (s.withShadow v).tables = s.tables := rfl
@[simp] theorem State.withShadow_dregs (s : State) (v : Shadow) : (s.withShadow v).dregs = s.dregs := rfl
@[simp] theorem State.withShadow_test (s : State) (v : Shadow) : (s.withShadow v).test = s.test := rfl
@[simp] theorem State.withShadow_mem (s : State) (v : Shadow) : (s.withShadow v).mem = s.mem := rfl
@[simp] theorem State.withShadow_tlb (s : State) (v : Shadow) : (s.withShadow v).tlb = s.tlb := rfl
@[simp] theorem State.withShadow_fetch (s : State) (v : Shadow) : (s.withShadow v).fetch = s.fetch := rfl
@[simp] theorem State.withShadow_pend (s : State) (v : Shadow) : (s.withShadow v).pend = { s.pend with shadow := v } := rfl
@[simp] theorem State.withShadow_pins (s : State) (v : Shadow) : (s.withShadow v).pins = s.pins := rfl
@[simp] theorem State.withShadow_params (s : State) (v : Shadow) : (s.withShadow v).params = s.params := rfl
@[simp] theorem State.withShadow_io (s : State) (v : Shadow) : (s.withShadow v).io = s.io := rfl
@[simp] theorem State.withShadow_draws (s : State) (v : Shadow) : (s.withShadow v).draws = s.draws := rfl

/-! ## withActivity -/

@[simp] theorem State.withActivity_regs (s : State) (v : Activity) : (s.withActivity v).regs = s.regs := rfl
@[simp] theorem State.withActivity_eip (s : State) (v : Activity) : (s.withActivity v).eip = s.eip := rfl
@[simp] theorem State.withActivity_flags (s : State) (v : Activity) : (s.withActivity v).flags = s.flags := rfl
@[simp] theorem State.withActivity_cpl (s : State) (v : Activity) : (s.withActivity v).cpl = s.cpl := rfl
@[simp] theorem State.withActivity_segs (s : State) (v : Activity) : (s.withActivity v).segs = s.segs := rfl
@[simp] theorem State.withActivity_cr0 (s : State) (v : Activity) : (s.withActivity v).cr0 = s.cr0 := rfl
@[simp] theorem State.withActivity_cr2 (s : State) (v : Activity) : (s.withActivity v).cr2 = s.cr2 := rfl
@[simp] theorem State.withActivity_cr3 (s : State) (v : Activity) : (s.withActivity v).cr3 = s.cr3 := rfl
@[simp] theorem State.withActivity_tables (s : State) (v : Activity) : (s.withActivity v).tables = s.tables := rfl
@[simp] theorem State.withActivity_dregs (s : State) (v : Activity) : (s.withActivity v).dregs = s.dregs := rfl
@[simp] theorem State.withActivity_test (s : State) (v : Activity) : (s.withActivity v).test = s.test := rfl
@[simp] theorem State.withActivity_mem (s : State) (v : Activity) : (s.withActivity v).mem = s.mem := rfl
@[simp] theorem State.withActivity_tlb (s : State) (v : Activity) : (s.withActivity v).tlb = s.tlb := rfl
@[simp] theorem State.withActivity_fetch (s : State) (v : Activity) : (s.withActivity v).fetch = s.fetch := rfl
@[simp] theorem State.withActivity_pend (s : State) (v : Activity) :
    (s.withActivity v).pend = { s.pend with activity := v } := rfl
@[simp] theorem State.withActivity_pins (s : State) (v : Activity) : (s.withActivity v).pins = s.pins := rfl
@[simp] theorem State.withActivity_params (s : State) (v : Activity) : (s.withActivity v).params = s.params := rfl
@[simp] theorem State.withActivity_io (s : State) (v : Activity) : (s.withActivity v).io = s.io := rfl
@[simp] theorem State.withActivity_draws (s : State) (v : Activity) : (s.withActivity v).draws = s.draws := rfl

/-! ## setReg -/

@[simp] theorem State.setReg_regs (s : State) (k : Width) (g : Gpr) (v : BitVec k.bits) :
    (s.setReg k g v).regs = s.regs.write k g v := rfl
@[simp] theorem State.setReg_eip (s : State) (k : Width) (g : Gpr) (v : BitVec k.bits) : (s.setReg k g v).eip = s.eip := rfl
@[simp] theorem State.setReg_flags (s : State) (k : Width) (g : Gpr) (v : BitVec k.bits) :
    (s.setReg k g v).flags = s.flags := rfl
@[simp] theorem State.setReg_cpl (s : State) (k : Width) (g : Gpr) (v : BitVec k.bits) : (s.setReg k g v).cpl = s.cpl := rfl
@[simp] theorem State.setReg_segs (s : State) (k : Width) (g : Gpr) (v : BitVec k.bits) : (s.setReg k g v).segs = s.segs := rfl
@[simp] theorem State.setReg_cr0 (s : State) (k : Width) (g : Gpr) (v : BitVec k.bits) : (s.setReg k g v).cr0 = s.cr0 := rfl
@[simp] theorem State.setReg_cr2 (s : State) (k : Width) (g : Gpr) (v : BitVec k.bits) : (s.setReg k g v).cr2 = s.cr2 := rfl
@[simp] theorem State.setReg_cr3 (s : State) (k : Width) (g : Gpr) (v : BitVec k.bits) : (s.setReg k g v).cr3 = s.cr3 := rfl
@[simp] theorem State.setReg_tables (s : State) (k : Width) (g : Gpr) (v : BitVec k.bits) :
    (s.setReg k g v).tables = s.tables := rfl
@[simp] theorem State.setReg_dregs (s : State) (k : Width) (g : Gpr) (v : BitVec k.bits) :
    (s.setReg k g v).dregs = s.dregs := rfl
@[simp] theorem State.setReg_test (s : State) (k : Width) (g : Gpr) (v : BitVec k.bits) : (s.setReg k g v).test = s.test := rfl
@[simp] theorem State.setReg_mem (s : State) (k : Width) (g : Gpr) (v : BitVec k.bits) : (s.setReg k g v).mem = s.mem := rfl
@[simp] theorem State.setReg_tlb (s : State) (k : Width) (g : Gpr) (v : BitVec k.bits) : (s.setReg k g v).tlb = s.tlb := rfl
@[simp] theorem State.setReg_fetch (s : State) (k : Width) (g : Gpr) (v : BitVec k.bits) :
    (s.setReg k g v).fetch = s.fetch := rfl
@[simp] theorem State.setReg_pend (s : State) (k : Width) (g : Gpr) (v : BitVec k.bits) : (s.setReg k g v).pend = s.pend := rfl
@[simp] theorem State.setReg_pins (s : State) (k : Width) (g : Gpr) (v : BitVec k.bits) : (s.setReg k g v).pins = s.pins := rfl
@[simp] theorem State.setReg_params (s : State) (k : Width) (g : Gpr) (v : BitVec k.bits) :
    (s.setReg k g v).params = s.params := rfl
@[simp] theorem State.setReg_io (s : State) (k : Width) (g : Gpr) (v : BitVec k.bits) : (s.setReg k g v).io = s.io := rfl
@[simp] theorem State.setReg_draws (s : State) (k : Width) (g : Gpr) (v : BitVec k.bits) :
    (s.setReg k g v).draws = s.draws := rfl

/-! ## setSeg -/

@[simp] theorem State.setSeg_regs (s : State) (r : Sreg) (v : SegReg) : (s.setSeg r v).regs = s.regs := rfl
@[simp] theorem State.setSeg_eip (s : State) (r : Sreg) (v : SegReg) : (s.setSeg r v).eip = s.eip := rfl
@[simp] theorem State.setSeg_flags (s : State) (r : Sreg) (v : SegReg) : (s.setSeg r v).flags = s.flags := rfl
@[simp] theorem State.setSeg_cpl (s : State) (r : Sreg) (v : SegReg) : (s.setSeg r v).cpl = s.cpl := rfl
@[simp] theorem State.setSeg_segs (s : State) (r : Sreg) (v : SegReg) : (s.setSeg r v).segs = s.segs.set r v := rfl
@[simp] theorem State.setSeg_cr0 (s : State) (r : Sreg) (v : SegReg) : (s.setSeg r v).cr0 = s.cr0 := rfl
@[simp] theorem State.setSeg_cr2 (s : State) (r : Sreg) (v : SegReg) : (s.setSeg r v).cr2 = s.cr2 := rfl
@[simp] theorem State.setSeg_cr3 (s : State) (r : Sreg) (v : SegReg) : (s.setSeg r v).cr3 = s.cr3 := rfl
@[simp] theorem State.setSeg_tables (s : State) (r : Sreg) (v : SegReg) : (s.setSeg r v).tables = s.tables := rfl
@[simp] theorem State.setSeg_dregs (s : State) (r : Sreg) (v : SegReg) : (s.setSeg r v).dregs = s.dregs := rfl
@[simp] theorem State.setSeg_test (s : State) (r : Sreg) (v : SegReg) : (s.setSeg r v).test = s.test := rfl
@[simp] theorem State.setSeg_mem (s : State) (r : Sreg) (v : SegReg) : (s.setSeg r v).mem = s.mem := rfl
@[simp] theorem State.setSeg_tlb (s : State) (r : Sreg) (v : SegReg) : (s.setSeg r v).tlb = s.tlb := rfl
@[simp] theorem State.setSeg_fetch (s : State) (r : Sreg) (v : SegReg) : (s.setSeg r v).fetch = s.fetch := rfl
@[simp] theorem State.setSeg_pend (s : State) (r : Sreg) (v : SegReg) : (s.setSeg r v).pend = s.pend := rfl
@[simp] theorem State.setSeg_pins (s : State) (r : Sreg) (v : SegReg) : (s.setSeg r v).pins = s.pins := rfl
@[simp] theorem State.setSeg_params (s : State) (r : Sreg) (v : SegReg) : (s.setSeg r v).params = s.params := rfl
@[simp] theorem State.setSeg_io (s : State) (r : Sreg) (v : SegReg) : (s.setSeg r v).io = s.io := rfl
@[simp] theorem State.setSeg_draws (s : State) (r : Sreg) (v : SegReg) : (s.setSeg r v).draws = s.draws := rfl

/-! ## mapFlags -/

@[simp] theorem State.mapFlags_regs (s : State) (g : Flags → Flags) : (s.mapFlags g).regs = s.regs := rfl
@[simp] theorem State.mapFlags_eip (s : State) (g : Flags → Flags) : (s.mapFlags g).eip = s.eip := rfl
@[simp] theorem State.mapFlags_flags (s : State) (g : Flags → Flags) : (s.mapFlags g).flags = g s.flags := rfl
@[simp] theorem State.mapFlags_cpl (s : State) (g : Flags → Flags) : (s.mapFlags g).cpl = s.cpl := rfl
@[simp] theorem State.mapFlags_segs (s : State) (g : Flags → Flags) : (s.mapFlags g).segs = s.segs := rfl
@[simp] theorem State.mapFlags_cr0 (s : State) (g : Flags → Flags) : (s.mapFlags g).cr0 = s.cr0 := rfl
@[simp] theorem State.mapFlags_cr2 (s : State) (g : Flags → Flags) : (s.mapFlags g).cr2 = s.cr2 := rfl
@[simp] theorem State.mapFlags_cr3 (s : State) (g : Flags → Flags) : (s.mapFlags g).cr3 = s.cr3 := rfl
@[simp] theorem State.mapFlags_tables (s : State) (g : Flags → Flags) : (s.mapFlags g).tables = s.tables := rfl
@[simp] theorem State.mapFlags_dregs (s : State) (g : Flags → Flags) : (s.mapFlags g).dregs = s.dregs := rfl
@[simp] theorem State.mapFlags_test (s : State) (g : Flags → Flags) : (s.mapFlags g).test = s.test := rfl
@[simp] theorem State.mapFlags_mem (s : State) (g : Flags → Flags) : (s.mapFlags g).mem = s.mem := rfl
@[simp] theorem State.mapFlags_tlb (s : State) (g : Flags → Flags) : (s.mapFlags g).tlb = s.tlb := rfl
@[simp] theorem State.mapFlags_fetch (s : State) (g : Flags → Flags) : (s.mapFlags g).fetch = s.fetch := rfl
@[simp] theorem State.mapFlags_pend (s : State) (g : Flags → Flags) : (s.mapFlags g).pend = s.pend := rfl
@[simp] theorem State.mapFlags_pins (s : State) (g : Flags → Flags) : (s.mapFlags g).pins = s.pins := rfl
@[simp] theorem State.mapFlags_params (s : State) (g : Flags → Flags) : (s.mapFlags g).params = s.params := rfl
@[simp] theorem State.mapFlags_io (s : State) (g : Flags → Flags) : (s.mapFlags g).io = s.io := rfl
@[simp] theorem State.mapFlags_draws (s : State) (g : Flags → Flags) : (s.mapFlags g).draws = s.draws := rfl

/-! ## abandon -/

@[simp] theorem State.abandon_regs (s : State) (t : State) : (s.abandon t).regs = s.regs := by simp [State.abandon]
@[simp] theorem State.abandon_eip (s : State) (t : State) : (s.abandon t).eip = s.eip := by simp [State.abandon]
@[simp] theorem State.abandon_flags (s : State) (t : State) : (s.abandon t).flags = s.flags := by simp [State.abandon]
@[simp] theorem State.abandon_cpl (s : State) (t : State) : (s.abandon t).cpl = s.cpl := by simp [State.abandon]
@[simp] theorem State.abandon_segs (s : State) (t : State) : (s.abandon t).segs = s.segs := by simp [State.abandon]
@[simp] theorem State.abandon_cr0 (s : State) (t : State) : (s.abandon t).cr0 = s.cr0 := by simp [State.abandon]
@[simp] theorem State.abandon_cr2 (s : State) (t : State) : (s.abandon t).cr2 = t.cr2 := by simp [State.abandon]
@[simp] theorem State.abandon_cr3 (s : State) (t : State) : (s.abandon t).cr3 = s.cr3 := by simp [State.abandon]
@[simp] theorem State.abandon_tables (s : State) (t : State) : (s.abandon t).tables = s.tables := by simp [State.abandon]
@[simp] theorem State.abandon_dregs (s : State) (t : State) : (s.abandon t).dregs = t.dregs := by simp [State.abandon]
@[simp] theorem State.abandon_test (s : State) (t : State) : (s.abandon t).test = s.test := by simp [State.abandon]
@[simp] theorem State.abandon_mem (s : State) (t : State) : (s.abandon t).mem = t.mem := by simp [State.abandon]
@[simp] theorem State.abandon_tlb (s : State) (t : State) : (s.abandon t).tlb = t.tlb := by simp [State.abandon]
@[simp] theorem State.abandon_fetch (s : State) (t : State) :
    (s.abandon t).fetch = { s.fetch with stale := t.fetch.stale } := by simp [State.abandon]
@[simp] theorem State.abandon_pend (s : State) (t : State) : (s.abandon t).pend = s.pend := by simp [State.abandon]
@[simp] theorem State.abandon_pins (s : State) (t : State) : (s.abandon t).pins = s.pins := by simp [State.abandon]
@[simp] theorem State.abandon_params (s : State) (t : State) : (s.abandon t).params = s.params := by simp [State.abandon]
@[simp] theorem State.abandon_io (s : State) (t : State) : (s.abandon t).io = s.io := by simp [State.abandon]
@[simp] theorem State.abandon_draws (s : State) (t : State) : (s.abandon t).draws = t.draws := by simp [State.abandon]

/-! ## atHandler -/

@[simp] theorem State.atHandler_regs (s : State) : (s.atHandler).regs = s.regs := by simp [State.atHandler]
@[simp] theorem State.atHandler_eip (s : State) : (s.atHandler).eip = s.eip := by simp [State.atHandler]
@[simp] theorem State.atHandler_flags (s : State) : (s.atHandler).flags = s.flags := by simp [State.atHandler]
@[simp] theorem State.atHandler_cpl (s : State) : (s.atHandler).cpl = s.cpl := by simp [State.atHandler]
@[simp] theorem State.atHandler_segs (s : State) : (s.atHandler).segs = s.segs := by simp [State.atHandler]
@[simp] theorem State.atHandler_cr0 (s : State) : (s.atHandler).cr0 = s.cr0 := by simp [State.atHandler]
@[simp] theorem State.atHandler_cr2 (s : State) : (s.atHandler).cr2 = s.cr2 := by simp [State.atHandler]
@[simp] theorem State.atHandler_cr3 (s : State) : (s.atHandler).cr3 = s.cr3 := by simp [State.atHandler]
@[simp] theorem State.atHandler_tables (s : State) : (s.atHandler).tables = s.tables := by simp [State.atHandler]
@[simp] theorem State.atHandler_dregs (s : State) : (s.atHandler).dregs = s.dregs := by simp [State.atHandler]
@[simp] theorem State.atHandler_test (s : State) : (s.atHandler).test = s.test := by simp [State.atHandler]
@[simp] theorem State.atHandler_mem (s : State) : (s.atHandler).mem = s.mem := by simp [State.atHandler]
@[simp] theorem State.atHandler_tlb (s : State) : (s.atHandler).tlb = s.tlb := by simp [State.atHandler]
@[simp] theorem State.atHandler_fetch (s : State) :
    (s.atHandler).fetch =
      { s.fetch with pfx := Prefixes.empty, stale := [], ahead := [], window := none, oldMode := false, held := none } := by
  simp [State.atHandler]
@[simp] theorem State.atHandler_pend (s : State) :
    (s.atHandler).pend = { s.pend with shadow := .none, activity := .running } := by simp [State.atHandler]
@[simp] theorem State.atHandler_pins (s : State) : (s.atHandler).pins = s.pins := by simp [State.atHandler]
@[simp] theorem State.atHandler_params (s : State) : (s.atHandler).params = s.params := by simp [State.atHandler]
@[simp] theorem State.atHandler_io (s : State) : (s.atHandler).io = s.io := by simp [State.atHandler]
@[simp] theorem State.atHandler_draws (s : State) : (s.atHandler).draws = s.draws := by simp [State.atHandler]

/-! ## shutDown -/

@[simp] theorem State.shutDown_regs (s : State) : (s.shutDown).regs = s.regs := rfl
@[simp] theorem State.shutDown_eip (s : State) : (s.shutDown).eip = s.eip := rfl
@[simp] theorem State.shutDown_flags (s : State) : (s.shutDown).flags = s.flags := rfl
@[simp] theorem State.shutDown_cpl (s : State) : (s.shutDown).cpl = s.cpl := rfl
@[simp] theorem State.shutDown_segs (s : State) : (s.shutDown).segs = s.segs := rfl
@[simp] theorem State.shutDown_cr0 (s : State) : (s.shutDown).cr0 = s.cr0 := rfl
@[simp] theorem State.shutDown_cr2 (s : State) : (s.shutDown).cr2 = s.cr2 := rfl
@[simp] theorem State.shutDown_cr3 (s : State) : (s.shutDown).cr3 = s.cr3 := rfl
@[simp] theorem State.shutDown_tables (s : State) : (s.shutDown).tables = s.tables := rfl
@[simp] theorem State.shutDown_dregs (s : State) : (s.shutDown).dregs = s.dregs := rfl
@[simp] theorem State.shutDown_test (s : State) : (s.shutDown).test = s.test := rfl
@[simp] theorem State.shutDown_mem (s : State) : (s.shutDown).mem = s.mem := rfl
@[simp] theorem State.shutDown_tlb (s : State) : (s.shutDown).tlb = s.tlb := rfl
@[simp] theorem State.shutDown_fetch (s : State) : (s.shutDown).fetch = { s.fetch with pfx := Prefixes.empty } := rfl
@[simp] theorem State.shutDown_pend (s : State) : (s.shutDown).pend = { s.pend with activity := .shutdown } := rfl
@[simp] theorem State.shutDown_pins (s : State) : (s.shutDown).pins = s.pins := rfl
@[simp] theorem State.shutDown_params (s : State) : (s.shutDown).params = s.params := rfl
@[simp] theorem State.shutDown_io (s : State) : (s.shutDown).io = s.io := rfl
@[simp] theorem State.shutDown_draws (s : State) : (s.shutDown).draws = s.draws := rfl

/-! ## retire -/

@[simp] theorem State.retire_regs (s : State) (s0 : State) (fin : Ending) :
    (s.retire s0 fin).regs = s.regs := by simp [State.retire]
@[simp] theorem State.retire_eip (s : State) (s0 : State) (fin : Ending) :
    (s.retire s0 fin).eip = s.eip := by simp [State.retire]
@[simp] theorem State.retire_flags (s : State) (s0 : State) (fin : Ending) :
    (s.retire s0 fin).flags = { s.flags with rf := s.flags.rf && fin.keepRf } := by simp [State.retire]
@[simp] theorem State.retire_cpl (s : State) (s0 : State) (fin : Ending) :
    (s.retire s0 fin).cpl = s.cpl := by simp [State.retire]
@[simp] theorem State.retire_segs (s : State) (s0 : State) (fin : Ending) :
    (s.retire s0 fin).segs = s.segs := by simp [State.retire]
@[simp] theorem State.retire_cr0 (s : State) (s0 : State) (fin : Ending) :
    (s.retire s0 fin).cr0 = s.cr0 := by simp [State.retire]
@[simp] theorem State.retire_cr2 (s : State) (s0 : State) (fin : Ending) :
    (s.retire s0 fin).cr2 = s.cr2 := by simp [State.retire]
@[simp] theorem State.retire_cr3 (s : State) (s0 : State) (fin : Ending) :
    (s.retire s0 fin).cr3 = s.cr3 := by simp [State.retire]
@[simp] theorem State.retire_tables (s : State) (s0 : State) (fin : Ending) :
    (s.retire s0 fin).tables = s.tables := by simp [State.retire]
@[simp] theorem State.retire_dregs (s : State) (s0 : State) (fin : Ending) :
    (s.retire s0 fin).dregs = s.dregs := by simp [State.retire]
@[simp] theorem State.retire_test (s : State) (s0 : State) (fin : Ending) :
    (s.retire s0 fin).test = s.test := by simp [State.retire]
@[simp] theorem State.retire_mem (s : State) (s0 : State) (fin : Ending) :
    (s.retire s0 fin).mem = s.mem := by simp [State.retire]
@[simp] theorem State.retire_tlb (s : State) (s0 : State) (fin : Ending) :
    (s.retire s0 fin).tlb = s.tlb := by simp [State.retire]
@[simp] theorem State.retire_fetch (s : State) (s0 : State) (fin : Ending) :
    (s.retire s0 fin).fetch =
      { s.fetch with pfx := Prefixes.empty, oldMode := false, held := bif fin.again then s.fetch.held else none } := by
  simp [State.retire]
@[simp] theorem State.retire_pend (s : State) (s0 : State) (fin : Ending) :
    (s.retire s0 fin).pend = { s.pend with bs := s.pend.bs || (s0.flags.tf && fin.step) } := by simp [State.retire]
@[simp] theorem State.retire_pins (s : State) (s0 : State) (fin : Ending) :
    (s.retire s0 fin).pins = s.pins := by simp [State.retire]
@[simp] theorem State.retire_params (s : State) (s0 : State) (fin : Ending) :
    (s.retire s0 fin).params = s.params := by simp [State.retire]
@[simp] theorem State.retire_io (s : State) (s0 : State) (fin : Ending) : (s.retire s0 fin).io = s.io := by simp [State.retire]
@[simp] theorem State.retire_draws (s : State) (s0 : State) (fin : Ending) :
    (s.retire s0 fin).draws = s.draws := by simp [State.retire]

end Sys2Proof.Machine
end

