-- ==== Sys2Proof/Laws/Monad.lean ====
section
/-!
SUPPORT. How a meaning evaluates: one lemma per primitive of `M`, and the relations between the state a computation starts in
and every state it can reach.
-/

namespace Sys2Proof.Machine

/-! ## Evaluation -/

@[simp] theorem M.pure_apply {α : Type} (a : α) (s : State) : (pure a : M α) s = .ok (a, s) := rfl

theorem M.bind_apply {α β : Type} (x : M α) (f : α → M β) (s : State) :
    (x >>= f) s = match x s with
      | .ok (a, t) => f a t
      | .error e => .error e := by
  show StateT.bind x f s = _
  unfold StateT.bind
  cases x s <;> rfl

theorem M.bind_ok {α β : Type} {x : M α} {f : α → M β} {s t : State} {a : α} (h : x s = .ok (a, t)) :
    (x >>= f) s = f a t := by simp [M.bind_apply, h]

theorem M.bind_error {α β : Type} {x : M α} {f : α → M β} {s : State} {e : Stop} (h : x s = .error e) :
    (x >>= f) s = .error e := by simp [M.bind_apply, h]

@[simp] theorem M.get_apply (s : State) : (get : M State) s = .ok (s, s) := rfl
@[simp] theorem update_apply (f : State → State) (s : State) : update f s = .ok ((), f s) := rfl
@[simp] theorem look_apply {α : Type} (f : State → α) (s : State) : look f s = .ok (f s, s) := rfl
@[simp] theorem drawBit_apply (s : State) : drawBit s = .ok (Config.freeBit s.draws, s.withDraws (s.draws + 1)) := rfl
@[simp] theorem drawBits_apply (n : Nat) (s : State) :
    drawBits n s = .ok (Config.freeBits n s.draws, s.withDraws (s.draws + 1)) := rfl
@[simp] theorem raise_apply {α : Type} (e : Exc) (s : State) : (raise e : M α) s = .error (.exc e s) := rfl
@[simp] theorem shutDown_apply {α : Type} (s : State) : (shutDown : M α) s = .error (.shutdown s) := rfl
@[simp] theorem stopFault_apply {α : Type} (f : Fault) (s : State) : (stopFault f : M α) s = .error (.fault f) := rfl
@[simp] theorem refuse_apply {α : Type} (r : Refusal) (s : State) : (refuse r : M α) s = .error (.refuse r) := rfl
@[simp] theorem check_true (e : Exc) (s : State) : check true e s = .ok ((), s) := rfl
@[simp] theorem check_false (e : Exc) (s : State) : check false e s = .error (.exc e s) := rfl

theorem check_ok {b : Bool} (e : Exc) (s : State) (h : b = true) : check b e s = .ok ((), s) := by simp [h]

theorem check_apply (b : Bool) (e : Exc) (s : State) :
    check b e s = if b then .ok ((), s) else .error (.exc e s) := by cases b <;> rfl

@[simp] theorem M.ite_apply {α : Type} (c : Prop) [Decidable c] (x y : M α) (s : State) :
    (if c then x else y) s = if c then x s else y s := by split <;> rfl

@[simp] theorem M.cond_apply {α : Type} (c : Bool) (x y : M α) (s : State) :
    (bif c then x else y) s = bif c then x s else y s := by cases c <;> rfl

/-- A bind that ends well: both parts did. -/
theorem M.bind_eq_ok {α β : Type} {x : M α} {f : α → M β} {s t : State} {b : β} :
    (x >>= f) s = .ok (b, t) ↔ ∃ a u, x s = .ok (a, u) ∧ f a u = .ok (b, t) := by
  rw [M.bind_apply]
  cases h : x s with
  | error e => simp
  | ok p =>
    obtain ⟨a, u⟩ := p
    constructor
    · exact fun h' => ⟨a, u, rfl, h'⟩
    · rintro ⟨a', u', h', h''⟩
      obtain ⟨rfl, rfl⟩ := Prod.mk.inj (Except.ok.inj h')
      exact h''

/-! ## The end of an instruction -/

theorem run_ok {body : M Unit} {s t : State} (h : body s = .ok ((), t)) : run body s = .next (t.retire s Ending.plain) := by
  simp [run, M.bind_ok h, conclude]

theorem runEnding_ok {body : M Ending} {s t : State} {fin : Ending} (h : body s = .ok (fin, t)) :
    runEnding body s = .next (t.retire s fin) := by simp [runEnding, h, conclude]

theorem run_exc {body : M Unit} {s t : State} {e : Exc} (h : body s = .error (.exc e t)) :
    run body s = take (e.event s) (s.abandon t) := by simp [run, M.bind_error h, conclude]

theorem runEnding_exc {body : M Ending} {s t : State} {e : Exc} (h : body s = .error (.exc e t)) :
    runEnding body s = take (e.event s) (s.abandon t) := by simp [runEnding, h, conclude]

/-! ## Every state a computation can reach -/

/-- The state a stop carries, if it carries one. -/
def Stop.state : Stop → Option State
  | .exc _ s => some s
  | .late _ s => some s
  | .shutdown s => some s
  | .fault _ => none
  | .refuse _ => none

/-- A computation started in `s` ends or stops with state `t`. -/
def Reaches {α : Type} (m : M α) (s t : State) : Prop :=
  (∃ a, m s = .ok (a, t)) ∨ ∃ e, m s = .error e ∧ e.state = some t

/-- Every state a computation reaches is related to the one it started in. -/
def Within {α : Type} (R : State → State → Prop) (m : M α) : Prop := ∀ s t, Reaches m s t → R s t

/-- A relation that composes. -/
structure Composes (R : State → State → Prop) : Prop where
  refl : ∀ s, R s s
  trans : ∀ {s t u}, R s t → R t u → R s u

theorem Within.of_ok {α : Type} {R : State → State → Prop} {m : M α} (w : Within R m) {s t : State} {a : α}
    (h : m s = .ok (a, t)) : R s t := w s t (.inl ⟨a, h⟩)

theorem Within.of_exc {α : Type} {R : State → State → Prop} {m : M α} (w : Within R m) {s t : State} {e : Exc}
    (h : m s = .error (.exc e t)) : R s t := w s t (.inr ⟨_, h, rfl⟩)

theorem Within.mono {α : Type} {R Q : State → State → Prop} {m : M α} (w : Within R m) (h : ∀ s t, R s t → Q s t) :
    Within Q m := fun s t r => h s t (w s t r)

section
variable {R : State → State → Prop} (c : Composes R)
include c

theorem Within.pure {α : Type} (a : α) : Within R (pure a : M α) := by
  rintro s t (⟨b, h⟩ | ⟨e, h, -⟩) <;> simp at h
  exact h.2 ▸ c.refl s

theorem Within.bind {α β : Type} {x : M α} {f : α → M β} (hx : Within R x) (hf : ∀ a, Within R (f a)) :
    Within R (x >>= f) := by
  intro s t r
  cases h : x s with
  | ok p =>
    obtain ⟨a, u⟩ := p
    simp only [Reaches, M.bind_ok h] at r
    exact c.trans (hx.of_ok h) (hf a u t r)
  | error e =>
    simp only [Reaches, M.bind_error h] at r
    rcases r with ⟨a, h'⟩ | ⟨e', h', hs⟩
    · simp at h'
    · exact hx s t (.inr ⟨e, h, by simpa using (Except.error.inj h') ▸ hs⟩)

theorem Within.get : Within R (MonadState.get : M State) := by
  rintro s t (⟨b, h⟩ | ⟨e, h, -⟩)
  · obtain ⟨-, rfl⟩ := Prod.mk.inj (Except.ok.inj ((M.get_apply s).symm.trans h))
    exact c.refl _
  · cases (M.get_apply s).symm.trans h

theorem Within.look {α : Type} (f : State → α) : Within R (look f) := by
  rintro s t (⟨b, h⟩ | ⟨e, h, -⟩) <;> simp at h
  exact h.2 ▸ c.refl s

theorem Within.raise {α : Type} (e : Exc) : Within R (raise e : M α) := by
  rintro s t (⟨b, h⟩ | ⟨e', h, hs⟩) <;> simp at h
  subst h
  simp [Stop.state] at hs
  exact hs ▸ c.refl s

theorem Within.shutDown {α : Type} : Within R (shutDown : M α) := by
  rintro s t (⟨b, h⟩ | ⟨e', h, hs⟩) <;> simp at h
  subst h
  simp [Stop.state] at hs
  exact hs ▸ c.refl s

omit c in
theorem Within.stopFault {α : Type} (f : Fault) : Within R (stopFault f : M α) := by
  rintro s t (⟨b, h⟩ | ⟨e', h, hs⟩) <;> simp at h
  subst h
  simp [Stop.state] at hs

omit c in
theorem Within.refuse {α : Type} (r : Refusal) : Within R (refuse r : M α) := by
  rintro s t (⟨b, h⟩ | ⟨e', h, hs⟩) <;> simp at h
  subst h
  simp [Stop.state] at hs

theorem Within.check (b : Bool) (e : Exc) : Within R (check b e) := by
  cases b
  · exact Within.raise c e
  · exact Within.pure c ()

omit c in
theorem Within.update {f : State → State} (h : ∀ s, R s (f s)) : Within R (update f) := by
  rintro s t (⟨b, h'⟩ | ⟨e, h', -⟩) <;> simp at h'
  exact h' ▸ h s

omit c in
theorem Within.drawBit (h : ∀ s, R s (s.withDraws (s.draws + 1))) : Within R drawBit := by
  rintro s t (⟨b, h'⟩ | ⟨e, h', -⟩) <;> simp at h'
  exact h'.2 ▸ h s

omit c in
theorem Within.drawBits (n : Nat) (h : ∀ s, R s (s.withDraws (s.draws + 1))) : Within R (drawBits n) := by
  rintro s t (⟨b, h'⟩ | ⟨e, h', -⟩) <;> simp at h'
  exact h'.2 ▸ h s

omit c in
theorem Within.ite {α : Type} {p : Prop} [Decidable p] {x y : M α} (hx : Within R x) (hy : Within R y) :
    Within R (if p then x else y) := by split <;> assumption

omit c in
theorem Within.cond {α : Type} {b : Bool} {x y : M α} (hx : Within R x) (hy : Within R y) :
    Within R (bif b then x else y) := by cases b <;> assumption

end

end Sys2Proof.Machine
end

