-- ==== Sys2Proof/Laws/Memory.lean ====
section
/-!
SUPPORT. Memory: reading after writing, the canonical form and that writing keeps it, equal memories, and what the bytes of a
value are.
-/

namespace Sys2Proof.Machine

/-! ## The canonical form -/

theorem Memory.wfFrom_cons {lo x : Nat} {v : Byte} {m : List Host.Cell} :
    Memory.wfFrom lo ((x, v) :: m) = true ↔ lo ≤ x ∧ v ≠ unwritten ∧ Memory.wfFrom (x + 1) m = true := by
  simp [Memory.wfFrom, and_assoc]

theorem Memory.wfFrom_mono {lo lo' : Nat} {m : List Host.Cell} (h : lo' ≤ lo) (w : Memory.wfFrom lo m = true) :
    Memory.wfFrom lo' m = true := by
  cases m with
  | nil => rfl
  | cons c m =>
    obtain ⟨hx, hv, hm⟩ := Memory.wfFrom_cons.mp w
    exact Memory.wfFrom_cons.mpr ⟨Nat.le_trans h hx, hv, hm⟩

theorem Memory.read_below {lo a : Nat} {m : List Host.Cell} (w : Memory.wfFrom lo m = true) (h : a < lo) :
    Memory.read m a = unwritten := by
  cases m with
  | nil => rfl
  | cons c m =>
    obtain ⟨hx, -, -⟩ := Memory.wfFrom_cons.mp w
    have h1 : ¬ a = c.1 := by omega
    have h2 : a < c.1 := by omega
    simp [Memory.read, h1, h2]

theorem Memory.write_wfFrom {lo a : Nat} {m : List Host.Cell} (v : Byte) (w : Memory.wfFrom lo m = true) (h : lo ≤ a) :
    Memory.wfFrom lo (Memory.write m a v) = true := by
  induction m generalizing lo with
  | nil =>
    unfold Memory.write
    split
    · rfl
    · exact Memory.wfFrom_cons.mpr ⟨h, by assumption, rfl⟩
  | cons c m ih =>
    obtain ⟨x, u⟩ := c
    obtain ⟨hx, hu, hm⟩ := Memory.wfFrom_cons.mp w
    unfold Memory.write
    split
    · split
      · exact w
      · exact Memory.wfFrom_cons.mpr ⟨h, by assumption, Memory.wfFrom_cons.mpr ⟨by omega, hu, hm⟩⟩
    · split
      · split
        · exact Memory.wfFrom_mono (by omega) hm
        · exact Memory.wfFrom_cons.mpr ⟨h, by assumption, by simp_all⟩
      · exact Memory.wfFrom_cons.mpr ⟨hx, hu, ih hm (by omega)⟩

/-- A write keeps the canonical form of memory. -/
theorem Memory.write_wf {m : List Host.Cell} (a : Nat) (v : Byte) (w : Memory.wf m = true) :
    Memory.wf (Memory.write m a v) = true := Memory.write_wfFrom v w (Nat.zero_le a)

/-! ## Reading after writing -/

theorem Memory.read_write_from {lo a : Nat} {m : List Host.Cell} (v : Byte) (w : Memory.wfFrom lo m = true) (b : Nat) :
    Memory.read (Memory.write m a v) b = if b = a then v else Memory.read m b := by
  induction m generalizing lo with
  | nil =>
    unfold Memory.write
    split <;> split <;> simp_all [Memory.read]
  | cons c m ih =>
    obtain ⟨x, u⟩ := c
    obtain ⟨-, -, hm⟩ := Memory.wfFrom_cons.mp w
    unfold Memory.write
    split
    · rename_i hax
      split
      · rename_i hv
        by_cases hb : b = a
        · simp [Memory.read, hb, hv, show ¬ a = x by omega, hax]
        · simp [hb]
      · by_cases hb : b = a
        · simp [Memory.read, hb]
        · by_cases hlt : b < a
          · simp [Memory.read, hb, hlt, show ¬ b = x by omega, show b < x by omega]
          · simp [Memory.read, hb, hlt]
    · split
      · rename_i hax
        subst hax
        split
        · rename_i hv
          by_cases hb : b = a
          · simp [hb, Memory.read_below hm (Nat.lt_succ_self a), hv]
          · by_cases hlt : b < a
            · simp [Memory.read, hb, hlt, Memory.read_below hm (show b < a + 1 by omega)]
            · simp [Memory.read, hb, hlt]
        · by_cases hb : b = a <;> simp [Memory.read, hb]
      · by_cases hx : b = x
        · simp [Memory.read, hx, show ¬ x = a by omega]
        · by_cases hlt : b < x
          · simp [Memory.read, hx, hlt, show ¬ b = a by omega]
          · simp [Memory.read, hx, hlt, ih hm]

/-- A read after a write: the value written at its address, what was there at every other. -/
theorem Memory.read_write {m : List Host.Cell} (a : Nat) (v : Byte) (w : Memory.wf m = true) (b : Nat) :
    Memory.read (Memory.write m a v) b = if b = a then v else Memory.read m b := Memory.read_write_from v w b

theorem Memory.ext_from {lo : Nat} {m n : List Host.Cell} (hm : Memory.wfFrom lo m = true) (hn : Memory.wfFrom lo n = true)
    (h : ∀ a, Memory.read m a = Memory.read n a) : m = n := by
  induction m generalizing lo n with
  | nil =>
    cases n with
    | nil => rfl
    | cons c n =>
      obtain ⟨-, hv, -⟩ := Memory.wfFrom_cons.mp hn
      exact absurd (by simpa [Memory.read] using (h c.1).symm) hv
  | cons c m ih =>
    obtain ⟨x, u⟩ := c
    obtain ⟨hx, hu, hm'⟩ := Memory.wfFrom_cons.mp hm
    cases n with
    | nil => exact absurd (by simpa [Memory.read] using h x) hu
    | cons d n =>
      obtain ⟨y, v⟩ := d
      obtain ⟨hy, hv, hn'⟩ := Memory.wfFrom_cons.mp hn
      have hxy : x = y := by
        rcases Nat.lt_trichotomy x y with hlt | he | hlt
        · exact absurd (by simpa [Memory.read, hlt, show ¬ x = y by omega] using h x) hu
        · exact he
        · exact absurd (by simpa [Memory.read, hlt, show ¬ y = x by omega] using (h y).symm) hv
      subst hxy
      have huv : u = v := by simpa [Memory.read] using h x
      subst huv
      have : m = n := ih hm' hn' fun a => by
        rcases Nat.lt_or_ge x a with hlt | hge
        · simpa [Memory.read, show ¬ a = x by omega, show ¬ a < x by omega] using h a
        · rw [Memory.read_below hm' (by omega), Memory.read_below hn' (by omega)]
      rw [this]

/-- Two memories in canonical form that read alike are equal. -/
theorem Memory.ext {m n : List Host.Cell} (hm : Memory.wf m = true) (hn : Memory.wf n = true)
    (h : ∀ a, Memory.read m a = Memory.read n a) : m = n := Memory.ext_from hm hn h

/-! ## Bytes of values (R102) -/

@[simp] theorem bytesOf_length (n : Nat) (v : Word) : (bytesOf n v).length = n := by
  induction n generalizing v with
  | zero => rfl
  | succ n ih => simp [bytesOf, ih]

@[simp] theorem addrsFrom_length (a : Word) (n : Nat) : (addrsFrom a n).length = n := by
  induction n generalizing a with
  | zero => rfl
  | succ n ih => simp [addrsFrom, ih]

/-- Four bytes hold a doubleword. -/
theorem wordOf_bytesOf_four (v : Word) : wordOf (bytesOf 4 v) = v := by
  apply BitVec.eq_of_getLsbD_eq
  intro i hi
  simp only [bytesOf, wordOf, BitVec.getLsbD_or, BitVec.getLsbD_shiftLeft, BitVec.getLsbD_setWidth,
    BitVec.getLsbD_ushiftRight, BitVec.ofNat_eq_ofNat, BitVec.getLsbD_zero]
  have a1 : i - 8 < 32 := by omega
  have a2 : i - 8 - 8 < 32 := by omega
  have a3 : i - 8 - 8 - 8 < 32 := by omega
  have : i < 8 ∨ (8 ≤ i ∧ i < 16) ∨ (16 ≤ i ∧ i < 24) ∨ (24 ≤ i ∧ i < 32) := by omega
  rcases this with h | ⟨h1, h2⟩ | ⟨h1, h2⟩ | ⟨h1, h2⟩
  · simp [h, hi]
  · simp [show ¬ i < 8 by omega, hi, a1, show i - 8 < 8 by omega, show 8 + (i - 8) = i by omega]
  · simp [show ¬ i < 8 by omega, show ¬ i - 8 < 8 by omega, hi, a1, a2, show i - 8 - 8 < 8 by omega,
      show 8 + (8 + (i - 8 - 8)) = i by omega]
  · simp [show ¬ i < 8 by omega, show ¬ i - 8 < 8 by omega, show ¬ i - 8 - 8 < 8 by omega, hi, a1, a2, a3,
      show i - 8 - 8 - 8 < 8 by omega, show 8 + (8 + (8 + (i - 8 - 8 - 8))) = i by omega]

end Sys2Proof.Machine
end

