-- ==== Sys2Proof/Laws/Frame.lean ====
section
/-!
SUPPORT. What the shared operations can change. A frame relation holds across every update but those of CPL, VM, PE and the
parameters; every shared operation that does not switch the mode stays within every such relation, whether it ends or stops.
-/

namespace Sys2Proof.Machine

/-- A relation that holds across every update that leaves CPL, VM, PE and the parameters alone; memory only by `Memory.write`. -/
structure Frame (R : State → State → Prop) : Prop where
  composes : Composes R
  regs : ∀ s v, R s (s.withRegs v)
  eip : ∀ s v, R s (s.withEip v)
  flags : ∀ s v, v.vm = s.flags.vm → R s (s.withFlags v)
  segs : ∀ s v, R s (s.withSegs v)
  cr0 : ∀ s v, v.pe = s.cr0.pe → R s (s.withCr0 v)
  cr2 : ∀ s v, R s (s.withCr2 v)
  cr3 : ∀ s v, R s (s.withCr3 v)
  tables : ∀ s v, R s (s.withTables v)
  dregs : ∀ s v, R s (s.withDebug v)
  test : ∀ s v, R s (s.withTest v)
  mem : ∀ s a v, R s (s.withMem (Memory.write s.mem a v))
  tlb : ∀ s v, R s (s.withTlb v)
  fetch : ∀ s v, R s (s.withFetch v)
  pend : ∀ s v, R s (s.withPend v)
  pins : ∀ s v, R s (s.withPins v)
  io : ∀ s v, R s (s.withIo v)
  draws : ∀ s v, R s (s.withDraws v)

/-- The canonical form of memory is kept. -/
def MemKept (s t : State) : Prop := Memory.wf s.mem = true → Memory.wf t.mem = true

/-- CPL, VM and PE are kept. -/
def ModeKept (s t : State) : Prop := t.cpl = s.cpl ∧ t.flags.vm = s.flags.vm ∧ t.cr0.pe = s.cr0.pe

theorem frame_memKept : Frame MemKept := by
  constructor <;> try (intros; exact fun w => w)
  · exact ⟨fun _ w => w, fun h1 h2 w => h2 (h1 w)⟩
  · intro s a v w
    exact Memory.write_wf a v w

theorem frame_modeKept : Frame ModeKept := by
  constructor <;> try (intros; exact ⟨rfl, rfl, rfl⟩)
  · exact ⟨fun _ => ⟨rfl, rfl, rfl⟩,
      fun h1 h2 => ⟨h2.1.trans h1.1, h2.2.1.trans h1.2.1, h2.2.2.trans h1.2.2⟩⟩
  · exact fun _ _ h => ⟨rfl, h, rfl⟩
  · exact fun _ _ h => ⟨rfl, rfl, h⟩

section
variable {R : State → State → Prop} (f : Frame R)
include f

theorem Frame.pure {α : Type} (a : α) : Within R (pure a : M α) := Within.pure f.composes a
theorem Frame.bind {α β : Type} {x : M α} {g : α → M β} (hx : Within R x) (hg : ∀ a, Within R (g a)) :
    Within R (x >>= g) := Within.bind f.composes hx hg
theorem Frame.get : Within R (MonadState.get : M State) := Within.get f.composes
theorem Frame.look {α : Type} (g : State → α) : Within R (look g) := Within.look f.composes g
theorem Frame.raise {α : Type} (e : Exc) : Within R (raise e : M α) := Within.raise f.composes e
theorem Frame.shutDown {α : Type} : Within R (shutDown : M α) := Within.shutDown f.composes
theorem Frame.check (b : Bool) (e : Exc) : Within R (check b e) := Within.check f.composes b e
theorem Frame.drawBit : Within R drawBit := Within.drawBit fun s => f.draws s _
theorem Frame.drawBits (n : Nat) : Within R (drawBits n) := Within.drawBits n fun s => f.draws s _
theorem Frame.trans {s t u : State} (h1 : R s t) (h2 : R t u) : R s u := f.composes.trans h1 h2

/-! ## Memory -/

theorem within_physReadByte (a : Word) : Within R (physReadByte a) := by
  rintro s t (⟨b, h⟩ | ⟨e, h, hs⟩) <;> simp only [physReadByte] at h <;> split at h <;> simp at h
  · exact h.2 ▸ f.composes.refl s
  · exact h.2 ▸ f.composes.refl s
  · subst h
    simp [Stop.state] at hs
  · subst h
    simp [Stop.state] at hs

theorem within_physRead (as : List Word) : Within R (physRead as) := by
  induction as with
  | nil => exact f.pure _
  | cons a as ih => exact f.bind (within_physReadByte f a) fun _ => f.bind ih fun _ => f.pure _

theorem within_physWriteByte (a : Word) (v : Byte) : Within R (physWriteByte a v) := by
  rintro s t (⟨b, h⟩ | ⟨e, h, hs⟩) <;> simp only [physWriteByte] at h <;> split at h <;> simp at h
  · subst h
    exact f.trans (f.fetch s _) (f.mem (s.withStale (staleAfter s a)) _ _)
  · exact h ▸ f.composes.refl s
  · subst h
    simp [Stop.state] at hs
  · subst h
    simp [Stop.state] at hs

theorem within_physWriteBytes (as : List Word) (bs : List Byte) : Within R (physWriteBytes as bs) := by
  induction as generalizing bs with
  | nil => exact f.pure _
  | cons a as ih =>
    cases bs with
    | nil => exact f.pure _
    | cons b bs => exact f.bind (within_physWriteByte f a b) fun _ => ih bs

/-- What a store does before its first byte: nothing, or it keeps the bytes ahead. -/
theorem Frame.beforeStore (s : State) (as : List Word) : R s (s.beforeStore as) := by
  unfold State.beforeStore
  cases s.pagingOn && as.any _
  · exact f.composes.refl s
  · exact f.fetch s _

theorem within_physWrite (as : List Word) (bs : List Byte) : Within R (physWrite as bs) :=
  f.bind (Within.update fun s => f.beforeStore s as) fun _ => within_physWriteBytes f as bs

theorem within_touchEntry (a : Word) : Within R (touchEntry a) := by
  unfold touchEntry
  repeat (first
    | with_reducible exact f.get | with_reducible exact f.look _ | with_reducible exact f.raise _
    | with_reducible exact f.shutDown | with_reducible exact f.check _ _ | with_reducible exact f.drawBit
    | with_reducible exact f.drawBits _ | with_reducible exact f.pure _ | with_reducible exact Within.refuse _
    | with_reducible exact Within.stopFault _ | with_reducible exact within_physRead f _
    | with_reducible refine f.bind ?_ fun _ => ?_ | apply Within.ite | apply Within.cond | (split))

theorem within_setEntryBits (a bits : Word) : Within R (setEntryBits a bits) := by
  unfold setEntryBits
  repeat (first
    | with_reducible exact f.get | with_reducible exact f.look _ | with_reducible exact f.raise _
    | with_reducible exact f.shutDown | with_reducible exact f.check _ _ | with_reducible exact f.drawBit
    | with_reducible exact f.drawBits _ | with_reducible exact f.pure _ | with_reducible exact Within.refuse _
    | with_reducible exact Within.stopFault _ | with_reducible exact within_physWriteBytes f _ _
    | with_reducible refine f.bind ?_ fun _ => ?_ | apply Within.ite | apply Within.cond | (split))

theorem within_pageFault {α : Type} (la : Word) (p w u : Bool) : Within R (pageFault la p w u : M α) := by
  unfold pageFault
  repeat (first
    | with_reducible exact f.get | with_reducible exact f.look _ | with_reducible exact f.raise _
    | with_reducible exact f.shutDown | with_reducible exact f.check _ _ | with_reducible exact f.drawBit
    | with_reducible exact f.drawBits _ | with_reducible exact f.pure _ | with_reducible exact Within.refuse _
    | with_reducible exact Within.stopFault _ | exact Within.update fun s => f.cr2 s _
    | with_reducible refine f.bind ?_ fun _ => ?_ | apply Within.ite | apply Within.cond | (split))

theorem within_walkTables (la : Word) (w u : Bool) : Within R (walkTables la w u) := by
  unfold walkTables
  repeat (first
    | with_reducible exact f.get | with_reducible exact f.look _ | with_reducible exact f.raise _
    | with_reducible exact f.shutDown | with_reducible exact f.check _ _ | with_reducible exact f.drawBit
    | with_reducible exact f.drawBits _ | with_reducible exact f.pure _ | with_reducible exact Within.refuse _
    | with_reducible exact Within.stopFault _ | with_reducible exact within_touchEntry f _
    | with_reducible exact within_setEntryBits f _ _ | with_reducible exact within_pageFault f _ _ _ _
    | exact Within.update fun s => f.tlb s _ | with_reducible refine f.bind ?_ fun _ => ?_ | apply Within.ite
    | apply Within.cond | (split))

theorem within_translate (la : Word) (w u : Bool) : Within R (translate la w u) := by
  unfold translate
  repeat (first
    | with_reducible exact f.get | with_reducible exact f.look _ | with_reducible exact f.raise _
    | with_reducible exact f.shutDown | with_reducible exact f.check _ _ | with_reducible exact f.drawBit
    | with_reducible exact f.drawBits _ | with_reducible exact f.pure _ | with_reducible exact Within.refuse _
    | with_reducible exact Within.stopFault _ | with_reducible exact within_walkTables f _ _ _
    | with_reducible refine f.bind ?_ fun _ => ?_ | apply Within.ite | apply Within.cond | (split))

theorem within_checkPage (la : Word) (u : Bool) : Within R (checkPage la u) := by
  unfold checkPage
  repeat (first
    | with_reducible exact f.get | with_reducible exact f.look _ | with_reducible exact f.raise _
    | with_reducible exact f.shutDown | with_reducible exact f.check _ _ | with_reducible exact f.drawBit
    | with_reducible exact f.drawBits _ | with_reducible exact f.pure _ | with_reducible exact Within.refuse _
    | with_reducible exact Within.stopFault _ | with_reducible exact within_walkTables f _ _ _
    | with_reducible refine f.bind ?_ fun _ => ?_ | apply Within.ite | apply Within.cond | (split))

theorem within_span (la : Word) (n : Nat) (w u : Bool) : Within R (span la n w u) := by
  unfold span
  repeat (first
    | with_reducible exact f.get | with_reducible exact f.look _ | with_reducible exact f.raise _
    | with_reducible exact f.shutDown | with_reducible exact f.check _ _ | with_reducible exact f.drawBit
    | with_reducible exact f.drawBits _ | with_reducible exact f.pure _ | with_reducible exact Within.refuse _
    | with_reducible exact Within.stopFault _ | with_reducible exact within_translate f _ _ _
    | with_reducible refine f.bind ?_ fun _ => ?_ | apply Within.ite | apply Within.cond | (split))

theorem within_checkWritable (la : Word) (n : Nat) (u : Bool) : Within R (checkWritable la n u) := by
  unfold checkWritable
  repeat (first
    | with_reducible exact f.get | with_reducible exact f.look _ | with_reducible exact f.raise _
    | with_reducible exact f.shutDown | with_reducible exact f.check _ _ | with_reducible exact f.drawBit
    | with_reducible exact f.drawBits _ | with_reducible exact f.pure _ | with_reducible exact Within.refuse _
    | with_reducible exact Within.stopFault _ | with_reducible exact within_checkPage f _ _
    | with_reducible refine f.bind ?_ fun _ => ?_ | apply Within.ite | apply Within.cond | (split))

theorem within_matchData (d : Debug) (i : Nat) (la : Word) (n : Nat) (w : Bool) : Within R (matchData d i la n w) := by
  unfold matchData
  repeat (first
    | with_reducible exact f.get | with_reducible exact f.look _ | with_reducible exact f.raise _
    | with_reducible exact f.shutDown | with_reducible exact f.check _ _ | with_reducible exact f.drawBit
    | with_reducible exact f.drawBits _ | with_reducible exact f.pure _ | with_reducible exact Within.refuse _
    | with_reducible exact Within.stopFault _ | with_reducible refine f.bind ?_ fun _ => ?_ | apply Within.ite
    | apply Within.cond | (split))

theorem within_noteMatch (i : Nat) (e : Bool) : Within R (noteMatch i e) := by
  refine Within.update fun s => ?_
  cases e <;> exact f.pend s _

theorem within_noteData (d : Debug) (la : Word) (n : Nat) (w : Bool) (i : Nat) : Within R (noteData d la n w i) := by
  induction i with
  | zero => exact f.pure _
  | succ i ih =>
    exact f.bind (within_matchData f d i la n w) fun _ =>
      f.bind (Within.cond (within_noteMatch f _ _) (f.pure _)) fun _ => ih

theorem within_noteAccess (la : Word) (n : Nat) (w : Bool) : Within R (noteAccess la n w) := by
  unfold noteAccess
  repeat (first
    | with_reducible exact f.get | with_reducible exact f.look _ | with_reducible exact f.raise _
    | with_reducible exact f.shutDown | with_reducible exact f.check _ _ | with_reducible exact f.drawBit
    | with_reducible exact f.drawBits _ | with_reducible exact f.pure _ | with_reducible exact Within.refuse _
    | with_reducible exact Within.stopFault _ | with_reducible exact within_noteData f _ _ _ _ _
    | with_reducible refine f.bind ?_ fun _ => ?_ | apply Within.ite | apply Within.cond | (split))

theorem within_planLinear (la : Word) (n : Nat) (w u : Bool) : Within R (planLinear la n w u) := by
  unfold planLinear
  repeat (first
    | with_reducible exact f.get | with_reducible exact f.look _ | with_reducible exact f.raise _
    | with_reducible exact f.shutDown | with_reducible exact f.check _ _ | with_reducible exact f.drawBit
    | with_reducible exact f.drawBits _ | with_reducible exact f.pure _ | with_reducible exact Within.refuse _
    | with_reducible exact Within.stopFault _ | with_reducible exact within_span f _ _ _ _
    | with_reducible exact within_noteAccess f _ _ _ | with_reducible refine f.bind ?_ fun _ => ?_ | apply Within.ite
    | apply Within.cond | (split))

theorem within_sysRead (la : Word) (n : Nat) : Within R (sysRead la n) := by
  unfold sysRead
  repeat (first
    | with_reducible exact f.get | with_reducible exact f.look _ | with_reducible exact f.raise _
    | with_reducible exact f.shutDown | with_reducible exact f.check _ _ | with_reducible exact f.drawBit
    | with_reducible exact f.drawBits _ | with_reducible exact f.pure _ | with_reducible exact Within.refuse _
    | with_reducible exact Within.stopFault _ | with_reducible exact within_planLinear f _ _ _ _
    | with_reducible exact within_physRead f _ | with_reducible refine f.bind ?_ fun _ => ?_ | apply Within.ite
    | apply Within.cond | (split))

theorem within_sysPlan (la : Word) (n : Nat) : Within R (sysPlan la n) := by
  unfold sysPlan
  repeat (first
    | with_reducible exact f.get | with_reducible exact f.look _ | with_reducible exact f.raise _
    | with_reducible exact f.shutDown | with_reducible exact f.check _ _ | with_reducible exact f.drawBit
    | with_reducible exact f.drawBits _ | with_reducible exact f.pure _ | with_reducible exact Within.refuse _
    | with_reducible exact Within.stopFault _ | with_reducible exact within_planLinear f _ _ _ _
    | with_reducible refine f.bind ?_ fun _ => ?_ | apply Within.ite | apply Within.cond | (split))

/-! ## Segments, descriptors and the stack -/

theorem within_planSeg (g : SegReg) (e : Exc) (u : Bool) (off : Word) (n : Nat) (w : Bool) : Within R (planSeg g e u off n w) := by
  unfold planSeg
  repeat (first
    | with_reducible exact f.get | with_reducible exact f.look _ | with_reducible exact f.raise _
    | with_reducible exact f.shutDown | with_reducible exact f.check _ _ | with_reducible exact f.drawBit
    | with_reducible exact f.drawBits _ | with_reducible exact f.pure _ | with_reducible exact Within.refuse _
    | with_reducible exact Within.stopFault _ | with_reducible exact within_planLinear f _ _ _ _
    | with_reducible refine f.bind ?_ fun _ => ?_ | apply Within.ite | apply Within.cond | (split))

theorem within_plan (r : Sreg) (off : Word) (n : Nat) (w : Bool) : Within R (plan r off n w) := by
  unfold plan
  repeat (first
    | with_reducible exact f.get | with_reducible exact f.look _ | with_reducible exact f.raise _
    | with_reducible exact f.shutDown | with_reducible exact f.check _ _ | with_reducible exact f.drawBit
    | with_reducible exact f.drawBits _ | with_reducible exact f.pure _ | with_reducible exact Within.refuse _
    | with_reducible exact Within.stopFault _ | with_reducible exact within_planSeg f _ _ _ _ _ _
    | with_reducible refine f.bind ?_ fun _ => ?_ | apply Within.ite | apply Within.cond | (split))

theorem within_memRead (r : Sreg) (off : Word) (n : Nat) : Within R (memRead r off n) := by
  unfold memRead
  repeat (first
    | with_reducible exact f.get | with_reducible exact f.look _ | with_reducible exact f.raise _
    | with_reducible exact f.shutDown | with_reducible exact f.check _ _ | with_reducible exact f.drawBit
    | with_reducible exact f.drawBits _ | with_reducible exact f.pure _ | with_reducible exact Within.refuse _
    | with_reducible exact Within.stopFault _ | with_reducible exact within_plan f _ _ _ _
    | with_reducible exact within_physRead f _ | with_reducible refine f.bind ?_ fun _ => ?_ | apply Within.ite
    | apply Within.cond | (split))

theorem within_fetchDesc (sel : HWord) : Within R (fetchDesc sel) := by
  unfold fetchDesc
  repeat (first
    | with_reducible exact f.get | with_reducible exact f.look _ | with_reducible exact f.raise _
    | with_reducible exact f.shutDown | with_reducible exact f.check _ _ | with_reducible exact f.drawBit
    | with_reducible exact f.drawBits _ | with_reducible exact f.pure _ | with_reducible exact Within.refuse _
    | with_reducible exact Within.stopFault _ | with_reducible exact within_sysRead f _ _
    | with_reducible refine f.bind ?_ fun _ => ?_ | apply Within.ite | apply Within.cond | (split))

theorem within_needDesc (sel : HWord) (e : Exc) : Within R (needDesc sel e) := by
  unfold needDesc
  repeat (first
    | with_reducible exact f.get | with_reducible exact f.look _ | with_reducible exact f.raise _
    | with_reducible exact f.shutDown | with_reducible exact f.check _ _ | with_reducible exact f.drawBit
    | with_reducible exact f.drawBits _ | with_reducible exact f.pure _ | with_reducible exact Within.refuse _
    | with_reducible exact Within.stopFault _ | with_reducible exact within_fetchDesc f _
    | with_reducible refine f.bind ?_ fun _ => ?_ | apply Within.ite | apply Within.cond | (split))

theorem within_planAccessed (d : Desc) : Within R (planAccessed d) := by
  unfold planAccessed
  repeat (first
    | with_reducible exact f.get | with_reducible exact f.look _ | with_reducible exact f.raise _
    | with_reducible exact f.shutDown | with_reducible exact f.check _ _ | with_reducible exact f.drawBit
    | with_reducible exact f.drawBits _ | with_reducible exact f.pure _ | with_reducible exact Within.refuse _
    | with_reducible exact Within.stopFault _ | with_reducible exact within_sysPlan f _ _
    | with_reducible refine f.bind ?_ fun _ => ?_ | apply Within.ite
    | apply Within.cond | (split))

theorem within_writeAccessed (ps : List Word) : Within R (writeAccessed ps) :=
  f.bind (within_physRead f _) fun _ => within_physWrite f _ _

theorem within_setAccessed (d : Desc) : Within R (setAccessed d) :=
  f.bind (within_planAccessed f _) fun _ => within_writeAccessed f _

theorem within_loadDataSeg (sel : HWord) : Within R (loadDataSeg sel) := by
  unfold loadDataSeg
  repeat (first
    | with_reducible exact f.get | with_reducible exact f.look _ | with_reducible exact f.raise _
    | with_reducible exact f.shutDown | with_reducible exact f.check _ _ | with_reducible exact f.drawBit
    | with_reducible exact f.drawBits _ | with_reducible exact f.pure _ | with_reducible exact Within.refuse _
    | with_reducible exact Within.stopFault _ | with_reducible exact within_needDesc f _ _
    | with_reducible exact within_setAccessed f _ | with_reducible refine f.bind ?_ fun _ => ?_ | apply Within.ite
    | apply Within.cond | (split))

theorem within_loadStackSeg (sel : HWord) : Within R (loadStackSeg sel) := by
  unfold loadStackSeg
  repeat (first
    | with_reducible exact f.get | with_reducible exact f.look _ | with_reducible exact f.raise _
    | with_reducible exact f.shutDown | with_reducible exact f.check _ _ | with_reducible exact f.drawBit
    | with_reducible exact f.drawBits _ | with_reducible exact f.pure _ | with_reducible exact Within.refuse _
    | with_reducible exact Within.stopFault _ | with_reducible exact within_needDesc f _ _
    | with_reducible exact within_setAccessed f _ | with_reducible refine f.bind ?_ fun _ => ?_ | apply Within.ite
    | apply Within.cond | (split))

theorem within_loadSeg (r : Sreg) (sel : HWord) : Within R (loadSeg r sel) := by
  unfold loadSeg
  repeat (first
    | with_reducible exact f.get | with_reducible exact f.look _ | with_reducible exact f.raise _
    | with_reducible exact f.shutDown | with_reducible exact f.check _ _ | with_reducible exact f.drawBit
    | with_reducible exact f.drawBits _ | with_reducible exact f.pure _ | with_reducible exact Within.refuse _
    | with_reducible exact Within.stopFault _ | with_reducible exact within_loadDataSeg f _
    | with_reducible exact within_loadStackSeg f _ | with_reducible refine f.bind ?_ fun _ => ?_ | apply Within.ite
    | apply Within.cond | (split))

theorem within_planPush (g : SegReg) (big u : Bool) (e : Exc) (esp : Word) (n : Nat) : Within R (planPush g big u e esp n) := by
  unfold planPush
  repeat (first
    | with_reducible exact f.get | with_reducible exact f.look _ | with_reducible exact f.raise _
    | with_reducible exact f.shutDown | with_reducible exact f.check _ _ | with_reducible exact f.drawBit
    | with_reducible exact f.drawBits _ | with_reducible exact f.pure _ | with_reducible exact Within.refuse _
    | with_reducible exact Within.stopFault _ | with_reducible exact within_planSeg f _ _ _ _ _ _
    | with_reducible refine f.bind ?_ fun _ => ?_ | apply Within.ite | apply Within.cond | (split))

theorem within_planPushes (g : SegReg) (big u : Bool) (e : Exc) (n : Nat) (esp : Word) (vs : List Word) :
    Within R (planPushes g big u e n esp vs) := by
  induction vs generalizing esp with
  | nil => exact f.pure _
  | cons v vs ih => exact f.bind (within_planPush f _ _ _ _ _ _) fun _ => f.bind (ih _) fun _ => f.pure _

theorem within_storeAll (n : Nat) (l : List (List Word × Word)) : Within R (storeAll n l) := by
  induction l with
  | nil => exact f.pure _
  | cons p l ih => exact f.bind (within_physWrite f _ _) fun _ => ih

theorem within_planStack (n : Nat) (vs : List Word) : Within R (planStack n vs) := by
  unfold planStack
  repeat (first
    | with_reducible exact f.get | with_reducible exact f.look _ | with_reducible exact f.raise _
    | with_reducible exact f.shutDown | with_reducible exact f.check _ _ | with_reducible exact f.drawBit
    | with_reducible exact f.drawBits _ | with_reducible exact f.pure _ | with_reducible exact Within.refuse _
    | with_reducible exact Within.stopFault _ | with_reducible exact within_planPushes f _ _ _ _ _ _ _
    | with_reducible refine f.bind ?_ fun _ => ?_ | apply Within.ite | apply Within.cond | (split))

theorem within_setEsp (v : Word) : Within R (setEsp v) := Within.update fun s => f.regs s _

theorem within_pushAll (n : Nat) (vs : List Word) : Within R (pushAll n vs) := by
  unfold pushAll
  repeat (first
    | with_reducible exact f.get | with_reducible exact f.look _ | with_reducible exact f.raise _
    | with_reducible exact f.shutDown | with_reducible exact f.check _ _ | with_reducible exact f.drawBit
    | with_reducible exact f.drawBits _ | with_reducible exact f.pure _ | with_reducible exact Within.refuse _
    | with_reducible exact Within.stopFault _ | with_reducible exact within_planStack f _ _
    | with_reducible exact within_storeAll f _ _ | with_reducible exact within_setEsp f _
    | with_reducible refine f.bind ?_ fun _ => ?_ | apply Within.ite | apply Within.cond | (split))

theorem within_stackRead (a n : Nat) : Within R (stackRead a n) := by
  unfold stackRead
  repeat (first
    | with_reducible exact f.get | with_reducible exact f.look _ | with_reducible exact f.raise _
    | with_reducible exact f.shutDown | with_reducible exact f.check _ _ | with_reducible exact f.drawBit
    | with_reducible exact f.drawBits _ | with_reducible exact f.pure _ | with_reducible exact Within.refuse _
    | with_reducible exact Within.stopFault _ | with_reducible exact within_memRead f _ _ _
    | with_reducible refine f.bind ?_ fun _ => ?_ | apply Within.ite | apply Within.cond | (split))

theorem within_releaseStack (n : Word) : Within R (releaseStack n) := Within.update fun s => f.regs s _

theorem within_stackBlock (n : Nat) : Within R (stackBlock n) := by
  unfold stackBlock
  repeat (first
    | with_reducible exact f.get | with_reducible exact f.look _ | with_reducible exact f.raise _
    | with_reducible exact f.shutDown | with_reducible exact f.check _ _ | with_reducible exact f.drawBit
    | with_reducible exact f.drawBits _ | with_reducible exact f.pure _ | with_reducible exact Within.refuse _
    | with_reducible exact Within.stopFault _ | with_reducible refine f.bind ?_ fun _ => ?_ | apply Within.ite
    | apply Within.cond | (split))

theorem within_stackSlots (n k : Nat) : Within R (stackSlots n k) := by
  unfold stackSlots
  repeat (first
    | with_reducible exact f.get | with_reducible exact f.look _ | with_reducible exact f.raise _
    | with_reducible exact f.shutDown | with_reducible exact f.check _ _ | with_reducible exact f.drawBit
    | with_reducible exact f.drawBits _ | with_reducible exact f.pure _ | with_reducible exact Within.refuse _
    | with_reducible exact Within.stopFault _ | with_reducible refine f.bind ?_ fun _ => ?_ | apply Within.ite
    | apply Within.cond | (split))

theorem within_checkRoom (g : SegReg) (big : Bool) (esp : Word) (n k : Nat) : Within R (checkRoom g big esp n k) := by
  unfold checkRoom
  repeat (first
    | with_reducible exact f.get | with_reducible exact f.look _ | with_reducible exact f.raise _
    | with_reducible exact f.shutDown | with_reducible exact f.check _ _ | with_reducible exact f.drawBit
    | with_reducible exact f.drawBits _ | with_reducible exact f.pure _ | with_reducible exact Within.refuse _
    | with_reducible exact Within.stopFault _ | with_reducible refine f.bind ?_ fun _ => ?_ | apply Within.ite
    | apply Within.cond | (split))

theorem within_copyAll (l : List (List Word × List Word)) : Within R (copyAll l) := by
  induction l with
  | nil => exact f.pure _
  | cons p l ih => exact f.bind (within_physRead f _) fun _ => f.bind (within_physWrite f _ _) fun _ => ih

/-! ## Operands -/

theorem within_effective (m : MemOp) : Within R (effective m) := by
  unfold effective
  repeat (first
    | with_reducible exact f.get | with_reducible exact f.look _ | with_reducible exact f.raise _
    | with_reducible exact f.shutDown | with_reducible exact f.check _ _ | with_reducible exact f.drawBit
    | with_reducible exact f.drawBits _ | with_reducible exact f.pure _ | with_reducible exact Within.refuse _
    | with_reducible exact Within.stopFault _ | with_reducible refine f.bind ?_ fun _ => ?_ | apply Within.ite
    | apply Within.cond | (split))

theorem within_addressOf (m : MemOp) : Within R (addressOf m) := by
  unfold addressOf
  repeat (first
    | with_reducible exact f.get | with_reducible exact f.look _ | with_reducible exact f.raise _
    | with_reducible exact f.shutDown | with_reducible exact f.check _ _ | with_reducible exact f.drawBit
    | with_reducible exact f.drawBits _ | with_reducible exact f.pure _ | with_reducible exact Within.refuse _
    | with_reducible exact Within.stopFault _ | with_reducible exact within_effective f _
    | with_reducible refine f.bind ?_ fun _ => ?_ | apply Within.ite | apply Within.cond | (split))

theorem within_putReg (k : Width) (r : Gpr) (v : BitVec k.bits) : Within R (putReg k r v) :=
  Within.update fun s => f.regs s _

theorem within_storeAt (k : Width) (ps : List Word) (v : BitVec k.bits) : Within R (storeAt k ps v) := by
  unfold storeAt
  repeat (first
    | with_reducible exact f.get | with_reducible exact f.look _ | with_reducible exact f.raise _
    | with_reducible exact f.shutDown | with_reducible exact f.check _ _ | with_reducible exact f.drawBit
    | with_reducible exact f.drawBits _ | with_reducible exact f.pure _ | with_reducible exact Within.refuse _
    | with_reducible exact Within.stopFault _ | with_reducible exact within_physWrite f _ _
    | with_reducible refine f.bind ?_ fun _ => ?_ | apply Within.ite | apply Within.cond | (split))

theorem within_putPlace (k : Width) (p : Place) (v : BitVec k.bits) : Within R (putPlace k p v) := by
  cases p with
  | reg r => exact within_putReg f k r v
  | mem ps => exact within_storeAt f k ps v

theorem within_readAt (k : Width) (r : Sreg) (off : Word) : Within R (readAt k r off) := by
  unfold readAt
  repeat (first
    | with_reducible exact f.get | with_reducible exact f.look _ | with_reducible exact f.raise _
    | with_reducible exact f.shutDown | with_reducible exact f.check _ _ | with_reducible exact f.drawBit
    | with_reducible exact f.drawBits _ | with_reducible exact f.pure _ | with_reducible exact Within.refuse _
    | with_reducible exact Within.stopFault _ | with_reducible exact within_memRead f _ _ _
    | with_reducible refine f.bind ?_ fun _ => ?_ | apply Within.ite | apply Within.cond | (split))

theorem within_readRm (k : Width) (rm : Rm) : Within R (readRm k rm) := by
  unfold readRm
  repeat (first
    | with_reducible exact f.get | with_reducible exact f.look _ | with_reducible exact f.raise _
    | with_reducible exact f.shutDown | with_reducible exact f.check _ _ | with_reducible exact f.drawBit
    | with_reducible exact f.drawBits _ | with_reducible exact f.pure _ | with_reducible exact Within.refuse _
    | with_reducible exact Within.stopFault _ | with_reducible exact within_addressOf f _
    | with_reducible exact within_readAt f _ _ _ | with_reducible refine f.bind ?_ fun _ => ?_ | apply Within.ite
    | apply Within.cond | (split))

theorem within_placeRm (k : Width) (rm : Rm) : Within R (placeRm k rm) := by
  unfold placeRm
  repeat (first
    | with_reducible exact f.get | with_reducible exact f.look _ | with_reducible exact f.raise _
    | with_reducible exact f.shutDown | with_reducible exact f.check _ _ | with_reducible exact f.drawBit
    | with_reducible exact f.drawBits _ | with_reducible exact f.pure _ | with_reducible exact Within.refuse _
    | with_reducible exact Within.stopFault _ | with_reducible exact within_addressOf f _
    | with_reducible exact within_plan f _ _ _ _ | with_reducible refine f.bind ?_ fun _ => ?_ | apply Within.ite
    | apply Within.cond | (split))

theorem within_planBoth (r : Sreg) (off : Word) (n : Nat) : Within R (planBoth r off n) := by
  unfold planBoth
  repeat (first
    | with_reducible exact f.get | with_reducible exact f.look _ | with_reducible exact f.raise _
    | with_reducible exact f.shutDown | with_reducible exact f.check _ _ | with_reducible exact f.drawBit
    | with_reducible exact f.drawBits _ | with_reducible exact f.pure _ | with_reducible exact Within.refuse _
    | with_reducible exact Within.stopFault _ | with_reducible exact within_planLinear f _ _ _ _
    | with_reducible refine f.bind ?_ fun _ => ?_ | apply Within.ite | apply Within.cond | (split))

theorem within_modifyAt (k : Width) (r : Sreg) (off : Word) : Within R (modifyAt k r off) := by
  unfold modifyAt
  repeat (first
    | with_reducible exact f.get | with_reducible exact f.look _ | with_reducible exact f.raise _
    | with_reducible exact f.shutDown | with_reducible exact f.check _ _ | with_reducible exact f.drawBit
    | with_reducible exact f.drawBits _ | with_reducible exact f.pure _ | with_reducible exact Within.refuse _
    | with_reducible exact Within.stopFault _ | with_reducible exact within_planBoth f _ _ _
    | with_reducible exact within_physRead f _ | with_reducible refine f.bind ?_ fun _ => ?_ | apply Within.ite
    | apply Within.cond | (split))

theorem within_modifyRm (k : Width) (rm : Rm) : Within R (modifyRm k rm) := by
  unfold modifyRm
  repeat (first
    | with_reducible exact f.get | with_reducible exact f.look _ | with_reducible exact f.raise _
    | with_reducible exact f.shutDown | with_reducible exact f.check _ _ | with_reducible exact f.drawBit
    | with_reducible exact f.drawBits _ | with_reducible exact f.pure _ | with_reducible exact Within.refuse _
    | with_reducible exact Within.stopFault _ | with_reducible exact within_addressOf f _
    | with_reducible exact within_modifyAt f _ _ _ | with_reducible refine f.bind ?_ fun _ => ?_ | apply Within.ite
    | apply Within.cond | (split))

theorem within_targetRm (rm : Rm) : Within R (targetRm rm) := by
  unfold targetRm
  repeat (first
    | with_reducible exact f.get | with_reducible exact f.look _ | with_reducible exact f.raise _
    | with_reducible exact f.shutDown | with_reducible exact f.check _ _ | with_reducible exact f.drawBit
    | with_reducible exact f.drawBits _ | with_reducible exact f.pure _ | with_reducible exact Within.refuse _
    | with_reducible exact Within.stopFault _ | with_reducible exact within_addressOf f _
    | with_reducible refine f.bind ?_ fun _ => ?_ | apply Within.ite | apply Within.cond | (split))

theorem within_inspect (k : Width) (x : Target) : Within R (inspect k x) := by
  unfold inspect
  repeat (first
    | with_reducible exact f.get | with_reducible exact f.look _ | with_reducible exact f.raise _
    | with_reducible exact f.shutDown | with_reducible exact f.check _ _ | with_reducible exact f.drawBit
    | with_reducible exact f.drawBits _ | with_reducible exact f.pure _ | with_reducible exact Within.refuse _
    | with_reducible exact Within.stopFault _ | with_reducible exact within_planLinear f _ _ _ _
    | with_reducible exact within_checkWritable f _ _ _ | with_reducible exact within_physRead f _
    | with_reducible refine f.bind ?_ fun _ => ?_ | apply Within.ite | apply Within.cond | (split))

theorem within_placeOf (k : Width) (x : Target) : Within R (placeOf k x) := by
  unfold placeOf
  repeat (first
    | with_reducible exact f.get | with_reducible exact f.look _ | with_reducible exact f.raise _
    | with_reducible exact f.shutDown | with_reducible exact f.check _ _ | with_reducible exact f.drawBit
    | with_reducible exact f.drawBits _ | with_reducible exact f.pure _ | with_reducible exact Within.refuse _
    | with_reducible exact Within.stopFault _ | with_reducible exact within_plan f _ _ _ _
    | with_reducible refine f.bind ?_ fun _ => ?_ | apply Within.ite | apply Within.cond | (split))

theorem within_putFlags {g : Flags → Flags} (h : ∀ v, (g v).vm = v.vm) : Within R (putFlags g) :=
  Within.update fun s => f.flags s _ (h s.flags)

theorem within_needCpl0  : Within R (needCpl0) := by
  unfold needCpl0
  repeat (first
    | with_reducible exact f.get | with_reducible exact f.look _ | with_reducible exact f.raise _
    | with_reducible exact f.shutDown | with_reducible exact f.check _ _ | with_reducible exact f.drawBit
    | with_reducible exact f.drawBits _ | with_reducible exact f.pure _ | with_reducible exact Within.refuse _
    | with_reducible exact Within.stopFault _ | with_reducible refine f.bind ?_ fun _ => ?_ | apply Within.ite
    | apply Within.cond | (split))

theorem within_needProtMode  : Within R (needProtMode) := by
  unfold needProtMode
  repeat (first
    | with_reducible exact f.get | with_reducible exact f.look _ | with_reducible exact f.raise _
    | with_reducible exact f.shutDown | with_reducible exact f.check _ _ | with_reducible exact f.drawBit
    | with_reducible exact f.drawBits _ | with_reducible exact f.pure _ | with_reducible exact Within.refuse _
    | with_reducible exact Within.stopFault _ | with_reducible refine f.bind ?_ fun _ => ?_ | apply Within.ite
    | apply Within.cond | (split))

theorem within_needIopl  : Within R (needIopl) := by
  unfold needIopl
  repeat (first
    | with_reducible exact f.get | with_reducible exact f.look _ | with_reducible exact f.raise _
    | with_reducible exact f.shutDown | with_reducible exact f.check _ _ | with_reducible exact f.drawBit
    | with_reducible exact f.drawBits _ | with_reducible exact f.pure _ | with_reducible exact Within.refuse _
    | with_reducible exact Within.stopFault _ | with_reducible refine f.bind ?_ fun _ => ?_ | apply Within.ite
    | apply Within.cond | (split))

theorem within_needV86Iopl  : Within R (needV86Iopl) := by
  unfold needV86Iopl
  repeat (first
    | with_reducible exact f.get | with_reducible exact f.look _ | with_reducible exact f.raise _
    | with_reducible exact f.shutDown | with_reducible exact f.check _ _ | with_reducible exact f.drawBit
    | with_reducible exact f.drawBits _ | with_reducible exact f.pure _ | with_reducible exact Within.refuse _
    | with_reducible exact Within.stopFault _ | with_reducible refine f.bind ?_ fun _ => ?_ | apply Within.ite
    | apply Within.cond | (split))

/-! ## Ports, tasks and transfers -/

theorem within_ioCheck (p n : Nat) : Within R (ioCheck p n) := by
  unfold ioCheck
  repeat (first
    | with_reducible exact f.get | with_reducible exact f.look _ | with_reducible exact f.raise _
    | with_reducible exact f.shutDown | with_reducible exact f.check _ _ | with_reducible exact f.drawBit
    | with_reducible exact f.drawBits _ | with_reducible exact f.pure _ | with_reducible exact Within.refuse _
    | with_reducible exact Within.stopFault _ | with_reducible exact within_sysRead f _ _
    | with_reducible refine f.bind ?_ fun _ => ?_ | apply Within.ite | apply Within.cond | (split))

theorem within_ioRead (p n : Nat) : Within R (ioRead p n) := by
  unfold ioRead
  repeat (first
    | with_reducible exact f.get | with_reducible exact f.look _ | with_reducible exact f.raise _
    | with_reducible exact f.shutDown | with_reducible exact f.check _ _ | with_reducible exact f.drawBit
    | with_reducible exact f.drawBits _ | with_reducible exact f.pure _ | with_reducible exact Within.refuse _
    | with_reducible exact Within.stopFault _ | exact Within.update fun s => f.io s _
    | with_reducible refine f.bind ?_ fun _ => ?_ | apply Within.ite | apply Within.cond | (split))

theorem within_ioWrite (p n : Nat) (v : Word) : Within R (ioWrite p n v) := Within.update fun s => f.io s _

theorem within_selWord (sel : HWord) : Within R (selWord sel) := by
  unfold selWord
  repeat (first
    | with_reducible exact f.get | with_reducible exact f.look _ | with_reducible exact f.raise _
    | with_reducible exact f.shutDown | with_reducible exact f.check _ _ | with_reducible exact f.drawBit
    | with_reducible exact f.drawBits _ | with_reducible exact f.pure _ | with_reducible exact Within.refuse _
    | with_reducible exact Within.stopFault _ | with_reducible refine f.bind ?_ fun _ => ?_ | apply Within.ite
    | apply Within.cond | (split))

theorem within_taskImage (s : State) (cs : HWord) (eip : Word) (g : Flags) : Within R (taskImage s cs eip g) := by
  unfold taskImage
  repeat (first
    | with_reducible exact f.get | with_reducible exact f.look _ | with_reducible exact f.raise _
    | with_reducible exact f.shutDown | with_reducible exact f.check _ _ | with_reducible exact f.drawBit
    | with_reducible exact f.drawBits _ | with_reducible exact f.pure _ | with_reducible exact Within.refuse _
    | with_reducible exact Within.stopFault _ | with_reducible exact within_selWord f _
    | with_reducible refine f.bind ?_ fun _ => ?_ | apply Within.ite | apply Within.cond | (split))

theorem within_planBusy (la : Word) : Within R (planBusy la) := by
  unfold planBusy
  repeat (first
    | with_reducible exact f.get | with_reducible exact f.look _ | with_reducible exact f.raise _
    | with_reducible exact f.shutDown | with_reducible exact f.check _ _ | with_reducible exact f.drawBit
    | with_reducible exact f.drawBits _ | with_reducible exact f.pure _ | with_reducible exact Within.refuse _
    | with_reducible exact Within.stopFault _ | with_reducible exact within_sysPlan f _ _
    | with_reducible refine f.bind ?_ fun _ => ?_ | apply Within.ite | apply Within.cond | (split))

theorem within_writeBusy (ps : List Word) (b : Bool) : Within R (writeBusy ps b) := by
  unfold writeBusy
  repeat (first
    | with_reducible exact f.get | with_reducible exact f.look _ | with_reducible exact f.raise _
    | with_reducible exact f.shutDown | with_reducible exact f.check _ _ | with_reducible exact f.drawBit
    | with_reducible exact f.drawBits _ | with_reducible exact f.pure _ | with_reducible exact Within.refuse _
    | with_reducible exact Within.stopFault _ | with_reducible exact within_physRead f _
    | with_reducible exact within_physWrite f _ _ | with_reducible refine f.bind ?_ fun _ => ?_ | apply Within.ite
    | apply Within.cond | (split))

theorem within_putSeg (r : Sreg) (v : SegReg) : Within R (putSeg r v) := Within.update fun s => f.segs s _

theorem within_taskLdt  : Within R (taskLdt) := by
  unfold taskLdt
  repeat (first
    | with_reducible exact f.get | with_reducible exact f.look _ | with_reducible exact f.raise _
    | with_reducible exact f.shutDown | with_reducible exact f.check _ _ | with_reducible exact f.drawBit
    | with_reducible exact f.drawBits _ | with_reducible exact f.pure _ | with_reducible exact Within.refuse _
    | with_reducible exact Within.stopFault _ | with_reducible exact within_needDesc f _ _
    | exact Within.update fun s => f.tables s _ | with_reducible refine f.bind ?_ fun _ => ?_ | apply Within.ite
    | apply Within.cond | (split))

theorem within_taskSs  : Within R (taskSs) := by
  unfold taskSs
  repeat (first
    | with_reducible exact f.get | with_reducible exact f.look _ | with_reducible exact f.raise _
    | with_reducible exact f.shutDown | with_reducible exact f.check _ _ | with_reducible exact f.drawBit
    | with_reducible exact f.drawBits _ | with_reducible exact f.pure _ | with_reducible exact Within.refuse _
    | with_reducible exact Within.stopFault _ | with_reducible exact within_needDesc f _ _
    | with_reducible exact within_setAccessed f _ | with_reducible exact within_putSeg f _ _
    | with_reducible refine f.bind ?_ fun _ => ?_ | apply Within.ite | apply Within.cond | (split))

theorem within_taskData (r : Sreg) : Within R (taskData r) := by
  unfold taskData
  repeat (first
    | with_reducible exact f.get | with_reducible exact f.look _ | with_reducible exact f.raise _
    | with_reducible exact f.shutDown | with_reducible exact f.check _ _ | with_reducible exact f.drawBit
    | with_reducible exact f.drawBits _ | with_reducible exact f.pure _ | with_reducible exact Within.refuse _
    | with_reducible exact Within.stopFault _ | with_reducible exact within_needDesc f _ _
    | with_reducible exact within_setAccessed f _ | with_reducible exact within_putSeg f _ _
    | with_reducible refine f.bind ?_ fun _ => ?_ | apply Within.ite | apply Within.cond | (split))

theorem within_needTss (sel : HWord) : Within R (needTss sel) := by
  unfold needTss
  repeat (first
    | with_reducible exact f.get | with_reducible exact f.look _ | with_reducible exact f.raise _
    | with_reducible exact f.shutDown | with_reducible exact f.check _ _ | with_reducible exact f.drawBit
    | with_reducible exact f.drawBits _ | with_reducible exact f.pure _ | with_reducible exact Within.refuse _
    | with_reducible exact Within.stopFault _ | with_reducible exact within_needDesc f _ _
    | with_reducible refine f.bind ?_ fun _ => ?_ | apply Within.ite | apply Within.cond | (split))

omit f in
theorem within_inNewTask {α : Type} {m : M α} (c : Composes R) (k : ∀ s, R s s.settled) (w : Within R m) :
    Within R (inNewTask m) := by
  intro s t r
  cases h : m s with
  | ok p =>
    have hi : inNewTask m s = .ok p := by simp [inNewTask, h]
    rcases r with ⟨a, h'⟩ | ⟨e, h', -⟩ <;> simp only [hi] at h' <;> cases h'
    exact w.of_ok h
  | error e =>
    rcases r with ⟨a, h'⟩ | ⟨e', h', hs⟩
    · simp only [inNewTask, h] at h'
      cases e <;> cases h'
    · simp only [inNewTask, h] at h'
      cases e with
      | exc e u =>
        cases h'
        exact Option.some.inj hs ▸ c.trans (w s u (.inr ⟨_, h, rfl⟩)) (k u)
      | _ => cases h' <;> exact w s t (.inr ⟨_, h, hs⟩)

theorem within_flushed {g : State → State} (h : ∀ s, R s (g s)) : Within R (update fun s => (g s).flushQueue) :=
  Within.update fun s => f.trans (h s) (f.fetch _ _)

theorem within_finishTask (k : ∀ s, R s s.settled) (b : Bool) : Within R (finishTask b) := by
  unfold finishTask
  refine within_inNewTask f.composes k ?_
  repeat (first
    | with_reducible exact f.get | with_reducible exact f.look _ | with_reducible exact f.raise _
    | with_reducible exact f.shutDown | with_reducible exact f.check _ _ | with_reducible exact f.drawBit
    | with_reducible exact f.drawBits _ | with_reducible exact f.pure _ | with_reducible exact Within.refuse _
    | with_reducible exact Within.stopFault _ | exact Within.update fun s => f.trans (f.trans (f.pend s _) (f.fetch _ _)) (k _)
    | with_reducible refine f.bind ?_ fun _ => ?_ | apply Within.ite | apply Within.cond | (split))

theorem within_innerStack (n : BitVec 2) : Within R (innerStack n) := by
  unfold innerStack
  repeat (first
    | with_reducible exact f.get | with_reducible exact f.look _ | with_reducible exact f.raise _
    | with_reducible exact f.shutDown | with_reducible exact f.check _ _ | with_reducible exact f.drawBit
    | with_reducible exact f.drawBits _ | with_reducible exact f.pure _ | with_reducible exact Within.refuse _
    | with_reducible exact Within.stopFault _ | with_reducible exact within_sysRead f _ _
    | with_reducible exact within_needDesc f _ _ | with_reducible exact within_planAccessed f _ | with_reducible exact within_writeAccessed f _
    | with_reducible refine f.bind ?_ fun _ => ?_ | apply Within.ite | apply Within.cond | (split))

theorem within_frameTail (s : State) (ev : Event) : Within R (frameTail s ev) := by
  unfold frameTail
  repeat (first
    | with_reducible exact f.get | with_reducible exact f.look _ | with_reducible exact f.raise _
    | with_reducible exact f.shutDown | with_reducible exact f.check _ _ | with_reducible exact f.drawBit
    | with_reducible exact f.drawBits _ | with_reducible exact f.pure _ | with_reducible exact Within.refuse _
    | with_reducible exact Within.stopFault _ | with_reducible exact within_selWord f _
    | with_reducible refine f.bind ?_ fun _ => ?_ | apply Within.ite | apply Within.cond | (split))

theorem within_frameHead (s : State) : Within R (frameHead s) := by
  unfold frameHead
  repeat (first
    | with_reducible exact f.get | with_reducible exact f.look _ | with_reducible exact f.raise _
    | with_reducible exact f.shutDown | with_reducible exact f.check _ _ | with_reducible exact f.drawBit
    | with_reducible exact f.drawBits _ | with_reducible exact f.pure _ | with_reducible exact Within.refuse _
    | with_reducible exact Within.stopFault _ | with_reducible exact within_selWord f _
    | with_reducible refine f.bind ?_ fun _ => ?_ | apply Within.ite | apply Within.cond | (split))

theorem within_rewind : Within R rewind := Within.update fun s => f.eip s _

theorem within_jumpTo (t : Word) : Within R (jumpTo t) := within_flushed f fun s => f.eip s _

theorem within_checkTarget (t : Word) : Within R (checkTarget t) := by
  unfold checkTarget
  repeat (first
    | with_reducible exact f.get | with_reducible exact f.look _ | with_reducible exact f.raise _
    | with_reducible exact f.shutDown | with_reducible exact f.check _ _ | with_reducible exact f.drawBit
    | with_reducible exact f.drawBits _ | with_reducible exact f.pure _ | with_reducible exact Within.refuse _
    | with_reducible exact Within.stopFault _ | with_reducible refine f.bind ?_ fun _ => ?_ | apply Within.ite
    | apply Within.cond | (split))

theorem within_relTarget (d : Word) : Within R (relTarget d) := by
  unfold relTarget
  repeat (first
    | with_reducible exact f.get | with_reducible exact f.look _ | with_reducible exact f.raise _
    | with_reducible exact f.shutDown | with_reducible exact f.check _ _ | with_reducible exact f.drawBit
    | with_reducible exact f.drawBits _ | with_reducible exact f.pure _ | with_reducible exact Within.refuse _
    | with_reducible exact Within.stopFault _ | with_reducible exact within_checkTarget f _
    | with_reducible refine f.bind ?_ fun _ => ?_ | apply Within.ite | apply Within.cond | (split))

theorem within_farJump (g : SegReg) (t : Word) : Within R (farJump g t) :=
  within_flushed f fun s => f.trans (f.segs s _) (f.eip _ _)

theorem within_planReturn (n : Nat) : Within R (planReturn n) := by
  unfold planReturn
  repeat (first
    | with_reducible exact f.get | with_reducible exact f.look _ | with_reducible exact f.raise _
    | with_reducible exact f.shutDown | with_reducible exact f.check _ _ | with_reducible exact f.drawBit
    | with_reducible exact f.drawBits _ | with_reducible exact f.pure _ | with_reducible exact Within.refuse _
    | with_reducible exact Within.stopFault _ | with_reducible exact within_selWord f _
    | with_reducible exact within_planStack f _ _ | with_reducible refine f.bind ?_ fun _ => ?_ | apply Within.ite
    | apply Within.cond | (split))

theorem within_farReal (sel : HWord) (off : Word) (k : FarKind) : Within R (farReal sel off k) := by
  unfold farReal
  repeat (first
    | with_reducible exact f.get | with_reducible exact f.look _ | with_reducible exact f.raise _
    | with_reducible exact f.shutDown | with_reducible exact f.check _ _ | with_reducible exact f.drawBit
    | with_reducible exact f.drawBits _ | with_reducible exact f.pure _ | with_reducible exact Within.refuse _
    | with_reducible exact Within.stopFault _ | with_reducible exact within_planReturn f _
    | with_reducible exact within_storeAll f _ _ | with_reducible exact within_setEsp f _
    | with_reducible exact within_farJump f _ _ | with_reducible refine f.bind ?_ fun _ => ?_ | apply Within.ite
    | apply Within.cond | (split))

theorem within_enterCode (sel : HWord) (c : Desc) (off : Word) (n : Nat) (k : FarKind) : Within R (enterCode sel c off n k) := by
  unfold enterCode
  repeat (first
    | with_reducible exact f.get | with_reducible exact f.look _ | with_reducible exact f.raise _
    | with_reducible exact f.shutDown | with_reducible exact f.check _ _ | with_reducible exact f.drawBit
    | with_reducible exact f.drawBits _ | with_reducible exact f.pure _ | with_reducible exact Within.refuse _
    | with_reducible exact Within.stopFault _ | with_reducible exact within_checkRoom f _ _ _ _ _
    | with_reducible exact within_planReturn f _ | with_reducible exact within_planAccessed f _ | with_reducible exact within_writeAccessed f _
    | with_reducible exact within_storeAll f _ _ | with_reducible exact within_setEsp f _
    | with_reducible exact within_farJump f _ _ | with_reducible refine f.bind ?_ fun _ => ?_ | apply Within.ite
    | apply Within.cond | (split))

theorem within_codeTransfer (sel : HWord) (d : Desc) (off : Word) (k : FarKind) : Within R (codeTransfer sel d off k) := by
  unfold codeTransfer
  repeat (first
    | with_reducible exact f.get | with_reducible exact f.look _ | with_reducible exact f.raise _
    | with_reducible exact f.shutDown | with_reducible exact f.check _ _ | with_reducible exact f.drawBit
    | with_reducible exact f.drawBits _ | with_reducible exact f.pure _ | with_reducible exact Within.refuse _
    | with_reducible exact Within.stopFault _ | with_reducible exact within_enterCode f _ _ _ _ _
    | with_reducible refine f.bind ?_ fun _ => ?_ | apply Within.ite | apply Within.cond | (split))

theorem within_planParams (s : State) (g : SegReg) (x : Nat) (esp : Word) : Within R (planParams s g x esp) := by
  induction x generalizing esp with
  | zero => exact f.pure _
  | succ x ih =>
    exact f.bind (within_planSeg f _ _ _ _ _ _) fun _ => f.bind (within_planPush f _ _ _ _ _ _) fun _ =>
      f.bind (ih _) fun _ => f.pure _

theorem within_returnCode (sel : HWord) : Within R (returnCode sel) := by
  unfold returnCode
  repeat (first
    | with_reducible exact f.get | with_reducible exact f.look _ | with_reducible exact f.raise _
    | with_reducible exact f.shutDown | with_reducible exact f.check _ _ | with_reducible exact f.drawBit
    | with_reducible exact f.drawBits _ | with_reducible exact f.pure _ | with_reducible exact Within.refuse _
    | with_reducible exact Within.stopFault _ | with_reducible exact within_needDesc f _ _
    | with_reducible refine f.bind ?_ fun _ => ?_ | apply Within.ite | apply Within.cond | (split))

theorem within_returnStack (sel : HWord) (r : BitVec 2) : Within R (returnStack sel r) := by
  unfold returnStack
  repeat (first
    | with_reducible exact f.get | with_reducible exact f.look _ | with_reducible exact f.raise _
    | with_reducible exact f.shutDown | with_reducible exact f.check _ _ | with_reducible exact f.drawBit
    | with_reducible exact f.drawBits _ | with_reducible exact f.pure _ | with_reducible exact Within.refuse _
    | with_reducible exact Within.stopFault _ | with_reducible exact within_needDesc f _ _
    | with_reducible refine f.bind ?_ fun _ => ?_ | apply Within.ite | apply Within.cond | (split))

theorem within_loadFlags (img : Word) (c : BitVec 2) (b : Bool) : Within R (loadFlags img c b) :=
  Within.update fun s => f.flags s _ rfl

theorem within_realIret  : Within R (realIret) := by
  unfold realIret
  repeat (first
    | with_reducible exact f.get | with_reducible exact f.look _ | with_reducible exact f.raise _
    | with_reducible exact f.shutDown | with_reducible exact f.check _ _ | with_reducible exact f.drawBit
    | with_reducible exact f.drawBits _ | with_reducible exact f.pure _ | with_reducible exact Within.refuse _
    | with_reducible exact Within.stopFault _ | with_reducible exact within_stackBlock f _
    | with_reducible exact within_stackRead f _ _ | with_reducible exact within_releaseStack f _
    | with_reducible exact within_farJump f _ _ | with_reducible exact within_loadFlags f _ _ _
    | with_reducible exact within_planAccessed f _ | with_reducible exact within_writeAccessed f _ | with_reducible exact within_returnCode f _
    | with_reducible exact within_returnStack f _ _ | with_reducible refine f.bind ?_ fun _ => ?_ | apply Within.ite
    | apply Within.cond | (split))

theorem within_realRetf (x : Word) : Within R (realRetf x) := by
  unfold realRetf
  repeat (first
    | with_reducible exact f.get | with_reducible exact f.look _ | with_reducible exact f.raise _
    | with_reducible exact f.shutDown | with_reducible exact f.check _ _ | with_reducible exact f.drawBit
    | with_reducible exact f.drawBits _ | with_reducible exact f.pure _ | with_reducible exact Within.refuse _
    | with_reducible exact Within.stopFault _ | with_reducible exact within_stackBlock f _
    | with_reducible exact within_stackRead f _ _ | with_reducible exact within_releaseStack f _
    | with_reducible exact within_farJump f _ _ | with_reducible exact within_loadFlags f _ _ _
    | with_reducible exact within_planAccessed f _ | with_reducible exact within_writeAccessed f _ | with_reducible exact within_returnCode f _
    | with_reducible exact within_returnStack f _ _ | with_reducible refine f.bind ?_ fun _ => ?_ | apply Within.ite
    | apply Within.cond | (split))

theorem within_unblockNmi : Within R unblockNmi := Within.update fun s => f.pins s _

end

end Sys2Proof.Machine
end

