-- ==== Sys2Proof/Laws/Bodies.lean ====
section
/-!
SUPPORT. The bodies of the meanings stay within every frame relation, but for those of the mode switches.
-/

namespace Sys2Proof.Machine

section
variable {R : State → State → Prop} (f : Frame R)
include f

/-! ## Data transfer and flags -/

theorem within_moveToRm (k : Width) (rm : Rm) (v : BitVec k.bits) : Within R (moveToRm k rm v) := by
  unfold moveToRm
  repeat (first
    | with_reducible exact f.get | with_reducible exact f.look _ | with_reducible exact f.raise _
    | with_reducible exact f.shutDown | with_reducible exact f.check _ _ | with_reducible exact f.drawBit
    | with_reducible exact f.drawBits _ | with_reducible exact f.pure _ | with_reducible exact Within.refuse _
    | with_reducible exact Within.stopFault _ | with_reducible exact within_placeRm f _ _
    | with_reducible exact within_putPlace f _ _ _ | with_reducible refine f.bind ?_ fun _ => ?_ | apply Within.ite
    | apply Within.cond | (split))

theorem within_moveToSeg (r : Sreg) (sel : HWord) : Within R (moveToSeg r sel) := by
  unfold moveToSeg
  repeat (first
    | with_reducible exact f.get | with_reducible exact f.look _ | with_reducible exact f.raise _
    | with_reducible exact f.shutDown | with_reducible exact f.check _ _ | with_reducible exact f.drawBit
    | with_reducible exact f.drawBits _ | with_reducible exact f.pure _ | with_reducible exact Within.refuse _
    | with_reducible exact Within.stopFault _ | with_reducible exact within_loadSeg f _ _
    | with_reducible exact within_putSeg f _ _ | exact Within.update fun s => f.pend s _
    | with_reducible refine f.bind ?_ fun _ => ?_ | apply Within.ite | apply Within.cond | (split))

theorem within_putSel (p : Place) (v : HWord) : Within R (putSel p v) := by
  unfold putSel
  repeat (first
    | with_reducible exact f.get | with_reducible exact f.look _ | with_reducible exact f.raise _
    | with_reducible exact f.shutDown | with_reducible exact f.check _ _ | with_reducible exact f.drawBit
    | with_reducible exact f.drawBits _ | with_reducible exact f.pure _ | with_reducible exact Within.refuse _
    | with_reducible exact Within.stopFault _ | with_reducible exact within_storeAt f _ _ _
    | with_reducible exact within_selWord f _ | with_reducible exact within_putReg f _ _ _
    | with_reducible refine f.bind ?_ fun _ => ?_ | apply Within.ite | apply Within.cond | (split))

theorem within_storeSel (rm : Rm) (v : HWord) : Within R (storeSel rm v) :=
  f.bind (within_placeRm f _ _) fun _ => within_putSel f _ _

theorem within_pushValue (v : Word) : Within R (pushValue v) := by
  unfold pushValue
  repeat (first
    | with_reducible exact f.get | with_reducible exact f.look _ | with_reducible exact f.raise _
    | with_reducible exact f.shutDown | with_reducible exact f.check _ _ | with_reducible exact f.drawBit
    | with_reducible exact f.drawBits _ | with_reducible exact f.pure _ | with_reducible exact Within.refuse _
    | with_reducible exact Within.stopFault _ | with_reducible exact within_pushAll f _ _
    | with_reducible refine f.bind ?_ fun _ => ?_ | apply Within.ite | apply Within.cond | (split))

theorem within_pushSeg (r : Sreg) : Within R (pushSeg r) := by
  unfold pushSeg
  repeat (first
    | with_reducible exact f.get | with_reducible exact f.look _ | with_reducible exact f.raise _
    | with_reducible exact f.shutDown | with_reducible exact f.check _ _ | with_reducible exact f.drawBit
    | with_reducible exact f.drawBits _ | with_reducible exact f.pure _ | with_reducible exact Within.refuse _
    | with_reducible exact Within.stopFault _ | with_reducible exact within_pushAll f _ _
    | with_reducible exact within_selWord f _ | with_reducible refine f.bind ?_ fun _ => ?_ | apply Within.ite
    | apply Within.cond | (split))

theorem within_popValue  : Within R (popValue) := by
  unfold popValue
  repeat (first
    | with_reducible exact f.get | with_reducible exact f.look _ | with_reducible exact f.raise _
    | with_reducible exact f.shutDown | with_reducible exact f.check _ _ | with_reducible exact f.drawBit
    | with_reducible exact f.drawBits _ | with_reducible exact f.pure _ | with_reducible exact Within.refuse _
    | with_reducible exact Within.stopFault _ | with_reducible exact within_stackRead f _ _
    | with_reducible exact within_releaseStack f _ | with_reducible refine f.bind ?_ fun _ => ?_ | apply Within.ite
    | apply Within.cond | (split))

theorem within_popSeg (r : Sreg) : Within R (popSeg r) := by
  unfold popSeg
  repeat (first
    | with_reducible exact f.get | with_reducible exact f.look _ | with_reducible exact f.raise _
    | with_reducible exact f.shutDown | with_reducible exact f.check _ _ | with_reducible exact f.drawBit
    | with_reducible exact f.drawBits _ | with_reducible exact f.pure _ | with_reducible exact Within.refuse _
    | with_reducible exact Within.stopFault _ | with_reducible exact within_stackRead f _ _
    | with_reducible exact within_releaseStack f _ | with_reducible exact within_moveToSeg f _ _
    | with_reducible refine f.bind ?_ fun _ => ?_ | apply Within.ite | apply Within.cond | (split))

theorem within_loadFarPointer (r : Sreg) (reg : Gpr) (m : MemOp) : Within R (loadFarPointer r reg m) := by
  unfold loadFarPointer
  repeat (first
    | with_reducible exact f.get | with_reducible exact f.look _ | with_reducible exact f.raise _
    | with_reducible exact f.shutDown | with_reducible exact f.check _ _ | with_reducible exact f.drawBit
    | with_reducible exact f.drawBits _ | with_reducible exact f.pure _ | with_reducible exact Within.refuse _
    | with_reducible exact Within.stopFault _ | with_reducible exact within_addressOf f _
    | with_reducible exact within_readAt f _ _ _ | with_reducible exact within_loadSeg f _ _
    | with_reducible exact within_putSeg f _ _ | with_reducible exact within_putReg f _ _ _
    | with_reducible refine f.bind ?_ fun _ => ?_ | apply Within.ite | apply Within.cond | (split))

theorem within_inPort (w : Bool) (p : Nat) : Within R (inPort w p) := by
  unfold inPort
  repeat (first
    | with_reducible exact f.get | with_reducible exact f.look _ | with_reducible exact f.raise _
    | with_reducible exact f.shutDown | with_reducible exact f.check _ _ | with_reducible exact f.drawBit
    | with_reducible exact f.drawBits _ | with_reducible exact f.pure _ | with_reducible exact Within.refuse _
    | with_reducible exact Within.stopFault _ | with_reducible exact within_ioCheck f _ _
    | with_reducible exact within_ioRead f _ _ | with_reducible exact within_putReg f _ _ _
    | with_reducible refine f.bind ?_ fun _ => ?_ | apply Within.ite | apply Within.cond | (split))

theorem within_outPort (w : Bool) (p : Nat) : Within R (outPort w p) := by
  unfold outPort
  repeat (first
    | with_reducible exact f.get | with_reducible exact f.look _ | with_reducible exact f.raise _
    | with_reducible exact f.shutDown | with_reducible exact f.check _ _ | with_reducible exact f.drawBit
    | with_reducible exact f.drawBits _ | with_reducible exact f.pure _ | with_reducible exact Within.refuse _
    | with_reducible exact Within.stopFault _ | with_reducible exact within_ioCheck f _ _
    | with_reducible exact within_ioWrite f _ _ _ | with_reducible refine f.bind ?_ fun _ => ?_ | apply Within.ite
    | apply Within.cond | (split))

theorem within_pushaGuard  : Within R (pushaGuard) := by
  unfold pushaGuard
  repeat (first
    | with_reducible exact f.get | with_reducible exact f.look _ | with_reducible exact f.raise _
    | with_reducible exact f.shutDown | with_reducible exact f.check _ _ | with_reducible exact f.drawBit
    | with_reducible exact f.drawBits _ | with_reducible exact f.pure _ | with_reducible exact Within.refuse _
    | with_reducible exact Within.stopFault _ | with_reducible refine f.bind ?_ fun _ => ?_ | apply Within.ite
    | apply Within.cond | (split))

/-! ## Arithmetic, logic and shifts -/

theorem within_opAdd (k : Width) (a b : BitVec k.bits) : Within R (opAdd k a b) := by
  unfold opAdd
  repeat (first
    | with_reducible exact f.get | with_reducible exact f.look _ | with_reducible exact f.raise _
    | with_reducible exact f.shutDown | with_reducible exact f.check _ _ | with_reducible exact f.drawBit
    | with_reducible exact f.drawBits _ | with_reducible exact f.pure _ | with_reducible exact Within.refuse _
    | with_reducible exact Within.stopFault _ | with_reducible exact within_putFlags f fun _ => rfl
    | with_reducible refine f.bind ?_ fun _ => ?_ | apply Within.ite | apply Within.cond | (split))

theorem within_opAdc (k : Width) (a b : BitVec k.bits) : Within R (opAdc k a b) := by
  unfold opAdc
  repeat (first
    | with_reducible exact f.get | with_reducible exact f.look _ | with_reducible exact f.raise _
    | with_reducible exact f.shutDown | with_reducible exact f.check _ _ | with_reducible exact f.drawBit
    | with_reducible exact f.drawBits _ | with_reducible exact f.pure _ | with_reducible exact Within.refuse _
    | with_reducible exact Within.stopFault _ | with_reducible exact within_putFlags f fun _ => rfl
    | with_reducible refine f.bind ?_ fun _ => ?_ | apply Within.ite | apply Within.cond | (split))

theorem within_opSub (k : Width) (a b : BitVec k.bits) : Within R (opSub k a b) := by
  unfold opSub
  repeat (first
    | with_reducible exact f.get | with_reducible exact f.look _ | with_reducible exact f.raise _
    | with_reducible exact f.shutDown | with_reducible exact f.check _ _ | with_reducible exact f.drawBit
    | with_reducible exact f.drawBits _ | with_reducible exact f.pure _ | with_reducible exact Within.refuse _
    | with_reducible exact Within.stopFault _ | with_reducible exact within_putFlags f fun _ => rfl
    | with_reducible refine f.bind ?_ fun _ => ?_ | apply Within.ite | apply Within.cond | (split))

theorem within_opSbb (k : Width) (a b : BitVec k.bits) : Within R (opSbb k a b) := by
  unfold opSbb
  repeat (first
    | with_reducible exact f.get | with_reducible exact f.look _ | with_reducible exact f.raise _
    | with_reducible exact f.shutDown | with_reducible exact f.check _ _ | with_reducible exact f.drawBit
    | with_reducible exact f.drawBits _ | with_reducible exact f.pure _ | with_reducible exact Within.refuse _
    | with_reducible exact Within.stopFault _ | with_reducible exact within_putFlags f fun _ => rfl
    | with_reducible refine f.bind ?_ fun _ => ?_ | apply Within.ite | apply Within.cond | (split))

theorem within_opCmp (k : Width) (a b : BitVec k.bits) : Within R (opCmp k a b) := by
  unfold opCmp
  repeat (first
    | with_reducible exact f.get | with_reducible exact f.look _ | with_reducible exact f.raise _
    | with_reducible exact f.shutDown | with_reducible exact f.check _ _ | with_reducible exact f.drawBit
    | with_reducible exact f.drawBits _ | with_reducible exact f.pure _ | with_reducible exact Within.refuse _
    | with_reducible exact Within.stopFault _ | with_reducible exact within_putFlags f fun _ => rfl
    | with_reducible refine f.bind ?_ fun _ => ?_ | apply Within.ite | apply Within.cond | (split))

theorem within_opLogic (k : Width) (r : BitVec k.bits) : Within R (opLogic k r) := by
  unfold opLogic
  repeat (first
    | with_reducible exact f.get | with_reducible exact f.look _ | with_reducible exact f.raise _
    | with_reducible exact f.shutDown | with_reducible exact f.check _ _ | with_reducible exact f.drawBit
    | with_reducible exact f.drawBits _ | with_reducible exact f.pure _ | with_reducible exact Within.refuse _
    | with_reducible exact Within.stopFault _ | with_reducible exact within_putFlags f fun _ => rfl
    | with_reducible refine f.bind ?_ fun _ => ?_ | apply Within.ite | apply Within.cond | (split))

theorem within_opAnd (k : Width) (a b : BitVec k.bits) : Within R (opAnd k a b) := by
  unfold opAnd
  repeat (first
    | with_reducible exact f.get | with_reducible exact f.look _ | with_reducible exact f.raise _
    | with_reducible exact f.shutDown | with_reducible exact f.check _ _ | with_reducible exact f.drawBit
    | with_reducible exact f.drawBits _ | with_reducible exact f.pure _ | with_reducible exact Within.refuse _
    | with_reducible exact Within.stopFault _ | with_reducible exact within_opLogic f _ _
    | with_reducible refine f.bind ?_ fun _ => ?_ | apply Within.ite | apply Within.cond | (split))

theorem within_opOr (k : Width) (a b : BitVec k.bits) : Within R (opOr k a b) := by
  unfold opOr
  repeat (first
    | with_reducible exact f.get | with_reducible exact f.look _ | with_reducible exact f.raise _
    | with_reducible exact f.shutDown | with_reducible exact f.check _ _ | with_reducible exact f.drawBit
    | with_reducible exact f.drawBits _ | with_reducible exact f.pure _ | with_reducible exact Within.refuse _
    | with_reducible exact Within.stopFault _ | with_reducible exact within_opLogic f _ _
    | with_reducible refine f.bind ?_ fun _ => ?_ | apply Within.ite | apply Within.cond | (split))

theorem within_opXor (k : Width) (a b : BitVec k.bits) : Within R (opXor k a b) := by
  unfold opXor
  repeat (first
    | with_reducible exact f.get | with_reducible exact f.look _ | with_reducible exact f.raise _
    | with_reducible exact f.shutDown | with_reducible exact f.check _ _ | with_reducible exact f.drawBit
    | with_reducible exact f.drawBits _ | with_reducible exact f.pure _ | with_reducible exact Within.refuse _
    | with_reducible exact Within.stopFault _ | with_reducible exact within_opLogic f _ _
    | with_reducible refine f.bind ?_ fun _ => ?_ | apply Within.ite | apply Within.cond | (split))

theorem within_opTest (k : Width) (a b : BitVec k.bits) : Within R (opTest k a b) := by
  unfold opTest
  repeat (first
    | with_reducible exact f.get | with_reducible exact f.look _ | with_reducible exact f.raise _
    | with_reducible exact f.shutDown | with_reducible exact f.check _ _ | with_reducible exact f.drawBit
    | with_reducible exact f.drawBits _ | with_reducible exact f.pure _ | with_reducible exact Within.refuse _
    | with_reducible exact Within.stopFault _ | with_reducible exact within_opLogic f _ _
    | with_reducible refine f.bind ?_ fun _ => ?_ | apply Within.ite | apply Within.cond | (split))

theorem within_aluRmR {op : AluOp} (h : ∀ k a b, Within R (op k a b)) (d w : Bool) (reg : Gpr) (rm : Rm) :
    Within R (aluRmR op d w reg rm) := by
  unfold aluRmR
  repeat (first
    | with_reducible exact f.get | with_reducible exact f.look _ | with_reducible exact f.raise _
    | with_reducible exact f.shutDown | with_reducible exact f.check _ _ | with_reducible exact f.drawBit
    | with_reducible exact f.drawBits _ | with_reducible exact f.pure _ | with_reducible exact Within.refuse _
    | with_reducible exact Within.stopFault _ | with_reducible exact h _ _ _ | with_reducible exact within_readRm f _ _
    | with_reducible exact within_putReg f _ _ _ | with_reducible exact within_modifyRm f _ _
    | with_reducible exact within_putPlace f _ _ _ | with_reducible refine f.bind ?_ fun _ => ?_ | apply Within.ite
    | apply Within.cond | (split))

theorem within_aluAcc {op : AluOp} (h : ∀ k a b, Within R (op k a b)) (k : Width) (i : BitVec k.bits) :
    Within R (aluAcc op k i) := by
  unfold aluAcc
  repeat (first
    | with_reducible exact f.get | with_reducible exact f.look _ | with_reducible exact f.raise _
    | with_reducible exact f.shutDown | with_reducible exact f.check _ _ | with_reducible exact f.drawBit
    | with_reducible exact f.drawBits _ | with_reducible exact f.pure _ | with_reducible exact Within.refuse _
    | with_reducible exact Within.stopFault _ | with_reducible exact h _ _ _ | with_reducible exact within_putReg f _ _ _
    | with_reducible refine f.bind ?_ fun _ => ?_ | apply Within.ite | apply Within.cond | (split))

theorem within_aluRm {op : AluOp} (h : ∀ k a b, Within R (op k a b)) (k : Width) (rm : Rm) (i : BitVec k.bits) :
    Within R (aluRm op k rm i) := by
  unfold aluRm
  repeat (first
    | with_reducible exact f.get | with_reducible exact f.look _ | with_reducible exact f.raise _
    | with_reducible exact f.shutDown | with_reducible exact f.check _ _ | with_reducible exact f.drawBit
    | with_reducible exact f.drawBits _ | with_reducible exact f.pure _ | with_reducible exact Within.refuse _
    | with_reducible exact Within.stopFault _ | with_reducible exact h _ _ _ | with_reducible exact within_modifyRm f _ _
    | with_reducible exact within_putPlace f _ _ _ | with_reducible refine f.bind ?_ fun _ => ?_ | apply Within.ite
    | apply Within.cond | (split))

theorem within_compareRm (k : Width) (rm : Rm) (i : BitVec k.bits) : Within R (compareRm k rm i) := by
  unfold compareRm
  repeat (first
    | with_reducible exact f.get | with_reducible exact f.look _ | with_reducible exact f.raise _
    | with_reducible exact f.shutDown | with_reducible exact f.check _ _ | with_reducible exact f.drawBit
    | with_reducible exact f.drawBits _ | with_reducible exact f.pure _ | with_reducible exact Within.refuse _
    | with_reducible exact Within.stopFault _ | with_reducible exact within_readRm f _ _
    | with_reducible exact within_opCmp f _ _ _ | with_reducible refine f.bind ?_ fun _ => ?_ | apply Within.ite
    | apply Within.cond | (split))

theorem within_unaryRm (k : Width) (rm : Rm) (v : BitVec k.bits → BitVec k.bits)
    {g : Flags → BitVec k.bits → Flags} (h : ∀ a b, (g a b).vm = a.vm) : Within R (unaryRm k rm v g) := by
  unfold unaryRm
  repeat (first
    | with_reducible exact f.get | with_reducible exact f.look _ | with_reducible exact f.raise _
    | with_reducible exact f.shutDown | with_reducible exact f.check _ _ | with_reducible exact f.drawBit
    | with_reducible exact f.drawBits _ | with_reducible exact f.pure _ | with_reducible exact Within.refuse _
    | with_reducible exact Within.stopFault _ | with_reducible exact within_modifyRm f _ _
    | with_reducible exact within_putPlace f _ _ _ | with_reducible exact within_putFlags f fun a => h a _
    | with_reducible refine f.bind ?_ fun _ => ?_ | apply Within.ite | apply Within.cond | (split))

theorem within_asciiAdjust (a b : Byte) : Within R (asciiAdjust a b) := by
  unfold asciiAdjust
  repeat (first
    | with_reducible exact f.get | with_reducible exact f.look _ | with_reducible exact f.raise _
    | with_reducible exact f.shutDown | with_reducible exact f.check _ _ | with_reducible exact f.drawBit
    | with_reducible exact f.drawBits _ | with_reducible exact f.pure _ | with_reducible exact Within.refuse _
    | with_reducible exact Within.stopFault _ | with_reducible exact within_putReg f _ _ _
    | with_reducible exact within_putFlags f fun _ => rfl | with_reducible refine f.bind ?_ fun _ => ?_ | apply Within.ite
    | apply Within.cond | (split))

theorem within_decimalAdjust (v : Byte → Bool → Bool → Byte × Bool × Bool) : Within R (decimalAdjust v) := by
  unfold decimalAdjust
  repeat (first
    | with_reducible exact f.get | with_reducible exact f.look _ | with_reducible exact f.raise _
    | with_reducible exact f.shutDown | with_reducible exact f.check _ _ | with_reducible exact f.drawBit
    | with_reducible exact f.drawBits _ | with_reducible exact f.pure _ | with_reducible exact Within.refuse _
    | with_reducible exact Within.stopFault _ | with_reducible exact within_putReg f _ _ _
    | with_reducible exact within_putFlags f fun _ => rfl | with_reducible refine f.bind ?_ fun _ => ?_ | apply Within.ite
    | apply Within.cond | (split))

theorem within_putAdjusted (a b : Byte) : Within R (putAdjusted a b) := by
  unfold putAdjusted
  repeat (first
    | with_reducible exact f.get | with_reducible exact f.look _ | with_reducible exact f.raise _
    | with_reducible exact f.shutDown | with_reducible exact f.check _ _ | with_reducible exact f.drawBit
    | with_reducible exact f.drawBits _ | with_reducible exact f.pure _ | with_reducible exact Within.refuse _
    | with_reducible exact Within.stopFault _ | with_reducible exact within_putReg f _ _ _
    | with_reducible exact within_putFlags f fun _ => rfl | with_reducible refine f.bind ?_ fun _ => ?_ | apply Within.ite
    | apply Within.cond | (split))

theorem within_putWide (k : Width) (hi lo : BitVec k.bits) : Within R (putWide k hi lo) := by
  cases k with
  | b => exact within_putReg f _ _ _
  | w => exact f.bind (within_putReg f _ _ _) fun _ => within_putReg f _ _ _
  | d => exact f.bind (within_putReg f _ _ _) fun _ => within_putReg f _ _ _

theorem within_mulFlags (c : Bool) : Within R (mulFlags c) := by
  unfold mulFlags
  repeat (first
    | with_reducible exact f.get | with_reducible exact f.look _ | with_reducible exact f.raise _
    | with_reducible exact f.shutDown | with_reducible exact f.check _ _ | with_reducible exact f.drawBit
    | with_reducible exact f.drawBits _ | with_reducible exact f.pure _ | with_reducible exact Within.refuse _
    | with_reducible exact Within.stopFault _ | with_reducible exact within_putFlags f fun _ => rfl
    | with_reducible refine f.bind ?_ fun _ => ?_ | apply Within.ite | apply Within.cond | (split))

theorem within_freeFlags  : Within R (freeFlags) := by
  unfold freeFlags
  repeat (first
    | with_reducible exact f.get | with_reducible exact f.look _ | with_reducible exact f.raise _
    | with_reducible exact f.shutDown | with_reducible exact f.check _ _ | with_reducible exact f.drawBit
    | with_reducible exact f.drawBits _ | with_reducible exact f.pure _ | with_reducible exact Within.refuse _
    | with_reducible exact Within.stopFault _ | with_reducible exact within_putFlags f fun _ => rfl
    | with_reducible refine f.bind ?_ fun _ => ?_ | apply Within.ite | apply Within.cond | (split))

theorem within_mulToReg (k : Width) (r : Gpr) (a b : BitVec k.bits) : Within R (mulToReg k r a b) := by
  unfold mulToReg
  repeat (first
    | with_reducible exact f.get | with_reducible exact f.look _ | with_reducible exact f.raise _
    | with_reducible exact f.shutDown | with_reducible exact f.check _ _ | with_reducible exact f.drawBit
    | with_reducible exact f.drawBits _ | with_reducible exact f.pure _ | with_reducible exact Within.refuse _
    | with_reducible exact Within.stopFault _ | with_reducible exact within_putReg f _ _ _
    | with_reducible exact within_mulFlags f _ | with_reducible refine f.bind ?_ fun _ => ?_ | apply Within.ite
    | apply Within.cond | (split))

theorem within_signAcc  : Within R (signAcc) := by
  unfold signAcc
  repeat (first
    | with_reducible exact f.get | with_reducible exact f.look _ | with_reducible exact f.raise _
    | with_reducible exact f.shutDown | with_reducible exact f.check _ _ | with_reducible exact f.drawBit
    | with_reducible exact f.drawBits _ | with_reducible exact f.pure _ | with_reducible exact Within.refuse _
    | with_reducible exact Within.stopFault _ | with_reducible exact within_putReg f _ _ _
    | with_reducible refine f.bind ?_ fun _ => ?_ | apply Within.ite | apply Within.cond | (split))

theorem within_signDx  : Within R (signDx) := by
  unfold signDx
  repeat (first
    | with_reducible exact f.get | with_reducible exact f.look _ | with_reducible exact f.raise _
    | with_reducible exact f.shutDown | with_reducible exact f.check _ _ | with_reducible exact f.drawBit
    | with_reducible exact f.drawBits _ | with_reducible exact f.pure _ | with_reducible exact Within.refuse _
    | with_reducible exact Within.stopFault _ | with_reducible exact within_putReg f _ _ _
    | with_reducible refine f.bind ?_ fun _ => ?_ | apply Within.ite | apply Within.cond | (split))

theorem within_shiftFlags (b : Bool) {n : Nat} (r : Shifted n) (c : Nat) : Within R (shiftFlags b r c) := by
  unfold shiftFlags
  repeat (first
    | with_reducible exact f.get | with_reducible exact f.look _ | with_reducible exact f.raise _
    | with_reducible exact f.shutDown | with_reducible exact f.check _ _ | with_reducible exact f.drawBit
    | with_reducible exact f.drawBits _ | with_reducible exact f.pure _ | with_reducible exact Within.refuse _
    | with_reducible exact Within.stopFault _ | with_reducible exact within_putFlags f fun _ => rfl
    | with_reducible refine f.bind ?_ fun _ => ?_ | apply Within.ite | apply Within.cond | (split))

theorem within_inspectOnly (k : Width) (rm : Rm) : Within R (inspectOnly k rm) :=
  f.bind (within_targetRm f rm) fun _ => f.bind (within_inspect f k _) fun _ => f.pure _

theorem within_shiftRm (op : ShiftOp) (b w : Bool) (rm : Rm) (c : Byte) : Within R (shiftRm op b w rm c) := by
  unfold shiftRm
  repeat (first
    | with_reducible exact f.get | with_reducible exact f.look _ | with_reducible exact f.raise _
    | with_reducible exact f.shutDown | with_reducible exact f.check _ _ | with_reducible exact f.drawBit
    | with_reducible exact f.drawBits _ | with_reducible exact f.pure _ | with_reducible exact Within.refuse _
    | with_reducible exact Within.stopFault _ | with_reducible exact within_modifyRm f _ _
    | with_reducible exact within_shiftFlags f _ _ _ | with_reducible exact within_putPlace f _ _ _
    | with_reducible exact within_inspectOnly f _ _ | with_reducible refine f.bind ?_ fun _ => ?_ | apply Within.ite
    | apply Within.cond | (split))

theorem within_doubleRm (v : (n : Nat) → BitVec n → BitVec n → Nat → BitVec n) (l : Nat → Nat → Nat) (reg : Gpr) (rm : Rm) (c : Byte) :
    Within R (doubleRm v l reg rm c) := by
  unfold doubleRm
  repeat (first
    | with_reducible exact f.get | with_reducible exact f.look _ | with_reducible exact f.raise _
    | with_reducible exact f.shutDown | with_reducible exact f.check _ _ | with_reducible exact f.drawBit
    | with_reducible exact f.drawBits _ | with_reducible exact f.pure _ | with_reducible exact Within.refuse _
    | with_reducible exact Within.stopFault _ | with_reducible exact within_modifyRm f _ _
    | with_reducible exact within_freeFlags f | with_reducible exact within_putPlace f _ _ _
    | with_reducible exact within_putFlags f fun _ => rfl | with_reducible exact within_inspectOnly f _ _
    | with_reducible refine f.bind ?_ fun _ => ?_ | apply Within.ite | apply Within.cond | (split))

theorem within_shiftLeftDouble (reg : Gpr) (rm : Rm) (c : Byte) : Within R (shiftLeftDouble reg rm c) :=
  within_doubleRm f _ _ _ _ _

theorem within_shiftRightDouble (reg : Gpr) (rm : Rm) (c : Byte) : Within R (shiftRightDouble reg rm c) :=
  within_doubleRm f _ _ _ _ _

/-! ## Strings and bits -/

theorem within_stepSi (n : Nat) : Within R (stepSi n) := Within.update fun s => f.regs s _

theorem within_stepDi (n : Nat) : Within R (stepDi n) := Within.update fun s => f.regs s _

theorem within_countDown : Within R countDown := Within.update fun s => f.regs s _

theorem within_sourceElement (k : Width) : Within R (sourceElement k) := by
  unfold sourceElement
  repeat (first
    | with_reducible exact f.get | with_reducible exact f.look _ | with_reducible exact f.raise _
    | with_reducible exact f.shutDown | with_reducible exact f.check _ _ | with_reducible exact f.drawBit
    | with_reducible exact f.drawBits _ | with_reducible exact f.pure _ | with_reducible exact Within.refuse _
    | with_reducible exact Within.stopFault _ | with_reducible exact within_readAt f _ _ _
    | with_reducible refine f.bind ?_ fun _ => ?_ | apply Within.ite | apply Within.cond | (split))

theorem within_destElement (k : Width) : Within R (destElement k) := by
  unfold destElement
  repeat (first
    | with_reducible exact f.get | with_reducible exact f.look _ | with_reducible exact f.raise _
    | with_reducible exact f.shutDown | with_reducible exact f.check _ _ | with_reducible exact f.drawBit
    | with_reducible exact f.drawBits _ | with_reducible exact f.pure _ | with_reducible exact Within.refuse _
    | with_reducible exact Within.stopFault _ | with_reducible exact within_readAt f _ _ _
    | with_reducible refine f.bind ?_ fun _ => ?_ | apply Within.ite | apply Within.cond | (split))

theorem within_destPlan (k : Width) : Within R (destPlan k) := by
  unfold destPlan
  repeat (first
    | with_reducible exact f.get | with_reducible exact f.look _ | with_reducible exact f.raise _
    | with_reducible exact f.shutDown | with_reducible exact f.check _ _ | with_reducible exact f.drawBit
    | with_reducible exact f.drawBits _ | with_reducible exact f.pure _ | with_reducible exact Within.refuse _
    | with_reducible exact Within.stopFault _ | with_reducible exact within_plan f _ _ _ _
    | with_reducible refine f.bind ?_ fun _ => ?_ | apply Within.ite | apply Within.cond | (split))

theorem within_moveElement (k : Width) : Within R (moveElement k) := by
  unfold moveElement
  repeat (first
    | with_reducible exact f.get | with_reducible exact f.look _ | with_reducible exact f.raise _
    | with_reducible exact f.shutDown | with_reducible exact f.check _ _ | with_reducible exact f.drawBit
    | with_reducible exact f.drawBits _ | with_reducible exact f.pure _ | with_reducible exact Within.refuse _
    | with_reducible exact Within.stopFault _ | with_reducible exact within_sourceElement f _
    | with_reducible exact within_destElement f _ | with_reducible exact within_destPlan f _
    | with_reducible exact within_storeAt f _ _ _ | with_reducible exact within_stepSi f _
    | with_reducible exact within_stepDi f _ | with_reducible exact within_opCmp f _ _ _
    | with_reducible exact within_putReg f _ _ _ | with_reducible exact within_ioCheck f _ _
    | with_reducible exact within_ioRead f _ _ | with_reducible exact within_ioWrite f _ _ _
    | with_reducible refine f.bind ?_ fun _ => ?_ | apply Within.ite | apply Within.cond | (split))

theorem within_compareElements (k : Width) : Within R (compareElements k) := by
  unfold compareElements
  repeat (first
    | with_reducible exact f.get | with_reducible exact f.look _ | with_reducible exact f.raise _
    | with_reducible exact f.shutDown | with_reducible exact f.check _ _ | with_reducible exact f.drawBit
    | with_reducible exact f.drawBits _ | with_reducible exact f.pure _ | with_reducible exact Within.refuse _
    | with_reducible exact Within.stopFault _ | with_reducible exact within_sourceElement f _
    | with_reducible exact within_destElement f _ | with_reducible exact within_destPlan f _
    | with_reducible exact within_storeAt f _ _ _ | with_reducible exact within_stepSi f _
    | with_reducible exact within_stepDi f _ | with_reducible exact within_opCmp f _ _ _
    | with_reducible exact within_putReg f _ _ _ | with_reducible exact within_ioCheck f _ _
    | with_reducible exact within_ioRead f _ _ | with_reducible exact within_ioWrite f _ _ _
    | with_reducible refine f.bind ?_ fun _ => ?_ | apply Within.ite | apply Within.cond | (split))

theorem within_scanElement (k : Width) : Within R (scanElement k) := by
  unfold scanElement
  repeat (first
    | with_reducible exact f.get | with_reducible exact f.look _ | with_reducible exact f.raise _
    | with_reducible exact f.shutDown | with_reducible exact f.check _ _ | with_reducible exact f.drawBit
    | with_reducible exact f.drawBits _ | with_reducible exact f.pure _ | with_reducible exact Within.refuse _
    | with_reducible exact Within.stopFault _ | with_reducible exact within_sourceElement f _
    | with_reducible exact within_destElement f _ | with_reducible exact within_destPlan f _
    | with_reducible exact within_storeAt f _ _ _ | with_reducible exact within_stepSi f _
    | with_reducible exact within_stepDi f _ | with_reducible exact within_opCmp f _ _ _
    | with_reducible exact within_putReg f _ _ _ | with_reducible exact within_ioCheck f _ _
    | with_reducible exact within_ioRead f _ _ | with_reducible exact within_ioWrite f _ _ _
    | with_reducible refine f.bind ?_ fun _ => ?_ | apply Within.ite | apply Within.cond | (split))

theorem within_storeElement (k : Width) : Within R (storeElement k) := by
  unfold storeElement
  repeat (first
    | with_reducible exact f.get | with_reducible exact f.look _ | with_reducible exact f.raise _
    | with_reducible exact f.shutDown | with_reducible exact f.check _ _ | with_reducible exact f.drawBit
    | with_reducible exact f.drawBits _ | with_reducible exact f.pure _ | with_reducible exact Within.refuse _
    | with_reducible exact Within.stopFault _ | with_reducible exact within_sourceElement f _
    | with_reducible exact within_destElement f _ | with_reducible exact within_destPlan f _
    | with_reducible exact within_storeAt f _ _ _ | with_reducible exact within_stepSi f _
    | with_reducible exact within_stepDi f _ | with_reducible exact within_opCmp f _ _ _
    | with_reducible exact within_putReg f _ _ _ | with_reducible exact within_ioCheck f _ _
    | with_reducible exact within_ioRead f _ _ | with_reducible exact within_ioWrite f _ _ _
    | with_reducible refine f.bind ?_ fun _ => ?_ | apply Within.ite | apply Within.cond | (split))

theorem within_loadElement (k : Width) : Within R (loadElement k) := by
  unfold loadElement
  repeat (first
    | with_reducible exact f.get | with_reducible exact f.look _ | with_reducible exact f.raise _
    | with_reducible exact f.shutDown | with_reducible exact f.check _ _ | with_reducible exact f.drawBit
    | with_reducible exact f.drawBits _ | with_reducible exact f.pure _ | with_reducible exact Within.refuse _
    | with_reducible exact Within.stopFault _ | with_reducible exact within_sourceElement f _
    | with_reducible exact within_destElement f _ | with_reducible exact within_destPlan f _
    | with_reducible exact within_storeAt f _ _ _ | with_reducible exact within_stepSi f _
    | with_reducible exact within_stepDi f _ | with_reducible exact within_opCmp f _ _ _
    | with_reducible exact within_putReg f _ _ _ | with_reducible exact within_ioCheck f _ _
    | with_reducible exact within_ioRead f _ _ | with_reducible exact within_ioWrite f _ _ _
    | with_reducible refine f.bind ?_ fun _ => ?_ | apply Within.ite | apply Within.cond | (split))

theorem within_inputElement (k : Width) : Within R (inputElement k) := by
  unfold inputElement
  repeat (first
    | with_reducible exact f.get | with_reducible exact f.look _ | with_reducible exact f.raise _
    | with_reducible exact f.shutDown | with_reducible exact f.check _ _ | with_reducible exact f.drawBit
    | with_reducible exact f.drawBits _ | with_reducible exact f.pure _ | with_reducible exact Within.refuse _
    | with_reducible exact Within.stopFault _ | with_reducible exact within_sourceElement f _
    | with_reducible exact within_destElement f _ | with_reducible exact within_destPlan f _
    | with_reducible exact within_storeAt f _ _ _ | with_reducible exact within_stepSi f _
    | with_reducible exact within_stepDi f _ | with_reducible exact within_opCmp f _ _ _
    | with_reducible exact within_putReg f _ _ _ | with_reducible exact within_ioCheck f _ _
    | with_reducible exact within_ioRead f _ _ | with_reducible exact within_ioWrite f _ _ _
    | with_reducible refine f.bind ?_ fun _ => ?_ | apply Within.ite | apply Within.cond | (split))

theorem within_outputElement (k : Width) : Within R (outputElement k) := by
  unfold outputElement
  repeat (first
    | with_reducible exact f.get | with_reducible exact f.look _ | with_reducible exact f.raise _
    | with_reducible exact f.shutDown | with_reducible exact f.check _ _ | with_reducible exact f.drawBit
    | with_reducible exact f.drawBits _ | with_reducible exact f.pure _ | with_reducible exact Within.refuse _
    | with_reducible exact Within.stopFault _ | with_reducible exact within_sourceElement f _
    | with_reducible exact within_destElement f _ | with_reducible exact within_destPlan f _
    | with_reducible exact within_storeAt f _ _ _ | with_reducible exact within_stepSi f _
    | with_reducible exact within_stepDi f _ | with_reducible exact within_opCmp f _ _ _
    | with_reducible exact within_putReg f _ _ _ | with_reducible exact within_ioCheck f _ _
    | with_reducible exact within_ioRead f _ _ | with_reducible exact within_ioWrite f _ _ _
    | with_reducible refine f.bind ?_ fun _ => ?_ | apply Within.ite | apply Within.cond | (split))

theorem within_repeated (c : Bool) {e : M Unit} (h : Within R e) : Within R (repeated c e) := by
  unfold repeated
  repeat (first
    | with_reducible exact f.get | with_reducible exact f.look _ | with_reducible exact f.raise _
    | with_reducible exact f.shutDown | with_reducible exact f.check _ _ | with_reducible exact f.drawBit
    | with_reducible exact f.drawBits _ | with_reducible exact f.pure _ | with_reducible exact Within.refuse _
    | with_reducible exact Within.stopFault _ | with_reducible exact h | with_reducible exact within_countDown f
    | with_reducible exact within_rewind f | with_reducible refine f.bind ?_ fun _ => ?_ | apply Within.ite
    | apply Within.cond | (split))

theorem within_bitFlags (c : Bool) : Within R (bitFlags c) := by
  unfold bitFlags
  repeat (first
    | with_reducible exact f.get | with_reducible exact f.look _ | with_reducible exact f.raise _
    | with_reducible exact f.shutDown | with_reducible exact f.check _ _ | with_reducible exact f.drawBit
    | with_reducible exact f.drawBits _ | with_reducible exact f.pure _ | with_reducible exact Within.refuse _
    | with_reducible exact Within.stopFault _ | with_reducible exact within_putFlags f fun _ => rfl
    | with_reducible refine f.bind ?_ fun _ => ?_ | apply Within.ite | apply Within.cond | (split))

theorem within_bitAddress (k : Width) (m : MemOp) (o : BitVec k.bits) : Within R (bitAddress k m o) := by
  unfold bitAddress
  repeat (first
    | with_reducible exact f.get | with_reducible exact f.look _ | with_reducible exact f.raise _
    | with_reducible exact f.shutDown | with_reducible exact f.check _ _ | with_reducible exact f.drawBit
    | with_reducible exact f.drawBits _ | with_reducible exact f.pure _ | with_reducible exact Within.refuse _
    | with_reducible exact Within.stopFault _ | with_reducible exact within_addressOf f _
    | with_reducible refine f.bind ?_ fun _ => ?_ | apply Within.ite | apply Within.cond | (split))

theorem within_testBit (k : Width) (v : BitVec k.bits) (b : Nat) : Within R (testBit k v b) := by
  unfold testBit
  repeat (first
    | with_reducible exact f.get | with_reducible exact f.look _ | with_reducible exact f.raise _
    | with_reducible exact f.shutDown | with_reducible exact f.check _ _ | with_reducible exact f.drawBit
    | with_reducible exact f.drawBits _ | with_reducible exact f.pure _ | with_reducible exact Within.refuse _
    | with_reducible exact Within.stopFault _ | with_reducible exact within_bitFlags f _
    | with_reducible refine f.bind ?_ fun _ => ?_ | apply Within.ite | apply Within.cond | (split))

theorem within_changeBit (k : Width) (g : BitVec k.bits → BitVec k.bits → BitVec k.bits) (p : Place) (v : BitVec k.bits) (b : Nat) :
    Within R (changeBit k g p v b) := by
  unfold changeBit
  repeat (first
    | with_reducible exact f.get | with_reducible exact f.look _ | with_reducible exact f.raise _
    | with_reducible exact f.shutDown | with_reducible exact f.check _ _ | with_reducible exact f.drawBit
    | with_reducible exact f.drawBits _ | with_reducible exact f.pure _ | with_reducible exact Within.refuse _
    | with_reducible exact Within.stopFault _ | with_reducible exact within_bitFlags f _
    | with_reducible exact within_putPlace f _ _ _ | with_reducible refine f.bind ?_ fun _ => ?_ | apply Within.ite
    | apply Within.cond | (split))

theorem within_changeBitImm (g : BitOp) (rm : Rm) (i : Byte) : Within R (changeBitImm g rm i) := by
  unfold changeBitImm
  repeat (first
    | with_reducible exact f.get | with_reducible exact f.look _ | with_reducible exact f.raise _
    | with_reducible exact f.shutDown | with_reducible exact f.check _ _ | with_reducible exact f.drawBit
    | with_reducible exact f.drawBits _ | with_reducible exact f.pure _ | with_reducible exact Within.refuse _
    | with_reducible exact Within.stopFault _ | with_reducible exact within_modifyRm f _ _
    | with_reducible exact within_changeBit f _ _ _ _ _ | with_reducible refine f.bind ?_ fun _ => ?_ | apply Within.ite
    | apply Within.cond | (split))

theorem within_changeBitReg (g : BitOp) (reg : Gpr) (rm : Rm) : Within R (changeBitReg g reg rm) := by
  unfold changeBitReg
  repeat (first
    | with_reducible exact f.get | with_reducible exact f.look _ | with_reducible exact f.raise _
    | with_reducible exact f.shutDown | with_reducible exact f.check _ _ | with_reducible exact f.drawBit
    | with_reducible exact f.drawBits _ | with_reducible exact f.pure _ | with_reducible exact Within.refuse _
    | with_reducible exact Within.stopFault _ | with_reducible exact within_modifyRm f _ _
    | with_reducible exact within_bitAddress f _ _ _ | with_reducible exact within_modifyAt f _ _ _
    | with_reducible exact within_changeBit f _ _ _ _ _ | with_reducible refine f.bind ?_ fun _ => ?_ | apply Within.ite
    | apply Within.cond | (split))

theorem within_testBitReg (reg : Gpr) (rm : Rm) : Within R (testBitReg reg rm) := by
  unfold testBitReg
  repeat (first
    | with_reducible exact f.get | with_reducible exact f.look _ | with_reducible exact f.raise _
    | with_reducible exact f.shutDown | with_reducible exact f.check _ _ | with_reducible exact f.drawBit
    | with_reducible exact f.drawBits _ | with_reducible exact f.pure _ | with_reducible exact Within.refuse _
    | with_reducible exact Within.stopFault _ | with_reducible exact within_readRm f _ _
    | with_reducible exact within_bitAddress f _ _ _ | with_reducible exact within_readAt f _ _ _
    | with_reducible exact within_testBit f _ _ _ | with_reducible refine f.bind ?_ fun _ => ?_ | apply Within.ite
    | apply Within.cond | (split))

theorem within_scanRm (g : (k : Width) → BitVec k.bits → Nat) (reg : Gpr) (rm : Rm) : Within R (scanRm g reg rm) := by
  unfold scanRm
  repeat (first
    | with_reducible exact f.get | with_reducible exact f.look _ | with_reducible exact f.raise _
    | with_reducible exact f.shutDown | with_reducible exact f.check _ _ | with_reducible exact f.drawBit
    | with_reducible exact f.drawBits _ | with_reducible exact f.pure _ | with_reducible exact Within.refuse _
    | with_reducible exact Within.stopFault _ | with_reducible exact within_readRm f _ _
    | with_reducible exact within_putReg f _ _ _ | with_reducible exact within_putFlags f fun _ => rfl
    | with_reducible refine f.bind ?_ fun _ => ?_ | apply Within.ite | apply Within.cond | (split))

/-! ## Control transfer -/

theorem within_jumpRel (d : Word) : Within R (jumpRel d) := by
  unfold jumpRel
  repeat (first
    | with_reducible exact f.get | with_reducible exact f.look _ | with_reducible exact f.raise _
    | with_reducible exact f.shutDown | with_reducible exact f.check _ _ | with_reducible exact f.drawBit
    | with_reducible exact f.drawBits _ | with_reducible exact f.pure _ | with_reducible exact Within.refuse _
    | with_reducible exact Within.stopFault _ | with_reducible exact within_relTarget f _
    | with_reducible exact within_jumpTo f _ | with_reducible refine f.bind ?_ fun _ => ?_ | apply Within.ite
    | apply Within.cond | (split))

theorem within_callTo (t : Word) : Within R (callTo t) := by
  unfold callTo
  repeat (first
    | with_reducible exact f.get | with_reducible exact f.look _ | with_reducible exact f.raise _
    | with_reducible exact f.shutDown | with_reducible exact f.check _ _ | with_reducible exact f.drawBit
    | with_reducible exact f.drawBits _ | with_reducible exact f.pure _ | with_reducible exact Within.refuse _
    | with_reducible exact Within.stopFault _ | with_reducible exact within_pushValue f _
    | with_reducible exact within_jumpTo f _ | with_reducible refine f.bind ?_ fun _ => ?_ | apply Within.ite
    | apply Within.cond | (split))

theorem within_indirectTarget (rm : Rm) : Within R (indirectTarget rm) := by
  unfold indirectTarget
  repeat (first
    | with_reducible exact f.get | with_reducible exact f.look _ | with_reducible exact f.raise _
    | with_reducible exact f.shutDown | with_reducible exact f.check _ _ | with_reducible exact f.drawBit
    | with_reducible exact f.drawBits _ | with_reducible exact f.pure _ | with_reducible exact Within.refuse _
    | with_reducible exact Within.stopFault _ | with_reducible exact within_readRm f _ _
    | with_reducible exact within_checkTarget f _ | with_reducible refine f.bind ?_ fun _ => ?_ | apply Within.ite
    | apply Within.cond | (split))

theorem within_readFarPointer (m : MemOp) : Within R (readFarPointer m) := by
  unfold readFarPointer
  repeat (first
    | with_reducible exact f.get | with_reducible exact f.look _ | with_reducible exact f.raise _
    | with_reducible exact f.shutDown | with_reducible exact f.check _ _ | with_reducible exact f.drawBit
    | with_reducible exact f.drawBits _ | with_reducible exact f.pure _ | with_reducible exact Within.refuse _
    | with_reducible exact Within.stopFault _ | with_reducible exact within_addressOf f _
    | with_reducible exact within_readAt f _ _ _ | with_reducible refine f.bind ?_ fun _ => ?_ | apply Within.ite
    | apply Within.cond | (split))

theorem within_returnNear (x : Word) : Within R (returnNear x) := by
  unfold returnNear
  repeat (first
    | with_reducible exact f.get | with_reducible exact f.look _ | with_reducible exact f.raise _
    | with_reducible exact f.shutDown | with_reducible exact f.check _ _ | with_reducible exact f.drawBit
    | with_reducible exact f.drawBits _ | with_reducible exact f.pure _ | with_reducible exact Within.refuse _
    | with_reducible exact Within.stopFault _ | with_reducible exact within_stackRead f _ _
    | with_reducible exact within_checkTarget f _ | with_reducible exact within_releaseStack f _
    | with_reducible exact within_jumpTo f _ | with_reducible refine f.bind ?_ fun _ => ?_ | apply Within.ite
    | apply Within.cond | (split))

theorem within_jumpIf (b : Bool) (d : Word) : Within R (jumpIf b d) := by
  unfold jumpIf
  repeat (first
    | with_reducible exact f.get | with_reducible exact f.look _ | with_reducible exact f.raise _
    | with_reducible exact f.shutDown | with_reducible exact f.check _ _ | with_reducible exact f.drawBit
    | with_reducible exact f.drawBits _ | with_reducible exact f.pure _ | with_reducible exact Within.refuse _
    | with_reducible exact Within.stopFault _ | with_reducible exact within_jumpRel f _
    | with_reducible refine f.bind ?_ fun _ => ?_ | apply Within.ite | apply Within.cond | (split))

theorem within_loopIf (b : Bool) (d : Byte) : Within R (loopIf b d) := by
  unfold loopIf
  repeat (first
    | with_reducible exact f.get | with_reducible exact f.look _ | with_reducible exact f.raise _
    | with_reducible exact f.shutDown | with_reducible exact f.check _ _ | with_reducible exact f.drawBit
    | with_reducible exact f.drawBits _ | with_reducible exact f.pure _ | with_reducible exact Within.refuse _
    | with_reducible exact Within.stopFault _ | with_reducible exact within_relTarget f _
    | with_reducible exact within_jumpTo f _ | exact Within.update fun s => f.regs s _
    | with_reducible refine f.bind ?_ fun _ => ?_ | apply Within.ite | apply Within.cond | (split))

theorem within_planDisplay (n i : Nat) (ebp esp : Word) : Within R (planDisplay n i ebp esp) := by
  induction i generalizing ebp esp with
  | zero => exact f.pure _
  | succ i ih =>
    exact f.bind f.get fun _ => f.bind (within_plan f _ _ _ _) fun _ => f.bind (within_planPush f _ _ _ _ _ _) fun _ =>
      f.bind (ih _ _) fun _ => f.pure _

theorem within_enterFrame (z : HWord) (l : Byte) : Within R (enterFrame z l) := by
  unfold enterFrame
  repeat (first
    | with_reducible exact f.get | with_reducible exact f.look _ | with_reducible exact f.raise _
    | with_reducible exact f.shutDown | with_reducible exact f.check _ _ | with_reducible exact f.drawBit
    | with_reducible exact f.drawBits _ | with_reducible exact f.pure _ | with_reducible exact Within.refuse _
    | with_reducible exact Within.stopFault _ | with_reducible exact within_planPush f _ _ _ _ _ _
    | with_reducible exact within_planDisplay f _ _ _ _ | with_reducible exact within_physWrite f _ _
    | with_reducible exact within_copyAll f _ | exact Within.update fun s => f.regs s _
    | with_reducible refine f.bind ?_ fun _ => ?_ | apply Within.ite | apply Within.cond | (split))

theorem within_leaveFrame  : Within R (leaveFrame) := by
  unfold leaveFrame
  repeat (first
    | with_reducible exact f.get | with_reducible exact f.look _ | with_reducible exact f.raise _
    | with_reducible exact f.shutDown | with_reducible exact f.check _ _ | with_reducible exact f.drawBit
    | with_reducible exact f.drawBits _ | with_reducible exact f.pure _ | with_reducible exact Within.refuse _
    | with_reducible exact Within.stopFault _ | with_reducible exact within_popValue f
    | with_reducible exact within_putReg f _ _ _ | exact Within.update fun s => f.regs s _
    | with_reducible refine f.bind ?_ fun _ => ?_ | apply Within.ite | apply Within.cond | (split))

/-! ## Processor and protection control -/

theorem within_readCr (c : CrReg) : Within R (readCr c) := by
  unfold readCr
  repeat (first
    | with_reducible exact f.get | with_reducible exact f.look _ | with_reducible exact f.raise _
    | with_reducible exact f.shutDown | with_reducible exact f.check _ _ | with_reducible exact f.drawBit
    | with_reducible exact f.drawBits _ | with_reducible exact f.pure _ | with_reducible exact Within.refuse _
    | with_reducible exact Within.stopFault _ | with_reducible refine f.bind ?_ fun _ => ?_ | apply Within.ite
    | apply Within.cond | (split))

theorem within_needDebug  : Within R (needDebug) := by
  unfold needDebug
  repeat (first
    | with_reducible exact f.get | with_reducible exact f.look _ | with_reducible exact f.raise _
    | with_reducible exact f.shutDown | with_reducible exact f.check _ _ | with_reducible exact f.drawBit
    | with_reducible exact f.drawBits _ | with_reducible exact f.pure _ | with_reducible exact Within.refuse _
    | with_reducible exact Within.stopFault _ | with_reducible exact within_needCpl0 f
    | exact Within.update fun s => f.dregs s _ | with_reducible refine f.bind ?_ fun _ => ?_ | apply Within.ite
    | apply Within.cond | (split))

theorem within_readDr (d : DrReg) : Within R (readDr d) := by
  unfold readDr
  repeat (first
    | with_reducible exact f.get | with_reducible exact f.look _ | with_reducible exact f.raise _
    | with_reducible exact f.shutDown | with_reducible exact f.check _ _ | with_reducible exact f.drawBit
    | with_reducible exact f.drawBits _ | with_reducible exact f.pure _ | with_reducible exact Within.refuse _
    | with_reducible exact Within.stopFault _ | with_reducible refine f.bind ?_ fun _ => ?_ | apply Within.ite
    | apply Within.cond | (split))

theorem within_freeBytes (n : Nat) : Within R (freeBytes n) := by
  induction n with
  | zero => exact f.pure _
  | succ n ih => exact f.bind (f.drawBits _) fun _ => f.bind ih fun _ => f.pure _

theorem within_escMemory (n : Nat) (b : Bool) (r : Sreg) (off : Word) : Within R (escMemory n b r off) := by
  unfold escMemory
  repeat (first
    | with_reducible exact f.get | with_reducible exact f.look _ | with_reducible exact f.raise _
    | with_reducible exact f.shutDown | with_reducible exact f.check _ _ | with_reducible exact f.drawBit
    | with_reducible exact f.drawBits _ | with_reducible exact f.pure _ | with_reducible exact Within.refuse _
    | with_reducible exact Within.stopFault _ | with_reducible exact within_planLinear f _ _ _ _
    | with_reducible exact within_freeBytes f _ | with_reducible exact within_physRead f _
    | with_reducible exact within_physWrite f _ _ | with_reducible refine f.bind ?_ fun _ => ?_ | apply Within.ite
    | apply Within.cond | (split))

theorem within_escStep (t l : BitVec 3) (rm : Rm) : Within R (escStep t l rm) := by
  unfold escStep
  repeat (first
    | with_reducible exact f.get | with_reducible exact f.look _ | with_reducible exact f.raise _
    | with_reducible exact f.shutDown | with_reducible exact f.check _ _ | with_reducible exact f.drawBit
    | with_reducible exact f.drawBits _ | with_reducible exact f.pure _ | with_reducible exact Within.refuse _
    | with_reducible exact Within.stopFault _ | with_reducible exact within_putReg f _ _ _
    | with_reducible exact within_addressOf f _ | with_reducible exact within_escMemory f _ _ _ _
    | exact Within.update fun s => f.pins s _ | with_reducible refine f.bind ?_ fun _ => ?_ | apply Within.ite
    | apply Within.cond | (split))

theorem within_probe (sel : HWord) : Within R (probe sel) := by
  unfold probe
  repeat (first
    | with_reducible exact f.get | with_reducible exact f.look _ | with_reducible exact f.raise _
    | with_reducible exact f.shutDown | with_reducible exact f.check _ _ | with_reducible exact f.drawBit
    | with_reducible exact f.drawBits _ | with_reducible exact f.pure _ | with_reducible exact Within.refuse _
    | with_reducible exact Within.stopFault _ | with_reducible exact within_fetchDesc f _
    | with_reducible refine f.bind ?_ fun _ => ?_ | apply Within.ite | apply Within.cond | (split))

theorem within_examine (a : Desc → Bool) (v : Desc → Word) (reg : Gpr) (rm : Rm) : Within R (examine a v reg rm) := by
  unfold examine
  repeat (first
    | with_reducible exact f.get | with_reducible exact f.look _ | with_reducible exact f.raise _
    | with_reducible exact f.shutDown | with_reducible exact f.check _ _ | with_reducible exact f.drawBit
    | with_reducible exact f.drawBits _ | with_reducible exact f.pure _ | with_reducible exact Within.refuse _
    | with_reducible exact Within.stopFault _ | with_reducible exact within_needProtMode f
    | with_reducible exact within_readRm f _ _ | with_reducible exact within_probe f _
    | with_reducible exact within_putReg f _ _ _ | with_reducible exact within_putFlags f fun _ => rfl
    | with_reducible refine f.bind ?_ fun _ => ?_ | apply Within.ite | apply Within.cond | (split))

theorem within_verify (o : Desc → Nat → HWord → Bool) (rm : Rm) : Within R (verify o rm) := by
  unfold verify
  repeat (first
    | with_reducible exact f.get | with_reducible exact f.look _ | with_reducible exact f.raise _
    | with_reducible exact f.shutDown | with_reducible exact f.check _ _ | with_reducible exact f.drawBit
    | with_reducible exact f.drawBits _ | with_reducible exact f.pure _ | with_reducible exact Within.refuse _
    | with_reducible exact Within.stopFault _ | with_reducible exact within_needProtMode f
    | with_reducible exact within_readRm f _ _ | with_reducible exact within_probe f _
    | with_reducible exact within_putFlags f fun _ => rfl | with_reducible refine f.bind ?_ fun _ => ?_ | apply Within.ite
    | apply Within.cond | (split))

theorem within_putLdtr (l : Ldtr) : Within R (putLdtr l) := Within.update fun s => f.tables s _

theorem within_storeTable (m : MemOp) (t : TableReg) : Within R (storeTable m t) := by
  unfold storeTable
  repeat (first
    | with_reducible exact f.get | with_reducible exact f.look _ | with_reducible exact f.raise _
    | with_reducible exact f.shutDown | with_reducible exact f.check _ _ | with_reducible exact f.drawBit
    | with_reducible exact f.drawBits _ | with_reducible exact f.pure _ | with_reducible exact Within.refuse _
    | with_reducible exact Within.stopFault _ | with_reducible exact within_addressOf f _
    | with_reducible exact within_plan f _ _ _ _ | with_reducible exact within_physWrite f _ _
    | with_reducible refine f.bind ?_ fun _ => ?_ | apply Within.ite | apply Within.cond | (split))

theorem within_loadTable (m : MemOp) : Within R (loadTable m) := by
  unfold loadTable
  repeat (first
    | with_reducible exact f.get | with_reducible exact f.look _ | with_reducible exact f.raise _
    | with_reducible exact f.shutDown | with_reducible exact f.check _ _ | with_reducible exact f.drawBit
    | with_reducible exact f.drawBits _ | with_reducible exact f.pure _ | with_reducible exact Within.refuse _
    | with_reducible exact Within.stopFault _ | with_reducible exact within_needCpl0 f
    | with_reducible exact within_addressOf f _ | with_reducible exact within_memRead f _ _ _
    | with_reducible refine f.bind ?_ fun _ => ?_ | apply Within.ite | apply Within.cond | (split))

end

end Sys2Proof.Machine
end

