-- ==== Sys2Proof/Laws/Quiet.lean ====
section
/-!
SUPPORT. What an access to memory leaves unchanged when it ends: translation, the breakpoints it matches, and the reads of the
shared operations are `Quiet`. What a store to RAM does to memory, byte by byte.
-/

namespace Sys2Proof.Machine

/-! ## Bytes (R102) -/

/-- The value of `n` bytes has no bit from bit `8 n` on. -/
theorem wordOf_high (bs : List Byte) (i : Nat) (h : 8 * bs.length ≤ i) : (wordOf bs).getLsbD i = false := by
  induction bs generalizing i with
  | nil => simp [wordOf]
  | cons b bs ih =>
    simp only [List.length_cons] at h
    have hi : ¬ i < 8 := by omega
    simp [wordOf, hi, ih (i - 8) (by omega), BitVec.getLsbD_of_ge b i (by omega)]

theorem wordOf_cons_low (b : Byte) (bs : List Byte) : (wordOf (b :: bs)).setWidth 8 = b := by
  apply BitVec.eq_of_getLsbD_eq
  intro i hi
  simp [wordOf, hi]

theorem wordOf_cons_high (b : Byte) (bs : List Byte) (h : bs.length ≤ 3) : wordOf (b :: bs) >>> 8 = wordOf bs := by
  apply BitVec.eq_of_getLsbD_eq
  intro i hi
  by_cases hs : 8 + i < 32
  · simp [wordOf, hs, show ¬ 8 + i < 8 by omega, BitVec.getLsbD_eq_getElem hi]
  · simp [wordOf, hs, wordOf_high bs i (by omega)]

/-- The bytes of the value of up to four bytes are those bytes. -/
theorem bytesOf_wordOf (bs : List Byte) (h : bs.length ≤ 4) : bytesOf bs.length (wordOf bs) = bs := by
  induction bs with
  | nil => rfl
  | cons b bs ih =>
    simp only [List.length_cons] at h
    rw [List.length_cons, bytesOf, wordOf_cons_low, wordOf_cons_high b bs (by omega), ih (by omega)]

theorem bytesOf_or (n : Nat) (x y : Word) : bytesOf n (x ||| y) = List.zipWith (· ||| ·) (bytesOf n x) (bytesOf n y) := by
  induction n generalizing x y with
  | zero => rfl
  | succ n ih => simp [bytesOf, ih, BitVec.ushiftRight_or_distrib]

/-! ## Stores (R101; log entry 21) -/

@[simp] theorem byteAt_withStale (s : State) (l : List Host.Cell) (a : Word) : (s.withStale l).byteAt a = s.byteAt a := rfl

/-- The byte at an address depends on memory alone. -/
theorem byteAt_congr {s t : State} (h : t.mem = s.mem) (a : Word) : t.byteAt a = s.byteAt a := by
  simp [State.byteAt, h]

/-- One byte written to RAM: it reads back, every other byte as before. -/
theorem byteAt_withMem_write (s : State) (a x : Word) (v : Byte) (w : s.memOk = true) :
    (s.withMem (Memory.write s.mem a.toNat v)).byteAt x = if a = x then v else s.byteAt x := by
  simp only [State.byteAt, State.withMem, Memory.read_write _ _ w]
  by_cases h : a = x
  · simp [h]
  · rw [if_neg, if_neg h]
    exact fun e => h (BitVec.eq_of_toNat_eq e.symm)

/-- What a store changes: memory and the bytes the prefetch queue may still hold. -/
structure MemOnly (s t : State) : Prop where
  mem : ∃ (m : List Host.Cell) (c : List Host.Cell × List Host.Cell), t = (s.withFetch { s.fetch with stale := c.1, ahead := c.2 }).withMem m
  memOk : s.memOk = true → t.memOk = true

theorem MemOnly.refl (s : State) : MemOnly s s := ⟨⟨s.mem, (s.fetch.stale, s.fetch.ahead), rfl⟩, fun w => w⟩

theorem MemOnly.trans {s t u : State} (h1 : MemOnly s t) (h2 : MemOnly t u) : MemOnly s u := by
  obtain ⟨⟨m, l, rfl⟩, w1⟩ := h1
  obtain ⟨⟨m', l', rfl⟩, w2⟩ := h2
  exact ⟨⟨m', l', rfl⟩, fun w => w2 (w1 w)⟩

/-- A byte written in memory, and the queue as the write leaves it. -/
theorem MemOnly.write (s : State) (l : List Host.Cell) (a : Nat) (v : Byte) :
    MemOnly s ((s.withStale l).withMem (Memory.write s.mem a v)) :=
  ⟨⟨_, (l, s.fetch.ahead), rfl⟩, fun w => Memory.write_wf _ _ w⟩

/-- What a store does before its first byte: it keeps the bytes ahead at most. -/
theorem MemOnly.beforeStore (s : State) (as : List Word) : MemOnly s (s.beforeStore as) := by
  unfold State.beforeStore
  cases s.pagingOn && as.any _
  · exact .refl s
  · exact ⟨⟨s.mem, (s.fetch.stale, s.keepAhead.fetch.ahead), rfl⟩, fun w => w⟩

@[simp] theorem beforeStore_mem (s : State) (as : List Word) : (s.beforeStore as).mem = s.mem := by
  unfold State.beforeStore
  cases s.pagingOn && as.any _ <;> rfl

@[simp] theorem beforeStore_params (s : State) (as : List Word) : (s.beforeStore as).params = s.params := by
  unfold State.beforeStore
  cases s.pagingOn && as.any _ <;> rfl

/-- A store is its bytes, after what is done before the first. -/
theorem physWrite_apply (ps : List Word) (bs : List Byte) (s : State) :
    physWrite ps bs s = physWriteBytes ps bs (s.beforeStore ps) := rfl

/-- Storing one byte at a RAM address. -/
theorem physWriteByte_ram {s : State} {a : Word} (v : Byte) (h : memKind s.params.memMap a.toNat = .ram) :
    physWriteByte a v s = .ok ((), (s.withStale (staleAfter s a)).withMem (Memory.write s.mem a.toNat v)) := by
  simp [physWriteByte, h]

theorem storedByte_congr (ps : List Word) (bs : List Byte) (a : Word) {x y : Byte} (h : x = y) :
    storedByte ps bs a x = storedByte ps bs a y := by rw [h]

/-- Everything the bytes of a store to RAM do. -/
theorem physWriteBytes_ram {ps : List Word} {bs : List Byte} {s : State} (h : AllRam s ps) :
    ∃ t, physWriteBytes ps bs s = .ok ((), t) ∧ MemOnly s t ∧ (s.memOk = true → Stored ps bs s t) := by
  induction ps generalizing bs s with
  | nil => exact ⟨s, rfl, .refl s, fun _ _ => rfl⟩
  | cons p ps ih =>
    cases bs with
    | nil => exact ⟨s, rfl, .refl s, fun _ _ => rfl⟩
    | cons b bs =>
      have h1 := physWriteByte_ram b (h p (by simp))
      let u := (s.withStale (staleAfter s p)).withMem (Memory.write s.mem p.toNat b)
      have hu : MemOnly s u := .write s _ _ _
      obtain ⟨t, ht, hm, hs⟩ := ih (bs := bs) (s := u) fun a ha => h a (by simp [ha])
      refine ⟨t, by rw [physWriteBytes, M.bind_ok h1]; exact ht, hu.trans hm, fun w a => ?_⟩
      rw [hs (hu.memOk w) a, storedByte]
      exact storedByte_congr _ _ _ (byteAt_withMem_write (s.withStale (staleAfter s p)) p a b w)

/-- Everything a store to RAM does: it ends, changes memory and the queue only, and the bytes read back where they were stored. -/
theorem physWrite_ram {ps : List Word} {bs : List Byte} {s : State} (h : AllRam s ps) :
    ∃ t, physWrite ps bs s = .ok ((), t) ∧ MemOnly s t ∧ (s.memOk = true → Stored ps bs s t) := by
  obtain ⟨t, h1, h2, h3⟩ := physWriteBytes_ram (bs := bs) (s := s.beforeStore ps) (ps := ps) (by simpa [AllRam] using h)
  refine ⟨t, h1, (MemOnly.beforeStore s ps).trans h2, fun w a => ?_⟩
  rw [h3 ((MemOnly.beforeStore s ps).memOk w) a, byteAt_congr (beforeStore_mem s ps)]

/-- Everything a read of RAM does: the bytes as they stand, nothing changed. -/
theorem physRead_ram {ps : List Word} {s : State} (h : AllRam s ps) : physRead ps s = .ok (ps.map s.byteAt, s) := by
  induction ps with
  | nil => rfl
  | cons p ps ih =>
    have h1 : physReadByte p s = .ok (s.byteAt p, s) := by simp [physReadByte, h p (by simp)]
    rw [physRead, M.bind_ok h1, M.bind_ok (ih fun a ha => h a (by simp [ha]))]
    rfl

/-- A read that ends changes nothing. -/
theorem physRead_same {ps : List Word} {s t : State} {bs : List Byte} (h : physRead ps s = .ok (bs, t)) :
    t = s ∧ bs = ps.map s.byteAt := by
  induction ps generalizing bs t with
  | nil =>
    obtain ⟨rfl, rfl⟩ := Prod.mk.inj (Except.ok.inj h)
    exact ⟨rfl, rfl⟩
  | cons p ps ih =>
    obtain ⟨b, u, h1, h2⟩ := M.bind_eq_ok.mp h
    obtain ⟨bs', u', h3, h4⟩ := M.bind_eq_ok.mp h2
    obtain ⟨rfl, rfl⟩ : b = s.byteAt p ∧ u = s := by
      simp only [physReadByte] at h1
      split at h1 <;> simp at h1
      · exact ⟨h1.1.symm, h1.2.symm⟩
      · exact ⟨h1.1.symm, h1.2.symm⟩
    obtain ⟨rfl, rfl⟩ := ih h3
    obtain ⟨rfl, rfl⟩ := Prod.mk.inj (Except.ok.inj h4)
    exact ⟨rfl, rfl⟩

/-! ## Relations of the states a computation ends in -/

/-- Every state a computation ends in is related to the one it started in. -/
def OnOk {α : Type} (R : State → State → Prop) (m : M α) : Prop := ∀ s a t, m s = .ok (a, t) → R s t

section
variable {R : State → State → Prop} (c : Composes R)
include c

theorem OnOk.pure {α : Type} (a : α) : OnOk R (pure a : M α) := by
  intro s b t h
  obtain ⟨-, rfl⟩ := Prod.mk.inj (Except.ok.inj h)
  exact c.refl _

theorem OnOk.bind {α β : Type} {x : M α} {f : α → M β} (hx : OnOk R x) (hf : ∀ a, OnOk R (f a)) : OnOk R (x >>= f) := by
  intro s b t h
  obtain ⟨a, u, h1, h2⟩ := M.bind_eq_ok.mp h
  exact c.trans (hx s a u h1) (hf a u b t h2)

theorem OnOk.get : OnOk R (MonadState.get : M State) := by
  intro s b t h
  obtain ⟨-, rfl⟩ := Prod.mk.inj (Except.ok.inj h)
  exact c.refl _

theorem OnOk.look {α : Type} (f : State → α) : OnOk R (look f) := by
  intro s b t h
  obtain ⟨-, rfl⟩ := Prod.mk.inj (Except.ok.inj h)
  exact c.refl _

theorem OnOk.check (b : Bool) (e : Exc) : OnOk R (check b e) := by
  cases b
  · intro s a t h
    cases h
  · exact OnOk.pure c ()

omit c in
theorem OnOk.raise {α : Type} (e : Exc) : OnOk R (raise e : M α) := by
  intro s b t h
  cases h

omit c in
theorem OnOk.shutDown {α : Type} : OnOk R (shutDown : M α) := by
  intro s b t h
  cases h

omit c in
theorem OnOk.update {f : State → State} (h : ∀ s, R s (f s)) : OnOk R (update f) := by
  intro s b t h'
  obtain ⟨-, rfl⟩ := Prod.mk.inj (Except.ok.inj h')
  exact h _

omit c in
theorem OnOk.drawBit (h : ∀ s, R s (s.withDraws (s.draws + 1))) : OnOk R drawBit := by
  intro s b t h'
  obtain ⟨-, rfl⟩ := Prod.mk.inj (Except.ok.inj h')
  exact h _

omit c in
theorem OnOk.drawBits (n : Nat) (h : ∀ s, R s (s.withDraws (s.draws + 1))) : OnOk R (drawBits n) := by
  intro s b t h'
  obtain ⟨-, rfl⟩ := Prod.mk.inj (Except.ok.inj h')
  exact h _

omit c in
theorem OnOk.ite {α : Type} {p : Prop} [Decidable p] {x y : M α} (hx : OnOk R x) (hy : OnOk R y) :
    OnOk R (if p then x else y) := by split <;> assumption

omit c in
theorem OnOk.cond {α : Type} {b : Bool} {x y : M α} (hx : OnOk R x) (hy : OnOk R y) : OnOk R (bif b then x else y) := by
  cases b <;> assumption

theorem OnOk.physRead (ps : List Word) : OnOk R (physRead ps) := by
  intro s b t h
  rw [(physRead_same h).1]
  exact c.refl s

end

/-! ## Bits of page-table entries (R130, R134) -/

theorem append_zero_aligned (x : BitVec 30) : (x ++ 0#2 : Word).setWidth 2 = 0#2 := by
  apply BitVec.eq_of_getLsbD_eq
  intro i hi
  have h : (x ++ 0#2).getLsbD i = false := BitVec.getLsbD_append.trans (by simp only [if_pos hi, BitVec.getLsbD_zero])
  rw [BitVec.getLsbD_setWidth, h]
  simp

/-- The bytes with A and D of page-table entries lie at addresses divisible by 4 (R130). -/
theorem entryByte_aligned {s : State} {a : Word} (h : s.entryByte a) : a.setWidth 2 = 0#2 := by
  obtain ⟨la, rfl | ⟨-, rfl⟩⟩ := h <;> exact append_zero_aligned _

/-- The other bytes of an entry have neither bit. -/
theorem not_entryByte {s : State} {a x : Word} (h : a.setWidth 2 = 0#2) (hx : x.setWidth 2 ≠ 0#2) : ¬ s.entryByte (a + x) := by
  intro e
  have e' := entryByte_aligned e
  rw [BitVec.setWidth_add _ _ (by omega), h, BitVec.zero_add] at e'
  exact hx e'

/-- Every byte is as before but those with A and D of page-table entries, which lose no bit and gain none but those two. -/
structure EntryBits (s t : State) : Prop where
  cr3 : t.cr3 = s.cr3
  memOk : s.memOk = true → t.memOk = true
  bits : s.memOk = true → ∀ a, t.byteAt a = s.byteAt a ∨
    (s.entryByte a ∧ ∃ b : Byte, t.byteAt a = s.byteAt a ||| (b &&& 0x60))

theorem EntryBits.of_mem {s t : State} (c : t.cr3 = s.cr3) (h : t.mem = s.mem) : EntryBits s t :=
  ⟨c, fun w => by rw [State.memOk, h]; exact w, fun _ a => .inl (byteAt_congr h a)⟩

theorem wordOf_or_low (x y : Byte) (bs : List Byte) : wordOf ((x ||| y) :: bs) = wordOf (x :: bs) ||| y.setWidth 32 := by
  apply BitVec.eq_of_getLsbD_eq
  intro i hi
  simp [wordOf, hi]
  by_cases h : i < 8
  · simp [h]
  · simp [h, BitVec.getLsbD_of_ge x i (by omega), BitVec.getLsbD_of_ge y i (by omega)]

/-- An entry gains no bit but A and D. -/
theorem EntryBits.dwordAt {s t : State} (e : EntryBits s t) (w : s.memOk = true) {a : Word} (h : a.setWidth 2 = 0#2) :
    ∃ b : Byte, t.dwordAt a = s.dwordAt a ||| (b &&& 0x60).setWidth 32 := by
  have same (x : Word) (hx : x.setWidth 2 ≠ 0#2) : t.byteAt (a + x) = s.byteAt (a + x) :=
    (e.bits w (a + x)).resolve_right fun h' => not_entryByte h hx h'.1
  simp only [State.dwordAt, same 1 (by decide), same 2 (by decide), same 3 (by decide)]
  rcases e.bits w a with h0 | ⟨-, b, h0⟩
  · exact ⟨0, by rw [h0]; simp⟩
  · exact ⟨b, by rw [h0, wordOf_or_low]⟩

theorem entryPresent_or (x : Word) (b : Byte) : entryPresent (x ||| (b &&& 0x60).setWidth 32) = entryPresent x := by
  simp [entryPresent]

theorem entryFrame_or (x : Word) (b : Byte) : entryFrame (x ||| (b &&& 0x60).setWidth 32) = entryFrame x := by
  apply BitVec.eq_of_getLsbD_eq
  intro i hi
  simp [entryFrame, hi, BitVec.getLsbD_of_ge b (12 + i) (by omega)]

/-- A and D tell no other entry: the entries stay where they are. -/
theorem EntryBits.entryByte {s t : State} (e : EntryBits s t) (w : s.memOk = true) (a : Word) :
    t.entryByte a ↔ s.entryByte a := by
  have hp (la : Word) : pdeAddress t la = pdeAddress s la := by simp [pdeAddress, e.cr3]
  have ha (la : Word) : (pdeAddress s la).setWidth 2 = 0#2 := entryByte_aligned ⟨la, .inl rfl⟩
  have hd (la : Word) : entryPresent (t.dwordAt (pdeAddress s la)) = entryPresent (s.dwordAt (pdeAddress s la)) ∧
      pteAddress (t.dwordAt (pdeAddress s la)) la = pteAddress (s.dwordAt (pdeAddress s la)) la := by
    obtain ⟨b, hb⟩ := e.dwordAt w (ha la)
    rw [hb, entryPresent_or, pteAddress, entryFrame_or]
    exact ⟨rfl, rfl⟩
  simp only [State.entryByte, hp, hd]

theorem EntryBits.trans {s t u : State} (h1 : EntryBits s t) (h2 : EntryBits t u) : EntryBits s u := by
  refine ⟨h2.cr3.trans h1.cr3, fun w => h2.memOk (h1.memOk w), fun w a => ?_⟩
  rcases h1.bits w a with e1 | ⟨he, b, e1⟩ <;> rcases h2.bits (h1.memOk w) a with e2 | ⟨he', c, e2⟩
  · exact .inl (e2.trans e1)
  · exact .inr ⟨(h1.entryByte w a).mp he', c, by rw [e2, e1]⟩
  · exact .inr ⟨he, b, by rw [e2, e1]⟩
  · refine .inr ⟨he, b ||| c, ?_⟩
    rw [e2, e1, BitVec.or_assoc]
    congr 1
    apply BitVec.eq_of_getLsbD_eq
    intro i hi
    simp
    cases b.getLsbD i <;> cases c.getLsbD i <;> simp

/-- A byte written over one that has all its other bits. -/
theorem entryBits_writeByte {s t : State} {p : Word} {v : Byte}
    (hv : v = s.byteAt p ∨ (s.entryByte p ∧ ∃ c : Byte, v = s.byteAt p ||| (c &&& 0x60)))
    (h : physWriteByte p v s = .ok ((), t)) :
    MemOnly s t ∧ EntryBits s t ∧ (s.memOk = true → ∀ a, a ≠ p → t.byteAt a = s.byteAt a) := by
  simp only [physWriteByte] at h
  split at h <;> simp at h
  · subst h
    have hm := MemOnly.write s (staleAfter s p) p.toNat v
    have hb := fun (w : s.memOk = true) a => byteAt_withMem_write (s.withStale (staleAfter s p)) p a v w
    refine ⟨hm, ⟨rfl, hm.memOk, fun w a => ?_⟩, fun w a ha => ?_⟩
    · by_cases hp : p = a
      · subst hp
        rcases hv with hv | ⟨he, c, hv⟩
        · exact .inl ((hb w p).trans (by rw [if_pos rfl, hv]))
        · exact .inr ⟨he, c, (hb w p).trans (by rw [if_pos rfl, hv])⟩
      · exact .inl ((hb w a).trans (if_neg hp))
    · exact (hb w a).trans (if_neg fun e => ha e.symm)
  · subst h
    exact ⟨.refl s, .of_mem rfl rfl, fun _ _ _ => rfl⟩

theorem entryBits_write {ps : List Word} {bs : List Byte} {s t : State} (w : s.memOk = true) (hn : ps.Nodup)
    (hb : ∀ q ∈ ps.zip bs, q.2 = s.byteAt q.1 ∨ (s.entryByte q.1 ∧ ∃ c : Byte, q.2 = s.byteAt q.1 ||| (c &&& 0x60)))
    (h : physWriteBytes ps bs s = .ok ((), t)) : MemOnly s t ∧ EntryBits s t := by
  induction ps generalizing bs s with
  | nil =>
    obtain ⟨-, rfl⟩ := Prod.mk.inj (Except.ok.inj h)
    exact ⟨.refl _, .of_mem rfl rfl⟩
  | cons p ps ih =>
    cases bs with
    | nil =>
      obtain ⟨-, rfl⟩ := Prod.mk.inj (Except.ok.inj h)
      exact ⟨.refl _, .of_mem rfl rfl⟩
    | cons b bs =>
      obtain ⟨_, u, h1, h2⟩ := M.bind_eq_ok.mp h
      obtain ⟨m1, e1, k1⟩ := entryBits_writeByte (hb (p, b) (by simp)) h1
      have hn' := List.nodup_cons.mp hn
      obtain ⟨m2, e2⟩ := ih (m1.memOk w) hn'.2 (fun q hq => by
        have hne : q.1 ≠ p := fun e => hn'.1 (e ▸ (List.of_mem_zip hq).1)
        rw [k1 w q.1 hne, e1.entryByte w]
        exact hb q (by simp [hq])) h2
      exact ⟨m1.trans m2, e1.trans e2⟩

/-- The bytes of a store that end change memory and the queue only. -/
theorem physWriteBytes_memOnly {ps : List Word} {bs : List Byte} {s t : State} (h : physWriteBytes ps bs s = .ok ((), t)) :
    MemOnly s t := by
  induction ps generalizing bs s with
  | nil =>
    obtain ⟨-, rfl⟩ := Prod.mk.inj (Except.ok.inj h)
    exact .refl _
  | cons p ps ih =>
    cases bs with
    | nil =>
      obtain ⟨-, rfl⟩ := Prod.mk.inj (Except.ok.inj h)
      exact .refl _
    | cons b bs =>
      obtain ⟨_, u, h1, h2⟩ := M.bind_eq_ok.mp h
      refine .trans ?_ (ih h2)
      simp only [physWriteByte] at h1
      split at h1 <;> simp at h1
      · exact h1 ▸ .write s _ _ _
      · exact h1 ▸ .refl s

/-- A store that ends changes memory and the queue only. -/
theorem physWrite_memOnly {ps : List Word} {bs : List Byte} {s t : State} (h : physWrite ps bs s = .ok ((), t)) : MemOnly s t :=
  (MemOnly.beforeStore s ps).trans (physWriteBytes_memOnly h)

theorem addrsFrom_nodup (a : Word) : (addrsFrom a 4).Nodup := by
  have h : ∀ i j : Nat, i < j → j < 4 → a + BitVec.ofNat 32 i ≠ a + BitVec.ofNat 32 j := by
    intro i j h1 h2 e
    have := congrArg BitVec.toNat ((BitVec.add_right_inj a).mp e)
    simp at this
    omega
  have h01 := h 0 1 (by omega) (by omega)
  have h02 := h 0 2 (by omega) (by omega)
  have h03 := h 0 3 (by omega) (by omega)
  have h12 := h 1 2 (by omega) (by omega)
  have h13 := h 1 3 (by omega) (by omega)
  have h23 := h 2 3 (by omega) (by omega)
  simp_all [addrsFrom, BitVec.add_assoc]

/-! ## Quiet computations (R110, R132, R134) -/

theorem SameSystem.refl (s : State) : SameSystem s s := ⟨rfl, rfl, rfl, rfl, rfl, rfl, rfl, rfl, rfl, rfl, rfl⟩

theorem SameSystem.trans {s t u : State} (h1 : SameSystem s t) (h2 : SameSystem t u) : SameSystem s u :=
  ⟨h2.cpl.trans h1.cpl, h2.segs.trans h1.segs, h2.cr0.trans h1.cr0, h2.cr2.trans h1.cr2, h2.cr3.trans h1.cr3,
    h2.tables.trans h1.tables, h2.dregs.trans h1.dregs, h2.test.trans h1.test, h2.pins.trans h1.pins,
    h2.params.trans h1.params, h2.io.trans h1.io⟩

/-- `Quiet` with memory as the accessed and dirty bits may leave it, whether paging is on or off. -/
structure Still (s t : State) : Prop where
  sys : SameSystem s t
  regs : t.regs = s.regs
  eip : t.eip = s.eip
  flags : t.flags = s.flags
  pfx : t.fetch.pfx = s.fetch.pfx
  start : t.fetch.start = s.fetch.start
  oldMode : t.fetch.oldMode = s.fetch.oldMode
  held : t.fetch.held = s.fetch.held
  shadow : t.pend.shadow = s.pend.shadow
  activity : t.pend.activity = s.pend.activity
  bs : t.pend.bs = s.pend.bs
  bt : t.pend.bt = s.pend.bt
  bits : EntryBits s t

theorem composes_still : Composes Still where
  refl s := ⟨.refl s, rfl, rfl, rfl, rfl, rfl, rfl, rfl, rfl, rfl, rfl, rfl, .of_mem rfl rfl⟩
  trans h1 h2 := ⟨h1.sys.trans h2.sys, h2.regs.trans h1.regs, h2.eip.trans h1.eip, h2.flags.trans h1.flags,
    h2.pfx.trans h1.pfx, h2.start.trans h1.start, h2.oldMode.trans h1.oldMode, h2.held.trans h1.held,
    h2.shadow.trans h1.shadow, h2.activity.trans h1.activity, h2.bs.trans h1.bs, h2.bt.trans h1.bt, h1.bits.trans h2.bits⟩

/-- Memory and the queue only, within the accessed and dirty bits. -/
theorem Still.of_memOnly {s t : State} (m : MemOnly s t) (e : EntryBits s t) : Still s t := by
  obtain ⟨⟨m', l, rfl⟩, -⟩ := m
  exact ⟨⟨rfl, rfl, rfl, rfl, rfl, rfl, rfl, rfl, rfl, rfl, rfl⟩, rfl, rfl, rfl, rfl, rfl, rfl, rfl, rfl, rfl, rfl, rfl, e⟩

/-- With memory as it is, `Still` is `Quiet`. -/
theorem Still.of_mem {s t : State} (h : Still s t) (m : t.mem = s.mem) : Quiet s t :=
  ⟨h.sys, h.regs, h.eip, h.flags, h.pfx, h.start, h.oldMode, h.held, h.shadow, h.activity, h.bs, h.bt, h.bits.memOk,
    fun _ => m, h.bits.bits⟩

theorem Quiet.still {s t : State} (h : Quiet s t) : Still s t :=
  ⟨h.sys, h.regs, h.eip, h.flags, h.pfx, h.start, h.oldMode, h.held, h.shadow, h.activity, h.bs, h.bt,
    h.sys.cr3, h.memOk, h.mem.paged⟩

theorem composes_quiet : Composes Quiet where
  refl s := (composes_still.refl s).of_mem rfl
  trans {s t u} h1 h2 := by
    have e := composes_still.trans h1.still h2.still
    refine ⟨e.sys, e.regs, e.eip, e.flags, e.pfx, e.start, e.oldMode, e.held, e.shadow, e.activity, e.bs, e.bt, e.bits.memOk,
      fun p => ?_, e.bits.bits⟩
    have p' : t.pagingOn = false := by rw [State.pagingOn, h1.sys.cr0]; exact p
    rw [h2.mem.unpaged p', h1.mem.unpaged p]

/-- With paging on, `Still` is `Quiet`. -/
theorem Still.quiet {s t : State} (h : Still s t) (p : s.pagingOn = true) : Quiet s t :=
  ⟨h.sys, h.regs, h.eip, h.flags, h.pfx, h.start, h.oldMode, h.held, h.shadow, h.activity, h.bs, h.bt, h.bits.memOk,
    fun p' => by simp [p] at p', h.bits.bits⟩

theorem setEntryBits_memOnly {s t : State} {a x : Word} (h : setEntryBits a x s = .ok ((), t)) : MemOnly s t := by
  obtain ⟨e, u, h1, h2⟩ := M.bind_eq_ok.mp h
  obtain ⟨rfl, rfl⟩ := Prod.mk.inj (Except.ok.inj h1)
  rw [M.ite_apply] at h2
  split at h2
  · obtain ⟨-, rfl⟩ := Prod.mk.inj (Except.ok.inj h2)
    exact .refl _
  · exact physWriteBytes_memOnly h2

/-- Setting A, or A and D, of a page-table entry (R134). -/
theorem still_setEntryBits {s t : State} {a : Word} {wr : Bool} (he : s.memOk = true → s.entryByte a)
    (h : setEntryBits a (bif wr then 0x60 else 0x20) s = .ok ((), t)) : Still s t := by
  obtain ⟨e, u, h1, h2⟩ := M.bind_eq_ok.mp h
  obtain ⟨rfl, rfl⟩ := Prod.mk.inj (Except.ok.inj h1)
  rw [M.ite_apply] at h2
  split at h2
  · obtain ⟨-, rfl⟩ := Prod.mk.inj (Except.ok.inj h2)
    exact composes_still.refl _
  · have m := physWriteBytes_memOnly h2
    by_cases w : s.memOk = true
    · refine .of_memOnly m (entryBits_write w (addrsFrom_nodup a) ?_ h2).2
      have hd : bytesOf 4 (s.dwordAt a) = [s.byteAt a, s.byteAt (a + 1), s.byteAt (a + 2), s.byteAt (a + 3)] :=
        bytesOf_wordOf [s.byteAt a, s.byteAt (a + 1), s.byteAt (a + 2), s.byteAt (a + 3)] (by simp)
      have ha : addrsFrom a 4 = [a, a + 1, a + 2, a + 3] := by simp [addrsFrom, BitVec.add_assoc]
      rw [bytesOf_or, hd, ha]
      cases wr <;> simp [bytesOf]
      · exact .inr ⟨he w, 0x20, rfl⟩
      · exact .inr ⟨he w, 0x60, rfl⟩
    · exact .of_memOnly m ⟨by obtain ⟨⟨_, _, rfl⟩, -⟩ := m; rfl, fun h => absurd h w, fun h => absurd h w⟩

/-! ## The accesses of the shared operations -/

theorem quiet_withDraws (s : State) (n : Nat) : Quiet s (s.withDraws n) :=
  Still.of_mem ⟨⟨rfl, rfl, rfl, rfl, rfl, rfl, rfl, rfl, rfl, rfl, rfl⟩, rfl, rfl, rfl, rfl, rfl, rfl, rfl, rfl, rfl, rfl, rfl,
    .of_mem rfl rfl⟩ rfl

theorem still_withTlb (s : State) (l : List TlbEntry) : Still s (s.withTlb l) :=
  ⟨⟨rfl, rfl, rfl, rfl, rfl, rfl, rfl, rfl, rfl, rfl, rfl⟩, rfl, rfl, rfl, rfl, rfl, rfl, rfl, rfl, rfl, rfl, rfl, .of_mem rfl rfl⟩

theorem quiet_drawBit : OnOk Quiet drawBit := OnOk.drawBit fun s => quiet_withDraws s _

theorem quiet_drawBits (n : Nat) : OnOk Quiet (drawBits n) := OnOk.drawBits n fun s => quiet_withDraws s _

theorem quiet_noteMatch (i : Nat) (e : Bool) : OnOk Quiet (noteMatch i e) := by
  apply OnOk.update
  intro s
  cases e <;>
    exact Still.of_mem ⟨⟨rfl, rfl, rfl, rfl, rfl, rfl, rfl, rfl, rfl, rfl, rfl⟩, rfl, rfl, rfl, rfl, rfl, rfl, rfl, rfl, rfl, rfl, rfl,
      .of_mem rfl rfl⟩ rfl

theorem still_touchEntry (a : Word) : OnOk Still (touchEntry a) :=
  OnOk.bind composes_still (OnOk.physRead composes_still _) fun _ => OnOk.pure composes_still _

theorem touchEntry_same {a : Word} {s t : State} (h : touchEntry a s = .ok ((), t)) : t = s := by
  obtain ⟨_, u, h1, h2⟩ := M.bind_eq_ok.mp h
  obtain ⟨-, rfl⟩ := Prod.mk.inj (Except.ok.inj h2)
  exact (physRead_same h1).1

theorem onOk_pageFault {α : Type} {R : State → State → Prop} (la : Word) (p w u : Bool) :
    OnOk R (pageFault la p w u : M α) := by
  intro s a t h
  obtain ⟨f, s1, -, h2⟩ := M.bind_eq_ok.mp h
  obtain ⟨x, s2, -, h3⟩ := M.bind_eq_ok.mp h2
  cases h3

/-- Where a walk finds the entries of an address, and that the first is present (R130, R132). -/
theorem walk_ok {s : State} {la pa ta pde pte : Word} {w u : Bool} (h : walk s la w u = .ok pa ta pde pte) :
    pa = pdeAddress s la ∧ pde = s.dwordAt pa ∧ entryPresent pde = true ∧ ta = pteAddress pde la ∧ pte = s.dwordAt ta := by
  simp only [walk] at h
  repeat' split at h
  all_goals simp at h
  obtain ⟨rfl, rfl, rfl, rfl⟩ := h
  exact ⟨rfl, rfl, ‹_›, rfl, rfl⟩

/-- A walk that ends sets A, and D for a write, in the entries it used (R132, R134). -/
theorem still_walkTables (la : Word) (w u : Bool) : OnOk Still (walkTables la w u) := by
  intro s b t h
  obtain ⟨wk, s1, h1, h2⟩ := M.bind_eq_ok.mp h
  obtain ⟨rfl, rfl⟩ := Prod.mk.inj (Except.ok.inj h1)
  cases hw : walk s la w u with
  | notPresent pa ta =>
    simp only [hw] at h2
    refine OnOk.bind composes_still (still_touchEntry _) (fun _ => ?_) _ _ _ h2
    cases ta with
    | none => exact onOk_pageFault _ _ _ _
    | some x => exact OnOk.bind composes_still (still_touchEntry _) fun _ => onOk_pageFault _ _ _ _
  | violation pa ta =>
    simp only [hw] at h2
    exact OnOk.bind composes_still (still_touchEntry _)
      (fun _ => OnOk.bind composes_still (still_touchEntry _) fun _ => onOk_pageFault _ _ _ _) _ _ _ h2
  | ok pa ta pde pte =>
    simp only [hw] at h2
    obtain ⟨hpa, hpde, hp, hta, -⟩ := walk_ok hw
    obtain ⟨_, s2, h3, h4⟩ := M.bind_eq_ok.mp h2
    obtain rfl := touchEntry_same h3
    obtain ⟨_, s3, h5, h6⟩ := M.bind_eq_ok.mp h4
    obtain rfl := touchEntry_same h5
    obtain ⟨_, s4, h7, h8⟩ := M.bind_eq_ok.mp h6
    obtain ⟨_, s5, h9, h10⟩ := M.bind_eq_ok.mp h8
    obtain ⟨_, s6, h11, h12⟩ := M.bind_eq_ok.mp h10
    obtain ⟨-, rfl⟩ := Prod.mk.inj (Except.ok.inj h11)
    obtain ⟨-, rfl⟩ := Prod.mk.inj (Except.ok.inj h12)
    refine composes_still.trans ?_ (still_withTlb _ _)
    by_cases ok : s3.memOk = true
    · have e1 := still_setEntryBits (wr := false) (fun _ => ⟨la, .inl hpa⟩) h7
      have he : s3.entryByte ta := ⟨la, .inr (by rw [← hpa, ← hpde]; exact ⟨hp, hta⟩)⟩
      exact composes_still.trans e1 (still_setEntryBits (wr := w) (fun _ => (e1.bits.entryByte ok ta).mpr he) h9)
    · have m := (setEntryBits_memOnly h7).trans (setEntryBits_memOnly h9)
      exact .of_memOnly m ⟨by obtain ⟨⟨_, _, rfl⟩, -⟩ := m; rfl, fun h => absurd h ok, fun h => absurd h ok⟩

/-- With paging off, the physical address is the linear address, and nothing changes (R129). -/
theorem translate_unpaged {s : State} (h : s.pagingOn = false) (la : Word) (w u : Bool) : translate la w u s = .ok (la, s) := by
  rw [translate, M.bind_ok (M.get_apply s), M.ite_apply, if_neg (by simp [h])]
  rfl

/-- A translation that ends changes no register, and memory in accessed and dirty bits only (R132 to R134). -/
theorem quiet_translate (la : Word) (w u : Bool) : OnOk Quiet (translate la w u) := by
  intro s a t h
  cases hp : s.pagingOn with
  | false =>
    obtain ⟨-, rfl⟩ := Prod.mk.inj (Except.ok.inj ((translate_unpaged hp la w u).symm.trans h))
    exact composes_quiet.refl s
  | true =>
    refine Still.quiet ?_ hp
    rw [translate, M.bind_ok (M.get_apply s), M.ite_apply, if_pos hp] at h
    have c := composes_still
    cases hf : tlbFind s.tlb la w u with
    | none =>
      simp only [hf] at h
      exact still_walkTables _ _ _ _ _ _ h
    | some e =>
      simp only [hf, M.ite_apply] at h
      split at h
      · exact OnOk.pure c _ _ _ _ h
      · refine OnOk.bind c (OnOk.drawBit fun s => ?_) (fun b => ?_) _ _ _ h
        · exact (quiet_withDraws s _).still
        · exact OnOk.cond (OnOk.pure c _) (still_walkTables _ _ _)

/-- The check of a page that is not written changes no register, and memory in accessed and dirty bits only (R132, D6). -/
theorem quiet_checkPage (la : Word) (u : Bool) : OnOk Quiet (checkPage la u) := by
  intro s a t h
  rw [checkPage, M.bind_ok (M.get_apply s), M.ite_apply] at h
  split at h
  · refine Still.quiet ?_ ‹_›
    have c := composes_still
    cases hw : walk s la true u <;> simp only [hw] at h
    all_goals first
      | exact OnOk.pure c _ _ _ _ h
      | refine OnOk.bind c (OnOk.ite (OnOk.drawBit fun s => (quiet_withDraws s _).still) (OnOk.pure c _)) (fun b => ?_) _ _ _ h
        exact OnOk.ite (OnOk.pure c _) (OnOk.bind c (still_walkTables _ _ _) fun _ => OnOk.pure c _)
  · exact OnOk.pure composes_quiet _ _ _ _ h

theorem quiet_span (la : Word) (n : Nat) (w u : Bool) : OnOk Quiet (span la n w u) := by
  have c := composes_quiet
  unfold span
  repeat (first
    | with_reducible exact OnOk.get c | with_reducible exact OnOk.look c _ | with_reducible exact OnOk.raise _
    | with_reducible exact OnOk.shutDown | with_reducible exact OnOk.check c _ _ | with_reducible exact OnOk.pure c _
    | with_reducible exact OnOk.physRead c _ | with_reducible exact quiet_translate _ _ _
    | with_reducible refine OnOk.bind c ?_ fun _ => ?_ | apply OnOk.ite | apply OnOk.cond | (split))

theorem quiet_checkWritable (la : Word) (n : Nat) (u : Bool) : OnOk Quiet (checkWritable la n u) := by
  have c := composes_quiet
  unfold checkWritable
  repeat (first
    | with_reducible exact OnOk.get c | with_reducible exact OnOk.look c _ | with_reducible exact OnOk.raise _
    | with_reducible exact OnOk.shutDown | with_reducible exact OnOk.check c _ _ | with_reducible exact OnOk.pure c _
    | with_reducible exact OnOk.physRead c _ | with_reducible exact quiet_checkPage _ _
    | with_reducible refine OnOk.bind c ?_ fun _ => ?_ | apply OnOk.ite | apply OnOk.cond | (split))

theorem quiet_matchData (d : Debug) (i : Nat) (la : Word) (n : Nat) (w : Bool) : OnOk Quiet (matchData d i la n w) := by
  have c := composes_quiet
  unfold matchData
  repeat (first
    | with_reducible exact OnOk.get c | with_reducible exact OnOk.look c _ | with_reducible exact OnOk.raise _
    | with_reducible exact OnOk.shutDown | with_reducible exact OnOk.check c _ _ | with_reducible exact OnOk.pure c _
    | with_reducible exact OnOk.physRead c _ | with_reducible exact quiet_drawBit
    | with_reducible refine OnOk.bind c ?_ fun _ => ?_ | apply OnOk.ite | apply OnOk.cond | (split))

theorem quiet_noteData (d : Debug) (la : Word) (n : Nat) (w : Bool) (i : Nat) : OnOk Quiet (noteData d la n w i) := by
  have c := composes_quiet
  induction i with
  | zero => exact OnOk.pure c _
  | succ i ih =>
    exact OnOk.bind c (quiet_matchData d i la n w) fun _ =>
      OnOk.bind c (OnOk.cond (quiet_noteMatch _ _) (OnOk.pure c _)) fun _ => ih

theorem quiet_noteAccess (la : Word) (n : Nat) (w : Bool) : OnOk Quiet (noteAccess la n w) := by
  have c := composes_quiet
  unfold noteAccess
  repeat (first
    | with_reducible exact OnOk.get c | with_reducible exact OnOk.look c _ | with_reducible exact OnOk.raise _
    | with_reducible exact OnOk.shutDown | with_reducible exact OnOk.check c _ _ | with_reducible exact OnOk.pure c _
    | with_reducible exact OnOk.physRead c _ | with_reducible exact quiet_noteData _ _ _ _ _
    | with_reducible refine OnOk.bind c ?_ fun _ => ?_ | apply OnOk.ite | apply OnOk.cond | (split))

theorem quiet_planLinear (la : Word) (n : Nat) (w u : Bool) : OnOk Quiet (planLinear la n w u) := by
  have c := composes_quiet
  unfold planLinear
  repeat (first
    | with_reducible exact OnOk.get c | with_reducible exact OnOk.look c _ | with_reducible exact OnOk.raise _
    | with_reducible exact OnOk.shutDown | with_reducible exact OnOk.check c _ _ | with_reducible exact OnOk.pure c _
    | with_reducible exact OnOk.physRead c _ | with_reducible exact quiet_span _ _ _ _
    | with_reducible exact quiet_noteAccess _ _ _ | with_reducible refine OnOk.bind c ?_ fun _ => ?_ | apply OnOk.ite
    | apply OnOk.cond | (split))

theorem quiet_sysRead (la : Word) (n : Nat) : OnOk Quiet (sysRead la n) := by
  have c := composes_quiet
  unfold sysRead
  repeat (first
    | with_reducible exact OnOk.get c | with_reducible exact OnOk.look c _ | with_reducible exact OnOk.raise _
    | with_reducible exact OnOk.shutDown | with_reducible exact OnOk.check c _ _ | with_reducible exact OnOk.pure c _
    | with_reducible exact OnOk.physRead c _ | with_reducible exact quiet_planLinear _ _ _ _
    | with_reducible refine OnOk.bind c ?_ fun _ => ?_ | apply OnOk.ite | apply OnOk.cond | (split))

theorem quiet_sysPlan (la : Word) (n : Nat) : OnOk Quiet (sysPlan la n) := quiet_planLinear _ _ _ _

theorem quiet_planSeg (g : SegReg) (e : Exc) (u : Bool) (off : Word) (n : Nat) (w : Bool) : OnOk Quiet (planSeg g e u off n w) := by
  have c := composes_quiet
  unfold planSeg
  repeat (first
    | with_reducible exact OnOk.get c | with_reducible exact OnOk.look c _ | with_reducible exact OnOk.raise _
    | with_reducible exact OnOk.shutDown | with_reducible exact OnOk.check c _ _ | with_reducible exact OnOk.pure c _
    | with_reducible exact OnOk.physRead c _ | with_reducible exact quiet_planLinear _ _ _ _
    | with_reducible refine OnOk.bind c ?_ fun _ => ?_ | apply OnOk.ite | apply OnOk.cond | (split))

theorem quiet_plan (r : Sreg) (off : Word) (n : Nat) (w : Bool) : OnOk Quiet (plan r off n w) := by
  have c := composes_quiet
  unfold plan
  repeat (first
    | with_reducible exact OnOk.get c | with_reducible exact OnOk.look c _ | with_reducible exact OnOk.raise _
    | with_reducible exact OnOk.shutDown | with_reducible exact OnOk.check c _ _ | with_reducible exact OnOk.pure c _
    | with_reducible exact OnOk.physRead c _ | with_reducible exact quiet_planSeg _ _ _ _ _ _
    | with_reducible refine OnOk.bind c ?_ fun _ => ?_ | apply OnOk.ite | apply OnOk.cond | (split))

theorem quiet_memRead (r : Sreg) (off : Word) (n : Nat) : OnOk Quiet (memRead r off n) := by
  have c := composes_quiet
  unfold memRead
  repeat (first
    | with_reducible exact OnOk.get c | with_reducible exact OnOk.look c _ | with_reducible exact OnOk.raise _
    | with_reducible exact OnOk.shutDown | with_reducible exact OnOk.check c _ _ | with_reducible exact OnOk.pure c _
    | with_reducible exact OnOk.physRead c _ | with_reducible exact quiet_plan _ _ _ _
    | with_reducible refine OnOk.bind c ?_ fun _ => ?_ | apply OnOk.ite | apply OnOk.cond | (split))

theorem quiet_fetchDesc (sel : HWord) : OnOk Quiet (fetchDesc sel) := by
  have c := composes_quiet
  unfold fetchDesc
  repeat (first
    | with_reducible exact OnOk.get c | with_reducible exact OnOk.look c _ | with_reducible exact OnOk.raise _
    | with_reducible exact OnOk.shutDown | with_reducible exact OnOk.check c _ _ | with_reducible exact OnOk.pure c _
    | with_reducible exact OnOk.physRead c _ | with_reducible exact quiet_sysRead _ _
    | with_reducible refine OnOk.bind c ?_ fun _ => ?_ | apply OnOk.ite | apply OnOk.cond | (split))

theorem quiet_needDesc (sel : HWord) (e : Exc) : OnOk Quiet (needDesc sel e) := by
  have c := composes_quiet
  unfold needDesc
  repeat (first
    | with_reducible exact OnOk.get c | with_reducible exact OnOk.look c _ | with_reducible exact OnOk.raise _
    | with_reducible exact OnOk.shutDown | with_reducible exact OnOk.check c _ _ | with_reducible exact OnOk.pure c _
    | with_reducible exact OnOk.physRead c _ | with_reducible exact quiet_fetchDesc _
    | with_reducible refine OnOk.bind c ?_ fun _ => ?_ | apply OnOk.ite | apply OnOk.cond | (split))

theorem quiet_planPush (g : SegReg) (big u : Bool) (e : Exc) (esp : Word) (n : Nat) : OnOk Quiet (planPush g big u e esp n) := by
  have c := composes_quiet
  unfold planPush
  repeat (first
    | with_reducible exact OnOk.get c | with_reducible exact OnOk.look c _ | with_reducible exact OnOk.raise _
    | with_reducible exact OnOk.shutDown | with_reducible exact OnOk.check c _ _ | with_reducible exact OnOk.pure c _
    | with_reducible exact OnOk.physRead c _ | with_reducible exact quiet_planSeg _ _ _ _ _ _
    | with_reducible refine OnOk.bind c ?_ fun _ => ?_ | apply OnOk.ite | apply OnOk.cond | (split))

theorem quiet_planPushes (g : SegReg) (big u : Bool) (e : Exc) (n : Nat) (esp : Word) (vs : List Word) :
    OnOk Quiet (planPushes g big u e n esp vs) := by
  have c := composes_quiet
  induction vs generalizing esp with
  | nil => exact OnOk.pure c _
  | cons v vs ih =>
    exact OnOk.bind c (quiet_planPush _ _ _ _ _ _) fun p => OnOk.bind c (ih p.2) fun _ => OnOk.pure c _

theorem quiet_planStack (n : Nat) (vs : List Word) : OnOk Quiet (planStack n vs) := by
  have c := composes_quiet
  unfold planStack
  repeat (first
    | with_reducible exact OnOk.get c | with_reducible exact OnOk.look c _ | with_reducible exact OnOk.raise _
    | with_reducible exact OnOk.shutDown | with_reducible exact OnOk.check c _ _ | with_reducible exact OnOk.pure c _
    | with_reducible exact OnOk.physRead c _ | with_reducible exact quiet_planPushes _ _ _ _ _ _ _
    | with_reducible refine OnOk.bind c ?_ fun _ => ?_ | apply OnOk.ite | apply OnOk.cond | (split))

theorem quiet_stackRead (a n : Nat) : OnOk Quiet (stackRead a n) := by
  have c := composes_quiet
  unfold stackRead
  repeat (first
    | with_reducible exact OnOk.get c | with_reducible exact OnOk.look c _ | with_reducible exact OnOk.raise _
    | with_reducible exact OnOk.shutDown | with_reducible exact OnOk.check c _ _ | with_reducible exact OnOk.pure c _
    | with_reducible exact OnOk.physRead c _ | with_reducible exact quiet_memRead _ _ _
    | with_reducible refine OnOk.bind c ?_ fun _ => ?_ | apply OnOk.ite | apply OnOk.cond | (split))

theorem quiet_stackBlock (n : Nat) : OnOk Quiet (stackBlock n) := by
  have c := composes_quiet
  unfold stackBlock
  repeat (first
    | with_reducible exact OnOk.get c | with_reducible exact OnOk.look c _ | with_reducible exact OnOk.raise _
    | with_reducible exact OnOk.shutDown | with_reducible exact OnOk.check c _ _ | with_reducible exact OnOk.pure c _
    | with_reducible exact OnOk.physRead c _ | with_reducible refine OnOk.bind c ?_ fun _ => ?_ | apply OnOk.ite
    | apply OnOk.cond | (split))

theorem quiet_stackSlots (n k : Nat) : OnOk Quiet (stackSlots n k) := by
  have c := composes_quiet
  unfold stackSlots
  repeat (first
    | with_reducible exact OnOk.get c | with_reducible exact OnOk.look c _ | with_reducible exact OnOk.raise _
    | with_reducible exact OnOk.shutDown | with_reducible exact OnOk.check c _ _ | with_reducible exact OnOk.pure c _
    | with_reducible exact OnOk.physRead c _ | with_reducible refine OnOk.bind c ?_ fun _ => ?_ | apply OnOk.ite
    | apply OnOk.cond | (split))

theorem quiet_checkRoom (g : SegReg) (big : Bool) (esp : Word) (n k : Nat) : OnOk Quiet (checkRoom g big esp n k) := by
  have c := composes_quiet
  unfold checkRoom
  repeat (first
    | with_reducible exact OnOk.get c | with_reducible exact OnOk.look c _ | with_reducible exact OnOk.raise _
    | with_reducible exact OnOk.shutDown | with_reducible exact OnOk.check c _ _ | with_reducible exact OnOk.pure c _
    | with_reducible exact OnOk.physRead c _ | with_reducible refine OnOk.bind c ?_ fun _ => ?_ | apply OnOk.ite
    | apply OnOk.cond | (split))

theorem quiet_effective (m : MemOp) : OnOk Quiet (effective m) := by
  have c := composes_quiet
  unfold effective
  repeat (first
    | with_reducible exact OnOk.get c | with_reducible exact OnOk.look c _ | with_reducible exact OnOk.raise _
    | with_reducible exact OnOk.shutDown | with_reducible exact OnOk.check c _ _ | with_reducible exact OnOk.pure c _
    | with_reducible exact OnOk.physRead c _ | with_reducible exact quiet_drawBits _
    | with_reducible refine OnOk.bind c ?_ fun _ => ?_ | apply OnOk.ite | apply OnOk.cond | (split))

theorem quiet_addressOf (m : MemOp) : OnOk Quiet (addressOf m) := by
  have c := composes_quiet
  unfold addressOf
  repeat (first
    | with_reducible exact OnOk.get c | with_reducible exact OnOk.look c _ | with_reducible exact OnOk.raise _
    | with_reducible exact OnOk.shutDown | with_reducible exact OnOk.check c _ _ | with_reducible exact OnOk.pure c _
    | with_reducible exact OnOk.physRead c _ | with_reducible exact quiet_effective _
    | with_reducible refine OnOk.bind c ?_ fun _ => ?_ | apply OnOk.ite | apply OnOk.cond | (split))

theorem quiet_readAt (k : Width) (r : Sreg) (off : Word) : OnOk Quiet (readAt k r off) := by
  have c := composes_quiet
  unfold readAt
  repeat (first
    | with_reducible exact OnOk.get c | with_reducible exact OnOk.look c _ | with_reducible exact OnOk.raise _
    | with_reducible exact OnOk.shutDown | with_reducible exact OnOk.check c _ _ | with_reducible exact OnOk.pure c _
    | with_reducible exact OnOk.physRead c _ | with_reducible exact quiet_memRead _ _ _
    | with_reducible refine OnOk.bind c ?_ fun _ => ?_ | apply OnOk.ite | apply OnOk.cond | (split))

theorem quiet_readRm (k : Width) (rm : Rm) : OnOk Quiet (readRm k rm) := by
  have c := composes_quiet
  unfold readRm
  repeat (first
    | with_reducible exact OnOk.get c | with_reducible exact OnOk.look c _ | with_reducible exact OnOk.raise _
    | with_reducible exact OnOk.shutDown | with_reducible exact OnOk.check c _ _ | with_reducible exact OnOk.pure c _
    | with_reducible exact OnOk.physRead c _ | with_reducible exact quiet_addressOf _
    | with_reducible exact quiet_readAt _ _ _ | with_reducible refine OnOk.bind c ?_ fun _ => ?_ | apply OnOk.ite
    | apply OnOk.cond | (split))

theorem quiet_placeRm (k : Width) (rm : Rm) : OnOk Quiet (placeRm k rm) := by
  have c := composes_quiet
  unfold placeRm
  repeat (first
    | with_reducible exact OnOk.get c | with_reducible exact OnOk.look c _ | with_reducible exact OnOk.raise _
    | with_reducible exact OnOk.shutDown | with_reducible exact OnOk.check c _ _ | with_reducible exact OnOk.pure c _
    | with_reducible exact OnOk.physRead c _ | with_reducible exact quiet_addressOf _
    | with_reducible exact quiet_plan _ _ _ _ | with_reducible refine OnOk.bind c ?_ fun _ => ?_ | apply OnOk.ite
    | apply OnOk.cond | (split))

theorem quiet_planBoth (r : Sreg) (off : Word) (n : Nat) : OnOk Quiet (planBoth r off n) := by
  have c := composes_quiet
  unfold planBoth
  repeat (first
    | with_reducible exact OnOk.get c | with_reducible exact OnOk.look c _ | with_reducible exact OnOk.raise _
    | with_reducible exact OnOk.shutDown | with_reducible exact OnOk.check c _ _ | with_reducible exact OnOk.pure c _
    | with_reducible exact OnOk.physRead c _ | with_reducible exact quiet_planLinear _ _ _ _
    | with_reducible refine OnOk.bind c ?_ fun _ => ?_ | apply OnOk.ite | apply OnOk.cond | (split))

theorem quiet_modifyAt (k : Width) (r : Sreg) (off : Word) : OnOk Quiet (modifyAt k r off) := by
  have c := composes_quiet
  unfold modifyAt
  repeat (first
    | with_reducible exact OnOk.get c | with_reducible exact OnOk.look c _ | with_reducible exact OnOk.raise _
    | with_reducible exact OnOk.shutDown | with_reducible exact OnOk.check c _ _ | with_reducible exact OnOk.pure c _
    | with_reducible exact OnOk.physRead c _ | with_reducible exact quiet_planBoth _ _ _
    | with_reducible refine OnOk.bind c ?_ fun _ => ?_ | apply OnOk.ite | apply OnOk.cond | (split))

theorem quiet_modifyRm (k : Width) (rm : Rm) : OnOk Quiet (modifyRm k rm) := by
  have c := composes_quiet
  unfold modifyRm
  repeat (first
    | with_reducible exact OnOk.get c | with_reducible exact OnOk.look c _ | with_reducible exact OnOk.raise _
    | with_reducible exact OnOk.shutDown | with_reducible exact OnOk.check c _ _ | with_reducible exact OnOk.pure c _
    | with_reducible exact OnOk.physRead c _ | with_reducible exact quiet_addressOf _
    | with_reducible exact quiet_modifyAt _ _ _ | with_reducible refine OnOk.bind c ?_ fun _ => ?_ | apply OnOk.ite
    | apply OnOk.cond | (split))

theorem quiet_targetRm (rm : Rm) : OnOk Quiet (targetRm rm) := by
  have c := composes_quiet
  unfold targetRm
  repeat (first
    | with_reducible exact OnOk.get c | with_reducible exact OnOk.look c _ | with_reducible exact OnOk.raise _
    | with_reducible exact OnOk.shutDown | with_reducible exact OnOk.check c _ _ | with_reducible exact OnOk.pure c _
    | with_reducible exact OnOk.physRead c _ | with_reducible exact quiet_addressOf _
    | with_reducible refine OnOk.bind c ?_ fun _ => ?_ | apply OnOk.ite | apply OnOk.cond | (split))

theorem quiet_inspect (k : Width) (x : Target) : OnOk Quiet (inspect k x) := by
  have c := composes_quiet
  unfold inspect
  repeat (first
    | with_reducible exact OnOk.get c | with_reducible exact OnOk.look c _ | with_reducible exact OnOk.raise _
    | with_reducible exact OnOk.shutDown | with_reducible exact OnOk.check c _ _ | with_reducible exact OnOk.pure c _
    | with_reducible exact OnOk.physRead c _ | with_reducible exact quiet_planLinear _ _ _ _
    | with_reducible exact quiet_checkWritable _ _ _ | with_reducible refine OnOk.bind c ?_ fun _ => ?_ | apply OnOk.ite
    | apply OnOk.cond | (split))

theorem quiet_placeOf (k : Width) (x : Target) : OnOk Quiet (placeOf k x) := by
  have c := composes_quiet
  unfold placeOf
  repeat (first
    | with_reducible exact OnOk.get c | with_reducible exact OnOk.look c _ | with_reducible exact OnOk.raise _
    | with_reducible exact OnOk.shutDown | with_reducible exact OnOk.check c _ _ | with_reducible exact OnOk.pure c _
    | with_reducible exact OnOk.physRead c _ | with_reducible exact quiet_plan _ _ _ _
    | with_reducible refine OnOk.bind c ?_ fun _ => ?_ | apply OnOk.ite | apply OnOk.cond | (split))

theorem quiet_selWord (sel : HWord) : OnOk Quiet (selWord sel) := by
  have c := composes_quiet
  unfold selWord
  repeat (first
    | with_reducible exact OnOk.get c | with_reducible exact OnOk.look c _ | with_reducible exact OnOk.raise _
    | with_reducible exact OnOk.shutDown | with_reducible exact OnOk.check c _ _ | with_reducible exact OnOk.pure c _
    | with_reducible exact OnOk.physRead c _ | with_reducible exact quiet_drawBits _
    | with_reducible refine OnOk.bind c ?_ fun _ => ?_ | apply OnOk.ite | apply OnOk.cond | (split))

theorem quiet_ioCheck (p n : Nat) : OnOk Quiet (ioCheck p n) := by
  have c := composes_quiet
  unfold ioCheck
  repeat (first
    | with_reducible exact OnOk.get c | with_reducible exact OnOk.look c _ | with_reducible exact OnOk.raise _
    | with_reducible exact OnOk.shutDown | with_reducible exact OnOk.check c _ _ | with_reducible exact OnOk.pure c _
    | with_reducible exact OnOk.physRead c _ | with_reducible exact quiet_sysRead _ _
    | with_reducible refine OnOk.bind c ?_ fun _ => ?_ | apply OnOk.ite | apply OnOk.cond | (split))

theorem quiet_needCpl0  : OnOk Quiet (needCpl0) := by
  have c := composes_quiet
  unfold needCpl0
  repeat (first
    | with_reducible exact OnOk.get c | with_reducible exact OnOk.look c _ | with_reducible exact OnOk.raise _
    | with_reducible exact OnOk.shutDown | with_reducible exact OnOk.check c _ _ | with_reducible exact OnOk.pure c _
    | with_reducible exact OnOk.physRead c _ | with_reducible refine OnOk.bind c ?_ fun _ => ?_ | apply OnOk.ite
    | apply OnOk.cond | (split))

theorem quiet_needProtMode  : OnOk Quiet (needProtMode) := by
  have c := composes_quiet
  unfold needProtMode
  repeat (first
    | with_reducible exact OnOk.get c | with_reducible exact OnOk.look c _ | with_reducible exact OnOk.raise _
    | with_reducible exact OnOk.shutDown | with_reducible exact OnOk.check c _ _ | with_reducible exact OnOk.pure c _
    | with_reducible exact OnOk.physRead c _ | with_reducible refine OnOk.bind c ?_ fun _ => ?_ | apply OnOk.ite
    | apply OnOk.cond | (split))

theorem quiet_needIopl  : OnOk Quiet (needIopl) := by
  have c := composes_quiet
  unfold needIopl
  repeat (first
    | with_reducible exact OnOk.get c | with_reducible exact OnOk.look c _ | with_reducible exact OnOk.raise _
    | with_reducible exact OnOk.shutDown | with_reducible exact OnOk.check c _ _ | with_reducible exact OnOk.pure c _
    | with_reducible exact OnOk.physRead c _ | with_reducible refine OnOk.bind c ?_ fun _ => ?_ | apply OnOk.ite
    | apply OnOk.cond | (split))

theorem quiet_needV86Iopl  : OnOk Quiet (needV86Iopl) := by
  have c := composes_quiet
  unfold needV86Iopl
  repeat (first
    | with_reducible exact OnOk.get c | with_reducible exact OnOk.look c _ | with_reducible exact OnOk.raise _
    | with_reducible exact OnOk.shutDown | with_reducible exact OnOk.check c _ _ | with_reducible exact OnOk.pure c _
    | with_reducible exact OnOk.physRead c _ | with_reducible refine OnOk.bind c ?_ fun _ => ?_ | apply OnOk.ite
    | apply OnOk.cond | (split))

theorem quiet_readFarPointer (m : MemOp) : OnOk Quiet (readFarPointer m) := by
  have c := composes_quiet
  unfold readFarPointer
  repeat (first
    | with_reducible exact OnOk.get c | with_reducible exact OnOk.look c _ | with_reducible exact OnOk.raise _
    | with_reducible exact OnOk.shutDown | with_reducible exact OnOk.check c _ _ | with_reducible exact OnOk.pure c _
    | with_reducible exact OnOk.physRead c _ | with_reducible exact quiet_addressOf _
    | with_reducible exact quiet_readAt _ _ _ | with_reducible refine OnOk.bind c ?_ fun _ => ?_ | apply OnOk.ite
    | apply OnOk.cond | (split))

theorem quiet_checkTarget (t : Word) : OnOk Quiet (checkTarget t) := by
  have c := composes_quiet
  unfold checkTarget
  repeat (first
    | with_reducible exact OnOk.get c | with_reducible exact OnOk.look c _ | with_reducible exact OnOk.raise _
    | with_reducible exact OnOk.shutDown | with_reducible exact OnOk.check c _ _ | with_reducible exact OnOk.pure c _
    | with_reducible exact OnOk.physRead c _ | with_reducible refine OnOk.bind c ?_ fun _ => ?_ | apply OnOk.ite
    | apply OnOk.cond | (split))

theorem quiet_indirectTarget (rm : Rm) : OnOk Quiet (indirectTarget rm) := by
  have c := composes_quiet
  unfold indirectTarget
  repeat (first
    | with_reducible exact OnOk.get c | with_reducible exact OnOk.look c _ | with_reducible exact OnOk.raise _
    | with_reducible exact OnOk.shutDown | with_reducible exact OnOk.check c _ _ | with_reducible exact OnOk.pure c _
    | with_reducible exact OnOk.physRead c _ | with_reducible exact quiet_readRm _ _
    | with_reducible exact quiet_checkTarget _ | with_reducible refine OnOk.bind c ?_ fun _ => ?_ | apply OnOk.ite
    | apply OnOk.cond | (split))

theorem quiet_relTarget (d : Word) : OnOk Quiet (relTarget d) := by
  have c := composes_quiet
  unfold relTarget
  repeat (first
    | with_reducible exact OnOk.get c | with_reducible exact OnOk.look c _ | with_reducible exact OnOk.raise _
    | with_reducible exact OnOk.shutDown | with_reducible exact OnOk.check c _ _ | with_reducible exact OnOk.pure c _
    | with_reducible exact OnOk.physRead c _ | with_reducible exact quiet_checkTarget _
    | with_reducible refine OnOk.bind c ?_ fun _ => ?_ | apply OnOk.ite | apply OnOk.cond | (split))

theorem quiet_bitAddress (k : Width) (m : MemOp) (o : BitVec k.bits) : OnOk Quiet (bitAddress k m o) := by
  have c := composes_quiet
  unfold bitAddress
  repeat (first
    | with_reducible exact OnOk.get c | with_reducible exact OnOk.look c _ | with_reducible exact OnOk.raise _
    | with_reducible exact OnOk.shutDown | with_reducible exact OnOk.check c _ _ | with_reducible exact OnOk.pure c _
    | with_reducible exact OnOk.physRead c _ | with_reducible exact quiet_addressOf _
    | with_reducible refine OnOk.bind c ?_ fun _ => ?_ | apply OnOk.ite | apply OnOk.cond | (split))

theorem quiet_sourceElement (k : Width) : OnOk Quiet (sourceElement k) := by
  have c := composes_quiet
  unfold sourceElement
  repeat (first
    | with_reducible exact OnOk.get c | with_reducible exact OnOk.look c _ | with_reducible exact OnOk.raise _
    | with_reducible exact OnOk.shutDown | with_reducible exact OnOk.check c _ _ | with_reducible exact OnOk.pure c _
    | with_reducible exact OnOk.physRead c _ | with_reducible exact quiet_readAt _ _ _
    | with_reducible refine OnOk.bind c ?_ fun _ => ?_ | apply OnOk.ite | apply OnOk.cond | (split))

theorem quiet_destElement (k : Width) : OnOk Quiet (destElement k) := by
  have c := composes_quiet
  unfold destElement
  repeat (first
    | with_reducible exact OnOk.get c | with_reducible exact OnOk.look c _ | with_reducible exact OnOk.raise _
    | with_reducible exact OnOk.shutDown | with_reducible exact OnOk.check c _ _ | with_reducible exact OnOk.pure c _
    | with_reducible exact OnOk.physRead c _ | with_reducible exact quiet_readAt _ _ _
    | with_reducible refine OnOk.bind c ?_ fun _ => ?_ | apply OnOk.ite | apply OnOk.cond | (split))

theorem quiet_destPlan (k : Width) : OnOk Quiet (destPlan k) := by
  have c := composes_quiet
  unfold destPlan
  repeat (first
    | with_reducible exact OnOk.get c | with_reducible exact OnOk.look c _ | with_reducible exact OnOk.raise _
    | with_reducible exact OnOk.shutDown | with_reducible exact OnOk.check c _ _ | with_reducible exact OnOk.pure c _
    | with_reducible exact OnOk.physRead c _ | with_reducible exact quiet_plan _ _ _ _
    | with_reducible refine OnOk.bind c ?_ fun _ => ?_ | apply OnOk.ite | apply OnOk.cond | (split))

theorem quiet_probe (sel : HWord) : OnOk Quiet (probe sel) := by
  have c := composes_quiet
  unfold probe
  repeat (first
    | with_reducible exact OnOk.get c | with_reducible exact OnOk.look c _ | with_reducible exact OnOk.raise _
    | with_reducible exact OnOk.shutDown | with_reducible exact OnOk.check c _ _ | with_reducible exact OnOk.pure c _
    | with_reducible exact OnOk.physRead c _ | with_reducible exact quiet_fetchDesc _
    | with_reducible refine OnOk.bind c ?_ fun _ => ?_ | apply OnOk.ite | apply OnOk.cond | (split))

theorem quiet_planReturn (n : Nat) : OnOk Quiet (planReturn n) := by
  have c := composes_quiet
  unfold planReturn
  repeat (first
    | with_reducible exact OnOk.get c | with_reducible exact OnOk.look c _ | with_reducible exact OnOk.raise _
    | with_reducible exact OnOk.shutDown | with_reducible exact OnOk.check c _ _ | with_reducible exact OnOk.pure c _
    | with_reducible exact OnOk.physRead c _ | with_reducible exact quiet_selWord _
    | with_reducible exact quiet_planStack _ _ | with_reducible refine OnOk.bind c ?_ fun _ => ?_ | apply OnOk.ite
    | apply OnOk.cond | (split))

theorem quiet_frameTail (s : State) (ev : Event) : OnOk Quiet (frameTail s ev) := by
  have c := composes_quiet
  unfold frameTail
  repeat (first
    | with_reducible exact OnOk.get c | with_reducible exact OnOk.look c _ | with_reducible exact OnOk.raise _
    | with_reducible exact OnOk.shutDown | with_reducible exact OnOk.check c _ _ | with_reducible exact OnOk.pure c _
    | with_reducible exact OnOk.physRead c _ | with_reducible exact quiet_selWord _
    | with_reducible refine OnOk.bind c ?_ fun _ => ?_ | apply OnOk.ite | apply OnOk.cond | (split))

theorem quiet_frameHead (s : State) : OnOk Quiet (frameHead s) := by
  have c := composes_quiet
  unfold frameHead
  repeat (first
    | with_reducible exact OnOk.get c | with_reducible exact OnOk.look c _ | with_reducible exact OnOk.raise _
    | with_reducible exact OnOk.shutDown | with_reducible exact OnOk.check c _ _ | with_reducible exact OnOk.pure c _
    | with_reducible exact OnOk.physRead c _ | with_reducible exact quiet_selWord _
    | with_reducible refine OnOk.bind c ?_ fun _ => ?_ | apply OnOk.ite | apply OnOk.cond | (split))

end Sys2Proof.Machine
end

