-- ==== Sys2Proof/Laws/Ends.lean ====
section
/-!
SUPPORT. How the statements about a completed instruction are reached: a state that matches an expected one, the updates that
keep the match, and the end of the instruction.
-/

namespace Sys2Proof.Machine

/-- A state matches an expected one in every register, in what is pending, and in the prefixes. -/
structure Matches (e w : State) : Prop where
  regs : w.regs = e.regs
  eip : w.eip = e.eip
  flags : w.flags = e.flags
  sys : SameSystem e w
  pfx : w.fetch.pfx = e.fetch.pfx
  start : w.fetch.start = e.fetch.start
  oldMode : w.fetch.oldMode = e.fetch.oldMode
  held : w.fetch.held = e.fetch.held
  shadow : w.pend.shadow = e.pend.shadow
  activity : w.pend.activity = e.pend.activity
  bs : w.pend.bs = e.pend.bs
  bt : w.pend.bt = e.pend.bt

theorem Quiet.matches {s u : State} (q : Quiet s u) : Matches s u :=
  ⟨q.regs, q.eip, q.flags, q.sys, q.pfx, q.start, q.oldMode, q.held, q.shadow, q.activity, q.bs, q.bt⟩

theorem Matches.refl (s : State) : Matches s s := ⟨rfl, rfl, rfl, .refl s, rfl, rfl, rfl, rfl, rfl, rfl, rfl, rfl⟩

theorem Matches.trans {s t u : State} (h1 : Matches s t) (h2 : Matches t u) : Matches s u :=
  ⟨h2.regs.trans h1.regs, h2.eip.trans h1.eip, h2.flags.trans h1.flags, h1.sys.trans h2.sys, h2.pfx.trans h1.pfx,
    h2.start.trans h1.start, h2.oldMode.trans h1.oldMode, h2.held.trans h1.held, h2.shadow.trans h1.shadow,
    h2.activity.trans h1.activity, h2.bs.trans h1.bs, h2.bt.trans h1.bt⟩

theorem MemOnly.matches {s t : State} (m : MemOnly s t) : Matches s t := by
  obtain ⟨⟨m', l, rfl⟩, -⟩ := m
  exact ⟨rfl, rfl, rfl, ⟨rfl, rfl, rfl, rfl, rfl, rfl, rfl, rfl, rfl, rfl, rfl⟩, rfl, rfl, rfl, rfl, rfl, rfl, rfl, rfl⟩

theorem matches_withDraws (s : State) (n : Nat) : Matches s (s.withDraws n) := (quiet_withDraws s n).matches

section
variable {e w : State} (h : Matches e w)
include h

theorem Matches.withRegs (r : Regs) : Matches (e.withRegs r) (w.withRegs r) :=
  ⟨rfl, h.eip, h.flags, ⟨h.sys.cpl, h.sys.segs, h.sys.cr0, h.sys.cr2, h.sys.cr3, h.sys.tables, h.sys.dregs, h.sys.test, h.sys.pins,
    h.sys.params, h.sys.io⟩, h.pfx, h.start, h.oldMode, h.held, h.shadow, h.activity, h.bs, h.bt⟩

theorem Matches.withEip (v : Word) : Matches (e.withEip v) (w.withEip v) :=
  ⟨h.regs, rfl, h.flags, ⟨h.sys.cpl, h.sys.segs, h.sys.cr0, h.sys.cr2, h.sys.cr3, h.sys.tables, h.sys.dregs, h.sys.test, h.sys.pins,
    h.sys.params, h.sys.io⟩, h.pfx, h.start, h.oldMode, h.held, h.shadow, h.activity, h.bs, h.bt⟩

theorem Matches.withFlags (f : Flags) : Matches (e.withFlags f) (w.withFlags f) :=
  ⟨h.regs, h.eip, rfl, ⟨h.sys.cpl, h.sys.segs, h.sys.cr0, h.sys.cr2, h.sys.cr3, h.sys.tables, h.sys.dregs, h.sys.test, h.sys.pins,
    h.sys.params, h.sys.io⟩, h.pfx, h.start, h.oldMode, h.held, h.shadow, h.activity, h.bs, h.bt⟩

theorem Matches.mapFlags (g : Flags → Flags) : Matches (e.mapFlags g) (w.mapFlags g) := by
  rw [State.mapFlags, State.mapFlags, h.flags]
  exact h.withFlags _

theorem Matches.setReg (k : Width) (r : Gpr) (v : BitVec k.bits) : Matches (e.setReg k r v) (w.setReg k r v) := by
  rw [State.setReg, State.setReg, h.regs]
  exact h.withRegs _

theorem Matches.withEsp (v : Word) : Matches (e.withEsp v) (w.withEsp v) := by
  rw [State.withEsp, State.withEsp, h.regs]
  exact h.withRegs _

theorem Matches.withSegs (g : Segs) : Matches (e.withSegs g) (w.withSegs g) :=
  ⟨h.regs, h.eip, h.flags, ⟨h.sys.cpl, rfl, h.sys.cr0, h.sys.cr2, h.sys.cr3, h.sys.tables, h.sys.dregs, h.sys.test, h.sys.pins,
    h.sys.params, h.sys.io⟩, h.pfx, h.start, h.oldMode, h.held, h.shadow, h.activity, h.bs, h.bt⟩

theorem Matches.setSeg (r : Sreg) (g : SegReg) : Matches (e.setSeg r g) (w.setSeg r g) := by
  rw [State.setSeg, State.setSeg, h.sys.segs]
  exact h.withSegs _

theorem Matches.withPins (p : Pins) : Matches (e.withPins p) (w.withPins p) :=
  ⟨h.regs, h.eip, h.flags, ⟨h.sys.cpl, h.sys.segs, h.sys.cr0, h.sys.cr2, h.sys.cr3, h.sys.tables, h.sys.dregs, h.sys.test, rfl,
    h.sys.params, h.sys.io⟩, h.pfx, h.start, h.oldMode, h.held, h.shadow, h.activity, h.bs, h.bt⟩

theorem Matches.withIo (l : List IoEvent) : Matches (e.withIo l) (w.withIo l) :=
  ⟨h.regs, h.eip, h.flags, ⟨h.sys.cpl, h.sys.segs, h.sys.cr0, h.sys.cr2, h.sys.cr3, h.sys.tables, h.sys.dregs, h.sys.test, h.sys.pins,
    h.sys.params, rfl⟩, h.pfx, h.start, h.oldMode, h.held, h.shadow, h.activity, h.bs, h.bt⟩

theorem Matches.withShadow (v : Shadow) : Matches (e.withShadow v) (w.withShadow v) :=
  ⟨h.regs, h.eip, h.flags, ⟨h.sys.cpl, h.sys.segs, h.sys.cr0, h.sys.cr2, h.sys.cr3, h.sys.tables, h.sys.dregs, h.sys.test, h.sys.pins,
    h.sys.params, h.sys.io⟩, h.pfx, h.start, h.oldMode, h.held, rfl, h.activity, h.bs, h.bt⟩

theorem Matches.withTables (v : Tables) : Matches (e.withTables v) (w.withTables v) :=
  ⟨h.regs, h.eip, h.flags, ⟨h.sys.cpl, h.sys.segs, h.sys.cr0, h.sys.cr2, h.sys.cr3, rfl, h.sys.dregs, h.sys.test, h.sys.pins,
    h.sys.params, h.sys.io⟩, h.pfx, h.start, h.oldMode, h.held, h.shadow, h.activity, h.bs, h.bt⟩

theorem Matches.flushQueue : Matches e w.flushQueue :=
  ⟨h.regs, h.eip, h.flags, ⟨h.sys.cpl, h.sys.segs, h.sys.cr0, h.sys.cr2, h.sys.cr3, h.sys.tables, h.sys.dregs, h.sys.test, h.sys.pins,
    h.sys.params, h.sys.io⟩, h.pfx, h.start, h.oldMode, h.held, h.shadow, h.activity, h.bs, h.bt⟩

theorem Matches.op32 : w.op32 = e.op32 := by
  simp only [State.op32, State.code32, State.protMode, State.peInForce, h.oldMode, h.sys.cr0, h.flags, h.sys.segs, h.pfx]

theorem Matches.opWidth : w.opWidth = e.opWidth := by rw [State.opWidth, State.opWidth, h.op32]

theorem Matches.addr32 : w.addr32 = e.addr32 := by
  simp only [State.addr32, State.code32, State.protMode, State.peInForce, h.oldMode, h.sys.cr0, h.flags, h.sys.segs, h.pfx]

theorem Matches.stack32 : w.stack32 = e.stack32 := by
  simp only [State.stack32, State.protMode, State.peInForce, h.oldMode, h.sys.cr0, h.flags, h.sys.segs]

theorem Matches.protMode : w.protMode = e.protMode := by simp only [State.protMode, State.peInForce, h.oldMode, h.sys.cr0, h.flags]

theorem Matches.addrReg (r : Gpr) : addrReg w r = addrReg e r := by
  simp only [Machine.addrReg, h.addr32, h.regs]

theorem Matches.setAddrReg (r : Gpr) (v : Word) : Matches (e.setAddrReg r v) (w.setAddrReg r v) := by
  rw [State.setAddrReg, State.setAddrReg, h.addr32, h.regs]
  exact h.withRegs _

theorem Matches.stepIndex (r : Gpr) (n : Nat) : Matches (e.stepIndex r n) (w.stepIndex r n) := by
  rw [State.stepIndex, State.stepIndex, h.flags, h.addrReg]
  exact h.setAddrReg r _

/-- A completed instruction ends as expected. -/
theorem Matches.ends {s : State} (fin : Ending) (hs : fin.step = true) (hb : e.pend.bs = s.pend.bs) :
    Ends s ((e.mapFlags fun f => { f with rf := f.rf && fin.keepRf }).withHeld (bif fin.again then e.fetch.held else none))
      (w.retire s fin) := by
  refine ⟨h.regs, h.eip, ?_, ⟨h.sys.cpl, h.sys.segs, h.sys.cr0, h.sys.cr2, h.sys.cr3, h.sys.tables, h.sys.dregs, h.sys.test,
    h.sys.pins, h.sys.params, h.sys.io⟩, by simp, by simp, by simp [h.held], h.shadow, h.activity, ?_, h.bt⟩
  · simp [h.flags]
  · simp [h.bs, hb, hs]

theorem Matches.done {s : State} (hb : e.pend.bs = s.pend.bs) : Done s e (w.retire s Ending.plain) := by
  have := h.ends Ending.plain rfl hb
  simpa [Done, State.over, Ending.plain] using this

end

/-- The end of an instruction leaves memory alone. -/
theorem retire_mem (w s : State) (fin : Ending) : (w.retire s fin).mem = w.mem := rfl

theorem SameMemory.congr {s u t : State} (h : SameMemory s u) (e : t.mem = u.mem) : SameMemory s t :=
  ⟨fun p => e.trans (h.unpaged p), fun w a => by rw [byteAt_congr e]; exact h.paged w a⟩

theorem SameMemory.refl (s : State) : SameMemory s s := (composes_quiet.refl s).mem

/-- An instruction whose body ends in a state that matches what is expected of `s`, having stored nothing since `u`. -/
theorem doneQuiet_of {s e u w : State} {body : M Unit} (hb : body s = .ok ((), w)) (q : SameMemory s u) (m : Matches e w)
    (hm : w.mem = u.mem) (hp : e.pend.bs = s.pend.bs) : ∃ t, run body s = .next t ∧ DoneQuiet s e t :=
  ⟨_, run_ok hb, m.done hp, q.congr hm⟩

/-! ## Results that may be stored -/

theorem AllRam.congr {s u : State} {ps : List Word} (h : AllRam s ps) (p : u.params = s.params) : AllRam u ps := by
  intro a ha
  rw [p]
  exact h a ha

theorem Stored.congr {ps : List Word} {bs : List Byte} {w u t t' : State} (h : Stored ps bs w t) (hw : w.mem = u.mem)
    (ht : t'.mem = t.mem) : Stored ps bs u t' := by
  intro a
  rw [byteAt_congr ht, h a, byteAt_congr hw]

/-- Everything storing a value at planned RAM addresses does, at the end of an instruction. -/
theorem storeAt_ends {k : Width} {ps : List Word} {v : BitVec k.bits} {s e u w : State} (q : Quiet s u) (r : Storable s ps)
    (m : Matches e w) (hm : w.mem = u.mem) (hp : w.params = s.params) :
    ∃ w', storeAt k ps v w = .ok ((), w') ∧ Matches e w' ∧ SameMemory s u ∧
      Stored ps (bytesOf k.bytes (v.setWidth 32)) u w' := by
  obtain ⟨w', h1, h2, h3⟩ := physWrite_ram (bs := bytesOf k.bytes (v.setWidth 32)) (r.2.congr hp)
  have hok : w.memOk = true := by
    rw [State.memOk, hm]
    exact q.memOk r.1
  exact ⟨w', h1, m.trans h2.matches, q.mem, (h3 hok).congr hm rfl⟩

/-- Everything putting a result at its place does, at the end of an instruction. -/
theorem putPlace_done {k : Width} {p : Place} {v : BitVec k.bits} {s e u w : State} (q : Quiet s u) (r : p.ready s)
    (m : Matches e w) (hm : w.mem = u.mem) (hp : w.params = s.params) (hb : e.pend.bs = s.pend.bs) :
    ∃ w', putPlace k p v w = .ok ((), w') ∧ DonePlace k p v s e u (w'.retire s Ending.plain) := by
  cases p with
  | reg g => exact ⟨_, rfl, (m.setReg k g v).done hb, q.mem.congr hm⟩
  | mem ps =>
    obtain ⟨w', h1, h2, h3, h4⟩ := storeAt_ends (v := v) q r m hm hp
    exact ⟨w', h1, h2.done hb, h3, h4.congr rfl rfl⟩

end Sys2Proof.Machine
end

