-- ==== Sys2Proof/Laws/Shapes.lean ====
section
/-!
SUPPORT. What each shared shape of a meaning does: the two-operand operations, shifts, free flags, the wide accumulator, the bit
flags, the checks of mode and level.
-/

namespace Sys2Proof.Machine

@[simp] theorem withDraws_withDraws (s : State) (a b : Nat) : (s.withDraws a).withDraws b = s.withDraws b := rfl

/-! ## Checks -/

theorem needCpl0_ok {s : State} (h : s.cpl = 0) : needCpl0 s = .ok ((), s) :=
  (M.bind_ok (M.get_apply s)).trans (check_ok _ s (by simp [h]))

theorem needCpl0_exc {s : State} (h : s.cpl ≠ 0) : needCpl0 s = .error (.exc (excGP 0) s) := by
  have e : (s.cpl == 0) = false := by simpa using h
  rw [needCpl0, M.bind_ok (M.get_apply s), e]
  rfl

theorem needProtMode_ok {s : State} (h : s.protMode = true) : needProtMode s = .ok ((), s) :=
  (M.bind_ok (M.get_apply s)).trans (check_ok _ s h)

theorem needProtMode_exc {s : State} (h : s.protMode = false) : needProtMode s = .error (.exc excUD s) := by
  rw [needProtMode, M.bind_ok (M.get_apply s), h]
  rfl

theorem checkTarget_ok {s : State} {t : Word} (h : t.toNat ≤ s.segs.cs.limit.toNat) : checkTarget t s = .ok ((), s) :=
  (M.bind_ok (look_apply _ s)).trans (check_ok _ s (by simpa using h))

theorem checkTarget_exc {s : State} {t : Word} (h : s.segs.cs.limit.toNat < t.toNat) :
    checkTarget t s = .error (.exc (excGP 0) s) := by
  have e : decide (t.toNat ≤ s.segs.cs.limit.toNat) = false := by simpa using h
  rw [checkTarget, M.bind_ok (look_apply _ s), e]
  rfl

/-- A meaning that raises an exception in its body is a fault of the instruction. -/
theorem faults_of {i : Instr} {s u : State} {body : M Unit} {e : Exc} (hi : exec i s = run body s)
    (h : body s = .error (.exc e u)) (h9 : e.vector ≠ 9) : Faults i s e.vector e.code u := by
  have e9 : (e.vector == 9) = false := by simpa using h9
  rw [Faults, hi, run_exc h]
  simp only [Exc.event, e9, cond_false, Bool.not_false]

/-- The same for a meaning with an ending of its own. -/
theorem faults_of_ending {i : Instr} {s u : State} {body : M Ending} {e : Exc} (hi : exec i s = runEnding body s)
    (h : body s = .error (.exc e u)) (h9 : e.vector ≠ 9) : Faults i s e.vector e.code u := by
  have e9 : (e.vector == 9) = false := by simpa using h9
  rw [Faults, hi, runEnding_exc h]
  simp only [Exc.event, e9, cond_false, Bool.not_false]

/-! ## Two-operand operations -/

/-- The operation of a kind. -/
def AluKind.op : AluKind → AluOp
  | .add => opAdd
  | .or => opOr
  | .adc => opAdc
  | .sbb => opSbb
  | .and => opAnd
  | .sub => opSub
  | .xor => opXor

/-- Everything a two-operand operation does: its result, its flags, and a draw at most. -/
theorem AluKind.op_ok (o : AluKind) (k : Width) (a b : BitVec k.bits) (s : State) :
    ∃ t af, o.op k a b s = .ok (o.result a b s.flags.cf, t) ∧ t.mem = s.mem ∧ t.params = s.params ∧
      Matches (s.withFlags (o.flags s.flags a b af)) t := by
  have e1 : addValue a b false = a + b := by simp [addValue, carryIn]
  have e2 : subValue a b false = a - b := by simp [subValue, carryIn]
  have e3 : ∀ c : Bool, carryIn k.bits c = BitVec.ofNat k.bits c.toNat := by
    intro c
    have hk : 2 ≤ 2 ^ k.bits := by cases k <;> decide
    apply BitVec.eq_of_toNat_eq
    cases c <;> simp [carryIn]
  cases o
  · refine ⟨s.withFlags (AluKind.flags .add s.flags a b false), false, ?_, rfl, rfl, Matches.refl _⟩
    show Except.ok _ = _
    rw [e1]
    rfl
  · exact ⟨_, Config.freeBit s.draws, rfl, rfl, rfl, (matches_withDraws s (s.draws + 1)).withFlags _⟩
  · refine ⟨s.withFlags (AluKind.flags .adc s.flags a b false), false, ?_, rfl, rfl, Matches.refl _⟩
    show Except.ok _ = _
    rw [addValue, e3]
    rfl
  · refine ⟨s.withFlags (AluKind.flags .sbb s.flags a b false), false, ?_, rfl, rfl, Matches.refl _⟩
    show Except.ok _ = _
    rw [subValue, e3]
    rfl
  · exact ⟨_, Config.freeBit s.draws, rfl, rfl, rfl, (matches_withDraws s (s.draws + 1)).withFlags _⟩
  · refine ⟨s.withFlags (AluKind.flags .sub s.flags a b false), false, ?_, rfl, rfl, Matches.refl _⟩
    show Except.ok _ = _
    rw [e2]
    rfl
  · exact ⟨_, Config.freeBit s.draws, rfl, rfl, rfl, (matches_withDraws s (s.draws + 1)).withFlags _⟩

theorem AluKind.exec_rmR (o : AluKind) (d w : Bool) (reg : Gpr) (rm : Rm) (s : State) :
    exec (o.rmR d w reg rm) s = run (aluRmR o.op d w reg rm) s := by cases o <;> rfl

theorem AluKind.exec_alImm (o : AluKind) (b : Byte) (s : State) : exec (o.alImm b) s = run (aluAcc o.op .b b) s := by
  cases o <;> rfl

theorem AluKind.exec_eaxImm (o : AluKind) (b : Word) (s : State) :
    exec (o.eaxImm b) s = run (aluAcc o.op s.opWidth (immOf s.opWidth b)) s := by cases o <;> rfl

theorem AluKind.exec_rm8Imm (o : AluKind) (rm : Rm) (b : Byte) (s : State) :
    exec (o.rm8Imm rm b) s = run (aluRm o.op .b rm b) s := by cases o <;> rfl

theorem AluKind.exec_rmImm (o : AluKind) (rm : Rm) (b : Word) (s : State) :
    exec (o.rmImm rm b) s = run (aluRm o.op s.opWidth rm (immOf s.opWidth b)) s := by cases o <;> rfl

theorem AluKind.exec_rmImm8s (o : AluKind) (rm : Rm) (b : Byte) (s : State) :
    exec (o.rmImm8s rm b) s = run (aluRm o.op s.opWidth rm (signByte s.opWidth b)) s := by cases o <;> rfl

/-! ## Shifts -/

/-- The operation of a kind. -/
def ShiftKind.op : ShiftKind → ShiftOp
  | .rol => @Machine.rol
  | .ror => @Machine.ror
  | .rcl => @Machine.rcl
  | .rcr => @Machine.rcr
  | .shl => @Machine.shl
  | .shr => @Machine.shr
  | .sar => @Machine.sar

/-- The kind is a rotate. -/
def ShiftKind.rotates : ShiftKind → Bool
  | .rol => true
  | .ror => true
  | .rcl => true
  | .rcr => true
  | .shl => false
  | .shr => false
  | .sar => false

theorem ShiftKind.exec_by1 (o : ShiftKind) (w : Bool) (rm : Rm) (s : State) :
    exec (o.by1 w rm) s = run (shiftRm o.op o.rotates w rm 1) s := by cases o <;> rfl

theorem ShiftKind.exec_byCl (o : ShiftKind) (w : Bool) (rm : Rm) (s : State) :
    exec (o.byCl w rm) s = run (shiftRm o.op o.rotates w rm s.cl) s := by cases o <;> rfl

theorem ShiftKind.exec_byImm (o : ShiftKind) (w : Bool) (rm : Rm) (b : Byte) (s : State) :
    exec (o.byImm w rm b) s = run (shiftRm o.op o.rotates w rm b) s := by cases o <;> rfl

/-- Everything setting the flags of a shift does. -/
theorem ShiftKind.flags_ok (o : ShiftKind) {n : Nat} (r : Shifted n) (c : Nat) (s : State) :
    ∃ of af t, shiftFlags o.rotates r c s = .ok ((), t) ∧ t.mem = s.mem ∧ t.params = s.params ∧
      Matches (s.withFlags (o.flags s.flags r c of af)) t := by
  cases o
  all_goals first
    | exact ⟨Config.freeBit s.draws, false, _, rfl, rfl, rfl, (matches_withDraws s (s.draws + 1)).withFlags _⟩
    | exact ⟨Config.freeBit s.draws, Config.freeBit (s.draws + 1), _, rfl, rfl, rfl,
        (matches_withDraws s (s.draws + 2)).withFlags _⟩

/-! ## Free flags -/

theorem freeFlags_apply (s : State) : freeFlags s = .ok ((), (s.withDraws (s.draws + 6)).withFlags
    (s.flags.undef (Config.freeBit s.draws) (Config.freeBit (s.draws + 1)) (Config.freeBit (s.draws + 2))
      (Config.freeBit (s.draws + 3)) (Config.freeBit (s.draws + 4)) (Config.freeBit (s.draws + 5)))) := by
  simp only [freeFlags, M.bind_ok (drawBit_apply _), State.withDraws_draws, withDraws_withDraws, putFlags, update_apply]
  rfl

/-- Everything `freeFlags` does: the six status flags free. -/
theorem freeFlags_ok (s : State) : ∃ cf pf af zf sf of t, freeFlags s = .ok ((), t) ∧ t.mem = s.mem ∧ t.params = s.params ∧
    t.tlb = s.tlb ∧
    Matches (s.withFlags { s.flags with cf := cf, pf := pf, af := af, zf := zf, sf := sf, of := of }) t :=
  ⟨_, _, _, _, _, _, _, freeFlags_apply s, rfl, rfl, rfl, (matches_withDraws s (s.draws + 6)).withFlags _⟩

theorem bitFlags_apply (c : Bool) (s : State) : bitFlags c s = .ok ((), (s.withDraws (s.draws + 5)).withFlags
    (s.flags.bitTest c (Config.freeBit s.draws) (Config.freeBit (s.draws + 1)) (Config.freeBit (s.draws + 2))
      (Config.freeBit (s.draws + 3)) (Config.freeBit (s.draws + 4)))) := by
  simp only [bitFlags, M.bind_ok (drawBit_apply _), State.withDraws_draws, withDraws_withDraws, putFlags, update_apply]
  rfl

/-- Everything `bitFlags` does: CF the bit, the other status flags free. -/
theorem bitFlags_ok (c : Bool) (s : State) : ∃ sf zf af pf of t, bitFlags c s = .ok ((), t) ∧ t.mem = s.mem ∧
    t.params = s.params ∧
    Matches (s.withFlags { s.flags with cf := c, sf := sf, zf := zf, af := af, pf := pf, of := of }) t :=
  ⟨_, _, _, _, _, _, bitFlags_apply c s, rfl, rfl, (matches_withDraws s (s.draws + 5)).withFlags _⟩

theorem mulFlags_apply (c : Bool) (s : State) : mulFlags c s = .ok ((), (s.withDraws (s.draws + 4)).withFlags
    (s.flags.mul c (Config.freeBit s.draws) (Config.freeBit (s.draws + 1)) (Config.freeBit (s.draws + 2))
      (Config.freeBit (s.draws + 3)))) := by
  simp only [mulFlags, M.bind_ok (drawBit_apply _), State.withDraws_draws, withDraws_withDraws, putFlags, update_apply]
  rfl

/-- Everything `mulFlags` does: CF and OF as told, the other status flags free. -/
theorem mulFlags_ok (c : Bool) (s : State) : ∃ sf zf af pf t, mulFlags c s = .ok ((), t) ∧ t.mem = s.mem ∧
    t.params = s.params ∧
    Matches (s.withFlags { s.flags with cf := c, of := c, sf := sf, zf := zf, af := af, pf := pf }) t :=
  ⟨_, _, _, _, _, mulFlags_apply c s, rfl, rfl, (matches_withDraws s (s.draws + 4)).withFlags _⟩

/-! ## The double-width accumulator -/

theorem putWide_ok (k : Width) (hi lo : BitVec k.bits) (s : State) : putWide k hi lo s = .ok ((), s.setWide k hi lo) := by
  cases k <;> rfl

theorem Matches.setWide {e w : State} (h : Matches e w) (k : Width) (hi lo : BitVec k.bits) :
    Matches (e.setWide k hi lo) (w.setWide k hi lo) := by
  cases k
  · exact h.setReg _ _ _
  · exact (h.setReg _ _ _).setReg _ _ _
  · exact (h.setReg _ _ _).setReg _ _ _

@[simp] theorem setWide_flags (s : State) (k : Width) (hi lo : BitVec k.bits) : (s.setWide k hi lo).flags = s.flags := by
  cases k <;> rfl

@[simp] theorem setWide_mem (s : State) (k : Width) (hi lo : BitVec k.bits) : (s.setWide k hi lo).mem = s.mem := by
  cases k <;> rfl

@[simp] theorem setWide_params (s : State) (k : Width) (hi lo : BitVec k.bits) : (s.setWide k hi lo).params = s.params := by
  cases k <;> rfl

@[simp] theorem setWide_pend (s : State) (k : Width) (hi lo : BitVec k.bits) : (s.setWide k hi lo).pend = s.pend := by
  cases k <;> rfl

/-! ## Completion -/

/-- A body that ends in a state which matches what is expected, with no store since the operand accesses. -/
theorem completes_quiet_of {i : Instr} {s e u w : State} {body : M Unit} (hi : exec i s = run body s)
    (hb : body s = .ok ((), w)) (q : SameMemory s u) (m : Matches e w) (hm : w.mem = u.mem) (hp : e.pend.bs = s.pend.bs) :
    Completes i s (DoneQuiet s e) := ⟨_, hi.trans (run_ok hb), m.done hp, q.congr hm⟩

/-- Storing planned values in RAM. -/
theorem storeAll_ok {n : Nat} {stores : List (List Word × Word)} {s : State} (h : ∀ p ∈ stores, AllRam s p.1) :
    ∃ t, storeAll n stores s = .ok ((), t) ∧ MemOnly s t ∧
      (s.memOk = true → ∀ a, t.byteAt a = storedAll n stores a (s.byteAt a)) := by
  induction stores generalizing s with
  | nil => exact ⟨s, rfl, .refl s, fun _ _ => rfl⟩
  | cons p rest ih =>
    obtain ⟨ps, v⟩ := p
    obtain ⟨u, h1, h2, h3⟩ := physWrite_ram (bs := bytesOf n v) (h (ps, v) List.mem_cons_self)
    have hp : u.params = s.params := h2.matches.sys.params
    obtain ⟨t, g1, g2, g3⟩ := ih (s := u) fun p hp' => (h p (List.mem_cons_of_mem _ hp')).congr hp
    refine ⟨t, (M.bind_ok h1).trans g1, h2.trans g2, fun w a => ?_⟩
    rw [g3 (h2.memOk w) a, h3 w a]
    rfl

/-- The end of an instruction that leaves RF as it is. -/
theorem Matches.ends_kept {s e w : State} (m : Matches e w) (fin : Ending) (hk : fin.keepRf = true) (hs : fin.step = true)
    (hb : e.pend.bs = s.pend.bs) : Ends s (e.withHeld (bif fin.again then e.fetch.held else none)) (w.retire s fin) := by
  have h := m.ends (s := s) fin hs hb
  have e0 : (e.mapFlags fun f => { f with rf := f.rf && fin.keepRf }) = e := by
    simp only [hk, Bool.and_true]
    rfl
  rwa [e0] at h

@[simp] theorem withHeld_self (s : State) : s.withHeld s.fetch.held = s := rfl

/-- The end of an iteration that is not the last. -/
theorem Matches.ends_iterate {s e w : State} (m : Matches e w) (hb : e.pend.bs = s.pend.bs) :
    Ends s e (w.retire s Ending.iterate) := m.ends_kept Ending.iterate rfl rfl hb

/-! ## Repetition -/

/-- Everything a string instruction does whose element ends in a state that matches `e`. -/
theorem repeated_ends {compares : Bool} {element : M Unit} {s e w : State} {i : Instr}
    (hi : exec i s = runEnding (repeated compares element) s) (hr : elementRuns s) (h : element s = .ok ((), w))
    (m : Matches e w) (hp : e.pend.bs = s.pend.bs) (hf : e.fetch.start = s.fetch.start) :
    ∃ (w' : State) (fin : Ending), exec i s = .next (w'.retire s fin) ∧ w'.mem = w.mem ∧
      Ends s (afterElement compares s e) (w'.retire s fin) := by
  cases hrep : s.fetch.pfx.rep with
  | none =>
    refine ⟨w, Ending.plain, ?_, rfl, ?_⟩
    · rw [hi]
      apply runEnding_ok
      simp only [repeated, M.bind_ok (M.get_apply s), hrep]
      rw [M.bind_ok h]
      rfl
    · simp only [afterElement, hrep]
      exact m.done hp
  | some kind =>
    have hc : addrReg s .cx ≠ 0 := by
      rcases hr with h | h
      · rw [hrep] at h
        cases h
      · exact h
    have m2 := m.setAddrReg .cx (addrReg e .cx - 1)
    have isOver : (w.setAddrReg .cx (addrReg w .cx - 1)).repeatOver kind compares =
        (e.setAddrReg .cx (addrReg e .cx - 1)).repeatOver kind compares := by
      rw [m.addrReg]
      simp only [State.repeatOver, m2.addrReg, m2.flags]
    by_cases ho : (e.setAddrReg .cx (addrReg e .cx - 1)).repeatOver kind compares = true
    · refine ⟨w.setAddrReg .cx (addrReg w .cx - 1), Ending.plain, ?_, rfl, ?_⟩
      · rw [hi]
        apply runEnding_ok
        simp only [repeated, M.bind_ok (M.get_apply s), hrep, if_neg hc]
        rw [M.bind_ok h, countDown, M.bind_ok (update_apply _ _), M.bind_ok (look_apply _ _), isOver, ho]
        rfl
      · simp only [afterElement, hrep, ho, if_true]
        rw [m.addrReg]
        exact m2.done hp
    · have hs : (w.setAddrReg .cx (addrReg w .cx - 1)).fetch.start = s.fetch.start := m.start.trans hf
      refine ⟨(w.setAddrReg .cx (addrReg w .cx - 1)).withEip (w.setAddrReg .cx (addrReg w .cx - 1)).fetch.start,
        Ending.iterate, ?_, rfl, ?_⟩
      · rw [hi]
        apply runEnding_ok
        simp only [repeated, M.bind_ok (M.get_apply s), hrep, if_neg hc]
        rw [M.bind_ok h, countDown, M.bind_ok (update_apply _ _), M.bind_ok (look_apply _ _), isOver]
        simp only [ho]
        rfl
      · simp only [afterElement, hrep, ho]
        rw [hs, m.addrReg]
        exact (m2.withEip s.fetch.start).ends_iterate hp

end Sys2Proof.Machine
end

