-- ==== Sys2Proof/Laws/Transfers.lean ====
section
/-!
SUPPORT. What the shared operations of far transfers, returns, entries and task switches do: selectors and descriptors, stacks of
another level, copies, the start of a handler, the end of a task switch.
-/

namespace Sys2Proof.Machine

/-! ## Selectors and descriptors -/

/-- A selector is null when its value is below 4. -/
theorem selNull_iff (sel : HWord) : selNull sel = decide (sel.toNat < 4) := by
  simp only [selNull]
  have h : (sel.extractLsb' 2 14).toNat = sel.toNat / 4 := by
    simp only [BitVec.extractLsb'_toNat, Nat.shiftRight_eq_div_pow]
    have := sel.isLt
    omega
  rw [Bool.eq_iff_iff, beq_iff_eq, decide_eq_true_eq]
  constructor
  · intro e
    rw [e] at h
    simp only [BitVec.ofNat_eq_ofNat, BitVec.toNat_ofNat] at h
    omega
  · intro e
    apply BitVec.eq_of_toNat_eq
    rw [h]
    simp only [BitVec.ofNat_eq_ofNat, BitVec.toNat_ofNat]
    omega

theorem selNull_false {sel : HWord} (h : 4 ≤ sel.toNat) : selNull sel = false := by
  rw [selNull_iff, decide_eq_false_iff_not]
  omega

theorem selNull_true {sel : HWord} (h : sel.toNat < 4) : selNull sel = true := by rw [selNull_iff, decide_eq_true h]

/-- The error code of a null selector is 0. -/
theorem selCode_null {sel : HWord} (h : sel.toNat < 4) : selCode sel = 0 := by
  apply BitVec.eq_of_toNat_eq
  have h' : sel.toNat = 0 ∨ sel.toNat = 1 ∨ sel.toNat = 2 ∨ sel.toNat = 3 := by omega
  simp only [selCode, BitVec.toNat_and]
  rcases h' with h | h | h | h <;> rw [h] <;> rfl

/-- A selector beyond its table has no descriptor. -/
theorem fetchDesc_none {s u : State} {sel : HWord} (m : Matches s u) (h : descAddress s.tables sel = none) :
    fetchDesc sel u = .ok (none, u) := by
  simp only [fetchDesc, M.bind_apply, look_apply, m.sys.tables, h]
  rfl

/-- Where the accessed bit of a descriptor that is accessed already is to be set: nowhere. -/
theorem planAccessed_ok {d : Desc} (h : d.d1.getLsbD 8 = true) (s : State) : planAccessed d s = .ok ([], s) := by
  simp only [planAccessed, h, if_true, M.pure_apply]

/-- Setting an accessed bit nowhere changes nothing. -/
theorem writeAccessed_nil (s : State) : writeAccessed [] s = .ok ((), s) := by
  have h : s.beforeStore [] = s := by simp [State.beforeStore]
  show physWriteBytes [] [] (s.beforeStore []) = _
  rw [h]
  rfl

/-- A descriptor that is accessed already is not written. -/
theorem setAccessed_ok {d : Desc} (h : d.d1.getLsbD 8 = true) (s : State) : setAccessed d s = .ok ((), s) :=
  (M.bind_ok (planAccessed_ok h s)).trans (writeAccessed_nil s)

/-- Setting an accessed bit writes memory only. -/
theorem writeAccessed_memOnly {ps : List Word} {s t : State} (h : writeAccessed ps s = .ok ((), t)) : Matches s t ∧
    (s.memOk = true → t.memOk = true) := by
  obtain ⟨bs, u, h1, h2⟩ := M.bind_eq_ok.mp h
  have q := OnOk.physRead composes_quiet ps s bs u h1
  have m := physWrite_memOnly h2
  exact ⟨q.matches.trans m.matches, m.2 ∘ q.memOk⟩

theorem quiet_planAccessed (d : Desc) : OnOk Quiet (planAccessed d) :=
  OnOk.ite (OnOk.pure composes_quiet _) (quiet_sysPlan _ _)

theorem Desc.isCode_of_isSystem {d : Desc} {t : BitVec 4} (h : d.isSystem t = true) : d.isCode = false := by
  simp only [Desc.isSystem, Bool.and_eq_true, Bool.not_eq_true'] at h
  simp [Desc.isCode, h.1]

/-- A system descriptor has one type. -/
theorem Desc.isSystem_other {d : Desc} {t t' : BitVec 4} (h : d.isSystem t = true) (hn : t ≠ t') : d.isSystem t' = false := by
  simp only [Desc.isSystem, Bool.and_eq_true, beq_iff_eq] at h
  simp [Desc.isSystem, h.2, hn]

/-- The check of a code segment against the level its selector asks for (R515, R578, R762). -/
theorem codeLevel_iff {d : Desc} {r : BitVec 2} :
    (d.isCode = true ∧ (if d.conforming then d.dpl.toNat ≤ r.toNat else d.dpl = r)) ↔
      (d.isCode && (bif d.conforming then decide (d.dpl.toNat ≤ r.toNat) else d.dpl == r)) = true := by
  rw [Bool.and_eq_true]
  cases d.conforming <;>
    simp only [cond_true, cond_false, Bool.false_eq_true, if_false, if_true, decide_eq_true_eq, beq_iff_eq]

/-- A doubleword stored for a selector has the selector in its low half. -/
theorem selWord_low {sel : HWord} {s : State} {w : Word} {u : State} (h : selWord sel s = .ok (w, u)) : w.setWidth 16 = sel := by
  simp only [selWord, M.bind_apply, drawBits_apply, M.pure_apply] at h
  obtain ⟨rfl, -⟩ := Prod.mk.inj (Except.ok.inj h)
  apply BitVec.eq_of_getLsbD_eq
  intro i hi
  rw [BitVec.getLsbD_setWidth, BitVec.getLsbD_append]
  simp [hi]

theorem hwordOf_two (lo hi : Byte) (l : List Byte) : hwordOf (lo :: hi :: l) = hi ++ lo := by
  simp only [hwordOf, List.take, wordOf]
  apply BitVec.eq_of_getLsbD_eq
  intro i h
  rw [BitVec.getLsbD_append]
  by_cases h8 : i < 8
  · simp [h8]
    omega
  · have h9 : i - 8 < 8 := by omega
    simp [h8, h9, h, BitVec.getLsbD_of_ge lo i (by omega)]

/-- The selector at an offset of bytes that stand in memory, byte by byte. -/
theorem hwordOf_drop (l : List Byte) (off : Nat) : hwordOf (l.drop off) = (l.getD (off + 1) 0 ++ l.getD off 0 : HWord) := by
  have key : ∀ m : List Byte, hwordOf m = (m.getD 1 0 ++ m.getD 0 0 : HWord) := by
    intro m
    match m with
    | [] => rfl
    | [b] =>
      have e : hwordOf [b] = hwordOf [b, 0] := by simp [hwordOf, wordOf]
      rw [e, hwordOf_two b 0 []]
      rfl
    | lo :: hi :: t => exact hwordOf_two lo hi t
  rw [key]
  simp [List.getD_eq_getElem?_getD, List.getElem?_drop]

theorem bytesOf_selector (v : HWord) : bytesOf 2 (v.setWidth 32) = [v.extractLsb' 0 8, v.extractLsb' 8 8] := by
  simp only [bytesOf, List.cons.injEq, and_true]
  refine ⟨?_, ?_⟩ <;> apply BitVec.eq_of_getLsbD_eq <;> intro i hi <;> simp
  have h : 8 + i < 32 := by omega
  simp [h]

theorem realBase_eq (sel : HWord) : realBase sel = sel.setWidth 32 * 16 := by
  apply BitVec.eq_of_toNat_eq
  simp [realBase, Nat.shiftLeft_eq]

/-! ## Stacks and levels -/

theorem moveSp_zero (big : Bool) (v : Word) : moveSp big v 0 = v := by
  cases big
  · simp only [moveSp, cond_false, setLow16]
    apply BitVec.eq_of_getLsbD_eq
    intro i hi
    rw [BitVec.getLsbD_append]
    by_cases h : i < 16
    · simp [h]
    · have h2 : i - 16 < 16 := by omega
      have h3 : 16 + (i - 16) = i := by omega
      simp [h, h2, h3]
  · simp [moveSp]

theorem loadSp_eq (big : Bool) (old new : Word) : loadSp big old new = newEsp big old new := by cases big <;> rfl

theorem loadOuterStack_eq (esp new extra : Word) (is32 : Bool) (d : Desc) (sel : HWord) :
    loadOuterStack esp new extra is32 (d.toSeg sel) = moveSp (d.d1.getLsbD 22) (newEsp is32 esp new) extra := by
  cases is32 <;> rfl

/-- The test of a data segment register by the outer level, as a proposition (R123, R515). -/
theorem SegReg.validFor_iff (g : SegReg) (t : Tables) (c : BitVec 2) : g.validFor t c = true ↔ g.StaysValid t c := by
  simp only [SegReg.validFor, SegReg.StaysValid, SegReg.allows, cond_false, Bool.and_eq_true, Bool.or_eq_true,
    Bool.not_eq_true', decide_eq_true_eq, Option.isSome_iff_ne_none, and_assoc]
  cases g.ar.code <;> cases g.ar.ce <;> simp [selRpl]

theorem SegReg.forOuter_eq (g : SegReg) (t : Tables) (c : BitVec 2) : g.forOuter t c = g.afterReturn t c := by
  simp only [SegReg.forOuter, SegReg.afterReturn, ← SegReg.validFor_iff, Bool.and_eq_true, Bool.not_eq_true',
    Bool.not_eq_true]

/-- The segment registers after a return to an outer level (R515, R578). -/
theorem Segs.forOuter_eq (g : Segs) (t : Tables) (c : BitVec 2) (cs ss : SegReg) :
    ((g.set .cs cs).forOuter t c).set .ss ss = g.afterReturn t c cs ss := by
  simp only [Segs.forOuter, SegReg.forOuter_eq, Segs.set, Segs.afterReturn]

/-- The top of the stack that the limit of SS cuts off raises #SS(0), whatever operand accesses came before. -/
theorem stackBlock_short {s u : State} {n : Nat} (m : Matches s u) (h : s.stackFallsShort n) :
    stackBlock n u = .error (.exc (excSS 0) u) := by
  obtain ⟨hce, hl⟩ := h
  have hp : (stackPtr s.stack32 s.regs.esp).toNat = if s.stack32 then s.regs.esp.toNat else s.regs.esp.toNat % 65536 := by
    cases hb : s.stack32 <;> simp [stackPtr]
    omega
  have hout : (u.seg .ss).legal u.protMode (stackPtr u.stack32 u.regs.esp) n false = false := by
    simp only [State.seg, m.sys.segs, m.stack32, m.regs, SegReg.legal, SegReg.inLimit, Segs.get, hce, Bool.and_false, if_false,
      Bool.false_eq_true, hp, Bool.and_eq_false_iff, decide_eq_false_iff_not]
    exact .inr (by omega)
  rw [stackBlock, M.bind_ok (M.get_apply _), hout]
  rfl

/-- Room that the checks of Protected Mode find is room in every mode. -/
theorem roomFor_weak {g : SegReg} {prot big : Bool} {n k : Nat} {esp : Word} (h : roomFor g true big n k esp = true) :
    roomFor g prot big n k esp = true := by
  induction k generalizing esp with
  | zero => rfl
  | succ k ih =>
    simp only [roomFor, Bool.and_eq_true] at h ⊢
    refine ⟨?_, ih h.2⟩
    have h1 := h.1
    simp only [slotLegal, SegReg.legal, Bool.and_eq_true, Bool.or_eq_true] at h1 ⊢
    refine ⟨?_, h1.2⟩
    cases prot <;> simp_all

theorem Matches.withCpl {e w : State} (h : Matches e w) (v : BitVec 2) : Matches (e.withCpl v) (w.withCpl v) :=
  ⟨h.regs, h.eip, h.flags, ⟨rfl, h.sys.segs, h.sys.cr0, h.sys.cr2, h.sys.cr3, h.sys.tables, h.sys.dregs, h.sys.test, h.sys.pins,
    h.sys.params, h.sys.io⟩, h.pfx, h.start, h.oldMode, h.held, h.shadow, h.activity, h.bs, h.bt⟩

theorem Matches.settled {e w : State} (h : Matches e w) : Matches e.settled w.settled := by
  have a := (h.withCpl (bif e.cr0.pe then e.cpl else 0)).withFlags { e.flags with vm := e.flags.vm && e.cr0.pe }
  rw [State.settled, State.settled, h.sys.cr0, h.sys.cpl, h.flags]
  exact a

theorem Matches.cplNat {e w : State} (h : Matches e w) : w.cplNat = e.cplNat := by simp only [State.cplNat, h.sys.cpl]

/-- What keeps every register and changes no byte is `Quiet`. -/
theorem Quiet.of_matches {s t : State} (m : Matches s t) (h : s.memOk = true → t.memOk = true) (e : SameMemory s t) : Quiet s t :=
  ⟨m.sys, m.regs, m.eip, m.flags, m.pfx, m.start, m.oldMode, m.held, m.shadow, m.activity, m.bs, m.bt, h, e⟩

/-- Reading the stack of an inner level keeps every register, and memory but for accessed and dirty bits: the accessed bit of the
descriptor of its stack segment is written when SS is loaded (R509, R117). -/
theorem quiet_innerStack (n : BitVec 2) : OnOk Quiet (innerStack n) := by
  have c := composes_quiet
  unfold innerStack
  refine OnOk.bind c (OnOk.look c _) fun _ => ?_
  refine OnOk.bind c (OnOk.check c _ _) fun _ => ?_
  refine OnOk.bind c (quiet_sysRead _ _) fun _ => ?_
  refine OnOk.bind c (quiet_sysRead _ _) fun _ => ?_
  refine OnOk.bind c (OnOk.check c _ _) fun _ => ?_
  refine OnOk.bind c (quiet_needDesc _ _) fun _ => ?_
  refine OnOk.bind c (OnOk.check c _ _) fun _ => ?_
  refine OnOk.bind c (OnOk.check c _ _) fun _ => ?_
  exact OnOk.bind c (quiet_planAccessed _) fun _ => OnOk.pure c _

/-! ## Stores and copies -/

/-- Everything planned stores do after accesses that led to `u`: the bytes stand where they were planned, nothing else changes. -/
theorem storeAll_ends {n : Nat} {stores : List (List Word × Word)} {s e u w : State} (q : Quiet s u) (r : AllStorable s stores)
    (m : Matches e w) (hm : w.mem = u.mem) (hp : w.params = s.params) :
    ∃ t, storeAll n stores w = .ok ((), t) ∧ Matches e t ∧ SameMemory s u ∧
      (∀ a, t.byteAt a = storedAll n stores a (u.byteAt a)) ∧ t.memOk = true ∧ t.params = s.params := by
  obtain ⟨t, g1, g2, g3⟩ := storeAll_ok (n := n) (stores := stores) (s := w) fun p h => (r.2 p h).congr hp
  have hok : w.memOk = true := by
    rw [State.memOk, hm]
    exact q.memOk r.1
  refine ⟨t, g1, m.trans g2.matches, q.mem, fun a => ?_, g2.2 hok, g2.matches.sys.params.trans hp⟩
  rw [g3 hok a, byteAt_congr hm]

/-- A store to RAM as a change of memory as a whole. -/
theorem physWrite_storedIn {ps : List Word} {bs : List Byte} {s : State} (h : AllRam s ps) (hok : s.memOk = true) :
    ∃ t, physWrite ps bs s = .ok ((), t) ∧ Matches s t ∧ t.memOk = true ∧ t.byteAt = storedIn ps bs s.byteAt := by
  obtain ⟨t, h1, h2, h3⟩ := physWrite_ram (bs := bs) h
  exact ⟨t, h1, h2.matches, h2.2 hok, funext fun a => h3 hok a⟩

/-- Everything copies in RAM do, each from what stands there by then (R509, R540). -/
theorem copyAll_ends {l : List (List Word × List Word)} {s : State} (r : ∀ p ∈ l, AllRam s (p.1 ++ p.2)) (hok : s.memOk = true) :
    ∃ t, copyAll l s = .ok ((), t) ∧ Matches s t ∧ t.memOk = true ∧ ∀ a, t.byteAt a = copiedIn l s.byteAt a := by
  induction l generalizing s with
  | nil => exact ⟨s, rfl, .refl s, hok, fun _ => rfl⟩
  | cons p rest ih =>
    obtain ⟨rd, wr⟩ := p
    have r0 := r (rd, wr) (by simp)
    have r1 : AllRam s rd := fun a h => r0 a (by simp [h])
    obtain ⟨t, h1, h2, h3, h4⟩ := physWrite_storedIn (ps := wr) (bs := rd.map s.byteAt)
      (fun a h => r0 a (by simp [h])) hok
    obtain ⟨t', g1, g2, g3, g4⟩ := ih (s := t) (fun p hp => (r p (by simp [hp])).congr h2.sys.params) h3
    refine ⟨t', ?_, h2.trans g2, g3, fun a => ?_⟩
    · simp only [copyAll, M.bind_apply, physRead_ram r1, h1, g1]
    · rw [g4 a, h4]
      rfl

theorem quiet_planParams (s : State) (ss : SegReg) (x : Nat) (esp : Word) : OnOk Quiet (planParams s ss x esp) := by
  have c := composes_quiet
  induction x generalizing esp with
  | zero => exact OnOk.pure c _
  | succ x ih =>
    refine OnOk.bind c (quiet_planSeg _ _ _ _ _ _) fun _ => ?_
    refine OnOk.bind c (quiet_planPush _ _ _ _ _ _) fun _ => ?_
    exact OnOk.bind c (ih _) fun _ => OnOk.pure c _

theorem quiet_planDisplay (n i : Nat) (ebp esp : Word) : OnOk Quiet (planDisplay n i ebp esp) := by
  have c := composes_quiet
  induction i generalizing ebp esp with
  | zero => exact OnOk.pure c _
  | succ i ih =>
    refine OnOk.bind c (OnOk.get c) fun _ => ?_
    refine OnOk.bind c (quiet_plan _ _ _ _) fun _ => ?_
    refine OnOk.bind c (quiet_planPush _ _ _ _ _ _) fun _ => ?_
    exact OnOk.bind c (ih _ _) fun _ => OnOk.pure c _

/-! ## Entry to a handler -/

theorem inOwnMode_self {s : State} (h : s.fetch.oldMode = false) : s.inOwnMode = s := by
  obtain ⟨⟩ := s
  simp only at h
  simp [State.inOwnMode, State.withOldMode, State.withFetch, ← h]

/-- An event whose delivery raises nothing is taken. -/
theorem take_ok {ev : Event} {s t : State} (ho : s.fetch.oldMode = false) (h : enter ev s = .ok ((), t)) : take ev s = .next t := by
  rw [take, inOwnMode_self ho, chainLength, deliver, h]

theorem entered_of_matches {e w : State} (m : Matches e w) : Entered e w.atHandler := by
  refine ⟨?_, ?_, ?_, ⟨?_, ?_, ?_, ?_, ?_, ?_, ?_, ?_, ?_, ?_, ?_⟩, ?_, ?_, ?_, ?_, ?_⟩ <;>
    simp [m.regs, m.eip, m.flags, m.sys.cpl, m.sys.segs, m.sys.cr0, m.sys.cr2, m.sys.cr3, m.sys.tables, m.sys.dregs, m.sys.test,
      m.sys.pins, m.sys.params, m.sys.io]

theorem Entered.withDebug {e w : State} (m : Entered e w) (d : Debug) : Entered (e.withDebug d) (w.withDebug d) :=
  ⟨m.regs, m.eip, m.flags, ⟨m.sys.cpl, m.sys.segs, m.sys.cr0, m.sys.cr2, m.sys.cr3, m.sys.tables, rfl, m.sys.test, m.sys.pins,
    m.sys.params, m.sys.io⟩, m.pfx, m.oldMode, m.held, m.shadow, m.activity⟩

/-- The start of the debug exception's handler has GD clear (R754). -/
theorem Entered.clearGd {e w : State} {ev : Event} (m : Entered e w) :
    Entered (if ev.vector = 1 ∧ ev.kind = .exception then e.withDebug { e.dregs with dr7 := { e.dregs.dr7 with gd := false } } else e)
      (w.clearGd ev) := by
  have hd := m.sys.dregs
  unfold State.clearGd
  split
  · rw [hd]
    exact m.withDebug _
  · exact m

@[simp] theorem clearGd_mem (s : State) (ev : Event) : (s.clearGd ev).mem = s.mem := by unfold State.clearGd; split <;> rfl
@[simp] theorem clearGd_pend (s : State) (ev : Event) : (s.clearGd ev).pend = s.pend := by unfold State.clearGd; split <;> rfl

/-- The doublewords an entry pushes last (R722). -/
theorem frameTail_form {s u u' : State} {ev : Event} {l : List Word} (h : frameTail s ev u = .ok (l, u')) :
    ∃ high high' : HWord, l = [({ s.flags with rf := s.flags.rf || ev.rf } : Flags).toWord, high ++ ev.cs.getD s.segs.cs.sel,
      ev.ret] ++ match ev.code with | none => [] | some x => [high' ++ x] := by
  simp only [frameTail, selWord, M.bind_apply, drawBits_apply, M.pure_apply] at h
  cases hc : ev.code with
  | none =>
    rw [hc] at h
    exact ⟨_, 0, (Prod.mk.inj (Except.ok.inj h)).1.symm⟩
  | some x =>
    rw [hc] at h
    exact ⟨_, _, (Prod.mk.inj (Except.ok.inj h)).1.symm⟩

/-- The doublewords an entry to an inner level pushes first (R722, R723). -/
theorem frameHead_form {s u u' : State} {l : List Word} (h : frameHead s u = .ok (l, u')) :
    ∃ h1 h2 h3 h4 h5 : HWord, l = (if s.flags.vm then [h1 ++ s.segs.gs.sel, h2 ++ s.segs.fs.sel, h3 ++ s.segs.ds.sel,
      h4 ++ s.segs.es.sel] else []) ++ [h5 ++ s.segs.ss.sel, s.regs.esp] := by
  simp only [frameHead, selWord, M.bind_apply, drawBits_apply, M.pure_apply] at h
  cases hc : s.flags.vm with
  | false =>
    rw [hc] at h
    exact ⟨0, 0, 0, 0, _, (Prod.mk.inj (Except.ok.inj h)).1.symm⟩
  | true =>
    rw [hc] at h
    exact ⟨_, _, _, _, _, (Prod.mk.inj (Except.ok.inj h)).1.symm⟩

/-! ## The end of a task switch -/

theorem finishTask_ok {y : State} {trap : Bool} (h : y.eip.toNat ≤ y.segs.cs.limit.toNat) :
    finishTask trap y = .ok ((), ((y.withPend { y.pend with bt := y.pend.bt || trap }).flushQueue).settled) := by
  simp only [finishTask, inNewTask, M.bind_apply, M.get_apply, decide_eq_true h, check_true, update_apply]

theorem finishTask_late {y : State} {trap : Bool} (h : y.segs.cs.limit.toNat < y.eip.toNat) :
    finishTask trap y = .error (.late (excGP 0) y.settled) := by
  have h' : decide (y.eip.toNat ≤ y.segs.cs.limit.toNat) = false := by
    rw [decide_eq_false_iff_not]
    omega
  simp only [finishTask, inNewTask, M.bind_apply, M.get_apply, h', check_false]

/-- An exception in the context of a new task is taken there (R764). -/
theorem runEnding_late {s y : State} {e : Exc} {m : M Ending} (h : m s = .error (.late e y)) (h9 : e.vector ≠ 9) :
    runEnding m s = take (lateEvent e.vector e.code y) y := by
  have h' : (e.vector == 9) = false := beq_eq_false_iff_ne.mpr h9
  rw [runEnding, h]
  simp only [conclude, Exc.event, lateEvent, h', Bool.not_false]

/-- The state a task switch that is over ends in (R753). -/
theorem switched_of_finish {s y : State} {trap : Bool} {fin : Ending} (hk : fin.keepRf = true) (ha : fin.again = false) :
    Switched trap y.settled ((((y.withPend { y.pend with bt := y.pend.bt || trap }).flushQueue).settled).retire s fin) := by
  refine ⟨?_, ?_, ?_, ⟨?_, ?_, ?_, ?_, ?_, ?_, ?_, ?_, ?_, ?_, ?_⟩, ?_, ?_, ?_, ?_, ?_⟩ <;> simp [State.retire, hk, ha]

end Sys2Proof.Machine
end

