-- ==== Sys2Proof/Tests/Slice0.lean ====
section
/-!
SUPPORT. Tests: ill-formed terms, words of every instruction written out from the encodings of the spec, states that meet the
hypotheses of the statements, and single steps worked by hand from the rules.
-/

open Sys2Proof Sys2Proof.Machine

namespace Sys2Proof.Tests

set_option Elab.async false

/-- 16-bit size attributes. -/
def c16 : Ctx := ⟨false, false⟩

/-- 32-bit size attributes. -/
def c32 : Ctx := ⟨true, true⟩

/-- Every word decodes to its instruction, with nothing left over. -/
abbrev Decodes (l : List (Ctx × List Byte × Instr)) : Prop := ∀ p ∈ l, decode p.1 p.2.1 = .ok p.2.2 []

/-! ## States -/

/-- Real Address Mode with CS:IP = 0000:7000h, an instruction there, and the rest as a function of the reset state gives it. -/
def real (bs : List Byte) (f : State → State := id) : State :=
  (((f State.reset).setSeg .cs { SegReg.resetCs with sel := 0, base := 0 }).withEip 0x7000).placeBytes 0x7000 bs

/-- What a step leads to, observed. -/
def after {α : Type} (s : State) (g : State → α) : Option α :=
  match step s with
  | .next t => some (g t)
  | _ => none

/-- A flat segment register. -/
def flat (code : Bool) (dpl : BitVec 2) (sel : HWord) : SegReg :=
  { sel := sel, base := 0, limit := 0xFFFFFFFF, valid := true
    ar := { present := true, dpl := dpl, s := true, code := code, ce := false, rw := true, accessed := true, db := true,
            gran := true } }

/-- The cells of bytes from an address on. -/
def cells : Nat → List Byte → List Host.Cell
  | _, [] => []
  | a, b :: bs => if b = 0 then cells (a + 1) bs else (a, b) :: cells (a + 1) bs

/-- Bytes in memory from an address on, above all that it lists. -/
def place (a : Nat) (bs : List Byte) (m : List Host.Cell) : List Host.Cell := m ++ cells a bs

/-- A descriptor table: null; 08h code and 10h data of level 0; 18h code and 20h data of level 3; 28h an LDT, 30h an available TSS;
38h code, 40h data, 48h LDT and 50h TSS not present; 58h conforming code of level 0. -/
def gdt : List Byte :=
  [0, 0, 0, 0, 0, 0, 0, 0, 0xFF, 0xFF, 0, 0, 0, 0x9B, 0xCF, 0, 0xFF, 0xFF, 0, 0, 0, 0x93, 0xCF, 0,
   0xFF, 0xFF, 0, 0, 0, 0xFB, 0xCF, 0, 0xFF, 0xFF, 0, 0, 0, 0xF3, 0xCF, 0,
   0x17, 0, 0, 0x50, 0, 0x82, 0, 0, 0x67, 0, 0, 0x60, 0, 0x89, 0, 0,
   0xFF, 0xFF, 0, 0, 0, 0x1B, 0xCF, 0, 0xFF, 0xFF, 0, 0, 0, 0x13, 0xCF, 0, 0x17, 0, 0, 0x50, 0, 0x02, 0, 0,
   0x67, 0, 0, 0x60, 0, 0x09, 0, 0, 0xFF, 0xFF, 0, 0, 0, 0x9F, 0xCF, 0]

/-- Protected Mode at level 0, flat, EIP = 7000h, ESP = 9000h, the table at 1000h, and an IDT at 2000h. -/
def prot : State :=
  { State.reset with
    cr0 := { State.reset.cr0 with pe := true }, eip := 0x7000, regs := { State.reset.regs with esp := 0x9000 }
    segs := { es := flat false 0 0x10, cs := flat true 0 8, ss := flat false 0 0x10, ds := flat false 0 0x10,
              fs := flat false 0 0x10, gs := flat false 0 0x10 }
    tables := { State.reset.tables with gdtr := { base := 0x1000, limit := 0x5F }, idtr := { base := 0x2000, limit := 0x7FF } }
    mem := place 0x1000 gdt [] }

/-- Protected Mode at level 3. -/
def prot3 : State :=
  { prot with
    cpl := 3
    segs := { es := flat false 3 0x23, cs := flat true 3 0x1B, ss := flat false 3 0x23, ds := flat false 3 0x23,
              fs := flat false 3 0x23, gs := flat false 3 0x23 } }

/-- Virtual 8086 Mode with IOPL 0. -/
def v86 : State :=
  { prot with
    cpl := 3, flags := { State.reset.flags with vm := true }
    segs := { es := SegReg.v86 0 false, cs := SegReg.v86 0 true, ss := SegReg.v86 0 false, ds := SegReg.v86 0 false,
              fs := SegReg.v86 0 false, gs := SegReg.v86 0 false } }

/-- The table of prot and after it: 60h a call gate to 0008:00004000h with one parameter, 68h one to 18h; 70h an available TSS at
6100h, 78h a busy one at 6000h, 80h a task gate to 70h, 88h an 80286 TSS; the gates of DPL 3. -/
def gates : List Byte :=
  [0, 0x40, 8, 0, 1, 0xEC, 0, 0, 0, 0x40, 0x18, 0, 0, 0xEC, 0, 0,
   0x67, 0, 0, 0x61, 0, 0xE9, 0, 0, 0xFF, 0, 0, 0x60, 0, 0x8B, 0, 0,
   0, 0, 0x70, 0, 0, 0xE5, 0, 0, 0x67, 0, 0, 0x62, 0, 0x81, 0, 0]

/-- In the IDT at 2000h an interrupt gate to 0008:00004000h for vector 13 and a task gate to 70h for vector 14. -/
def idtGates : List Byte := [0, 0x40, 8, 0, 0, 0x8E, 0, 0, 0, 0, 0x70, 0, 0, 0x85, 0, 0]

/-- The task state segment of the current task: back link to the other one, level 0 stack 0010:0000A000h. -/
def tssOld : List Byte := [0x70, 0, 0, 0, 0, 0xA0, 0, 0, 0x10, 0, 0, 0]

/-- The task state segment of the other task, from EIP on: 0008:00007100h, ESP 9800h, the flat segments, no LDT, T set. -/
def tssNew : List Byte :=
  [0, 0x71, 0, 0, 2, 0, 0, 0, 1, 0, 0, 0, 2, 0, 0, 0, 3, 0, 0, 0, 4, 0, 0, 0, 0, 0x98, 0, 0, 5, 0, 0, 0, 6, 0, 0, 0, 7, 0, 0, 0,
   0x10, 0, 0, 0, 8, 0, 0, 0, 0x10, 0, 0, 0, 0x10, 0, 0, 0, 0x10, 0, 0, 0, 0x10, 0, 0, 0, 0, 0, 0, 0, 1, 0, 0xFF, 0xFF]

/-- A state with these descriptors and task state segments. The current one lies in ROM, for the free halves of the selectors that a
switch saves there would keep the tests from being evaluated. -/
def tasked (s : State) : State :=
  { s with
    params := { s.params with memMap := [{ base := 0x6000, size := 0x100, kind := .rom }] }
    tables := { s.tables with gdtr := { base := 0x1000, limit := 0x8F }, tr := { sel := 0x78, base := 0x6000, limit := 0xFF, typ := 11 } }
    mem := place 0x6120 tssNew (place 0x6000 tssOld (place 0x2068 idtGates (place 0x1060 gates s.mem))) }

/-- The same with memory everywhere RAM. -/
def taskedRam (s : State) : State := { tasked s with params := s.params }

/-- Paging on, the directory at 100000h: page 401h is mapped to frame 200h through a table at 101000h. -/
def paged (pde pte : Byte) : State :=
  { prot with
    cr0 := { prot.cr0 with pg := true }, cr3 := 0x100
    mem := place 0x101004 [pte, 0, 0x20] (place 0x100004 [pde, 0x10, 0x10] prot.mem) }

/-! ## WellFormed refuses -/

theorem test_wf_imm16_too_wide : WellFormed c16 (.movRImm .ax 0x10000) = false ∧ WellFormed c16 (.movRImm .ax 0xFFFF) = true ∧
    WellFormed c16 (.jmpFar 0x10000 0) = false ∧ WellFormed c16 (.jccRel .e 0x10000) = false ∧
    WellFormed c16 (.addRmImm (.reg .ax) 0x10000) = false := by decide
theorem test_wf_moffs_too_wide : WellFormed c16 (.movAccMoffs true 0x10000) = false ∧
    WellFormed ⟨false, true⟩ (.movAccMoffs true 0x10000) = true := by decide
theorem test_wf_m16_with_addr32 : WellFormed c32 (.lea .ax (.m16 .bx .none)) = false := by decide
theorem test_wf_abs16_with_addr32 : WellFormed c32 (.lea .ax (.abs16 0)) = false := by decide
theorem test_wf_bp_without_displacement : WellFormed c16 (.lea .ax (.m16 .bp .none)) = false := by decide
theorem test_wf_m32_with_addr16 : WellFormed c16 (.lea .ax (.m32 .bx .none)) = false := by decide
theorem test_wf_esp_base_without_sib : WellFormed c32 (.lea .ax (.m32 .sp .none)) = false := by decide
theorem test_wf_ebp_without_displacement : WellFormed c32 (.lea .ax (.m32 .bp .none)) = false := by decide
theorem test_wf_sib_with_addr16 : WellFormed c16 (.lea .ax (.sib 0 .ax .bx .none)) = false := by decide
theorem test_wf_sib_ebp_without_displacement : WellFormed c32 (.lea .ax (.sib 0 .ax .bp .none)) = false := by decide
theorem test_wf_abs32_with_addr16 : WellFormed c16 (.lea .ax (.abs32 0)) = false ∧
    WellFormed c16 (.lea .ax (.sibAbs 0 .ax 0)) = false := by decide
theorem test_wf_rm_checked : WellFormed c16 (.movRmR true .ax (.mem (.abs32 0))) = false ∧
    WellFormed c16 (.setcc .e (.mem (.abs32 0))) = false ∧ WellFormed c16 (.esc 0 0 (.mem (.abs32 0))) = false := by decide
theorem test_wf_mov_to_cs : WellFormed c16 (.movSregRm .cs (.reg .ax)) = false := by decide
theorem test_wf_push_fs_short : WellFormed c16 (.pushSreg .fs) = false ∧ WellFormed c16 (.pushSreg .gs) = false := by decide
theorem test_wf_xchg_acc_acc : WellFormed c16 (.xchgAccR .ax) = false := by decide
theorem test_wf_conversions_by_size : WellFormed c32 .cbw = false ∧ WellFormed c32 .cwd = false ∧ WellFormed c16 .cwde = false ∧
    WellFormed c16 .cdq = false := by decide

/-! ## What does not decode (30_encoding.md R236, R237; 95_test_vectors.md 2.1) -/

theorem test_reject_blank_opcodes : decode c16 [0xD6] = .bad .reservedOpcode ∧ decode c16 [0xF1] = .bad .reservedOpcode ∧
    decode c16 [0x82] = .bad .reservedOpcode ∧ decode c16 [0x0F, 0xFF] = .bad .reservedOpcode := by decide
theorem test_reject_registers : decode c16 [0x8D, 0xC0] = .bad .registerOperand ∧ decode c16 [0xC5, 0xC0] = .bad .registerOperand ∧
    decode c16 [0x0F, 0x01, 0xD0] = .bad .registerOperand ∧ decode c16 [0xFF, 0xE8] = .bad .registerOperand := by decide
theorem test_reject_extensions : decode c16 [0xC6, 0xC8, 0] = .bad .reservedExtension ∧
    decode c16 [0x8F, 0xC8] = .bad .reservedExtension ∧ decode c16 [0x8E, 0xC8] = .bad .reservedSreg ∧
    decode c16 [0x8C, 0xF0] = .bad .reservedSreg ∧ decode c16 [0x0F, 0x20, 0xC8] = .bad .reservedEee := by decide
theorem test_decode_waits_for_bytes : decode c16 [] = .more ∧ decode c16 [0xB8, 0x34] = .more ∧ decode c32 [0x8B, 0x44] = .more := by
  decide
theorem test_table_word : decodeTableWord 16 0x0F06 = some .clts ∧ decodeTableWord 8 0x90 = some .nop ∧
    decodeTableWord 16 0x89D8 = some (.movRmR true .bx (.reg .ax)) := by decide
theorem test_fetch_word : after (State.reset.withFetchWord 16 0x0F06) (·.eip) = some 0xFFF2 := by decide

/-- Addressing forms (95_test_vectors.md 2.1). -/
theorem test_decode_addressing : Decodes [
  (c16, [0x8B, 0x46, 0xFE], .movRRm true .ax (.mem (.m16 .bp (.d8 0xFE)))),
  (⟨false, true⟩, [0x8B, 0x04, 0x8D, 0, 0x10, 0, 0], .movRRm true .ax (.mem (.sibAbs 2 .cx 0x1000))),
  (c32, [0x8B, 0x04, 0x24], .movRRm true .ax (.mem (.sib 0 .sp .sp .none))),
  (c32, [0x8B, 0x05, 0x78, 0x56, 0x34, 0x12], .movRRm true .ax (.mem (.abs32 0x12345678))),
  (c32, [0x8B, 0x44, 0x6D, 0], .movRRm true .ax (.mem (.sib 1 .bp .bp (.d8 0)))),
  (c32, [0x8B, 0x04, 0x6D, 0, 0, 0, 0], .movRRm true .ax (.mem (.sibAbs 1 .bp 0))),
  (⟨true, false⟩, [0xEA, 0, 0, 0x10, 0, 8, 0], .jmpFar 0x100000 8)] := by
  decide

/-! ## Words of every instruction -/

/-- Words of prefixes, from the encodings of its opcode table rows. -/
theorem test_decode_prefixes : Decodes [
  (c16, [0x26], .pfxEs),
  (c32, [0x2E], .pfxCs),
  (c16, [0x36], .pfxSs),
  (c32, [0x3E], .pfxDs),
  (c16, [0x64], .pfxFs),
  (c32, [0x65], .pfxGs),
  (c16, [0x66], .pfxOpsize),
  (c32, [0x67], .pfxAddrsize),
  (c16, [0xF0], .pfxLock),
  (c32, [0xF2], .pfxRepne),
  (c16, [0xF3], .pfxRep)] := by
  decide

/-- Words of data transfer, from the encodings of its opcode table rows. -/
theorem test_decode_data_transfer_1 : Decodes [
  (c32, [0x88, 0xEE], .movRmR false .bp (.reg .si)),
  (c16, [0x8B, 0xAD, 0x01, 0x80], .movRRm true .bp (.mem (.m16 .di (.d16 0x8001)))),
  (c32, [0xC6, 0x45, 0x08, 0x92], .movRm8Imm (.mem (.m32 .bp (.d8 8))) 0x92),
  (c16, [0xC7, 0x00, 0x17, 0x9A], .movRmImm (.mem (.m16 .bxsi .none)) 0x9A17),
  (c32, [0xB5, 0x9C], .movR8Imm .bp 0x9C),
  (c16, [0xBB, 0x20, 0x9A], .movRImm .bx 0x9A20),
  (c32, [0xA1, 0x25, 0x5A, 0xDE, 0xF0], .movAccMoffs true 0xF0DE5A25),
  (c16, [0xA3, 0x2A, 0x9A], .movMoffsAcc true 0x9A2A),
  (c32, [0x8E, 0x54, 0xB4, 0x04], .movSregRm .ss (.mem (.sib 2 .si .sp (.d8 4)))),
  (c16, [0x8C, 0x08], .movRmSreg .cs (.mem (.m16 .bxsi .none))),
  (c32, [0x0F, 0xBF, 0x4D, 0x08], .movsx true .cx (.mem (.m32 .bp (.d8 8)))),
  (c16, [0x0F, 0xB6, 0xC9], .movzx false .cx (.reg .cx)),
  (c32, [0x55], .pushR .bp),
  (c16, [0x68, 0x46, 0x9A], .pushImm 0x9A46),
  (c32, [0x6A, 0xC8], .pushImm8 0xC8),
  (c16, [0x16], .pushSreg .ss),
  (c32, [0x0F, 0xA0], .pushFs),
  (c16, [0x0F, 0xA8], .pushGs),
  (c32, [0x60], .pusha),
  (c16, [0x8F, 0x46, 0xFE], .popRm (.mem (.m16 .bp (.d8 0xFE)))),
  (c32, [0x5B], .popR .bx),
  (c16, [0x07], .popEs),
  (c32, [0x17], .popSs),
  (c16, [0x1F], .popDs)] := by
  decide

/-- Words of data transfer, from the encodings of its opcode table rows. -/
theorem test_decode_data_transfer_2 : Decodes [
  (c32, [0x0F, 0xA1], .popFs),
  (c16, [0x0F, 0xA9], .popGs),
  (c32, [0x61], .popa),
  (c32, [0x95], .xchgAccR .bp),
  (c16, [0x86, 0x1E, 0x34, 0x12], .xchgRmR false .bx (.mem (.abs16 0x1234))),
  (c32, [0xE5, 0xDD], .inImm true 0xDD),
  (c16, [0xED], .inDx true),
  (c32, [0xE6, 0xE4], .outImm false 0xE4),
  (c16, [0xEE], .outDx false),
  (c32, [0x8D, 0x0C, 0x24], .lea .cx (.sib 0 .sp .sp .none)),
  (c16, [0xC5, 0x28], .lds .bp (.m16 .bxsi .none)),
  (c32, [0xC4, 0x1D, 0x78, 0x56, 0x34, 0x12], .les .bx (.abs32 0x12345678)),
  (c16, [0x0F, 0xB4, 0x4E, 0xFE], .lfs .cx (.m16 .bp (.d8 0xFE))),
  (c32, [0x0F, 0xB5, 0x2A], .lgs .bp (.m32 .dx .none)),
  (c16, [0x0F, 0xB2, 0x1E, 0x34, 0x12], .lss .bx (.abs16 0x1234)),
  (c32, [0xFF, 0x74, 0xB4, 0x04], .pushRm (.mem (.sib 2 .si .sp (.d8 4))))] := by
  decide

/-- Words of processor control, from the encodings of its opcode table rows. -/
theorem test_decode_processor_control : Decodes [
  (c16, [0x90], .nop),
  (c16, [0xF4], .hlt),
  (c32, [0x0F, 0x20, 0xC5], .movRCr .bp .cr0),
  (c16, [0x0F, 0x22, 0xDD], .movCrR .cr3 .bp),
  (c32, [0x0F, 0x21, 0xF1], .movRDr .cx .dr6),
  (c16, [0x0F, 0x23, 0xC9], .movDrR .dr1 .cx),
  (c32, [0x0F, 0x24, 0xF3], .movRTr .bx .tr6),
  (c16, [0x0F, 0x26, 0xFB], .movTrR .tr7 .bx),
  (c32, [0x9B], .wait),
  (c16, [0xDD, 0x8D, 0x01, 0x80], .esc 5 1 (.mem (.m16 .di (.d16 0x8001))))] := by
  decide

/-- Words of flag control, from the encodings of its opcode table rows. -/
theorem test_decode_flag_control : Decodes [
  (c32, [0xF8], .clc),
  (c16, [0xFC], .cld),
  (c32, [0xFA], .cli),
  (c16, [0xF5], .cmc),
  (c32, [0x9F], .lahf),
  (c16, [0x9D], .popf),
  (c32, [0x9C], .pushf),
  (c16, [0x9E], .sahf),
  (c32, [0xF9], .stc),
  (c16, [0xFD], .std),
  (c32, [0xFB], .sti),
  (c16, [0x0F, 0x06], .clts)] := by
  decide

/-- Words of arithmetic, from the encodings of its opcode table rows. -/
theorem test_decode_arithmetic_1 : Decodes [
  (c32, [0x03, 0xEE], .addRmR true true .bp (.reg .si)),
  (c16, [0x04, 0x9E], .addAlImm 0x9E),
  (c32, [0x05, 0x90, 0x5A, 0xDE, 0xF0], .addEaxImm 0xF0DE5A90),
  (c16, [0x80, 0x46, 0xFE, 0xA5], .addRm8Imm (.mem (.m16 .bp (.d8 0xFE))) 0xA5),
  (c32, [0x81, 0x44, 0xB4, 0x04, 0x9A, 0x5A, 0xDE, 0xF0], .addRmImm (.mem (.sib 2 .si .sp (.d8 4))) 0xF0DE5A9A),
  (c16, [0x83, 0x00, 0xAE], .addRmImm8s (.mem (.m16 .bxsi .none)) 0xAE),
  (c32, [0x13, 0xEE], .adcRmR true true .bp (.reg .si)),
  (c16, [0x14, 0xD6], .adcAlImm 0xD6),
  (c32, [0x15, 0xC8, 0x5A, 0xDE, 0xF0], .adcEaxImm 0xF0DE5AC8),
  (c16, [0x80, 0x16, 0x34, 0x12, 0xDD], .adcRm8Imm (.mem (.abs16 0x1234)) 0xDD),
  (c32, [0x81, 0x54, 0xB4, 0x04, 0xD2, 0x5A, 0xDE, 0xF0], .adcRmImm (.mem (.sib 2 .si .sp (.d8 4))) 0xF0DE5AD2),
  (c16, [0x83, 0x56, 0xFE, 0xE6], .adcRmImm8s (.mem (.m16 .bp (.d8 0xFE))) 0xE6),
  (c32, [0x1B, 0xEE], .sbbRmR true true .bp (.reg .si)),
  (c16, [0x1C, 0x82], .sbbAlImm 0x82),
  (c32, [0x1D, 0xE4, 0x5A, 0xDE, 0xF0], .sbbEaxImm 0xF0DE5AE4),
  (c16, [0x80, 0x18, 0x89], .sbbRm8Imm (.mem (.m16 .bxsi .none)) 0x89),
  (c32, [0x81, 0x5C, 0xB4, 0x04, 0xEE, 0x5A, 0xDE, 0xF0], .sbbRmImm (.mem (.sib 2 .si .sp (.d8 4))) 0xF0DE5AEE),
  (c16, [0x83, 0xD9, 0x92], .sbbRmImm8s (.reg .cx) 0x92),
  (c32, [0x2B, 0xEE], .subRmR true true .bp (.reg .si)),
  (c16, [0x2C, 0xBA], .subAlImm 0xBA),
  (c32, [0x2D, 0x1D, 0x5A, 0xDE, 0xF0], .subEaxImm 0xF0DE5A1D),
  (c16, [0x80, 0x6E, 0xFE, 0xC1], .subRm8Imm (.mem (.m16 .bp (.d8 0xFE))) 0xC1),
  (c32, [0x81, 0x6C, 0xB4, 0x04, 0x27, 0x5A, 0xDE, 0xF0], .subRmImm (.mem (.sib 2 .si .sp (.d8 4))) 0xF0DE5A27),
  (c16, [0x83, 0x28, 0xCA], .subRmImm8s (.mem (.m16 .bxsi .none)) 0xCA)] := by
  decide

/-- Words of arithmetic, from the encodings of its opcode table rows. -/
theorem test_decode_arithmetic_2 : Decodes [
  (c32, [0x3B, 0xEE], .cmpRmR true true .bp (.reg .si)),
  (c16, [0x3C, 0x82], .cmpAlImm 0x82),
  (c32, [0x3D, 0x55, 0x5A, 0xDE, 0xF0], .cmpEaxImm 0xF0DE5A55),
  (c16, [0x80, 0x3E, 0x34, 0x12, 0x89], .cmpRm8Imm (.mem (.abs16 0x1234)) 0x89),
  (c32, [0x81, 0x7C, 0xB4, 0x04, 0x5F, 0x5A, 0xDE, 0xF0], .cmpRmImm (.mem (.sib 2 .si .sp (.d8 4))) 0xF0DE5A5F),
  (c16, [0x83, 0x7E, 0xFE, 0x92], .cmpRmImm8s (.mem (.m16 .bp (.d8 0xFE))) 0x92),
  (c32, [0xFF, 0x45, 0x08], .incRm true (.mem (.m32 .bp (.d8 8)))),
  (c16, [0x45], .incR .bp),
  (c32, [0xFE, 0x4D, 0x08], .decRm false (.mem (.m32 .bp (.d8 8)))),
  (c16, [0x4D], .decR .bp),
  (c32, [0xF7, 0x5D, 0x08], .negRm true (.mem (.m32 .bp (.d8 8)))),
  (c16, [0x37], .aaa),
  (c32, [0x3F], .aas),
  (c16, [0x27], .daa),
  (c32, [0x2F], .das),
  (c16, [0xD4, 0xA7], .aam 0xA7),
  (c32, [0xD5, 0xAA], .aad 0xAA),
  (c16, [0xF6, 0x66, 0xFE], .mulRm false (.mem (.m16 .bp (.d8 0xFE)))),
  (c32, [0xF7, 0x6D, 0x08], .imulRm true (.mem (.m32 .bp (.d8 8)))),
  (c16, [0x0F, 0xAF, 0x6E, 0xFE], .imulRRm .bp (.mem (.m16 .bp (.d8 0xFE)))),
  (c32, [0x69, 0x5C, 0xB4, 0x04, 0x90, 0x5A, 0xDE, 0xF0], .imulRRmImm .bx (.mem (.sib 2 .si .sp (.d8 4))) 0xF0DE5A90),
  (c16, [0x6B, 0x1E, 0x34, 0x12, 0xC6], .imulRRmImm8 .bx (.mem (.abs16 0x1234)) 0xC6),
  (c32, [0xF6, 0x74, 0xB4, 0x04], .divRm false (.mem (.sib 2 .si .sp (.d8 4)))),
  (c16, [0xF7, 0xF9], .idivRm true (.reg .cx))] := by
  decide

/-- Words of arithmetic, from the encodings of its opcode table rows. -/
theorem test_decode_arithmetic_3 : Decodes [
  (c16, [0x98], .cbw),
  (c32, [0x98], .cwde),
  (c16, [0x99], .cwd),
  (c32, [0x99], .cdq)] := by
  decide

/-- Words of logic shift, from the encodings of its opcode table rows. -/
theorem test_decode_logic_shift_1 : Decodes [
  (c32, [0x0B, 0xEE], .orRmR true true .bp (.reg .si)),
  (c16, [0x0C, 0xBA], .orAlImm 0xBA),
  (c32, [0x0D, 0xAC, 0x5A, 0xDE, 0xF0], .orEaxImm 0xF0DE5AAC),
  (c16, [0x80, 0xC9, 0xC1], .orRm8Imm (.reg .cx) 0xC1),
  (c32, [0x81, 0x4C, 0xB4, 0x04, 0xB6, 0x5A, 0xDE, 0xF0], .orRmImm (.mem (.sib 2 .si .sp (.d8 4))) 0xF0DE5AB6),
  (c16, [0x83, 0x8D, 0x01, 0x80, 0xCA], .orRmImm8s (.mem (.m16 .di (.d16 0x8001))) 0xCA),
  (c32, [0x23, 0xEE], .andRmR true true .bp (.reg .si)),
  (c16, [0x24, 0x9E], .andAlImm 0x9E),
  (c32, [0x25, 0x01, 0x5A, 0xDE, 0xF0], .andEaxImm 0xF0DE5A01),
  (c16, [0x80, 0xA5, 0x01, 0x80, 0xA5], .andRm8Imm (.mem (.m16 .di (.d16 0x8001))) 0xA5),
  (c32, [0x81, 0x64, 0xB4, 0x04, 0x0B, 0x5A, 0xDE, 0xF0], .andRmImm (.mem (.sib 2 .si .sp (.d8 4))) 0xF0DE5A0B),
  (c16, [0x83, 0x26, 0x34, 0x12, 0xAE], .andRmImm8s (.mem (.abs16 0x1234)) 0xAE),
  (c32, [0x33, 0xEE], .xorRmR true true .bp (.reg .si)),
  (c16, [0x34, 0xD6], .xorAlImm 0xD6),
  (c32, [0x35, 0x39, 0x5A, 0xDE, 0xF0], .xorEaxImm 0xF0DE5A39),
  (c16, [0x80, 0xF1, 0xDD], .xorRm8Imm (.reg .cx) 0xDD),
  (c32, [0x81, 0x74, 0xB4, 0x04, 0x43, 0x5A, 0xDE, 0xF0], .xorRmImm (.mem (.sib 2 .si .sp (.d8 4))) 0xF0DE5A43),
  (c16, [0x83, 0xB5, 0x01, 0x80, 0xE6], .xorRmImm8s (.mem (.m16 .di (.d16 0x8001))) 0xE6),
  (c32, [0xA8, 0xD1], .testAlImm 0xD1),
  (c16, [0xA9, 0xA5, 0x9A], .testEaxImm 0x9AA5),
  (c32, [0xF6, 0x45, 0x08, 0xD8], .testRm8Imm (.mem (.m32 .bp (.d8 8))) 0xD8),
  (c16, [0xF7, 0x46, 0xFE, 0xAE, 0x9A], .testRmImm (.mem (.m16 .bp (.d8 0xFE))) 0x9AAE),
  (c32, [0x85, 0x4D, 0x08], .testRmR true .cx (.mem (.m32 .bp (.d8 8)))),
  (c16, [0xF6, 0x10], .notRm false (.mem (.m16 .bxsi .none)))] := by
  decide

/-- Words of logic shift, from the encodings of its opcode table rows. -/
theorem test_decode_logic_shift_2 : Decodes [
  (c32, [0xD1, 0x44, 0xB4, 0x04], .rolRm1 true (.mem (.sib 2 .si .sp (.d8 4)))),
  (c16, [0xD2, 0xC1], .rolRmCl false (.reg .cx)),
  (c32, [0xC0, 0xC6, 0x89], .rolRmImm false (.reg .si) 0x89),
  (c16, [0xD1, 0x4E, 0xFE], .rorRm1 true (.mem (.m16 .bp (.d8 0xFE)))),
  (c32, [0xD2, 0x4C, 0xB4, 0x04], .rorRmCl false (.mem (.sib 2 .si .sp (.d8 4)))),
  (c16, [0xC1, 0x08, 0x99], .rorRmImm true (.mem (.m16 .bxsi .none)) 0x99),
  (c32, [0xD0, 0x55, 0x08], .rclRm1 false (.mem (.m32 .bp (.d8 8)))),
  (c16, [0xD2, 0x16, 0x34, 0x12], .rclRmCl false (.mem (.abs16 0x1234))),
  (c32, [0xC1, 0x54, 0xB4, 0x04, 0xAA], .rclRmImm true (.mem (.sib 2 .si .sp (.d8 4))) 0xAA),
  (c16, [0xD0, 0x9D, 0x01, 0x80], .rcrRm1 false (.mem (.m16 .di (.d16 0x8001)))),
  (c32, [0xD3, 0x5D, 0x08], .rcrRmCl true (.mem (.m32 .bp (.d8 8)))),
  (c16, [0xC1, 0x9D, 0x01, 0x80, 0xBA], .rcrRmImm true (.mem (.m16 .di (.d16 0x8001))) 0xBA),
  (c32, [0xD0, 0xE6], .shlRm1 false (.reg .si)),
  (c16, [0xD3, 0xE1], .shlRmCl true (.reg .cx)),
  (c32, [0xC0, 0x65, 0x08, 0xCA], .shlRmImm false (.mem (.m32 .bp (.d8 8))) 0xCA),
  (c16, [0xD1, 0x6E, 0xFE], .shrRm1 true (.mem (.m16 .bp (.d8 0xFE)))),
  (c32, [0xD3, 0xEE], .shrRmCl true (.reg .si)),
  (c16, [0xC0, 0x28, 0xDB], .shrRmImm false (.mem (.m16 .bxsi .none)) 0xDB),
  (c32, [0xD1, 0x7C, 0xB4, 0x04], .sarRm1 true (.mem (.sib 2 .si .sp (.d8 4)))),
  (c16, [0xD2, 0x3E, 0x34, 0x12], .sarRmCl false (.mem (.abs16 0x1234))),
  (c32, [0xC0, 0xFE, 0xEB], .sarRmImm false (.reg .si) 0xEB),
  (c16, [0x0F, 0xA4, 0xE9, 0x82], .shldImm .bp (.reg .cx) 0x82),
  (c32, [0x0F, 0xA5, 0xEE], .shldCl .bp (.reg .si)),
  (c16, [0x0F, 0xAC, 0x18, 0x8E], .shrdImm .bx (.mem (.m16 .bxsi .none)) 0x8E)] := by
  decide

/-- Words of logic shift, from the encodings of its opcode table rows. -/
theorem test_decode_logic_shift_3 : Decodes [
  (c32, [0x0F, 0xAD, 0x5C, 0xB4, 0x04], .shrdCl .bx (.mem (.sib 2 .si .sp (.d8 4))))] := by
  decide

/-- Words of string rep, from the encodings of its opcode table rows. -/
theorem test_decode_string_rep : Decodes [
  (c16, [0xA5], .movs true),
  (c32, [0xA7], .cmps true),
  (c16, [0xAF], .scas true),
  (c32, [0xAA], .stos false),
  (c16, [0xAC], .lods false),
  (c32, [0x6C], .ins false),
  (c16, [0x6F], .outs true),
  (c32, [0xD7], .xlat)] := by
  decide

/-- Words of bit, from the encodings of its opcode table rows. -/
theorem test_decode_bit : Decodes [
  (c16, [0x0F, 0xBA, 0x66, 0xFE, 0xA7], .btImm (.mem (.m16 .bp (.d8 0xFE))) 0xA7),
  (c32, [0x0F, 0xBA, 0xEE, 0xAC], .btsImm (.reg .si) 0xAC),
  (c16, [0x0F, 0xBA, 0x30, 0xB1], .btrImm (.mem (.m16 .bxsi .none)) 0xB1),
  (c32, [0x0F, 0xBA, 0x7D, 0x08, 0xB5], .btcImm (.mem (.m32 .bp (.d8 8))) 0xB5),
  (c16, [0x0F, 0xA3, 0x0E, 0x34, 0x12], .btR .cx (.mem (.abs16 0x1234))),
  (c32, [0x0F, 0xAB, 0xEE], .btsR .bp (.reg .si)),
  (c16, [0x0F, 0xB3, 0x5E, 0xFE], .btrR .bx (.mem (.m16 .bp (.d8 0xFE)))),
  (c32, [0x0F, 0xBB, 0x4D, 0x08], .btcR .cx (.mem (.m32 .bp (.d8 8)))),
  (c16, [0x0F, 0xBC, 0x6E, 0xFE], .bsf .bp (.mem (.m16 .bp (.d8 0xFE)))),
  (c32, [0x0F, 0xBD, 0x5C, 0xB4, 0x04], .bsr .bx (.mem (.sib 2 .si .sp (.d8 4))))] := by
  decide

/-- Words of control transfer, from the encodings of its opcode table rows. -/
theorem test_decode_control_transfer : Decodes [
  (c16, [0xEB, 0xD4], .jmpRel8 0xD4),
  (c32, [0xE9, 0x88, 0x5A, 0xDE, 0xF0], .jmpRel 0xF0DE5A88),
  (c16, [0xFF, 0x26, 0x34, 0x12], .jmpRm (.mem (.abs16 0x1234))),
  (c32, [0xEA, 0x8D, 0x5A, 0xDE, 0xF0, 0x2F, 0xC2], .jmpFar 0xF0DE5A8D 0xC22F),
  (c16, [0xFF, 0xAD, 0x01, 0x80], .jmpMemFar (.m16 .di (.d16 0x8001))),
  (c32, [0xE8, 0x94, 0x5A, 0xDE, 0xF0], .callRel 0xF0DE5A94),
  (c16, [0xFF, 0xD1], .callRm (.reg .cx)),
  (c32, [0x9A, 0x98, 0x5A, 0xDE, 0xF0, 0x3B, 0xC2], .callFar 0xF0DE5A98 0xC23B),
  (c16, [0xFF, 0x9D, 0x01, 0x80], .callMemFar (.m16 .di (.d16 0x8001))),
  (c16, [0xC3], .retNear),
  (c32, [0xC2, 0x42, 0xC2], .retNearImm 0xC242),
  (c16, [0xCB], .retFar),
  (c32, [0xCA, 0x44, 0xC2], .retFarImm 0xC244),
  (c16, [0x72, 0x87], .jccRel8 .b 0x87),
  (c32, [0x0F, 0x87, 0xAD, 0x5A, 0xDE, 0xF0], .jccRel .nbe 0xF0DE5AAD),
  (c16, [0xE3, 0x8E], .jcxz 0x8E),
  (c32, [0xE2, 0x90], .loop 0x90),
  (c16, [0xE1, 0x92], .loope 0x92),
  (c32, [0xE0, 0x95], .loopne 0x95),
  (c16, [0x0F, 0x96, 0x46, 0xFE], .setcc .be (.mem (.m16 .bp (.d8 0xFE)))),
  (c32, [0xC8, 0x5E, 0xC2, 0x9E], .enter 0xC25E 0x9E),
  (c16, [0xC9], .leave)] := by
  decide

/-- Words of interrupt, from the encodings of its opcode table rows. -/
theorem test_decode_interrupt : Decodes [
  (c32, [0xCD, 0xA0], .int 0xA0),
  (c16, [0xCC], .int3),
  (c32, [0xCE], .into),
  (c16, [0x62, 0x4E, 0xFE], .bound .cx (.m16 .bp (.d8 0xFE))),
  (c32, [0xCF], .iret)] := by
  decide

/-- Words of protection control, from the encodings of its opcode table rows. -/
theorem test_decode_protection_control : Decodes [
  (c32, [0x63, 0xEE], .arpl .bp (.reg .si)),
  (c16, [0x0F, 0x02, 0x1E, 0x34, 0x12], .lar .bx (.mem (.abs16 0x1234))),
  (c32, [0x0F, 0x03, 0x4D, 0x08], .lsl .cx (.mem (.m32 .bp (.d8 8)))),
  (c16, [0x0F, 0x00, 0xC1], .sldt (.reg .cx)),
  (c32, [0x0F, 0x00, 0xCE], .str (.reg .si)),
  (c16, [0x0F, 0x00, 0xD1], .lldt (.reg .cx)),
  (c32, [0x0F, 0x00, 0x5C, 0xB4, 0x04], .ltr (.mem (.sib 2 .si .sp (.d8 4)))),
  (c16, [0x0F, 0x00, 0xE1], .verr (.reg .cx)),
  (c32, [0x0F, 0x00, 0x6D, 0x08], .verw (.mem (.m32 .bp (.d8 8)))),
  (c16, [0x0F, 0x01, 0x06, 0x34, 0x12], .sgdt (.abs16 0x1234)),
  (c32, [0x0F, 0x01, 0x4C, 0xB4, 0x04], .sidt (.sib 2 .si .sp (.d8 4))),
  (c16, [0x0F, 0x01, 0x95, 0x01, 0x80], .lgdt (.m16 .di (.d16 0x8001))),
  (c32, [0x0F, 0x01, 0x5D, 0x08], .lidt (.m32 .bp (.d8 8))),
  (c16, [0x0F, 0x01, 0xA5, 0x01, 0x80], .smsw (.mem (.m16 .di (.d16 0x8001)))),
  (c32, [0x0F, 0x01, 0x75, 0x08], .lmsw (.mem (.m32 .bp (.d8 8))))] := by
  decide

/-! ## Hypotheses met -/

/-- With the memory map of reset every address is RAM. -/
theorem allRam_of_empty {s : State} (h : s.params.memMap = []) (ps : List Word) : AllRam s ps := by
  intro a _
  rw [h]
  rfl

theorem storable_of_empty {s : State} (h : s.params.memMap = []) (hm : s.memOk = true) (ps : List Word) : Storable s ps :=
  ⟨hm, allRam_of_empty h ps⟩

theorem allStorable_of_empty {s : State} (h : s.params.memMap = []) (hm : s.memOk = true) (l : List (List Word × Word)) :
    AllStorable s l :=
  ⟨hm, fun p _ => allRam_of_empty h p.1⟩

theorem prot_memOk : prot.memOk = true := by decide +kernel

theorem tasked_memOk : (taskedRam prot3).memOk = true := by decide +kernel

theorem tasked_memOk' : (taskedRam prot).memOk = true := by decide +kernel

/-- The other task with a null SS. -/
def noStack : State := { tasked prot with mem := Memory.write (tasked prot).mem 0x6150 0 }

theorem test_witness_stepKeeps : ∃ t, (real [0x90]).memOk = true ∧ (real [0x90]).modeOk = true ∧ step (real [0x90]) = .next t :=
  ⟨_, by decide, by decide, rfl⟩

theorem test_witness_decodeEncode :
    WellFormed c16 (.movRImm .di 0xFFFF) = true ∧ WellFormed c32 (.movRImm .di 0xFFFFFFFF) = true ∧
    WellFormed c16 (.lea .ax (.m16 .bp (.d8 0xFF))) = true ∧ WellFormed c32 (.lea .ax (.sib 3 .di .sp (.d32 0xFFFFFFFF))) = true ∧
    WellFormed c32 (.lea .ax (.sibAbs 0 .sp 0)) = true := by decide

theorem test_witness_stepRunsDecoded : (real [0x90]).clear ∧ (real [0x90]).queueClean ∧
    decode ((real [0x90]).beginInstr.ctx false) [0x90] = .ok .nop [] ∧
    FetchesBytes (real [0x90]).beginInstr (real [0x90]).eip.toNat [0x90] :=
  ⟨⟨⟨rfl, rfl, rfl, rfl, rfl, .inl rfl⟩, rfl, rfl⟩, ⟨rfl, rfl, rfl⟩, rfl, rfl, nofun, fun _ _ => by decide, fun k b h => by
    cases k with
    | zero => cases h; exact ⟨by decide, by decide, .inl (by decide)⟩
    | succ k => cases h⟩

/-- A state after the prefix 66h. -/
def prefixed : State :=
  { real [0x66, 0x90] with
    fetch := { (real []).fetch with start := 0x7000, pfx := { Prefixes.empty with op66 := true, count := 1 } } }

theorem test_witness_stepRunsDecoded_prefix : prefixed.pins.reset = false ∧ prefixed.pend.activity ≠ .shutdown ∧
    prefixed.fetch.pfx.count ≠ 0 ∧ prefixed.queueClean ∧ decode (prefixed.ctx false) [0x90] = .ok .nop [] ∧
    prefixFault .nop (((prefixed.withEip (prefixed.eipAfter 0x7002)).inOwnMode).withHeld
      (some { instr := .nop, pfx := prefixed.fetch.pfx, next := prefixed.eipAfter 0x7002, oldMode := false })) = none ∧
    FetchesBytes prefixed (prefixed.fetch.start.toNat + prefixed.fetch.pfx.count) [0x90] :=
  ⟨rfl, nofun, nofun, ⟨rfl, rfl, rfl⟩, rfl, rfl, rfl, nofun, fun _ _ => by decide, fun k b h => by
    cases k with
    | zero => cases h; exact ⟨by decide, by decide, .inl (by decide)⟩
    | succ k => cases h⟩

/-- A WAIT that waits, with other bytes in memory by now. -/
def holding : State :=
  (real [0x90]).withHeld (some { instr := .wait, pfx := Prefixes.empty, next := 0x7001, oldMode := true })

theorem test_witness_stepRunsDecoded_held : holding.eventless ∧
    (let h : Held := { instr := .wait, pfx := Prefixes.empty, next := 0x7001, oldMode := true }
     holding.fetch.held = some h ∧
     prefixFault .wait ((((holding.beginInstr.withEip h.next).withPfx h.pfx).withOldMode true).withHeld (some h)) = none) :=
  ⟨⟨rfl, rfl, rfl, rfl, rfl, .inl rfl⟩, rfl, rfl⟩

/-- The state after prefixes, before bytes at 7001h. -/
def afterPrefix (p : Prefixes) (bs : List Byte) (f : State → State := id) : State :=
  (f (prefixed.withFetch { prefixed.fetch with pfx := { p with count := 1 } })).placeBytes 0x7001 bs

theorem fetches_one {s : State} {off : Nat} {b : Byte} (h0 : s.pagingOn = false) (h1 : s.protMode = true → s.segs.cs.valid = true)
    (h2 : off + 1 ≤ 0x10000) (h3 : off ≤ s.segs.cs.limit.toNat) (h4 : s.byteAt (s.segs.cs.base + BitVec.ofNat 32 off) = b)
    (h5 : s.params.memMap = []) : FetchesBytes s off [b] :=
  ⟨h0, h1, fun _ _ => h2, fun k x hx => by
    cases k with
    | zero => cases hx; exact ⟨h3, h4, .inl (by rw [h5]; rfl)⟩
    | succ k => cases hx⟩

/-- LOCK and REP before NOP, REP before STOS, LOCK before a form that takes it, with CPL above IOPL and not; a reserved opcode with
and without a prefix. -/
theorem test_witness_prefixesAndReserved :
    (let s := afterPrefix { Prefixes.empty with rep := some .rep } [0x90]
     s.pins.reset = false ∧ s.pend.activity ≠ .shutdown ∧ s.fetch.pfx.count ≠ 0 ∧ s.queueClean ∧ FetchesBytes s 0x7001 [0x90] ∧
     decode (s.ctx false) [0x90] = .ok .nop [] ∧ isPrefix .nop = false ∧ s.fetch.pfx.rep ≠ none ∧ ¬ takesRep .nop) ∧
    (let s := afterPrefix { Prefixes.empty with lock := true } [0x90]
     s.queueClean ∧ FetchesBytes s 0x7001 [0x90] ∧ s.fetch.pfx.lock = true ∧ ¬ takesLock .nop) ∧
    (let s := afterPrefix { Prefixes.empty with rep := some .rep } [0xAA]
     s.queueClean ∧ FetchesBytes s 0x7001 [0xAA] ∧ decode (s.ctx false) [0xAA] = .ok (.stos false) [] ∧ takesRep (.stos false) ∧
     s.fetch.pfx.lock = false) ∧
    (let i : Instr := .notRm false (.mem (.m16 .bxsi .none))
     takesLock i ∧ decode c16 [0xF6, 0x10] = .ok i [] ∧ prot3.params.lockIopl = true ∧ prot3.cr0.pe = true ∧
     prot3.flags.iopl.toNat < prot3.cpl.toNat ∧ State.reset.cr0.pe = false) ∧
    (let s := afterPrefix Prefixes.empty [0xD6]
     FetchesBytes s 0x7001 [0xD6] ∧ decode (s.ctx false) [0xD6] = .bad .reservedOpcode) ∧
    ((real [0xD6]).clear ∧ (real [0xD6]).queueClean ∧ decode ((real [0xD6]).beginInstr.ctx false) [0xD6] = .bad .reservedOpcode ∧
     FetchesBytes (real [0xD6]).beginInstr 0x7000 [0xD6]) :=
  ⟨⟨rfl, nofun, nofun, ⟨rfl, rfl, rfl⟩, fetches_one rfl nofun (by decide) (by decide) rfl rfl, rfl, rfl, nofun,
      by rintro ⟨w, h⟩; simp at h⟩,
    ⟨⟨rfl, rfl, rfl⟩, fetches_one rfl nofun (by decide) (by decide) rfl rfl, rfl, by
      rintro ⟨m, ⟨o, h⟩ | h⟩
      · cases o <;> simp [AluKind.rmR, AluKind.rm8Imm, AluKind.rmImm, AluKind.rmImm8s] at h
      · simp at h⟩,
    ⟨⟨rfl, rfl, rfl⟩, fetches_one rfl nofun (by decide) (by decide) rfl rfl, rfl, ⟨false, by simp⟩, rfl⟩,
    ⟨⟨_, .inr (.inl ⟨_, .inl rfl⟩)⟩, rfl, rfl, rfl, by decide, rfl⟩,
    ⟨fetches_one rfl nofun (by decide) (by decide) rfl rfl, rfl⟩,
    ⟨⟨⟨rfl, rfl, rfl, rfl, rfl, .inl rfl⟩, rfl, rfl⟩, ⟨rfl, rfl, rfl⟩, rfl, fetches_one rfl nofun (by decide) (by decide) rfl rfl⟩⟩

/-- RESET asserted in Protected Mode. -/
def asserted : State := prot.withPins { prot.pins with reset := true }

theorem test_witness_reset : asserted.pins.reset = true := rfl

/-- The operand accesses answer, the last byte of a segment included. -/
theorem test_witness_operandAccess :
    (∃ v u, readRm .b (.mem (.abs16 0xFFFF)) State.reset = .ok (v, u)) ∧
    (∃ p u, placeRm .d (.mem (.abs16 0xFFFC)) State.reset = .ok (p, u)) ∧
    (∃ p v u, modifyRm .w (.mem (.abs16 0)) State.reset = .ok ((p, v), u)) ∧
    (∃ ps u, plan .ss 0 4 true State.reset = .ok (ps, u)) ∧
    (∃ x u, planStack 2 [1] State.reset = .ok (x, u)) ∧
    (∃ v u, stackRead 0 2 State.reset = .ok (v, u)) :=
  ⟨⟨_, _, rfl⟩, ⟨_, _, rfl⟩, ⟨_, _, _, rfl⟩, ⟨_, _, rfl⟩, ⟨_, _, rfl⟩, ⟨_, _, rfl⟩⟩

/-- Data segment registers for the clauses of the segment statement: writable, expand-down, read-only. -/
def withDs (ce rw : Bool) (limit : Word) (valid : Bool) : State :=
  prot.setSeg .ds { flat false 0 0x10 with limit := limit, valid := valid, ar := { (flat false 0 0x10).ar with ce := ce, rw := rw } }

/-- Each clause at its boundary: the last bytes within the limit, the first access past it, the lowest and highest offsets of an
expand-down segment and those just outside, an invalid register, a read-only one. -/
theorem test_witness_segmentedAccess :
    (State.reset.pagingOn = false ∧ State.reset.dregs.dr7.ctl = 0 ∧ 0xFFFC + 4 ≤ (State.reset.seg .ds).limit.toNat + 1) ∧
    (0xFFFD + 4 > (State.reset.seg .ds).limit.toNat + 1) ∧
    ((withDs true true 0xFFF true).protMode = true ∧ ((withDs true true 0xFFF true).seg .ds).limit.toNat < 0x1000 ∧
      0xFFFFFFFC + 4 ≤ 0x100000000 ∧ 0xFFF ≤ ((withDs true true 0xFFF true).seg .ds).limit.toNat ∧
      0x100000000 < 0xFFFFFFFD + 4) ∧
    ((withDs false true 0 false).protMode = true ∧ ((withDs false true 0 false).seg .ds).valid = false) ∧
    ((withDs false false 0xFFFF true).seg .ds).ar.rw = false := by decide

/-- Paging on with the translation of page 401h cached, as the tables have it or not. -/
def cached (frame : BitVec 20) : State :=
  (paged 0x27 0x67).withTlb [{ page := 0x401, frame := frame, user := true, write := true, dirty := true }]

/-- Each clause: directory entry absent, table entry absent, a user write to a read-only and to a supervisor page, an access that may
go on; a cached translation that agrees with the tables, and one that does not. -/
theorem test_witness_pagedTranslation :
    (paged 7 7).pagingOn = true ∧ tlbFind (paged 7 7).tlb 0x401234 true true = none ∧ (paged 7 7).memOk = true ∧
    ((paged 6 7).dwordAt 0x100004).getLsbD 0 = false ∧ (paged 7 7).dwordAt 0x100004 = 0x00101007 ∧
    ((paged 7 6).dwordAt 0x101004).getLsbD 0 = false ∧ (paged 7 5).dwordAt 0x101004 = 0x00200005 ∧
    (paged 7 3).dwordAt 0x101004 = 0x00200003 ∧ (paged 7 7).dwordAt 0x101004 = 0x00200007 ∧
    (cached 0x200).dwordAt 0x100004 = 0x00101027 ∧ (cached 0x200).dwordAt 0x101004 = 0x00200067 ∧
    ((tlbFind (cached 0x200).tlb 0x401234 true true).map TlbEntry.frame) = some 0x200 ∧
    ((tlbFind (cached 0x300).tlb 0x401234 true true).map TlbEntry.frame) = some 0x300 := by decide +kernel

/-- A doubleword that wraps at the top of memory. -/
theorem test_witness_storeThenRead : State.reset.memOk = true ∧ AllRam State.reset (addrsFrom 0xFFFFFFFD 4) :=
  ⟨rfl, allRam_of_empty rfl _⟩

theorem test_witness_movesToRegister :
    (∃ v u, readRm .w (.mem (.abs16 0xFFFE)) State.reset = .ok (v, u)) ∧
    (∃ v u, readAt .d .ds 0xFFFFFFFC prot = .ok (v, u)) ∧
    (∃ (v : Byte) (u : State), readRm .b (.mem (.m16 .bpdi (.d8 0xFF))) State.reset = .ok (v, u)) ∧
    (∃ (v : HWord) (u : State), readRm .w (.reg .di) State.reset = .ok (v, u)) ∧
    (∃ (v : Byte) (u : State), readAt .b (State.reset.segOr .ds)
      (addrTrunc State.reset (State.reset.regs.ebx + (State.reset.reg .b .ax).setWidth 32)) State.reset = .ok (v, u)) :=
  ⟨⟨_, _, rfl⟩, ⟨_, _, rfl⟩, ⟨_, _, rfl⟩, ⟨_, _, rfl⟩, ⟨_, _, rfl⟩⟩

theorem test_witness_registerOnly : State.reset.op32 = false ∧ prot.op32 = true ∧
    undefinedAddress (.sib 0 .sp .ax .none) = false ∧ undefinedAddress (.sib 1 .sp .ax .none) = true := by decide

/-- A write to a register and one to the last word of a segment. -/
theorem test_witness_movesToOperand :
    (∃ p u, placeRm .w (.reg .bx) State.reset = .ok (p, u) ∧ p.ready State.reset) ∧
    (∃ p u, placeRm .w (.mem (.abs16 0xFFFE)) State.reset = .ok (p, u) ∧ p.ready State.reset) ∧
    (∃ ps u, plan (State.reset.segOr .ds) 0xFFFF 1 true State.reset = .ok (ps, u) ∧ Storable State.reset ps) ∧
    (∃ p v u, modifyRm .b (.mem (.abs16 0)) State.reset = .ok ((p, v), u) ∧ p.ready State.reset) :=
  ⟨⟨_, _, rfl, trivial⟩, ⟨_, _, rfl, storable_of_empty rfl rfl _⟩, ⟨_, _, rfl, storable_of_empty rfl rfl _⟩,
    ⟨_, _, _, rfl, storable_of_empty rfl rfl _⟩⟩

theorem test_witness_selectorStores :
    (∃ p u, placeRm .w (.reg .ax) State.reset = .ok (p, u) ∧ p.ready State.reset) ∧ prot.protMode = true ∧ prot.op32 = true ∧
    (∃ p u, placeRm .w (.mem (.abs32 0xFFFFFFFE)) prot = .ok (p, u) ∧ p.ready prot) :=
  ⟨⟨_, _, rfl, trivial⟩, rfl, rfl, ⟨_, _, rfl, storable_of_empty rfl prot_memOk _⟩⟩

/-- SP = 1 shuts down, SP = 0 and SP = 2 push. -/
theorem test_witness_pushAddress :
    (let s := real [] fun s => s.withRegs { s.regs with esp := 1 }
     s.realMode = true ∧ 0 < s.regs.esp.toNat % 65536 ∧ s.regs.esp.toNat % 65536 < 2) ∧
    (∃ ps u, plan .ss 0xFFFE 2 true State.reset = .ok (ps, u)) ∧
    (∃ ps u, plan .ss 0 2 true (real [] fun s => s.withRegs { s.regs with esp := 2 }) = .ok (ps, u)) ∧
    (∃ e, plan .ss 0xFFFF 2 true State.reset = .error e) :=
  ⟨by decide, ⟨_, _, rfl⟩, ⟨_, _, rfl⟩, ⟨_, rfl⟩⟩

theorem test_witness_pushes :
    (∃ stores esp u, planStack State.reset.opWidth.bytes [State.reset.regs.get .sp] State.reset = .ok ((stores, esp), u) ∧
      AllStorable State.reset stores) ∧
    (∃ (x : BitVec prot.opWidth.bits) (u0 : State) (stores : List (List Word × Word)) (esp : Word) (u : State),
      readRm prot.opWidth (.mem (.abs32 0x1000)) prot = .ok (x, u0) ∧
      planStack prot.opWidth.bytes [x.setWidth 32] u0 = .ok ((stores, esp), u) ∧ AllStorable prot stores) ∧
    (State.reset.v86Mode = false ∧ v86.v86Mode = true ∧ v86.flags.iopl ≠ 3) :=
  ⟨⟨_, _, _, rfl, allStorable_of_empty rfl rfl _⟩, ⟨_, _, _, _, _, rfl, rfl, allStorable_of_empty rfl prot_memOk _⟩, by decide⟩

theorem test_witness_pushSegments :
    (State.reset.op32 = false ∧ ∃ stores esp u, planStack 2 [(State.reset.seg .cs).sel.setWidth 32] State.reset =
      .ok ((stores, esp), u) ∧ AllStorable State.reset stores) ∧
    (prot.op32 = true ∧ ∃ w u0 stores esp u, selWord (prot.seg .cs).sel prot = .ok (w, u0) ∧
      planStack 4 [w] u0 = .ok ((stores, esp), u) ∧ AllStorable prot stores) :=
  ⟨⟨rfl, _, _, _, rfl, allStorable_of_empty rfl rfl _⟩, ⟨rfl, _, _, _, _, _, rfl, rfl, allStorable_of_empty rfl prot_memOk _⟩⟩

/-- SP = 0 and the first odd SP that PUSHA takes; POPA over the end of the segment, and over it with a slot that straddles it. -/
theorem test_witness_pushaPopa :
    (∃ stores esp u, planStack 2 [0, 0, 0x300, 0, 0, 0, 0, 0] State.reset = .ok ((stores, esp), u) ∧
      AllStorable State.reset stores) ∧
    (let s := real [] fun s => s.withRegs { s.regs with esp := 17 }
     (s.regs.esp.toNat % 65536 % 2 = 0 ∨ 15 < s.regs.esp.toNat % 65536) ∧
     ∃ stores esp u, planStack 2 [0, 0, 0x300, 0, 17, 0, 0, 0] s = .ok ((stores, esp), u) ∧ AllStorable s stores) ∧
    (let s := real [] fun s => s.withRegs { s.regs with esp := 0xFFF0 }
     ∃ di si bp bx dx cx ax u1 u2 u3 u4 u5 u6 u, stackSlots 2 8 s = .ok ((), s) ∧ stackRead 0 2 s = .ok (di, u1) ∧ stackRead 2 2 u1 = .ok (si, u2) ∧
       stackRead 4 2 u2 = .ok (bp, u3) ∧ stackRead 8 2 u3 = .ok (bx, u4) ∧ stackRead 10 2 u4 = .ok (dx, u5) ∧
       stackRead 12 2 u5 = .ok (cx, u6) ∧ stackRead 14 2 u6 = .ok (ax, u)) ∧
    (let s := real [] fun s => s.withRegs { s.regs with esp := 0xFFF9 }
     slotsLegal s.segs.ss s.protMode s.stack32 2 8 s.regs.esp = false) :=
  ⟨⟨_, _, _, rfl, allStorable_of_empty rfl rfl _⟩, ⟨.inr (by decide), _, _, _, rfl, allStorable_of_empty rfl rfl _⟩,
    ⟨_, _, _, _, _, _, _, _, _, _, _, _, _, _, rfl, rfl, rfl, rfl, rfl, rfl, rfl, rfl⟩, by decide⟩

theorem test_witness_pops :
    (∃ v u, stackRead 0 State.reset.opWidth.bytes State.reset = .ok (v, u) ∧
      ∃ p u', placeRm State.reset.opWidth (.mem (.m16 .bp (.d8 0)))
        (u.withEsp (moveSp State.reset.stack32 State.reset.regs.esp 2)) = .ok (p, u') ∧ p.ready State.reset) ∧
    State.reset.v86Mode = false :=
  ⟨⟨_, _, rfl, _, _, rfl, storable_of_empty rfl rfl _⟩, rfl⟩

theorem test_witness_segmentLoadsReal : State.reset.protMode = false ∧
    (∃ (sel : HWord) (u : State), readRm .w (.mem (.abs16 2)) State.reset = .ok (sel, u)) ∧
    (∃ (v : Word) (u : State), stackRead 0 State.reset.opWidth.bytes State.reset = .ok (v, u)) ∧
    (∃ (sr : Sreg) (off : Word) (v : BitVec State.reset.opWidth.bits) (sel : HWord) (u1 u2 u : State),
      addressOf (.abs16 0xFFFC) State.reset = .ok ((sr, off), u1) ∧
      readAt State.reset.opWidth sr off u1 = .ok (v, u2) ∧ readAt .w sr (off + 2) u2 = .ok (sel, u)) :=
  ⟨rfl, ⟨_, _, rfl⟩, ⟨_, _, rfl⟩, ⟨_, _, _, _, _, _, _, rfl, rfl, rfl⟩⟩

/-- Selectors 3 and 4 bound the null selectors; 5Ch lies beyond the table; 10h data, 20h of another level, 40h not present, 8 code
for SS. -/
theorem test_witness_segmentLoadsProtected : prot.protMode = true ∧ descAddress prot.tables 0x60 = none ∧
    descAddress prot.tables 4 = none ∧
    (∃ d u, fetchDesc 0x10 prot = .ok (some d, u) ∧ d.d1.getLsbD 8 = true ∧ d.isData = true ∧ d.present = true ∧
      d.writableData = true ∧ d.dpl = prot.cpl) ∧
    (∃ d u, fetchDesc 0x10 prot3 = .ok (some d, u) ∧ d.d1.getLsbD 8 = true ∧ d.conforming = false ∧ d.dpl.toNat < 3) ∧
    (∃ d u, fetchDesc 0x40 prot = .ok (some d, u) ∧ d.d1.getLsbD 8 = true ∧ d.present = false ∧ d.writableData = true) ∧
    (∃ d u, fetchDesc 8 prot = .ok (some d, u) ∧ d.d1.getLsbD 8 = true ∧ d.writableData = false ∧ d.readableCode = true) :=
  ⟨rfl, rfl, rfl, ⟨_, _, rfl, rfl, rfl, rfl, rfl, rfl⟩, ⟨_, _, rfl, rfl, rfl, by decide⟩, ⟨_, _, rfl, rfl, rfl, rfl⟩,
    ⟨_, _, rfl, rfl, rfl, rfl⟩⟩

/-- MOV DS, AX with data and with a selector beyond the table; POP SS and LSS from a stack with 10h. -/
theorem test_witness_segmentLoadsProtected_exec :
    (let s := prot.setReg .w .ax 0x10
     ∃ (sel : HWord) (u : State) (g : SegReg) (w : State), readRm .w (.reg .ax) s = .ok (sel, u) ∧ loadSeg .ds sel u = .ok (g, w)) ∧
    (let s := prot.setReg .w .ax 0x60
     ∃ (sel : HWord) (u : State) (e : Exc) (w : State), readRm .w (.reg .ax) s = .ok (sel, u) ∧
       loadSeg .ds sel u = .error (.exc e w) ∧ e.vector ≠ 9) ∧
    (let s : State := { prot with mem := place 0x9000 [0x10, 0, 0, 0, 0x10] prot.mem }
     (∃ (v : Word) (u : State) (g : SegReg) (w : State), stackRead 0 4 s = .ok (v, u) ∧ loadSeg .ss (v.setWidth 16) u = .ok (g, w)) ∧
     ∃ (sr : Sreg) (off : Word) (v : Word) (sel : HWord) (u1 u2 u : State) (g : SegReg) (w : State),
       addressOf (.abs32 0x9000) s = .ok ((sr, off), u1) ∧ readAt .d sr off u1 = .ok (v, u2) ∧
       readAt .w sr (off + 4) u2 = .ok (sel, u) ∧ loadSeg .ss sel u = .ok (g, w)) :=
  ⟨⟨_, _, _, _, rfl, rfl⟩, ⟨_, _, _, _, rfl, rfl, by decide⟩, ⟨_, _, _, _, rfl, rfl⟩, _, _, _, _, _, _, _, _, _, rfl, rfl, rfl, rfl⟩

/-- Port 0 and the last port, in Real Address Mode and in Virtual 8086 Mode with a permission bitmap. -/
theorem test_witness_ports :
    (∃ u, ioCheck 0 1 State.reset = .ok ((), u)) ∧ (∃ u, ioCheck 0xFFFF 1 prot = .ok ((), u)) ∧
    (let s := { v86 with tables := { v86.tables with tr := { sel := 0x30, base := 0x6000, limit := 0xFF, typ := 11 } } }
     ∃ u, ioCheck 8 2 s = .ok ((), u)) :=
  ⟨⟨_, rfl⟩, ⟨_, rfl⟩, ⟨_, rfl⟩⟩

set_option maxRecDepth 4096 in
/-- Virtual 8086 Mode with a permission bitmap at offset 68h: port 7 refused, port 8 granted; the last port of the segment and the first
beyond it; no task state segment at all. -/
theorem test_witness_ioPermission :
    (let s (map : List Byte) : State :=
       { v86 with tables := { v86.tables with tr := { sel := 0x30, base := 0x6000, limit := 0x6A, typ := 11 } },
                  mem := place 0x6066 map v86.mem }
     let bits : List Byte := [0x68, 0, 0x80, 0, 0xFF]
     ¬ ((s bits).realMode = true ∨ ((s bits).protMode = true ∧ (s bits).cpl.toNat ≤ (s bits).flags.iopl.toNat)) ∧
     (∃ u1, sysRead 0x6066 2 (s bits) = .ok ([0x68, 0], u1) ∧ 0x68 + 8 / 8 + 1 ≤ 0x6A ∧ 0x6A < 0x68 + 16 / 8 + 1 ∧
       (∃ u, sysRead 0x6068 2 u1 = .ok ([0x80, 0], u)) ∧ ∃ u, sysRead 0x6069 2 u1 = .ok ([0, 0xFF], u)) ∧
     (∃ u, ioCheck 7 (Width.b.bytes) (s bits) = .error (.exc ⟨13, some 0⟩ u)) ∧ (∃ u, ioCheck 8 1 (s bits) = .ok ((), u)) ∧
     (∃ u, ioCheck 16 1 (s bits) = .error (.exc ⟨13, some 0⟩ u)) ∧ elementRuns (s bits)) ∧
    ((BitVec.getLsbD (0x0080 : HWord) 7 = true) ∧ BitVec.getLsbD (0xFF00 : HWord) 0 = false) ∧
    (v86.tables.tr.typ ≠ 9 ∧ v86.tables.tr.typ ≠ 11) ∧ (State.reset.realMode = true ∧ prot.protMode = true ∧ prot.cpl = 0) :=
  ⟨⟨by decide, ⟨_, rfl, by decide, by decide, ⟨_, rfl⟩, _, rfl⟩, ⟨_, rfl⟩, ⟨_, rfl⟩, ⟨_, rfl⟩, .inl rfl⟩, by decide, by decide,
    by decide⟩

theorem test_witness_interruptFlag : State.reset.realMode = true ∧ State.reset.flags.intf = false ∧ State.reset.cpl = 0 ∧
    prot.cpl.toNat ≤ prot.flags.iopl.toNat ∧ prot3.flags.iopl.toNat < prot3.cpl.toNat := by decide

/-- A register, a memory operand and the last byte of the segment, read and read-modify-written (the statements on ALU, compare,
one-operand, multiply, divide, shift, bit-scan instructions). -/
theorem test_witness_operands :
    (∃ v u, readRm (State.reset.widthOf true) (.reg .dx) State.reset = .ok (v, u)) ∧
    (∃ v u, readRm (State.reset.widthOf false) (.mem (.abs16 0xFFFF)) State.reset = .ok (v, u)) ∧
    (∃ v u, readRm prot.opWidth (.mem (.sib 2 .dx .sp (.d8 0))) prot = .ok (v, u)) ∧
    (∃ p v u, modifyRm (State.reset.widthOf true) (.reg .dx) State.reset = .ok ((p, v), u) ∧ p.ready State.reset) ∧
    (∃ p v u, modifyRm (State.reset.widthOf false) (.mem (.abs16 0xFFFF)) State.reset = .ok ((p, v), u) ∧
      p.ready State.reset) ∧
    (∃ p v u, modifyRm prot.opWidth (.mem (.abs32 0xFFFFFFFC)) prot = .ok ((p, v), u) ∧ p.ready prot) :=
  ⟨⟨_, _, rfl⟩, ⟨_, _, rfl⟩, ⟨_, _, rfl⟩, ⟨_, _, _, rfl, trivial⟩, ⟨_, _, _, rfl, storable_of_empty rfl rfl _⟩,
    ⟨_, _, _, rfl, storable_of_empty rfl prot_memOk _⟩⟩

/-- -5 / 2 = -2, remainder -1; a quotient of 127 fits and of 128 does not, and -128 fits; a divisor of 0. -/
theorem test_witness_divide :
    ((-5 : Int) = -2 * 2 + -1 ∧ ((-1 : Int) = 0 ∨ ((-1 : Int) < 0 ↔ (-5 : Int) < 0))) ∧
    ((255 * 3 + 2 : Nat) = 255 * 3 + 2 ∧ 2 < 3 ∧ 2 ^ Width.b.bits ≤ (256 * 3 : Nat) / 3) ∧
    ((-128 : Int) = (BitVec.ofInt 8 (-128)).toInt ∧ ∀ q : BitVec 8, q.toInt ≠ 128) ∧
    (∃ v u, readRm (State.reset.widthOf false) (.reg .bx) State.reset = .ok (v, u) ∧ v = 0) :=
  ⟨by decide, by decide, ⟨by decide, fun q h => by have := q.toInt_lt; omega⟩, ⟨_, _, rfl, rfl⟩⟩

theorem test_witness_shiftCounts :
    ((1 : Byte).toNat % 32 = 1 ∧ (31 : Byte).toNat % 32 = 31 ∧ (32 : Byte).toNat % 32 = 0 ∧ (0xFF : Byte).toNat % 32 ≠ 0) ∧
    (15 < State.reset.opWidth.bits ∧ State.reset.opWidth.bits ≤ 16 ∧ 31 < prot.opWidth.bits) := by decide

/-- A memory operand and a register that a count of 0 leaves alone. -/
theorem test_witness_inspect :
    (∃ x u1 v u, targetRm (.mem (.abs16 0xFFFE)) State.reset = .ok (x, u1) ∧ inspect .w x u1 = .ok (v, u)) ∧
    (∃ x u1 v u, targetRm (.reg .sp) State.reset = .ok (x, u1) ∧ inspect .w x u1 = .ok (v, u)) :=
  ⟨⟨_, _, _, _, rfl, rfl⟩, ⟨_, _, _, _, rfl, rfl⟩⟩

theorem test_witness_adjusts : (0x0A : Byte) ≠ 0 ∧ (1 : Byte) ≠ 0 ∧ (0xFF : Byte) ≠ 0 := by decide

/-- Real Address Mode with a repeat prefix, eCX = `c`, and index registers at the ends of the segments. -/
def repeated (c : Word) : State :=
  (real [] fun s => s.withRegs { s.regs with ecx := c, esi := 0xFFFF, edi := 0xFFFF }).withPfx
    { Prefixes.empty with rep := some .rep, count := 1 }

theorem test_witness_strings :
    (elementRuns State.reset ∧ elementRuns (repeated 1)) ∧
    (∃ (v : BitVec Width.b.bits) (u1 : State) (ps : List Word) (u : State),
      readAt .b ((repeated 1).segOr .ds) (addrReg (repeated 1) .si) (repeated 1) = .ok (v, u1) ∧
      plan .es (addrReg (repeated 1) .di) 1 true u1 = .ok (ps, u) ∧ Storable (repeated 1) ps) ∧
    (∃ (a : BitVec Width.b.bits) (b : BitVec Width.b.bits) (u1 u : State),
      readAt .b ((repeated 1).segOr .ds) (addrReg (repeated 1) .si) (repeated 1) = .ok (a, u1) ∧
      readAt .b .es (addrReg (repeated 1) .di) u1 = .ok (b, u)) ∧
    (∃ (u1 u : State) (ps : List Word) (v : BitVec Width.b.bits) (u' : State),
      ioCheck ((repeated 1).reg .w .dx).toNat 1 (repeated 1) = .ok ((), u1) ∧
      plan .es (addrReg (repeated 1) .di) 1 true u1 = .ok (ps, u) ∧
      readAt .b ((repeated 1).segOr .ds) (addrReg (repeated 1) .si) u1 = .ok (v, u')) ∧
    ((repeated 0).fetch.pfx.rep.isSome = true ∧ addrReg (repeated 0) .cx = 0 ∧ addrReg (repeated 0x10000) .cx = 0) :=
  ⟨⟨.inl rfl, .inr (by decide)⟩, ⟨_, _, _, _, rfl, rfl, storable_of_empty rfl rfl _⟩, ⟨_, _, _, _, rfl, rfl⟩,
    ⟨_, _, _, _, _, rfl, rfl, rfl⟩, by decide⟩

/-- A bit offset of -1 reaches the word before the operand, one of 16 the next. -/
theorem test_witness_bitTest :
    (∃ (sr : Sreg) (off : Word) (u1 : State), addressOf (.abs16 2) State.reset = .ok ((sr, off), u1) ∧
      (∃ (v : BitVec State.reset.opWidth.bits) (u : State),
        readAt State.reset.opWidth sr (addrTrunc State.reset (off + BitVec.ofInt 32 (2 * (-1)))) u1 = .ok (v, u)) ∧
      ∃ (p : Place) (v : BitVec State.reset.opWidth.bits) (u : State),
        modifyAt State.reset.opWidth sr (addrTrunc State.reset (off + BitVec.ofInt 32 (2 * 1))) u1 = .ok ((p, v), u) ∧
        p.ready State.reset) ∧
    ((-1 : Int) / 16 = -1 ∧ ((-1 : Int) % 16).toNat = 15 ∧ (16 : Int) / 16 = 1) :=
  ⟨⟨_, _, _, rfl, ⟨_, _, rfl⟩, _, _, _, rfl, storable_of_empty rfl rfl _⟩, by decide⟩

/-- The lowest and the highest 1 bit at the ends of an operand. -/
theorem test_witness_bitScan :
    ((0x8000 : HWord).getLsbD 15 = true ∧ ∀ j, j < 15 → (0x8000 : HWord).getLsbD j = false) ∧
    ((1 : HWord).getLsbD 0 = true ∧ ∀ j, 0 < j → (1 : HWord).getLsbD j = false) := by
  refine ⟨by decide, by decide, fun j h => ?_⟩
  by_cases hj : j < 16
  · have all : ∀ k, k < 16 → 0 < k → (1 : HWord).getLsbD k = false := by decide
    exact all j hj h
  · exact BitVec.getLsbD_of_ge _ _ (by omega)

/-- Targets at the limit of CS and one past it; conditions true and false; a count of 1 and of 0. -/
theorem test_witness_jumps :
    (((State.reset.eip + 0x000F) &&& 0xFFFF).toNat ≤ State.reset.segs.cs.limit.toNat) ∧
    (let s := prot.setSeg .cs { flat true 0 8 with limit := 0x7FFF }
     (s.eip + 0xFFF).toNat ≤ s.segs.cs.limit.toNat ∧ s.segs.cs.limit.toNat < (s.eip + 0x1000).toNat) ∧
    (State.reset.flags.cond .e = false ∧ State.reset.flags.cond .ne = true) ∧
    (addrTrunc State.reset (addrReg State.reset .cx - 1) ≠ 0 ∧ addrTrunc (repeated 1) (addrReg (repeated 1) .cx - 1) = 0) ∧
    (∃ (v : BitVec State.reset.opWidth.bits) (u : State), readRm State.reset.opWidth (.reg .dx) State.reset = .ok (v, u) ∧
      v.toNat ≤ State.reset.segs.cs.limit.toNat) ∧
    (∃ stores esp u, planStack State.reset.opWidth.bytes [State.reset.eip] State.reset = .ok ((stores, esp), u) ∧
      AllStorable State.reset stores) ∧
    (∃ t u, stackRead 0 State.reset.opWidth.bytes State.reset = .ok (t, u) ∧ t.toNat ≤ State.reset.segs.cs.limit.toNat) :=
  ⟨by decide, by decide, by decide, by decide, ⟨_, _, rfl, by decide⟩, ⟨_, _, _, rfl, allStorable_of_empty rfl rfl _⟩,
    ⟨_, _, rfl, by decide⟩⟩

/-- With operand size 32 in Real Address Mode the offset may lie above FFFFh. -/
theorem test_witness_farReal :
    (State.reset.protMode = false ∧ (0xFFFF : Word).toNat ≤ 0xFFFF ∧ 0xFFFF < (0x10000 : Word).toNat) ∧
    (∃ w u1 stores esp u, selWord State.reset.segs.cs.sel State.reset = .ok (w, u1) ∧
      planStack State.reset.opWidth.bytes [w, State.reset.eip] u1 = .ok ((stores, esp), u) ∧ AllStorable State.reset stores) ∧
    (∃ (sr : Sreg) (at0 : Word) (v : BitVec State.reset.opWidth.bits) (sel : HWord) (u1 u2 u : State),
      addressOf (.abs16 0xFFFC) State.reset = .ok ((sr, at0), u1) ∧ readAt State.reset.opWidth sr at0 u1 = .ok (v, u2) ∧
      readAt .w sr (at0 + 2) u2 = .ok (sel, u)) ∧
    (∃ ip cs u1 u, stackRead 0 2 State.reset = .ok (ip, u1) ∧ stackRead 2 2 u1 = .ok (cs, u) ∧ ip.toNat ≤ 0xFFFF) :=
  ⟨by decide, ⟨_, _, _, _, _, rfl, rfl, allStorable_of_empty rfl rfl _⟩, ⟨_, _, _, _, _, _, _, rfl, rfl, rfl⟩,
    ⟨_, _, _, _, rfl, rfl, by decide⟩⟩

/-- Code of this level, conforming code of an inner level seen from level 3, code of another level, code not present. -/
theorem test_witness_farProtected : prot.protMode = true ∧ descAddress prot.tables 0x60 = none ∧
    (∃ d u1, fetchDesc 8 prot = .ok (some d, u1) ∧ d.isCode = true ∧ d.conforming = false ∧ d.dpl = prot.cpl ∧
      d.present = true ∧ d.d1.getLsbD 8 = true ∧ (0xFFFFFFFF : Word).toNat ≤ d.limit.toNat ∧
      roomFor prot.segs.ss true prot.stack32 4 2 prot.regs.esp = true ∧ ∃ w u2 stores esp u, selWord prot.segs.cs.sel u1 = .ok (w, u2) ∧
        planStack prot.opWidth.bytes [w, prot.eip] u2 = .ok ((stores, esp), u) ∧ AllStorable prot stores) ∧
    (∃ d u1, fetchDesc 0x58 prot3 = .ok (some d, u1) ∧ d.isCode = true ∧ d.conforming = true ∧ d.dpl.toNat ≤ prot3.cpl.toNat) ∧
    (∃ d u1, fetchDesc 0x18 prot = .ok (some d, u1) ∧ d.isCode = true ∧ d.conforming = false ∧ d.dpl ≠ prot.cpl) ∧
    (∃ d u1, fetchDesc 0x38 prot = .ok (some d, u1) ∧ d.isCode = true ∧ d.present = false ∧ d.dpl = prot.cpl) ∧
    (let s := prot.setSeg .ss { flat false 0 0x10 with limit := 0x8FFA }
     roomFor s.segs.ss true s.stack32 4 2 s.regs.esp = false) ∧ FarForms prot 8 0x4000 (.jmpFar 0x4000 8) (.callFar 0x4000 8) prot ∧
    (∃ u0, FarForms prot 0 0 (.jmpMemFar (.abs32 0x9000)) (.callMemFar (.abs32 0x9000)) u0) :=
  ⟨rfl, rfl, ⟨_, _, rfl, rfl, rfl, rfl, rfl, rfl, by decide, by decide, _, _, _, _, _, rfl, rfl, allStorable_of_empty rfl prot_memOk _⟩,
    ⟨_, _, rfl, rfl, rfl, by decide⟩, ⟨_, _, rfl, rfl, rfl, by decide⟩, ⟨_, _, rfl, rfl, rfl, rfl⟩, by decide,
    .inl ⟨rfl, rfl, rfl⟩, _, .inr ⟨_, _, _, _, _, _, rfl, rfl, rfl, rfl, rfl, rfl⟩⟩

set_option maxRecDepth 4096 in
/-- A far transfer through the call gates at level 3: to the same level, and to level 0 with one parameter. -/
theorem test_witness_callGates :
    (∃ g u1 c u2 w u3 stores esp u, fetchDesc 0x6B (taskedRam prot3) = .ok (some g, u1) ∧ g.isSystem 12 = true ∧
      g.dpl = 3 ∧ g.present = true ∧ 4 ≤ g.gateSel.toNat ∧ fetchDesc g.gateSel u1 = .ok (some c, u2) ∧ c.isCode = true ∧
      c.dpl = prot3.cpl ∧ c.present = true ∧ c.d1.getLsbD 8 = true ∧ g.gateOff.toNat ≤ c.limit.toNat ∧
      roomFor prot3.segs.ss true prot3.stack32 4 2 prot3.regs.esp = true ∧ selWord prot3.segs.cs.sel u2 = .ok (w, u3) ∧
      planStack 4 [w, prot3.eip] u3 = .ok ((stores, esp), u) ∧ AllStorable (taskedRam prot3) stores) ∧
    (∃ g u1 c u2 sp ss u3, fetchDesc 0x63 (taskedRam prot3) = .ok (some g, u1) ∧ g.isSystem 12 = true ∧
      fetchDesc g.gateSel u1 = .ok (some c, u2) ∧ c.isCode = true ∧ c.conforming = false ∧ c.dpl.toNat < prot3.cpl.toNat ∧
      c.present = true ∧ c.d1.getLsbD 8 = true ∧ innerStack c.dpl u2 = .ok ((sp, ss, []), u3) ∧
      (let start := newEsp ss.ar.db prot3.regs.esp sp
       start = 0xA000 ∧ roomFor ss true ss.ar.db 4 (4 + g.gateCount) start = true ∧ g.gateOff.toNat ≤ c.limit.toNat ∧
       ∃ oldSs u4 oldCs u5 link esp1 u6 params esp2 u7 ret esp3 u, selWord prot3.segs.ss.sel u3 = .ok (oldSs, u4) ∧
        selWord prot3.segs.cs.sel u4 = .ok (oldCs, u5) ∧
        planPushes ss ss.ar.db false ⟨12, some 0⟩ 4 start [oldSs, prot3.regs.esp] u5 = .ok ((link, esp1), u6) ∧
        planParams u2 ss g.gateCount esp1 u6 = .ok ((params, esp2), u7) ∧
        planPushes ss ss.ar.db false ⟨12, some 0⟩ 4 esp2 [oldCs, prot3.eip] u7 = .ok ((ret, esp3), u) ∧
        AllStorable (taskedRam prot3) (link ++ ret) ∧ ∀ p ∈ params, AllRam (taskedRam prot3) (p.1 ++ p.2))) ∧
    (∃ g u1 c u2, fetchDesc 0x60 (taskedRam prot) = .ok (some g, u1) ∧ fetchDesc g.gateSel u1 = .ok (some c, u2) ∧
      c.dpl = prot.cpl ∧ (0x18 : HWord) ≠ g.gateSel) :=
  ⟨⟨_, _, _, _, _, _, _, _, _, rfl, rfl, rfl, rfl, by decide +kernel, rfl, rfl, rfl, rfl, rfl, by decide +kernel, by decide, rfl, rfl,
      allStorable_of_empty rfl tasked_memOk _⟩,
    ⟨_, _, _, _, _, _, _, rfl, rfl, rfl, rfl, rfl, by decide +kernel, rfl, rfl, rfl, by decide +kernel, by decide +kernel,
      by decide +kernel, _, _, _, _, _, _, _, _, _, _, _, _, _, rfl, rfl, rfl, rfl, rfl, allStorable_of_empty rfl tasked_memOk _,
      fun _ _ => allRam_of_empty rfl _⟩,
    ⟨_, _, _, _, rfl, rfl, rfl, by decide⟩⟩

/-- A stack at 9000h for a far return: EIP, CS, eight bytes of parameters, ESP, SS. -/
def retStack (cs ss : Byte) (s : State) : State :=
  { s with mem := place 0x9000 [0, 0x40, 0, 0, cs, 0, 0, 0, 1, 0, 0, 0, 2, 0, 0, 0, 0, 0x80, 0, 0, ss, 0, 0, 0] s.mem }

set_option maxRecDepth 4096 in
/-- RET far at level 0 to 08h and, over eight bytes of parameters, to 1Bh with SS 23h; a task state segment that ends below the level 2
stack, one whose level 0 stack is there. -/
theorem test_witness_retFarProtected :
    (∃ csWord u1 d u2 ip u, stackRead 4 4 (retStack 8 0 prot) = .ok (csWord, u1) ∧ csWord.setWidth 16 = (8 : HWord) ∧
      fetchDesc 8 u1 = .ok (some d, u2) ∧ d.isCode = true ∧ d.conforming = false ∧ d.dpl = prot.cpl ∧ d.present = true ∧
      d.d1.getLsbD 8 = true ∧ stackRead 0 4 u2 = .ok (ip, u) ∧ ip.toNat ≤ d.limit.toNat) ∧
    (∃ csWord u1 d u2 ssWord u3 sd u4 ip u5 esp u, stackRead 4 4 (retStack 0x1B 0x23 prot) = .ok (csWord, u1) ∧
      csWord.setWidth 16 = (0x1B : HWord) ∧ stackBlock 24 u1 = .ok ((), u1) ∧ fetchDesc 0x1B u1 = .ok (some d, u2) ∧
      d.isCode = true ∧ d.dpl = 3 ∧ d.present = true ∧ d.d1.getLsbD 8 = true ∧ stackRead 20 4 u2 = .ok (ssWord, u3) ∧
      ssWord.setWidth 16 = (0x23 : HWord) ∧ fetchDesc 0x23 u3 = .ok (some sd, u4) ∧ sd.writableData = true ∧ sd.dpl = 3 ∧
      sd.present = true ∧ sd.d1.getLsbD 8 = true ∧ stackRead 0 4 u4 = .ok (ip, u5) ∧ stackRead 16 4 u5 = .ok (esp, u) ∧
      ip.toNat ≤ d.limit.toNat) ∧
    (let s := prot.withRegs { prot.regs with esp := 0xFFFFFFF0 }
     let small := s.setSeg .ss { flat false 0 0x10 with limit := 0xFFFFFFF9 }
     ∃ u, stackBlock 24 small = .error (.exc ⟨12, some 0⟩ u)) ∧
    ((prot.tables.tr.limit.toNat < 9 + 8 * (2 : BitVec 2).toNat) ∧ 9 + 8 * (0 : BitVec 2).toNat ≤ (tasked prot3).tables.tr.limit.toNat ∧
     ∃ sp u1 u2 d u, sysRead ((tasked prot3).tables.tr.base + 4) 4 (tasked prot3) = .ok (sp, u1) ∧
      sysRead ((tasked prot3).tables.tr.base + 8) 2 u1 = .ok ([0x10, 0], u2) ∧ fetchDesc 0x10 u2 = .ok (some d, u) ∧ d.dpl = 0 ∧
      d.writableData = true ∧ d.present = true ∧ d.d1.getLsbD 8 = true) :=
  ⟨⟨_, _, _, _, _, _, rfl, by decide +kernel, rfl, rfl, rfl, rfl, rfl, rfl, rfl, by decide +kernel⟩,
    ⟨_, _, _, _, _, _, _, _, _, _, _, _, rfl, by decide +kernel, rfl, rfl, rfl, rfl, rfl, rfl, rfl, by decide +kernel, rfl, rfl, rfl, rfl,
      rfl, rfl, rfl, by decide +kernel⟩,
    ⟨_, rfl⟩, by decide, by decide, _, _, _, _, _, rfl, rfl, rfl, rfl, rfl, rfl, rfl⟩

/-- Levels 0, 1, 2 and 31. -/
theorem test_witness_enterLeave :
    (∃ wr esp u, planPush State.reset.segs.ss State.reset.stack32 State.reset.userLevel ⟨12, some 0⟩ State.reset.regs.esp 2
      State.reset = .ok ((wr, esp), u) ∧ Storable State.reset wr) ∧
    (let s := real [] fun s => s.withRegs { s.regs with esp := 0x200, ebp := 0x400 }
     ∃ wr esp u1 display last u2 link final u,
      planPush s.segs.ss s.stack32 s.userLevel ⟨12, some 0⟩ s.regs.esp 2 s = .ok ((wr, esp), u1) ∧
      planDisplay 2 1 s.regs.ebp esp u1 = .ok ((display, last), u2) ∧
      planPush s.segs.ss s.stack32 s.userLevel ⟨12, some 0⟩ last 2 u2 = .ok ((link, final), u) ∧
      Storable s (wr ++ link) ∧ ∀ p ∈ display, AllRam s (p.1 ++ p.2)) ∧
    ((0 : Byte).toNat % 32 = 0 ∧ (32 : Byte).toNat % 32 = 0 ∧ 1 ≤ (1 : Byte).toNat % 32 ∧ 1 ≤ (31 : Byte).toNat % 32) ∧
    (∃ v u, stackRead 0 2 (State.reset.withEsp 0) = .ok (v, u)) :=
  ⟨⟨_, _, _, rfl, storable_of_empty rfl rfl _⟩,
    ⟨_, _, _, _, _, _, _, _, _, rfl, rfl, rfl, storable_of_empty rfl rfl _, fun _ _ => allRam_of_empty rfl _⟩, by decide,
    ⟨_, _, rfl⟩⟩

/-- Vector FFh, the last of the table, and SP = 6 and 0. -/
theorem test_witness_realDelivery :
    (∃ entry stores esp u, RealDelivery State.reset 0xFF State.reset.segs.cs.sel State.reset.eip entry stores esp u) ∧
    (let s := real [] fun s => s.withRegs { s.regs with esp := 6 }
     ∃ entry stores esp u, RealDelivery s 0 s.segs.cs.sel s.eip entry stores esp u) :=
  ⟨⟨_, _, _, _, rfl, rfl, by decide, ⟨_, rfl, rfl⟩, allStorable_of_empty rfl rfl _⟩,
    ⟨_, _, _, _, rfl, rfl, by decide, ⟨_, rfl, rfl⟩, allStorable_of_empty rfl rfl _⟩⟩

/-- BOUND at both bounds and one outside each. -/
theorem test_witness_softwareInterrupts :
    (State.reset.v86Mode = false ∧ State.reset.flags.of = false) ∧
    (∃ (sr : Sreg) (off : Word) (lo hi : BitVec State.reset.opWidth.bits) (u1 u2 u : State),
      addressOf (.abs16 0xFFFC) State.reset = .ok ((sr, off), u1) ∧ readAt State.reset.opWidth sr off u1 = .ok (lo, u2) ∧
      readAt State.reset.opWidth sr (off + 2) u2 = .ok (hi, u) ∧ lo.toInt = 0 ∧ hi.toInt = 0) ∧
    ((State.reset.reg State.reset.opWidth .ax).toInt = 0 ∧ 0 < (State.reset.reg State.reset.opWidth .dx).toInt ∧
      (State.reset.setReg .w .ax 0xFFFF |>.reg .w .ax).toInt < 0) :=
  ⟨by decide, ⟨_, _, _, _, _, _, _, rfl, rfl, rfl, by decide, by decide⟩, by decide⟩

/-- Protected Mode at level 0 with a frame that IRET returns through to 0008:00004000h. -/
def returning : State := { prot with mem := place 0x9000 [0, 0x40, 0, 0, 8, 0, 0, 0, 2, 0, 0, 0] prot.mem }

/-- Virtual 8086 Mode with IOPL 3. -/
def v86Iopl3 : State := v86.mapFlags fun f => { f with iopl := 3 }

theorem test_witness_interruptReturn :
    (let s0 := State.reset.withPins { State.reset.pins with nmiBlocked := false }
     ∃ ip cs fl u1 u2 u, stackBlock 6 s0 = .ok ((), s0) ∧ stackRead 0 2 s0 = .ok (ip, u1) ∧ stackRead 2 2 u1 = .ok (cs, u2) ∧
       stackRead 4 2 u2 = .ok (fl, u) ∧ ip.toNat ≤ 0xFFFF) ∧
    (let s0 := v86Iopl3.withPins { v86Iopl3.pins with nmiBlocked := false }
     v86Iopl3.v86Mode = true ∧ v86Iopl3.flags.iopl = 3 ∧ v86Iopl3.opWidth.bytes = 2 ∧
     ∃ ip cs fl u1 u2 u, stackBlock 6 s0 = .ok ((), s0) ∧ stackRead 0 2 s0 = .ok (ip, u1) ∧ stackRead 2 2 u1 = .ok (cs, u2) ∧
       stackRead 4 2 u2 = .ok (fl, u) ∧ ip.toNat ≤ 0xFFFF) ∧
    (let s0 := returning.withPins { returning.pins with nmiBlocked := false }
     ∃ ip cs fl u1 u2 u d u3, stackBlock 12 s0 = .ok ((), s0) ∧ stackRead 0 4 s0 = .ok (ip, u1) ∧
       stackRead 4 4 u1 = .ok (cs, u2) ∧ stackRead 8 4 u2 = .ok (fl, u) ∧ (Flags.ofWord fl).vm = false ∧
       cs.setWidth 16 = (8 : HWord) ∧ fetchDesc 8 u = .ok (some d, u3) ∧ d.isCode = true ∧ d.conforming = false ∧
       d.dpl = returning.cpl ∧ d.present = true ∧ d.d1.getLsbD 8 = true ∧ ip.toNat ≤ d.limit.toNat) ∧
    (returning.protMode = true ∧ returning.flags.nt = false) :=
  ⟨⟨_, _, _, _, _, _, rfl, rfl, rfl, rfl, by decide⟩, ⟨rfl, rfl, rfl, _, _, _, _, _, _, rfl, rfl, rfl, rfl, by decide +kernel⟩,
    ⟨_, _, _, _, _, _, _, _, rfl, rfl, rfl, rfl, by decide +kernel, by decide +kernel, rfl, by decide +kernel,
      by decide +kernel, by decide +kernel, by decide +kernel, by decide +kernel, by decide +kernel⟩,
    by decide⟩

/-- A stack at 9000h for IRET at level 0: EIP, CS, EFLAGS, ESP, SS and four more. -/
def iretStack (cs ss vm : Byte) : State :=
  { prot with
    mem := place 0x9000 ([0, 0x40, 0, 0, cs, 0, 0, 0, 2, 0, vm, 0, 0, 0x80, 0, 0, ss, 0, 0, 0] ++
      [1, 0, 0, 0, 2, 0, 0, 0, 3, 0, 0, 0, 4, 0, 0, 0]) prot.mem }

set_option maxRecDepth 4096 in
/-- IRET to level 3 and to Virtual 8086 Mode. -/
theorem test_witness_interruptReturnOuter :
    (let s := iretStack 0x1B 0x23 0
     let s0 := s.withPins { s.pins with nmiBlocked := false }
     ∃ ip cs fl u1 u2 u3 d u4 esp u5 ss u6 sd u, s.protMode = true ∧ s.flags.nt = false ∧ stackBlock 12 s0 = .ok ((), s0) ∧
      stackRead 0 4 s0 = .ok (ip, u1) ∧ stackRead 4 4 u1 = .ok (cs, u2) ∧ stackRead 8 4 u2 = .ok (fl, u3) ∧
      (Flags.ofWord fl).vm = false ∧ cs.setWidth 16 = (0x1B : HWord) ∧ fetchDesc 0x1B u3 = .ok (some d, u4) ∧ d.isCode = true ∧
      d.conforming = false ∧ d.dpl = 3 ∧ d.present = true ∧ stackBlock 20 u4 = .ok ((), u4) ∧ stackRead 12 4 u4 = .ok (esp, u5) ∧
      stackRead 16 4 u5 = .ok (ss, u6) ∧ ss.setWidth 16 = (0x23 : HWord) ∧ fetchDesc 0x23 u6 = .ok (some sd, u) ∧
      sd.writableData = true ∧ sd.dpl = 3 ∧ sd.present = true ∧ ip.toNat ≤ d.limit.toNat ∧ d.d1.getLsbD 8 = true ∧
      sd.d1.getLsbD 8 = true) ∧
    (let s := iretStack 0x1B 0x23 2
     let s0 := s.withPins { s.pins with nmiBlocked := false }
     ∃ ip cs fl u1 u2 u3 esp ss es ds fs gs u4 u5 u6 u7 u8 u, s.op32 = true ∧ s.cpl = 0 ∧ stackRead 0 4 s0 = .ok (ip, u1) ∧
      stackRead 4 4 u1 = .ok (cs, u2) ∧ stackRead 8 4 u2 = .ok (fl, u3) ∧ (Flags.ofWord fl).vm = true ∧
      stackBlock 36 u3 = .ok ((), u3) ∧ ip.toNat ≤ 0xFFFF ∧ stackRead 12 4 u3 = .ok (esp, u4) ∧ stackRead 16 4 u4 = .ok (ss, u5) ∧
      stackRead 20 4 u5 = .ok (es, u6) ∧ stackRead 24 4 u6 = .ok (ds, u7) ∧ stackRead 28 4 u7 = .ok (fs, u8) ∧
      stackRead 32 4 u8 = .ok (gs, u)) :=
  ⟨⟨_, _, _, _, _, _, _, _, _, _, _, _, _, _, rfl, rfl, rfl, rfl, rfl, rfl, by decide +kernel, by decide +kernel, rfl, rfl, rfl, rfl,
      rfl, rfl, rfl, rfl, by decide +kernel, rfl, rfl, rfl, rfl, by decide +kernel, rfl, rfl⟩,
    ⟨_, _, _, _, _, _, _, _, _, _, _, _, _, _, _, _, _, _, rfl, rfl, rfl, rfl, rfl, by decide +kernel, rfl, by decide +kernel, rfl, rfl,
      rfl, rfl, rfl, rfl⟩⟩

/-- Both values of PG without PE, and of GD. -/
theorem test_witness_controlDebug : State.reset.cpl = 0 ∧
    ((0x80000000 : Word).getLsbD 31 = true ∧ (0x80000000 : Word).getLsbD 0 = false) ∧
    ¬ ((0x80000001 : Word).getLsbD 31 = true ∧ (0x80000001 : Word).getLsbD 0 = false) ∧ State.reset.dregs.dr7.gd = false ∧
    (State.reset.withDebug { State.reset.dregs with dr7 := { State.reset.dregs.dr7 with gd := true } }).dregs.dr7.gd = true := by
  decide

/-- A platform with no coprocessor, and pins of one that is busy or in error. -/
def noCoproc : State := { State.reset with params := { State.reset.params with coproc := .none } }

/-- A coprocessor present and absent, busy and not, in error and not; an operand of ESC that can be reached, and one whose first byte
cannot. -/
theorem test_witness_hltWaitEsc :
    (State.reset.cpl = 0 ∧ State.reset.cr0.ts = false ∧ State.reset.cr0.em = false ∧ State.reset.params.coproc ≠ .none ∧
      State.reset.pins.busy = false ∧ State.reset.pins.error = false) ∧
    (noCoproc.params.coproc = .none ∧ noCoproc.cr0.ts = false ∧ noCoproc.cr0.em = false) ∧
    (State.reset.withPins { State.reset.pins with busy := true }).pins.busy = true ∧
    (State.reset.withPins { State.reset.pins with error := true }).pins.error = true ∧
    (let s := State.reset.withCr0 { State.reset.cr0 with ts := true, mp := true }
     s.cr0.ts = true ∧ s.cr0.mp = true) ∧
    (∃ sr off u1, addressOf (.abs16 0) State.reset = .ok ((sr, off), u1) ∧
      (State.reset.seg sr).legal State.reset.protMode off 127 true = true ∧
      ∃ ps u, planLinear ((State.reset.seg sr).base + off) 10 true State.reset.userLevel u1 = .ok (ps, u) ∧
        Storable State.reset ps) ∧
    (∃ sr off u1, addressOf (.abs32 0x1000) (withDs false true 0xFFF true) = .ok ((sr, off), u1) ∧
      ((withDs false true 0xFFF true).seg sr).legal true off 1 false = false) :=
  ⟨by decide, by decide, rfl, rfl, by decide, ⟨_, _, _, rfl, by decide, _, _, rfl, storable_of_empty rfl rfl _⟩,
    ⟨_, _, _, rfl, by decide⟩⟩

/-- Selectors 3 and 4; a descriptor that LAR accepts, an LDT that VERR and LSL's data forms do not; RPL 3 against 0. -/
theorem test_witness_selectorChecks : prot.protMode = true ∧ descAddress prot.tables 4 = none ∧
    (∃ (sel : HWord) (u0 : State), readRm .w (.reg .ax) prot = .ok (sel, u0) ∧ sel.toNat < 4) ∧
    (∃ (sel : HWord) (u0 : State), readRm .w (.reg .dx) prot = .ok (sel, u0) ∧ 4 ≤ sel.toNat ∧ descAddress prot.tables sel = none) ∧
    (∃ d u, fetchDesc 8 prot = .ok (some d, u) ∧ d.s = true ∧ d.readableCode = true ∧ d.writableData = false) ∧
    (∃ d u, fetchDesc 0x28 prot = .ok (some d, u) ∧ d.s = false ∧ d.typ = 2 ∧ d.isData = false) ∧
    (∃ d u, fetchDesc 0x10 prot3 = .ok (some d, u) ∧ ¬ prot3.cpl.toNat ≤ d.dpl.toNat ∧ d.conforming = false) ∧
    (∃ (x : Target) (u0 : State) (v : HWord) (u1 : State) (p : Place) (u : State), targetRm (.mem (.abs32 0x9000)) prot = .ok (x, u0) ∧
      inspect .w x u0 = .ok (v, u1) ∧ (v &&& 3).toNat < (3 : HWord).toNat ∧ (0 : HWord).toNat ≤ (v &&& 3).toNat ∧
      placeOf .w x u1 = .ok (p, u) ∧ p.ready prot) :=
  ⟨rfl, rfl, ⟨_, _, rfl, by decide⟩, ⟨_, _, rfl, by decide, rfl⟩, ⟨_, _, rfl, rfl, rfl, rfl⟩, ⟨_, _, rfl, rfl, rfl, rfl⟩,
    ⟨_, _, rfl, by decide, rfl⟩,
    ⟨_, _, _, _, _, _, rfl, rfl, by decide +kernel, by decide, rfl, storable_of_empty rfl prot_memOk _⟩⟩

theorem test_witness_tableRegisters :
    (∃ sr off u1 ps u, addressOf (.abs16 0xFFFA) State.reset = .ok ((sr, off), u1) ∧ plan sr off 6 true u1 = .ok (ps, u) ∧
      Storable State.reset ps) ∧
    (∃ (sr : Sreg) (off : Word) (u1 : State) (b0 b1 b2 b3 b4 b5 : Byte) (u : State),
      addressOf (.abs16 0xFFFA) State.reset = .ok ((sr, off), u1) ∧ memRead sr off 6 u1 = .ok ([b0, b1, b2, b3, b4, b5], u)) ∧
    (prot.cpl = 0 ∧ prot.protMode = true ∧ (4 : HWord).getLsbD 2 = true ∧ (8 : HWord).getLsbD 2 = false) ∧
    (∃ d u, fetchDesc 0x28 prot = .ok (some d, u) ∧ d.isSystem 2 = true ∧ d.present = true) ∧
    (∃ d u, fetchDesc 0x48 prot = .ok (some d, u) ∧ d.isSystem 2 = true ∧ d.present = false) ∧
    (∃ d u, fetchDesc 0x50 prot = .ok (some d, u) ∧ d.isSystem 9 = true ∧ d.present = false) ∧
    (∃ d u1 p u, fetchDesc 0x30 prot = .ok (some d, u1) ∧ d.isSystem 2 = false ∧ d.isSystem 9 = true ∧ d.present = true ∧
      planBusy d.addr u1 = .ok ([p], u) ∧ Storable prot [p]) ∧
    (∃ d u1, fetchDesc 8 prot = .ok (some d, u1) ∧ d.isSystem 2 = false ∧ d.isSystem 1 = false ∧ d.isSystem 9 = false) ∧
    (∃ d u1, fetchDesc 0x88 (tasked prot) = .ok (some d, u1) ∧ d.isSystem 1 = true) ∧
    (descAddress prot.tables 0x60 = none ∧ (0x60 : HWord).getLsbD 2 = false) :=
  ⟨⟨_, _, _, _, _, rfl, rfl, storable_of_empty rfl rfl _⟩, ⟨_, _, _, _, _, _, _, _, _, _, rfl, rfl⟩, by decide,
    ⟨_, _, rfl, rfl, rfl⟩, ⟨_, _, rfl, rfl, rfl⟩, ⟨_, _, rfl, rfl, rfl⟩,
    ⟨_, _, _, _, rfl, rfl, rfl, rfl, rfl, storable_of_empty rfl prot_memOk _⟩, ⟨_, _, rfl, rfl, rfl, rfl⟩, ⟨_, _, rfl, rfl⟩, rfl, rfl⟩

theorem test_witness_privilegeTraps : prot3.cpl ≠ 0 ∧ prot3.protMode = true ∧ prot3.realMode = false ∧
    prot3.flags.iopl.toNat < prot3.cpl.toNat ∧ v86.v86Mode = true ∧ v86.flags.iopl ≠ 3 ∧ v86.protMode = false ∧
    State.reset.protMode = false := by decide

/-- The table of prot with an interrupt gate for vector 13. -/
def gated : State := { prot with mem := place 0x2068 [0, 0x40, 8, 0, 0, 0x8E, 0, 0] prot.mem }

/-- #GP with an error code through an interrupt gate. -/
theorem test_witness_exceptionEntryProtected :
    let ev : Event := { vector := 13, kind := .exception, code := some 0x18, ret := 0x7000, faultRet := 0x7000, rf := true,
                        cs := none }
    ∃ bs u1 c u2 frame u3 stores esp u, gated.protMode = true ∧ sysRead 0x2068 8 gated = .ok (bs, u1) ∧
      13 * 8 + 7 ≤ gated.tables.idtr.limit.toNat ∧
      (let g := Desc.ofBytes 0x2068 bs
       g.s = false ∧ g.typ = 14 ∧ g.present = true ∧ g.gateSel = 8 ∧ g.gateOff = 0x4000) ∧
      fetchDesc 8 u1 = .ok (some c, u2) ∧ c.isCode = true ∧ c.present = true ∧ c.dpl = gated.cpl ∧ c.d1.getLsbD 8 = true ∧
      (0x4000 : Word).toNat ≤ c.limit.toNat ∧ frameTail u2 ev u2 = .ok (frame, u3) ∧
      roomFor gated.segs.ss true gated.stack32 4 frame.length gated.regs.esp = true ∧ gated.fetch.oldMode = false ∧
      planStack 4 frame u3 = .ok ((stores, esp), u) ∧ gated.params.memMap = [] :=
  ⟨_, _, _, _, _, _, _, _, _, rfl, rfl, by decide, by decide +kernel, rfl, by decide +kernel, by decide +kernel,
    by decide +kernel, by decide +kernel, by decide +kernel, rfl, by decide +kernel, rfl, rfl, rfl⟩

set_option maxRecDepth 4096 in
/-- #GP with an error code taken to level 0 from level 3 and from Virtual 8086 Mode. -/
theorem test_witness_innerEntry :
    let ev : Event := { vector := 13, kind := .exception, code := some 0x18, ret := 0x7000, faultRet := 0x7000, rf := true,
                        cs := none }
    ∀ s, s = taskedRam prot3 ∨ s = taskedRam v86 → ∃ bs u1 c u2 sp ss u3 head u4 tail u5 stores esp u,
      s.fetch.oldMode = false ∧ s.cr0.pe = true ∧ 13 * 8 + 7 ≤ s.tables.idtr.limit.toNat ∧ sysRead 0x2068 8 s = .ok (bs, u1) ∧
      (let g := Desc.ofBytes 0x2068 bs
       g.s = false ∧ g.typ = 14 ∧ g.present = true ∧ g.gateSel = 8 ∧ g.gateOff = 0x4000) ∧
      fetchDesc 8 u1 = .ok (some c, u2) ∧ c.isCode = true ∧ c.present = true ∧ c.conforming = false ∧ c.dpl = 0 ∧
      0 < s.cpl.toNat ∧ c.d1.getLsbD 8 = true ∧ innerStack 0 u2 = .ok ((sp, ss, []), u3) ∧ frameHead u2 u3 = .ok (head, u4) ∧
      frameTail u2 ev u4 = .ok (tail, u5) ∧
      roomFor ss true ss.ar.db 4 (head ++ tail).length (newEsp ss.ar.db s.regs.esp sp) = true ∧
      (0x4000 : Word).toNat ≤ c.limit.toNat ∧
      planPushes ss ss.ar.db false ⟨12, some 0⟩ 4 (newEsp ss.ar.db s.regs.esp sp) (head ++ tail) u5 = .ok ((stores, esp), u) ∧
      AllStorable s stores := by
  intro ev s h
  rcases h with rfl | rfl
  · exact ⟨_, _, _, _, _, _, _, _, _, _, _, _, _, _, rfl, rfl, by decide, rfl, by decide +kernel, rfl, by decide +kernel,
      by decide +kernel, by decide +kernel, by decide +kernel, by decide, by decide +kernel, rfl, rfl, rfl, by decide +kernel,
      by decide +kernel, rfl, allStorable_of_empty rfl (by decide +kernel) _⟩
  · exact ⟨_, _, _, _, _, _, _, _, _, _, _, _, _, _, rfl, rfl, by decide, rfl, by decide +kernel, rfl, by decide +kernel,
      by decide +kernel, by decide +kernel, by decide +kernel, by decide, by decide +kernel, rfl, rfl, rfl, by decide +kernel,
      by decide +kernel, rfl, allStorable_of_empty rfl (by decide +kernel) _⟩

/-- Virtual 8086 Mode with the interrupt gate of vector 13 to a selector, the segment 18h with an access byte. -/
def gateTo (sel access : Byte) : State :=
  { v86 with mem := place 0x2068 [0, 0x40, sel, 0, 0, 0x8E, 0, 0] (Memory.write v86.mem 0x101D access) }

/-- #GP taken from Virtual 8086 Mode. -/
def gpEvent : Event :=
  { vector := 13, kind := .exception, code := some 0x18, ret := 0x7000, faultRet := 0x7000, rf := true, cs := none }

set_option maxRecDepth 4096 in
/-- The gate's selector: 3, 60h (the first beyond the table), 10h (data), 38h (not present), 18h with DPL 3 (from Virtual 8086 Mode)
and 58h (conforming). -/
theorem test_witness_gateTarget :
    (∃ bs u1, (gateTo 3 0xFB).fetch.oldMode = false ∧ (gateTo 3 0xFB).cr0.pe = true ∧
      13 * 8 + 7 ≤ (gateTo 3 0xFB).tables.idtr.limit.toNat ∧ sysRead 0x2068 8 (gateTo 3 0xFB) = .ok (bs, u1) ∧
      (let g := Desc.ofBytes 0x2068 bs
       g.s = false ∧ g.typ = 14 ∧ g.present = true ∧ g.gateSel = 3)) ∧
    descAddress (gateTo 0x60 0xFB).tables 0x60 = none ∧
    (∃ c u, fetchDesc 0x10 (gateTo 0x10 0xFB) = .ok (some c, u) ∧ ¬ (c.isCode = true ∧ c.dpl.toNat ≤ (gateTo 0x10 0xFB).cpl.toNat)) ∧
    (∃ c u, fetchDesc 0x38 (gateTo 0x38 0xFB) = .ok (some c, u) ∧ c.isCode = true ∧ c.dpl.toNat ≤ (gateTo 0x38 0xFB).cpl.toNat ∧
      c.present = false) ∧
    (∃ c u, fetchDesc 0x18 (gateTo 0x18 0xFB) = .ok (some c, u) ∧ c.isCode = true ∧ c.dpl.toNat ≤ (gateTo 0x18 0xFB).cpl.toNat ∧
      c.present = true ∧ (gateTo 0x18 0xFB).flags.vm = true ∧ ¬ (c.conforming = false ∧ c.dpl = 0)) ∧
    (∃ c u, fetchDesc 0x58 (gateTo 0x58 0xFB) = .ok (some c, u) ∧ c.isCode = true ∧ c.present = true ∧ c.conforming = true) :=
  ⟨⟨_, _, rfl, rfl, by decide, rfl, by decide +kernel⟩, by decide +kernel, ⟨_, _, rfl, by decide +kernel⟩,
    ⟨_, _, rfl, by decide +kernel, by decide +kernel, by decide +kernel⟩,
    ⟨_, _, rfl, by decide +kernel, by decide +kernel, by decide +kernel, rfl, by decide +kernel⟩,
    ⟨_, _, rfl, by decide +kernel, by decide +kernel, by decide +kernel⟩⟩

/-- From Virtual 8086 Mode a segment of DPL 3 raises #GP(18h), one of DPL 3 that is not present #NP(18h) (R722 before R723). -/
theorem test_v86_entry_checks_presence_first : ([0xFB, 0x7B].map fun access : Byte => match enter gpEvent (gateTo 0x18 access) with
    | .error (.exc e _) => some (e.vector, e.code)
    | _ => none) = [some (13, some 0x18), some (11, some 0x18)] := by decide +kernel

set_option maxRecDepth 4096 in
/-- Every kind of switch to the TSS at 6100h, planned; a limit of 66h; no task yet, as TR is null. -/
theorem test_witness_taskState :
    (let s := taskedRam prot
     s.memOk = true ∧ 4 ≤ s.tables.tr.sel.toNat ∧ ∀ kind, ∃ d u0 save u1 oldBusy u2 newBusy u3 bytes u4 link u5 image u,
      fetchDesc 0x70 s = .ok (some d, u0) ∧ 0x67 ≤ d.limit.toNat ∧
      sysPlan (s.tables.tr.base + 0x20) 64 s = .ok (save, u1) ∧
      (if kind = TaskKind.jmp ∨ kind = .iret then
        planBusy (s.tables.gdtr.base + (s.tables.tr.sel &&& 0xFFF8).setWidth 32) u1 = .ok (oldBusy, u2)
        else oldBusy = [] ∧ u2 = u1) ∧
      (if kind = .iret then newBusy = [] ∧ u3 = u2 else planBusy d.addr u2 = .ok (newBusy, u3)) ∧
      planLinear d.base 104 false false u3 = .ok (bytes, u4) ∧
      (if kind = .call ∨ kind = .int then sysPlan d.base 2 u4 = .ok (link, u5) else link = [] ∧ u5 = u4) ∧
      taskImage s s.segs.cs.sel s.eip s.flags u5 = .ok (image, u) ∧ AllRam s (save ++ bytes ++ oldBusy ++ newBusy ++ link)) ∧
    (∃ d u0, fetchDesc 0x28 prot = .ok (some d, u0) ∧ d.limit.toNat < 0x67) ∧ ¬ 4 ≤ prot.tables.tr.sel.toNat :=
  ⟨⟨tasked_memOk', by decide, fun kind => by
      cases kind <;>
      exact ⟨_, _, _, _, _, _, _, _, _, _, _, _, _, _, rfl, by decide +kernel, rfl, by first | rfl | exact ⟨rfl, rfl⟩,
        by first | rfl | exact ⟨rfl, rfl⟩, rfl, by first | rfl | exact ⟨rfl, rfl⟩, rfl, allRam_of_empty rfl _⟩⟩,
    ⟨_, _, rfl, by decide +kernel⟩, by decide⟩

/-- An entry whose pushed EFLAGS lie over the access byte of the descriptor it loads (the slot of CS, whose upper half is free, in ROM):
the accessed bit is set after the push (R146). -/
theorem test_accessed_after_push : (match take { gpEvent with code := none }
      { gated with
        regs := { gated.regs with esp := 0x1010 }, mem := Memory.write gated.mem 0x100D 0x9A
        params := { gated.params with memMap := [{ base := 0x1008, size := 4, kind := .rom }] } } with
    | .next t => some (t.eip, t.regs.esp, t.byteAt 0x100C, t.byteAt 0x100D)
    | _ => none) = some (0x4000, 0x1004, 2, 1) := by decide +kernel

/-- A state whose segment registers and LDTR hold selectors only, for the checks of a new task. -/
def unchecked (cs ss ds ldt : HWord) : State :=
  { prot with
    segs := { es := SegReg.invalid 0, cs := SegReg.invalid cs, ss := SegReg.invalid ss, ds := SegReg.invalid ds,
              fs := SegReg.invalid 0, gs := SegReg.invalid 0 }
    tables := { prot.tables with ldtr := { sel := ldt, base := 0, limit := 0, valid := false } } }

set_option maxRecDepth 4096 in
/-- Selectors that the checks accept: a present LDT, code, stack and data of level 0; ones they refuse; all of them, and those of a
Virtual 8086 task. -/
theorem test_witness_taskSegments :
    (∃ d u, fetchDesc 0x28 (unchecked 8 0x10 0x10 0x28) = .ok (some d, u) ∧ d.isSystem 2 = true ∧ d.present = true) ∧
    (∃ d u, fetchDesc 0x48 (unchecked 8 0x10 0x10 0x48) = .ok (some d, u) ∧ d.present = false) ∧
    (∃ d u, fetchDesc 8 (unchecked 8 0x10 0x10 0) = .ok (some d, u) ∧ d.isCode = true ∧ d.conforming = false ∧ d.dpl = 0 ∧
      d.present = true ∧ d.d1.getLsbD 8 = true ∧ d.writableData = false) ∧
    (∃ d u, fetchDesc 0x10 (unchecked 8 0x10 0x10 0) = .ok (some d, u) ∧ d.writableData = true ∧ d.dpl = 0 ∧ d.present = true ∧
      d.d1.getLsbD 8 = true ∧ d.isCode = false) ∧
    (∃ y y1 y2 y3 y4 y5 y6, taskLdt (unchecked 8 0x10 0x10 0x28) = .ok ((), y) ∧ y.flags.vm = false ∧ taskCs y = .ok ((), y1) ∧
      taskSs y1 = .ok ((), y2) ∧ taskData .ds y2 = .ok ((), y3) ∧ taskData .es y3 = .ok ((), y4) ∧
      taskData .fs y4 = .ok ((), y5) ∧ taskData .gs y5 = .ok ((), y6)) ∧
    (∃ y, taskLdt ((unchecked 8 0x10 0x10 0).mapFlags fun f => { f with vm := true }) = .ok ((), y) ∧ y.flags.vm = true) :=
  ⟨⟨_, _, rfl, rfl, rfl⟩, ⟨_, _, rfl, rfl⟩, ⟨_, _, rfl, rfl, rfl, rfl, rfl, rfl, rfl⟩, ⟨_, _, rfl, rfl, rfl, rfl, rfl, rfl⟩,
    ⟨_, _, _, _, _, _, _, rfl, rfl, rfl, rfl, rfl, rfl, rfl, rfl⟩, ⟨_, rfl, rfl⟩⟩

/-- What a switch leads to, observed. -/
def switched (tsel : HWord) (kind : TaskKind) (s : State) : Option (Bool × Word × Bool) :=
  match fetchDesc tsel s with
  | .ok (some d, u) =>
    match taskSwitch tsel d kind s.segs.cs.sel s.eip s.flags u with
    | .ok (trap, y) => some (trap, y.eip, decide (y.eip.toNat ≤ y.segs.cs.limit.toNat))
    | .error _ => none
  | _ => none

/-- The other task is busy. -/
def busyOther : State := (tasked prot).placeBytes 0x1075 [0xEB]

set_option maxRecDepth 4096 in
/-- JMP, CALL and an interrupt to the task at 70h, directly and through the task gate at 80h, and IRET back to the busy task; a null SS of
the new task, found after the switch; an 80286 task. -/
theorem test_witness_taskSwitches :
    (∀ kind, kind = TaskKind.jmp ∨ kind = .call ∨ kind = .int → switched 0x70 kind (tasked prot) = some (true, 0x7100, true)) ∧
    switched 0x70 .iret busyOther = some (true, 0x7100, true) ∧
    (∃ d u, fetchDesc 0x70 (tasked prot) = .ok (some d, u) ∧ d.isSystem 9 = true ∧ d.dpl = 3 ∧ d.present = true) ∧
    (∃ d u, fetchDesc 0x80 (tasked prot) = .ok (some d, u) ∧ d.isSystem 5 = true ∧ d.present = true ∧ d.gateSel = 0x70) ∧
    (∃ d u, fetchDesc 0x70 busyOther = .ok (some d, u) ∧ d.isSystem 11 = true ∧ d.present = true) ∧
    (∃ d u, fetchDesc 0x88 (tasked prot) = .ok (some d, u) ∧ d.isSystem 1 = true) ∧
    (∃ u1, sysRead (tasked prot).tables.tr.base 2 ((tasked prot).withPins { prot.pins with nmiBlocked := false }) =
      .ok ([0x70, 0], u1)) ∧
    (∃ d u e y, fetchDesc 0x70 (noStack) = .ok (some d, u) ∧
      taskSwitch 0x70 d .jmp 8 0x7000 noStack.flags u = .error (.late e y) ∧ e.vector = 10) ∧
    (∃ e y, taskSwitch 0x28 { d0 := 0, d1 := 0, addr := 0 } .jmp 8 0 prot.flags prot = .error (.exc e y) ∧ e.vector = 10) :=
  ⟨fun kind h => by rcases h with rfl | rfl | rfl <;> decide +kernel, by decide +kernel, ⟨_, _, rfl, rfl, rfl, rfl⟩,
    ⟨_, _, rfl, rfl, rfl, rfl⟩, ⟨_, _, rfl, rfl, rfl⟩, ⟨_, _, rfl, rfl⟩, ⟨_, rfl⟩, ⟨_, _, _, _, rfl, rfl, rfl⟩, ⟨_, _, rfl, rfl⟩⟩

/-- An IDT too short for its vectors: the delivery of any event raises #GP. -/
def noIdt : State := State.reset.withTables { State.reset.tables with idtr := { base := 0, limit := 0 } }

/-- Contributory after contributory, after a page fault, after a software interrupt, and while the double fault is delivered. -/
theorem test_witness_doubleFault :
    let ev (v : Byte) (kind : EventKind) : Event :=
      { vector := v, kind := kind, code := none, ret := 0, faultRet := 0, rf := false, cs := none }
    (∃ e u, enter (ev 0 .exception) noIdt = .error (.exc e u) ∧ e.vector = 13) ∧
    (∃ e u, enter (ev 14 .exception) noIdt = .error (.exc e u) ∧ e.vector = 13) ∧
    (∃ e u, enter (ev 0x21 .software) noIdt = .error (.exc e u) ∧ e.vector = 13) ∧
    (∃ e u, enter (ev 8 .exception) noIdt = .error (.exc e u) ∧ e.vector = 13) :=
  ⟨⟨_, _, rfl, rfl⟩, ⟨_, _, rfl, rfl⟩, ⟨_, _, rfl, rfl⟩, ⟨_, _, rfl, rfl⟩⟩

theorem test_witness_boundaryOrder :
    (let s := State.reset.withPend { State.reset.pend with bs := true }
     s.pins.reset = false ∧ s.pend.activity ≠ .shutdown ∧ s.fetch.pfx.count = 0 ∧ s.pend.shadow ≠ .movSs) ∧
    (let s := State.reset.withPins { State.reset.pins with nmiPending := true }
     s.pins.nmiPending = true ∧ s.pins.nmiBlocked = false ∧ s.pend.bs = false ∧ s.pend.bt = false ∧ s.pend.hits = 0) ∧
    (let s := (State.reset.withPins { State.reset.pins with nmiPending := true }).withShadow .sti
     s.pins.nmiPending = true ∧ s.pins.nmiBlocked = false ∧ s.pend.shadow ≠ .movSs ∧ s.pend.shadow ≠ .none) ∧
    (let s := ((State.reset.withPins { State.reset.pins with nmiPending := true }).withPend
       { State.reset.pend with bs := true, activity := .halted }).withShadow .movSs
     ¬ ((s.pend.bs = true ∨ s.pend.bt = true ∨ s.pend.hits ≠ 0) ∧ s.pend.shadow ≠ .movSs) ∧ s.pend.activity = .halted ∧
     ¬ (s.pins.nmiPending = true ∧ s.pins.nmiBlocked = false ∧ s.pend.shadow ≠ .movSs) ∧
     ¬ (s.flags.intf = true ∧ s.pend.shadow = .none)) ∧
    (let s := (State.reset.mapFlags fun f => { f with intf := true }).withPins { State.reset.pins with intr := [0x20] }
     s.flags.intf = true ∧ s.pend.shadow = .none ∧ s.pins.intr = [0x20] ∧ s.pins.nmiPending = false) ∧
    (let s := State.reset.withActivity .halted
     s.pins.intr = [] ∧ s.pend.activity = .halted ∧ s.fetch.pfx.count = 0) ∧
    (State.reset.withActivity .shutdown).pend.activity = .shutdown := by decide

/-! ## One step (expected results from 95_test_vectors.md part 2, worked by hand from the rules) -/

/-- General registers of the reset state replaced. -/
def regs (f : Regs → Regs) (s : State) : State := s.withRegs (f s.regs)

/-- The six status flags: OF SF ZF AF PF CF. -/
def status (s : State) : List Bool := [s.flags.of, s.flags.sf, s.flags.zf, s.flags.af, s.flags.pf, s.flags.cf]

theorem test_mov_word_low_byte_first : after (real [0xC7, 0x06, 0, 2, 0x34, 0x12]) (fun t => (t.byteAt 0x200, t.byteAt 0x201)) =
    some (0x34, 0x12) := by decide +kernel
theorem test_mov_ah_keeps_rest : after (real [0xB4, 0xAB] (regs fun r => { r with eax := 0x12345678 })) (·.regs.eax) =
    some 0x1234AB78  := by decide +kernel
theorem test_movsx_byte : after (real [0x0F, 0xBE, 0xC3] (regs fun r => { r with ebx := 0x80, eax := 0x11110000 })) (·.regs.eax) =
    some 0x1111FF80  := by decide +kernel
theorem test_movzx_byte : after (real [0x0F, 0xB6, 0xC3] (regs fun r => { r with ebx := 0x80, eax := 0x11110000 })) (·.regs.eax) =
    some 0x11110080  := by decide +kernel
theorem test_push_wraps : after (real [0x50] (regs fun r => { r with eax := 0x1234 }))
    (fun t => (t.regs.esp, t.byteAt 0xFFFE, t.byteAt 0xFFFF)) = some (0xFFFE, 0x34, 0x12) := by decide +kernel
theorem test_push_at_1_shuts_down : after (real [0x50] (regs fun r => { r with esp := 1 })) (·.pend.activity) = some .shutdown  := by decide +kernel
theorem test_push_sp_pushes_old : after (real [0x54] (regs fun r => { r with esp := 0x100 })) (fun t => (t.byteAt 0xFE, t.byteAt 0xFF)) =
    some (0, 1) := by decide +kernel
theorem test_pusha_stores_old_sp : after (real [0x60] (regs fun r => { r with esp := 0x100 }))
    (fun t => (t.regs.esp, t.byteAt 0xF6, t.byteAt 0xF7, t.byteAt 0xFA)) = some (0xF0, 0, 1, 0) := by decide +kernel
theorem test_xchg_halves : after (real [0x86, 0xE0] (regs fun r => { r with eax := 0x1234 })) (·.regs.eax) = some 0x3412  := by decide +kernel
theorem test_lea_wraps : after (real [0x8D, 0x40, 0xFF]) (·.regs.eax) = some 0xFFFF  := by decide +kernel
theorem test_mov_ds_real : after (real [0x8E, 0xD8] (regs fun r => { r with eax := 0x1234 }))
    (fun t => (t.segs.ds.sel, t.segs.ds.base)) = some (0x1234, 0x12340) := by decide +kernel
theorem test_word_at_limit_traps : after (real [0xA1, 0xFF, 0xFF] (regs fun r => { r with esp := 0x100 }))
    (fun t => (t.regs.esp, t.byteAt 0xFA, t.byteAt 0xFB)) = some (0xFA, 0, 0x70) := by decide +kernel
theorem test_add_overflows : after (real [0x00, 0xD8] (regs fun r => { r with eax := 0x7F, ebx := 1 }))
    (fun t => (t.regs.eax, status t)) = some (0x80, [true, true, false, true, false, false]) := by decide +kernel
theorem test_adc_carries : after (real [0x10, 0xD8] fun s => (regs (fun r => { r with eax := 0xFF }) s).mapFlags fun f => { f with cf := true })
    (fun t => (t.regs.eax, status t)) = some (0, [false, false, true, true, true, true]) := by decide +kernel
theorem test_sub_borrows : after (real [0x28, 0xD8] (regs fun r => { r with eax := 0, ebx := 1 }))
    (fun t => (t.regs.eax, status t)) = some (0xFF, [false, true, false, true, true, true]) := by decide +kernel
theorem test_inc_keeps_cf : after (real [0x40] fun s => (regs (fun r => { r with eax := 0xFFFF }) s).mapFlags fun f => { f with cf := true })
    (fun t => (t.regs.eax, status t)) = some (0, [false, false, true, true, true, true]) := by decide +kernel
theorem test_daa : after (real [0x27] (regs fun r => { r with eax := 0xAE })) (fun t => (t.regs.eax, t.flags.af, t.flags.cf, t.flags.pf)) =
    some (0x14, true, true, true) := by decide +kernel
theorem test_aas_borrows_from_ah : after (real [0x3F] fun s => (regs (fun r => { r with eax := 3 }) s).mapFlags fun f => { f with af := true })
    (fun t => (t.regs.eax, t.flags.cf)) = some (0xFF0D, true) := by decide +kernel
theorem test_aam : after (real [0xD4, 0x0A] (regs fun r => { r with eax := 0xFF })) (·.regs.eax) = some 0x1905  := by decide +kernel
theorem test_imul_signed : after (real [0xF6, 0xEB] (regs fun r => { r with eax := 0xBF, ebx := 2 })) (fun t => (t.regs.eax, t.flags.cf)) =
    some (0xFF7E, true) := by decide +kernel
theorem test_idiv_truncates : after (real [0xF6, 0xFB] (regs fun r => { r with eax := 0xFFF9, ebx := 2 })) (·.regs.eax) =
    some 0xFFFD  := by decide +kernel
theorem test_div_by_0_traps : after (real [0xF6, 0xF3] (regs fun r => { r with eax := 5, esp := 0x100 }))
    (fun t => (t.regs.eax, t.regs.esp, t.byteAt 0xFB)) = some (5, 0xFA, 0x70) := by decide +kernel
theorem test_sar_rounds_down : after (real [0xD0, 0xF8] (regs fun r => { r with eax := 0xFB })) (fun t => (t.regs.eax, t.flags.cf, t.flags.of)) =
    some (0xFD, true, false) := by decide +kernel
theorem test_rcl_through_carry : after (real [0xC0, 0xD0, 4] fun s => (regs (fun r => { r with eax := 0x55 }) s).mapFlags fun f => { f with cf := true })
    (fun t => (t.regs.eax, t.flags.cf)) = some (0x5A, true) := by decide +kernel
theorem test_shl_count_masked : after (real [0xC1, 0xE0, 0x20] fun s => (regs (fun r => { r with eax := 1 }) s).mapFlags fun f => { f with cf := true })
    (fun t => (t.regs.eax, status t)) = some (1, [false, false, false, false, false, true]) := by decide +kernel
theorem test_shrd : after (real [0x0F, 0xAC, 0xD8, 1] (regs fun r => { r with eax := 1, ebx := 1 })) (fun t => (t.regs.eax, t.flags.cf)) =
    some (0x8000, true) := by decide +kernel
theorem test_movs_down : after (real [0xA5] fun s => ((regs (fun r => { r with esi := 0x10, edi := 0x20 }) s).mapFlags
      fun f => { f with df := true }).placeBytes 0x10 [0x41, 0x42])
    (fun t => (t.byteAt 0x20, t.byteAt 0x21, t.regs.esi, t.regs.edi)) = some (0x41, 0x42, 0xE, 0x1E) := by decide +kernel
theorem test_stos_wraps_di : after (real [0xAA] (regs fun r => { r with eax := 0x12, edi := 0xABCDFFFF }))
    (fun t => (t.regs.edi, t.byteAt 0xFFFF)) = some (0xABCD0000, 0x12) := by decide +kernel
theorem test_cmps_flags : after (real [0xA6] fun s => (regs (fun r => { r with esi := 0x10, edi := 0x20 }) s).placeBytes 0x10 [1]
      |>.placeBytes 0x20 [2])
    (fun t => status t) = some [false, true, false, true, true, true]  := by decide +kernel
theorem test_bts_beyond_operand : after (real [0x0F, 0xAB, 0x06, 0, 2] (regs fun r => { r with eax := 0xFFFF }))
    (fun t => (t.byteAt 0x1FF, t.flags.cf)) = some (0x80, false) := by decide +kernel
theorem test_bsr : after (real [0x0F, 0xBD, 0xC3] (regs fun r => { r with ebx := 0x50 })) (fun t => (t.regs.eax, t.flags.zf)) =
    some (6, false) := by decide +kernel
theorem test_jmp_short_back : after (real [0xEB, 0xFE]) (·.eip) = some 0x7000  := by decide +kernel
theorem test_jl_not_taken : after (real [0x7C, 2] fun s => s.mapFlags fun f => { f with sf := true, of := true }) (·.eip) =
    some 0x7002  := by decide +kernel
theorem test_loop_wraps_count : after (real [0xE2, 0xFE]) (fun t => (t.regs.ecx, t.eip)) = some (0xFFFF, 0x7000) := by decide +kernel
theorem test_call_pushes_next : after (real [0xE8, 0x10, 0]) (fun t => (t.eip, t.regs.esp, t.byteAt 0xFFFE, t.byteAt 0xFFFF)) =
    some (0x7013, 0xFFFE, 3, 0x70) := by decide +kernel
theorem test_far_jmp_leaves_window : after (State.reset.placeBytes 0xFFFFFFF0 [0xEA, 0x5B, 0xE0, 0, 0xF0])
    (fun t => (t.segs.cs.base, t.eip)) = some (0xF0000, 0xE05B) := by decide +kernel
theorem test_enter : after (real [0xC8, 8, 0, 0] (regs fun r => { r with esp := 0x100, ebp := 0x200 }))
    (fun t => (t.regs.ebp, t.regs.esp, t.byteAt 0xFF)) = some (0xFE, 0xF6, 2) := by decide +kernel
theorem test_int_real : after (real [0xCD, 0x21] fun s => (regs (fun r => { r with esp := 0x100 }) s).placeBytes 0x84 [0, 2, 0x60, 0])
    (fun t => (t.segs.cs.sel, t.eip, t.regs.esp, t.byteAt 0xFA, t.byteAt 0xFE)) = some (0x60, 0x200, 0xFA, 2, 2) := by decide +kernel
theorem test_sti_shadow : after (real [0xFB]) (fun t => (t.flags.intf, t.pend.shadow)) = some (true, .sti) := by decide +kernel
theorem test_lgdt_drops_top_byte : after (real [0x0F, 0x01, 0x16, 0, 0x10] fun s => s.placeBytes 0x1000 [0x27, 0, 0, 0x20, 1, 0xFF])
    (fun t => (t.tables.gdtr.limit, t.tables.gdtr.base)) = some (0x27, 0x12000) := by decide +kernel
theorem test_lmsw_keeps_pe : after (real [0x0F, 0x01, 0xF0] fun s => s.withCr0 { s.cr0 with pe := true }) (fun t => t.cr0.pe) =
    some true  := by decide +kernel
theorem test_arpl_real_is_invalid : after (real [0x63, 0xC8]) (fun t => (t.regs.esp, t.byteAt 0xFFFB)) = some (0xFFFA, 0x70) := by decide +kernel

/-- An instruction in the flat Protected Mode state. -/
def inProt (bs : List Byte) (f : State → State := id) : State := (f prot).placeBytes 0x7000 bs

theorem test_push_imm8_sign_extends : after (inProt [0x6A, 0xFF]) (fun t => (t.regs.esp, t.byteAt 0x8FFF)) = some (0x8FFC, 0xFF) := by decide +kernel
theorem test_lar_reads_rights : after (inProt [0x0F, 0x02, 0xC3] (regs fun r => { r with ebx := 8 })) (fun t => (t.regs.eax, t.flags.zf)) =
    some (0x00C09B00, true) := by decide +kernel
theorem test_lsl_scales_limit : after (inProt [0x0F, 0x03, 0xC3] (regs fun r => { r with ebx := 8 })) (fun t => (t.regs.eax, t.flags.zf)) =
    some (0xFFFFFFFF, true) := by decide +kernel
theorem test_mov_cr3 : after (inProt [0x0F, 0x22, 0xD8] (regs fun r => { r with eax := 0x00100FFF })) (fun t => (t.cr3, t.tlb)) =
    some (0x100, []) := by decide +kernel
theorem test_hlt_halts : after (inProt [0xF4]) (fun t => (t.pend.activity, t.eip)) = some (.halted, 0x7001) := by decide +kernel
theorem test_ltr_marks_busy : after (inProt [0x0F, 0x00, 0xD8] (regs fun r => { r with eax := 0x30 }))
    (fun t => (t.tables.tr.base, t.byteAt 0x1035)) = some (0x6000, 0x8B) := by decide +kernel
theorem test_gp_through_gate : after ({ gated with regs := { gated.regs with eax := 0x60 } }.placeBytes 0x7000 [0x8E, 0xD8])
    (fun t => (t.eip, t.regs.esp, t.flags.rf)) = some (0x4000, 0x8FF0, false) := by decide +kernel
theorem test_iret_returns : after (returning.placeBytes 0x7000 [0xCF]) (fun t => (t.eip, t.regs.esp, t.segs.cs.sel)) =
    some (0x4000, 0x900C, 8) := by decide +kernel
theorem test_reset_keeps_memory : after asserted (fun t => (t.eip, t.segs.cs.base, t.cr0.pe, t.pins.reset, t.byteAt 0x100D)) =
    some (0xFFF0, 0xFFFF0000, false, false, 0x9B) := by decide +kernel
theorem test_call_gate_to_level_0 : after ({ taskedRam prot3 with eip := 0x7000 }.placeBytes 0x7000 [0x9A, 0, 0, 0, 0, 0x63, 0])
    (fun t => (t.eip, t.cpl, t.segs.cs.sel, t.segs.ss.sel, t.regs.esp)) = some (0x4000, 0, 8, 0x10, 0x9FEC) := by decide +kernel
theorem test_retf_to_level_3 : after ((retStack 0x1B 0x23 prot).placeBytes 0x7000 [0xCA, 8, 0])
    (fun t => (t.eip, t.cpl, t.segs.ss.sel, t.regs.esp, t.segs.ds.valid)) = some (0x4000, 3, 0x23, 0x8008, false) := by decide +kernel
theorem test_iret_to_v86 : after ((iretStack 0x1B 0x23 2).placeBytes 0x7000 [0xCF])
    (fun t => (t.eip, t.cpl, t.v86Mode, t.segs.cs.base, t.segs.gs.sel)) = some (0x4000, 3, true, 0x1B0, 4) := by decide +kernel
theorem test_gp_from_v86 : after ((taskedRam v86).placeBytes 0x7000 [0xF4])
    (fun t => (t.eip, t.cpl, t.flags.vm, t.segs.ss.sel, t.regs.esp, t.segs.ds.sel)) = some (0x4000, 0, false, 0x10, 0x9FD8, 0) := by
  decide +kernel
theorem test_jmp_to_task : after ((tasked prot).placeBytes 0x7000 [0xEA, 0, 0, 0, 0, 0x80, 0])
    (fun t => (t.eip, t.regs.ecx, t.cr0.ts, t.pend.bt, t.byteAt 0x1075)) = some (0x7100, 2, true, true, 0xEB) := by decide +kernel
theorem test_iret_to_task : after ((busyOther.mapFlags fun f => { f with nt := true }).placeBytes 0x7000 [0xCF])
    (fun t => (t.tables.tr.sel, t.flags.nt, t.eip, t.byteAt 0x1075, t.byteAt 0x107D)) = some (0x70, false, 0x7100, 0xEB, 0x89) := by
  decide +kernel
theorem test_rep_stos_over_itself : (match step (real [0xF3, 0xAA] fun s => regs (fun r => { r with ecx := 2, edi := 0x7000 }) s) with
    | .next t => after t (fun t => t.fetch.held.isSome)
    | _ => none) = some true := by decide +kernel
theorem test_fetch_across_64k : after ((real [] fun s => s).withEip 0xFFFF |>.setSeg .cs { SegReg.resetCs with sel := 0, base := 0, limit := 0xFFFFF }
      |>.placeBytes 0xFFFF [0xB0, 5])
    (fun t => (t.eip, t.regs.eax, t.regs.esp, t.byteAt 0xFFFA, t.byteAt 0xFFFB)) = some (0, 0, 0xFFFA, 0xFF, 0xFF) := by
  decide +kernel
theorem test_retf16_carries_into_high_half : after
    ({ prot with regs := { prot.regs with esp := 0x1FFF8 },
                 mem := place 0x1FFF8 [0, 0x40, 0x1B, 0, 0, 0, 0, 0, 0, 0, 0, 0, 0, 0x80, 0x23, 0] prot.mem }.placeBytes 0x7000
      [0xCA, 8, 0] |>.withPfx { Prefixes.empty with op66 := true, count := 1 } |>.withFetch
        { State.reset.fetch with start := 0x6FFF, pfx := { Prefixes.empty with op66 := true, count := 1 } })
    (fun t => (t.eip, t.cpl, t.regs.esp)) = some (0x4000, 3, 0x28008) := by decide +kernel
/-- The frames of IRET (SP = FFFCh) and of RET to an outer level (SP = FFF0h, the variant of P3 of the test vectors) end beyond FFFFh;
one byte less of a stack would do. -/
theorem test_witness_stackBlocks :
    (let s := real [] fun s => s.withRegs { s.regs with esp := 0xFFFC }
     s.realMode = true ∧ s.stackFallsShort (3 * s.opWidth.bytes) ∧ ¬ s.stackFallsShort 4) ∧
    (let s := (prot.withRegs { prot.regs with esp := 0xFFF0 }).setSeg .ss { flat false 0 0x10 with limit := 0xFFFF }
     s.stackFallsShort 24 ∧ s.stackFallsShort 20 ∧ s.stackFallsShort 36 ∧ ¬ s.stackFallsShort 16) := by decide +kernel
/-- The variant of P3 of the test vectors with a 16-bit stack: the top 24 bytes would end at 10007h, beyond the limit. -/
theorem test_retf_outer_across_64k : (match retFar 8
      (({ prot with mem := place 0xFFF0 [0, 0, 0x40, 0, 0x1B, 0, 0, 0] prot.mem }.withRegs { prot.regs with esp := 0xFFF0 }).setSeg .ss
        { flat false 0 0x10 with limit := 0xFFFF, ar := { (flat false 0 0x10).ar with db := false } }) with
    | .error (.exc e _) => some (e.vector, e.code)
    | _ => none) = some (12, some 0) := by decide +kernel
/-- Interrupt 12 pushes its own frame below the one that IRET could not read. -/
theorem test_iret_frame_across_64k : (match exec .iret
      ((real [] (regs fun r => { r with esp := 0xFFFC })).placeBytes 0x30 [0, 2, 0x60, 0]) with
    | .next t => some (t.segs.cs.sel, t.eip, t.regs.esp)
    | _ => none) = some (0x60, 0x200, 0xFFF6) := by decide +kernel
/-- What a return to an outer level keeps: P3's DS (23h, level 3); not its ES (10h), a selector in the last slot of a table one byte short,
a DPL below the RPL, an unreadable conforming segment or a selector in an LDT that is not valid; but a readable conforming one. -/
theorem test_outer_level_keeps :
    let kept (limit : HWord) (g : SegReg) (cpl : BitVec 2) :=
      (g.forOuter { prot.tables with gdtr := { base := 0x1000, limit := limit } } cpl).valid
    let conforming (readable : Bool) := { flat true 0 0x1B with ar := { (flat true 0 0x1B).ar with ce := true, rw := readable } }
    (kept 0x27 (flat false 3 0x23) 3, kept 0x27 (flat false 0 0x10) 3, kept 0x26 (flat false 3 0x23) 3, kept 0x27 (flat false 1 0x23) 1,
      kept 0x27 (conforming false) 3, kept 0x27 (flat false 3 0x27) 3, kept 0x27 (conforming true) 3) =
    (true, false, false, false, false, false, true) := by decide
/-- A debug register move with GD set: BD told, and the handler at 60:200h starts with GD clear. -/
theorem test_general_detect : (match exec (.movDrR .dr0 .ax)
      (((real [] (regs fun r => { r with esp := 0x100 })).placeBytes 4 [0, 2, 0x60, 0]).withDebug
        { State.reset.dregs with dr7 := { State.reset.dregs.dr7 with gd := true } }) with
    | .next t => some (t.segs.cs.sel, t.eip, t.dregs.dr6.bd, t.dregs.dr7.gd)
    | _ => none) = some (0x60, 0x200, true, false) := by decide +kernel
/-- INT 21h decoded before PE was set enters as in Real Address Mode. -/
theorem test_int_in_old_mode : (match exec (.int 0x21)
      (((real [] (regs fun r => { r with esp := 0x100 })).placeBytes 0x84 [0, 2, 0x60, 0]).withCr0
        { State.reset.cr0 with pe := true } |>.withOldMode true) with
    | .next t => some (t.segs.cs.sel, t.eip, t.regs.esp, t.fetch.oldMode)
    | _ => none) = some (0x60, 0x200, 0xFA, false) := by decide +kernel
/-- IRET to level 3 decoded before PE was cleared leaves the level of Real Address Mode. -/
theorem test_iret_in_old_mode : (match exec .iret
      ((iretStack 0x1B 0x23 0).withCr0 { State.reset.cr0 with pe := false } |>.withOldMode true) with
    | .next t => some (t.eip, t.cpl, t.modeLegal)
    | _ => none) = some (0x4000, 0, true) := by decide +kernel
/-- A store to the page-table entry of the code ahead keeps the byte that the queue may hold. -/
theorem test_page_table_store_keeps_queue : (match physWrite [0x101006] [0x30]
      ({ paged 7 7 with eip := 0x401000 }.withMem (Memory.write (paged 7 7).mem 0x200000 0x90)) with
    | .ok (_, u) => (u.fetch.ahead.contains (0x401000, 0x90), peekBytes u 0x401000)
    | .error _ => (false, [])) = (true, [0]) := by decide +kernel
theorem test_paged_write_sets_accessed_dirty : (match translate 0x401234 true false (paged 7 7) with
    | .ok (a, u) => (a, u.byteAt 0x100004, u.byteAt 0x101004)
    | .error _ => (0, 0, 0)) = (0x200234, 0x27, 0x67) := by decide +kernel

end Sys2Proof.Tests
end

section
/-!
PROOFS. Flag control (41_flag_control.md): the instructions of one opcode byte that only rewrite EFLAGS.
-/

namespace Sys2Proof.Machine

/-! ## Decoding one opcode byte -/

/-- An opcode byte of the one-byte map that stands for an instruction without operands is that instruction, and no byte is left. -/
theorem decode_singleton {c : Ctx} {op : Byte} {i : Instr} (hop : op ≠ 0x0F) (hrow : oneByte c op = .tail (.done i)) :
    decode c [op] = .ok i [] := by
  rw [decode, if_neg hop, hrow]
  rfl

theorem oneByte_sahf (c : Ctx) : oneByte c 0x9E = .tail (.done .sahf) := rfl

theorem oneByte_stc (c : Ctx) : oneByte c 0xF9 = .tail (.done .stc) := rfl

/-! ## Rewriting EFLAGS -/

@[simp] theorem putFlags_apply (g : Flags → Flags) (s : State) : putFlags g s = .ok ((), s.mapFlags g) := rfl

/-- An instruction whose whole body rewrites EFLAGS completes in every state, with the new flags and no store. -/
theorem completes_putFlags {i : Instr} {s : State} {g : Flags → Flags} (hi : exec i s = run (putFlags g) s) :
    Completes i s (DoneQuiet s (s.mapFlags g)) :=
  completes_quiet_of hi (putFlags_apply g s) (SameMemory.refl s) (Matches.refl (s.mapFlags g)) (State.mapFlags_mem s g)
    (congrArg Pend.bs (State.mapFlags_pend s g))

/-- The 8-bit register of field value 4 is AH, bits 15 to 8 of EAX (R31). -/
theorem State.reg_ah (s : State) : s.reg .b .sp = s.regs.eax.extractLsb' 8 8 := rfl

/-- SAHF rewrites EFLAGS from AH, and does nothing else (R308). -/
theorem exec_sahf (s : State) : exec .sahf s = run (putFlags fun f => f.ofAh (s.regs.eax.extractLsb' 8 8)) s := by
  rw [← State.reg_ah]
  rfl

/-- STC rewrites EFLAGS with CF set, and does nothing else (R309). -/
theorem exec_stc (s : State) : exec .stc s = run (putFlags fun f => { f with cf := true }) s := rfl

/-! ## The statements -/

/-- Settles O24: the opcode byte is a row of the one-byte map, and the body is one rewriting of EFLAGS. -/
theorem sahfLoadsFlags : Obligations.SahfLoadsFlags := by
  intro s c
  exact ⟨decode_singleton (by decide) (oneByte_sahf c), completes_putFlags (exec_sahf s)⟩

/-- Settles O25: the opcode byte is a row of the one-byte map, and the body is one rewriting of EFLAGS. -/
theorem stcSetsCarry : Obligations.StcSetsCarry := by
  intro s c
  exact ⟨decode_singleton (by decide) (oneByte_stc c), completes_putFlags (exec_stc s)⟩

end Sys2Proof.Machine
end

section
/-!
PROOFS. What every step keeps: the canonical form of memory (20_memory.md R101) and a legal mode (10_state.md R37, R40; 00_scope.md R15).
Most operations keep both through any state they reach; those that change the level or the mode are followed to their end.
-/

namespace Sys2Proof.Machine

/-! ## Steady computations -/

/-- The form of memory, CPL, VM and PE are kept. -/
def Steady (s t : State) : Prop := MemKept s t ∧ ModeKept s t

theorem frame_steady : Frame Steady := by
  have fm := frame_memKept
  have fk := frame_modeKept
  constructor
  case composes =>
    exact ⟨fun s => ⟨fm.composes.refl s, fk.composes.refl s⟩,
      fun h1 h2 => ⟨fm.composes.trans h1.1 h2.1, fk.composes.trans h1.2 h2.2⟩⟩
  case flags => exact fun s v h => ⟨fm.flags s v h, fk.flags s v h⟩
  case cr0 => exact fun s v h => ⟨fm.cr0 s v h, fk.cr0 s v h⟩
  case mem => exact fun s a v => ⟨fm.mem s a v, fk.mem s a v⟩
  all_goals exact fun s v => ⟨fun w => w, rfl, rfl, rfl⟩

theorem ModeKept.refl (s : State) : ModeKept s s := ⟨rfl, rfl, rfl⟩

theorem ModeKept.trans {s t u : State} (h1 : ModeKept s t) (h2 : ModeKept t u) : ModeKept s u :=
  frame_modeKept.composes.trans h1 h2

theorem State.modeLegal_iff (s : State) :
    s.modeLegal = true ↔ (s.cr0.pe = true ∨ (s.cpl = 0 ∧ s.flags.vm = false)) ∧ (s.flags.vm = true → s.cpl = 3) := by
  cases hv : s.flags.vm <;> simp [State.modeLegal, hv]

theorem ModeKept.modeLegal {s t : State} (h : ModeKept s t) : t.modeLegal = s.modeLegal := by
  obtain ⟨hc, hv, hp⟩ := h
  simp [State.modeLegal, hc, hv, hp]

/-- Virtual 8086 Mode has CPL 3: what of a legal mode does not depend on PE. -/
def State.levelOk (s : State) : Prop := s.flags.vm = true → s.cpl = 3

theorem State.settled_legal {s : State} (h : s.levelOk) : s.settled.modeLegal = true := by
  rw [State.modeLegal_iff]
  cases hp : s.cr0.pe <;> simp [State.settled, hp]
  exact h

/-! ## Computations followed to their end -/

/-- From a state with the level and the mode of `s0`: the form of memory is kept in every state the computation reaches, and from a legal
mode it ends, or raises an exception of a new task, in a legal mode. -/
def Keeps {α : Type} (s0 : State) (m : M α) : Prop :=
  ∀ s, ModeKept s0 s → (∀ t, Reaches m s t → MemKept s t) ∧
    (s.modeLegal = true → (∀ a t, m s = .ok (a, t) → t.modeLegal = true) ∧ ∀ e t, m s = .error (.late e t) → t.modeLegal = true)

section
variable {s0 : State} {α β : Type}

theorem Keeps.of_steady {m : M α} (w : Within Steady m) : Keeps s0 m := by
  refine fun s _ => ⟨fun t r => (w s t r).1, fun hl => ⟨fun a t h => ?_, fun e t h => ?_⟩⟩
  · rw [(w.of_ok h).2.modeLegal, hl]
  · rw [(w s t (.inr ⟨_, h, rfl⟩)).2.modeLegal, hl]

/-- A computation that keeps its promise in every level and mode follows one that does. -/
theorem Keeps.seq {x : M α} {f : α → M β} (hx : Keeps s0 x) (hf : ∀ a s1, Keeps s1 (f a)) : Keeps s0 (x >>= f) := by
  intro s hs
  obtain ⟨xm, xl⟩ := hx s hs
  cases h : x s with
  | ok p =>
    obtain ⟨a, u⟩ := p
    obtain ⟨fm, fl⟩ := hf a u u (ModeKept.refl u)
    refine ⟨fun t r => ?_, fun hl => ?_⟩
    · simp only [Reaches, M.bind_ok h] at r
      exact frame_memKept.trans (xm u (.inl ⟨a, h⟩)) (fm t r)
    · simp only [M.bind_ok h]
      exact fl ((xl hl).1 a u h)
  | error e =>
    refine ⟨fun t r => ?_, fun hl => ⟨fun a t h' => ?_, fun e' t h' => ?_⟩⟩
    · simp only [Reaches, M.bind_error h] at r
      rcases r with ⟨a, h'⟩ | ⟨e', h', hs'⟩
      · cases h'
      · cases h'
        exact xm t (.inr ⟨_, h, hs'⟩)
    · rw [M.bind_error h] at h'
      cases h'
    · rw [M.bind_error h] at h'
      cases h'
      exact (xl hl).2 e' t h

theorem Keeps.bind {x : M α} {f : α → M β} (hx : Within Steady x) (hf : ∀ a, Keeps s0 (f a)) : Keeps s0 (x >>= f) := by
  intro s hs
  cases h : x s with
  | ok p =>
    obtain ⟨a, u⟩ := p
    obtain ⟨km, kk⟩ := hx.of_ok h
    obtain ⟨fm, fl⟩ := hf a u (hs.trans kk)
    refine ⟨fun t r => ?_, fun hl => ?_⟩
    · simp only [Reaches, M.bind_ok h] at r
      exact frame_memKept.trans km (fm t r)
    · simp only [M.bind_ok h]
      exact fl (kk.modeLegal.trans hl)
  | error e =>
    have hx' := Keeps.of_steady (s0 := s0) hx s hs
    refine ⟨fun t r => ?_, fun hl => ⟨fun a t h' => ?_, fun e' t h' => ?_⟩⟩
    · simp only [Reaches, M.bind_error h] at r
      rcases r with ⟨a, h'⟩ | ⟨e', h', hs'⟩
      · cases h'
      · cases h'
        exact hx'.1 t (.inr ⟨_, h, hs'⟩)
    · rw [M.bind_error h] at h'
      cases h'
    · rw [M.bind_error h] at h'
      cases h'
      exact (hx'.2 hl).2 e' t h

theorem Keeps.get_bind {f : State → M β} (hf : ∀ s, ModeKept s0 s → Keeps s0 (f s)) : Keeps s0 (get >>= f) :=
  fun s hs => hf s hs s hs

theorem Keeps.check_bind {b : Bool} {e : Exc} {f : Unit → M β} (hf : b = true → Keeps s0 (f ())) :
    Keeps s0 (check b e >>= f) := by
  cases b with
  | true => exact fun s hs => hf rfl s hs
  | false => exact Keeps.of_steady (frame_steady.raise e)

theorem Keeps.ite {p : Prop} [Decidable p] {x y : M α} (hx : p → Keeps s0 x) (hy : ¬ p → Keeps s0 y) :
    Keeps s0 (if p then x else y) := by
  split
  · exact hx ‹_›
  · exact hy ‹_›

theorem Keeps.update {g : State → State} (hm : ∀ s, (g s).mem = s.mem)
    (hg : ∀ s, ModeKept s0 s → s.modeLegal = true → (g s).modeLegal = true) : Keeps s0 (update g) := by
  refine fun s hs => ⟨fun t r => ?_, fun hl => ⟨fun a t h => ?_, fun e t h => ?_⟩⟩
  · rcases r with ⟨a, h⟩ | ⟨e, h, -⟩ <;> cases h
    exact fun w => (hm s).symm ▸ w
  · cases h
    exact hg s hs hl
  · cases h

theorem Keeps.needCpl0_bind {f : Unit → M β} (hf : s0.cpl = 0 → Keeps s0 (f ())) : Keeps s0 (needCpl0 >>= f) := by
  intro s hs
  by_cases h : s.cpl = 0
  · have := hf (hs.1.symm.trans h) s hs
    unfold Reaches at this ⊢
    rwa [M.bind_ok (needCpl0_ok h)]
  · have := Keeps.of_steady (α := β) (frame_steady.raise (excGP 0)) s hs
    unfold Reaches at this ⊢
    rwa [M.bind_error (needCpl0_exc h)]

end
end Sys2Proof.Machine
end

section
/-!
PROOFS. What every step keeps, continued: task switches, entries to handlers, far transfers and returns (60_exceptions.md R721 to R730,
R760 to R764; 46_control_transfer.md R503 to R515; 47_interrupt.md R578).
-/

namespace Sys2Proof.Machine

/-! ## Computations that raise no exception of a new task -/

/-- The computation raises no exception in the context of a new task. -/
structure Early {α : Type} (m : M α) : Prop where
  not_late : ∀ s e t, m s ≠ .error (.late e t)

section
variable {α β : Type}

theorem Early.bind {x : M α} {f : α → M β} (hx : Early x) (hf : ∀ a, Early (f a)) : Early (x >>= f) := by
  refine ⟨fun s e t h => ?_⟩
  rw [M.bind_apply] at h
  cases hs : x s with
  | ok p => exact (hf p.1).not_late p.2 e t (by simpa [hs] using h)
  | error e' =>
    simp only [hs, Except.error.injEq] at h
    exact hx.not_late s e t (h ▸ hs)

theorem Early.of_ok {m : M α} {f : State → α × State} (h : ∀ s, m s = .ok (f s)) : Early m :=
  ⟨fun s e t he => by
    rw [h s] at he
    cases he⟩

theorem Early.pure (a : α) : Early (pure a : M α) := .of_ok fun _ => rfl
theorem Early.get : Early (MonadState.get : M State) := .of_ok fun _ => rfl
theorem Early.look (f : State → α) : Early (look f) := .of_ok fun _ => rfl
theorem Early.update (f : State → State) : Early (update f) := .of_ok fun _ => rfl
theorem Early.drawBit : Early drawBit := .of_ok fun _ => rfl
theorem Early.drawBits (n : Nat) : Early (drawBits n) := .of_ok fun _ => rfl

theorem Early.raise (e : Exc) : Early (raise e : M α) := ⟨fun s e' t h => by cases h⟩

theorem Early.check (b : Bool) (e : Exc) : Early (check b e) := by
  cases b
  · exact .raise e
  · exact .pure ()

theorem Early.ite {p : Prop} [Decidable p] {x y : M α} (hx : Early x) (hy : Early y) : Early (if p then x else y) := by
  split <;> assumption

theorem Early.cond {b : Bool} {x y : M α} (hx : Early x) (hy : Early y) : Early (bif b then x else y) := by
  cases b <;> assumption

end

theorem early_physReadByte (a : Word) : Early (physReadByte a) := by
  refine ⟨fun s e t h => ?_⟩
  unfold physReadByte at h
  split at h <;> cases h

theorem early_physRead (as : List Word) : Early (physRead as) := by
  induction as with
  | nil => exact .pure _
  | cons a as ih => exact (early_physReadByte a).bind fun _ => ih.bind fun _ => .pure _

theorem early_physWriteByte (a : Word) (v : Byte) : Early (physWriteByte a v) := by
  refine ⟨fun s e t h => ?_⟩
  unfold physWriteByte at h
  split at h <;> cases h

theorem early_physWriteBytes (as : List Word) (bs : List Byte) : Early (physWriteBytes as bs) := by
  induction as generalizing bs with
  | nil => exact .pure _
  | cons a as ih =>
    cases bs with
    | nil => exact .pure _
    | cons b bs => exact (early_physWriteByte a b).bind fun _ => ih bs

theorem early_physWrite (as : List Word) (bs : List Byte) : Early (physWrite as bs) :=
  (Early.update _).bind fun _ => early_physWriteBytes as bs

theorem early_touchEntry (a : Word) : Early (touchEntry a) := (early_physRead _).bind fun _ => .pure _

theorem early_setEntryBits (a bits : Word) : Early (setEntryBits a bits) :=
  (Early.look _).bind fun _ => .ite (.pure _) (early_physWriteBytes _ _)

theorem early_pageFault {α : Type} (la : Word) (p w u : Bool) : Early (pageFault la p w u : M α) :=
  (Early.drawBits 13).bind fun _ => (Early.update _).bind fun _ => .raise _

theorem early_walkTables (la : Word) (w u : Bool) : Early (walkTables la w u) := by
  refine (Early.look _).bind fun r => ?_
  cases r with
  | notPresent pa ta =>
    refine (early_touchEntry pa).bind fun _ => ?_
    cases ta with
    | none => exact early_pageFault ..
    | some t => exact (early_touchEntry t).bind fun _ => early_pageFault ..
  | violation pa ta => exact (early_touchEntry pa).bind fun _ => (early_touchEntry ta).bind fun _ => early_pageFault ..
  | ok pa ta pde pte =>
    exact (early_touchEntry pa).bind fun _ => (early_touchEntry ta).bind fun _ => (early_setEntryBits ..).bind fun _ =>
      (early_setEntryBits ..).bind fun _ => (Early.update _).bind fun _ => .pure _

theorem early_translate (la : Word) (w u : Bool) : Early (translate la w u) := by
  refine Early.get.bind fun s => .ite ?_ (.pure _)
  split
  · exact early_walkTables ..
  · exact .ite (.pure _) (Early.drawBit.bind fun _ => .cond (.pure _) (early_walkTables ..))

theorem early_span (la : Word) (n : Nat) (w u : Bool) : Early (span la n w u) :=
  (early_translate ..).bind fun _ => .ite (.pure _) ((early_translate ..).bind fun _ => .pure _)

theorem early_matchData (d : Debug) (i : Nat) (la : Word) (n : Nat) (w : Bool) : Early (matchData d i la n w) := by
  refine .ite ?_ (.pure _)
  split
  · exact .pure _
  · exact .ite (.cond .drawBit (.pure _)) (.pure _)
  · exact .drawBit
  · exact .ite .drawBit (.pure _)

theorem early_noteData (d : Debug) (la : Word) (n : Nat) (w : Bool) (i : Nat) : Early (noteData d la n w i) := by
  induction i with
  | zero => exact .pure _
  | succ i ih => exact (early_matchData ..).bind fun _ => (Early.cond (.update _) (.pure _)).bind fun _ => ih

theorem early_planLinear (la : Word) (n : Nat) (w u : Bool) : Early (planLinear la n w u) :=
  (early_span ..).bind fun _ =>
    Early.bind ((Early.look _).bind fun _ => .ite (.pure _) (early_noteData ..)) fun _ => .pure _

theorem early_needDesc (sel : HWord) (e : Exc) : Early (needDesc sel e) := by
  have hf : Early (fetchDesc sel) := by
    refine (Early.look _).bind fun t => ?_
    split
    · exact .pure _
    · exact Early.bind ((early_planLinear ..).bind fun _ => early_physRead _) fun _ => .pure _
  refine hf.bind fun d => ?_
  cases d with
  | none => exact .raise e
  | some d => exact .pure d

theorem early_setAccessed (d : Desc) : Early (setAccessed d) :=
  (Early.ite (.pure _) (early_planLinear ..)).bind fun _ => (early_physRead _).bind fun _ => early_physWrite ..

/-! ## Task switches (R760 to R762) -/

theorem early_taskSegments : Early taskSegments := by
  have hl : Early taskLdt := (Early.look _).bind fun _ => .ite (.pure _) ((Early.check _ _).bind fun _ =>
    (early_needDesc ..).bind fun _ => (Early.check _ _).bind fun _ => .update _)
  have hc : Early taskCs := (Early.look _).bind fun _ => (Early.check _ _).bind fun _ => (early_needDesc ..).bind fun _ =>
    (Early.check _ _).bind fun _ => (Early.check _ _).bind fun _ => (Early.check _ _).bind fun _ =>
    (early_setAccessed _).bind fun _ => (Early.update _).bind fun _ => .update _
  have hs : Early taskSs := Early.get.bind fun _ => (Early.check _ _).bind fun _ => (early_needDesc ..).bind fun _ =>
    (Early.check _ _).bind fun _ => (Early.check _ _).bind fun _ => (Early.check _ _).bind fun _ =>
    (early_setAccessed _).bind fun _ => .update _
  have hd (r : Sreg) : Early (taskData r) := Early.get.bind fun _ => .ite (.pure _) ((early_needDesc ..).bind fun _ =>
    (Early.check _ _).bind fun _ => (Early.check _ _).bind fun _ => (Early.check _ _).bind fun _ =>
    (early_setAccessed _).bind fun _ => .update _)
  exact hl.bind fun _ => (Early.look _).bind fun _ => .ite (.update _) (hc.bind fun _ => hs.bind fun _ => (hd _).bind fun _ =>
    (hd _).bind fun _ => (hd _).bind fun _ => hd _)

theorem within_taskCs {R : State → State → Prop} (f : Frame R) (h : ∀ s v, R s (s.withCpl v)) : Within R taskCs :=
  f.bind (f.look _) fun _ => f.bind (f.check _ _) fun _ => f.bind (within_needDesc f _ _) fun _ => f.bind (f.check _ _) fun _ =>
    f.bind (f.check _ _) fun _ => f.bind (f.check _ _) fun _ => f.bind (within_setAccessed f _) fun _ =>
    f.bind (within_putSeg f _ _) fun _ => Within.update fun s => h s _

/-- The descriptors of a task that is not in Virtual 8086 Mode: the CPL may be set to any level. -/
theorem within_taskProtected {R : State → State → Prop} (f : Frame R) (h : ∀ s v, R s (s.withCpl v)) :
    Within R (do
      taskCs
      taskSs
      taskData .ds
      taskData .es
      taskData .fs
      taskData .gs) :=
  f.bind (within_taskCs f h) fun _ => f.bind (within_taskSs f) fun _ => f.bind (within_taskData f _) fun _ =>
    f.bind (within_taskData f _) fun _ => f.bind (within_taskData f _) fun _ => within_taskData f _

/-- VM stays clear. -/
def VmClear (s t : State) : Prop := s.flags.vm = false → t.flags.vm = false

theorem frame_vmClear : Frame VmClear := by
  constructor
  case composes => exact ⟨fun _ h => h, fun h1 h2 h => h2 (h1 h)⟩
  case flags => exact fun s v h hs => h.trans hs
  case cr0 => exact fun s v _ h => h
  case mem => exact fun s a v h => h
  all_goals exact fun s v h => h

/-- Virtual 8086 Mode keeps CPL 3. -/
def LevelKept (s t : State) : Prop := s.levelOk → t.levelOk

theorem frame_levelKept : Frame LevelKept := by
  constructor
  case composes => exact ⟨fun _ h => h, fun h1 h2 h => h2 (h1 h)⟩
  case flags => exact fun s v h hs hv => hs (h.symm.trans hv)
  case cr0 => exact fun s v _ h => h
  case mem => exact fun s a v h => h
  all_goals exact fun s v h => h

theorem within_taskSegments_memKept : Within MemKept taskSegments := by
  have f := frame_memKept
  refine f.bind (within_taskLdt f) fun _ => f.bind (f.look _) fun vm => ?_
  cases vm
  · exact within_taskProtected f fun _ _ h => h
  · exact Within.update fun _ h => h

theorem within_taskSegments_levelKept : Within LevelKept taskSegments := by
  have f := frame_levelKept
  refine f.bind (within_taskLdt f) fun _ s t r => ?_
  cases hv : s.flags.vm
  · have r' : Reaches (do
        taskCs
        taskSs
        taskData .ds
        taskData .es
        taskData .fs
        taskData .gs) s t := by
      simpa only [Reaches, M.bind_ok (look_apply _ s), hv, Bool.false_eq_true, if_false] using r
    have hvt := within_taskProtected frame_vmClear (fun _ _ h => h) s t r' hv
    exact fun _ h => absurd (hvt.symm.trans h) (by decide)
  · have r' : Reaches taskV86 s t := by simpa only [Reaches, M.bind_ok (look_apply _ s), hv, if_true] using r
    rcases r' with ⟨a, h⟩ | ⟨e, h, -⟩ <;> cases h
    exact fun _ _ => rfl

/-- The registers a task switch loads put Virtual 8086 Mode at CPL 3. -/
theorem enterTask_levelOk (s : State) (tsel : HWord) (new : Desc) (bs : List Byte) (nest : Bool) :
    (enterTask s tsel new bs nest).levelOk := fun h => by
  have hv : (Flags.ofWord (tssDword bs 0x24)).vm = true := h
  show (bif (Flags.ofWord (tssDword bs 0x24)).vm then 3 else s.cpl) = 3
  rw [hv]
  rfl

/-- A computation that ends with VM at CPL 3, whatever PE, and that raises an exception of a new task only in a legal mode. -/
def Arrives {α : Type} (s0 : State) (m : M α) : Prop :=
  ∀ s, ModeKept s0 s → (∀ t, Reaches m s t → MemKept s t) ∧
    (s.modeLegal = true → (∀ a t, m s = .ok (a, t) → t.levelOk) ∧ ∀ e t, m s = .error (.late e t) → t.modeLegal = true)

theorem Arrives.bind {s0 : State} {α β : Type} {x : M α} {f : α → M β} (hx : Within Steady x) (hf : ∀ a, Arrives s0 (f a)) :
    Arrives s0 (x >>= f) := by
  intro s hs
  cases h : x s with
  | ok p =>
    obtain ⟨a, u⟩ := p
    obtain ⟨km, kk⟩ := hx.of_ok h
    obtain ⟨fm, fl⟩ := hf a u (hs.trans kk)
    refine ⟨fun t r => ?_, fun hl => ?_⟩
    · simp only [Reaches, M.bind_ok h] at r
      exact frame_memKept.trans km (fm t r)
    · simp only [M.bind_ok h]
      exact fl (kk.modeLegal.trans hl)
  | error e =>
    have hx' := Keeps.of_steady (s0 := s0) hx s hs
    refine ⟨fun t r => ?_, fun hl => ⟨fun a t h' => ?_, fun e' t h' => ?_⟩⟩
    · simp only [Reaches, M.bind_error h] at r
      rcases r with ⟨a, h'⟩ | ⟨e', h', hs'⟩
      · cases h'
      · cases h'
        exact hx'.1 t (.inr ⟨_, h, hs'⟩)
    · rw [M.bind_error h] at h'
      cases h'
    · rw [M.bind_error h] at h'
      cases h'
      exact (hx'.2 hl).2 e' t h

theorem Arrives.check_bind {s0 : State} {b : Bool} {e : Exc} {β : Type} {f : Unit → M β} (hf : Arrives s0 (f ())) :
    Arrives s0 (check b e >>= f) := Arrives.bind (frame_steady.check b e) fun _ => hf

/-- Once the registers of the new task are in, its descriptors are validated. -/
theorem arrives_entered (s0 : State) (g : State → State) (b : Bool) (hm : ∀ s, (g s).mem = s.mem) (hg : ∀ s, (g s).levelOk) :
    Arrives s0 (do
      update g
      inNewTask taskSegments
      pure b) := by
  have hw : Within MemKept (do
      update g
      inNewTask taskSegments
      pure b) :=
    frame_memKept.bind (Within.update fun s w => by rwa [hm s]) fun _ =>
      frame_memKept.bind (within_inNewTask frame_memKept.composes (fun _ w => w) within_taskSegments_memKept) fun _ =>
        frame_memKept.pure b
  refine fun s hs => ⟨fun t r => hw s t r, fun _ => ?_⟩
  simp only [M.bind_ok (update_apply g s)]
  cases h : taskSegments (g s) with
  | ok p =>
    have hi : inNewTask taskSegments (g s) = .ok p := by simp [inNewTask, h]
    simp only [M.bind_ok hi, M.pure_apply]
    refine ⟨fun a t ht => ?_, fun e t ht => by cases ht⟩
    cases ht
    exact within_taskSegments_levelKept.of_ok h (hg s)
  | error e =>
    refine ⟨fun a t ht => ?_, fun e' t ht => ?_⟩
    · cases e <;> simp [M.bind_apply, inNewTask, h] at ht
    · cases e with
      | exc x u =>
        simp only [M.bind_apply, inNewTask, h, Except.error.injEq, Stop.late.injEq] at ht
        rw [← ht.2]
        exact State.settled_legal (within_taskSegments_levelKept.of_exc h (hg s))
      | late x u => exact absurd h (early_taskSegments.not_late _ _ _)
      | _ => simp [M.bind_apply, inNewTask, h] at ht

theorem within_plans_or_nothing {b : Bool} {x : M (List Word)} (h : Within Steady x) :
    Within Steady (bif b then x else pure []) := Within.cond h (frame_steady.pure _)

theorem arrives_taskSwitch (s0 : State) (tsel : HWord) (new : Desc) (kind : TaskKind) (cs : HWord) (eip : Word) (fl : Flags) :
    Arrives s0 (taskSwitch tsel new kind cs eip fl) := by
  have f := frame_steady
  refine .check_bind <| .bind f.get fun s => .bind (within_sysPlan f _ _) fun _ =>
    .bind (within_plans_or_nothing (within_planBusy f _)) fun _ =>
    .bind (Within.cond (f.pure _) (within_planBusy f _)) fun _ => .bind (within_planLinear f _ _ _ _) fun _ =>
    .bind (within_plans_or_nothing (within_sysPlan f _ _)) fun _ => .bind (within_taskImage f _ _ _ _) fun _ =>
    .bind (within_physWrite f _ _) fun _ => .bind (within_writeBusy f _ _) fun _ => .bind (within_writeBusy f _ _) fun _ =>
    .bind (within_physRead f _) fun _ => .bind (within_physWrite f _ _) fun _ =>
    arrives_entered s0 _ _ (fun _ => rfl) fun s => enterTask_levelOk s tsel new _ _

/-- The end of a task switch settles the level of CR0's mode. -/
theorem keeps_switch_finish {s0 : State} {x : M Bool} (hx : Arrives s0 x) : Keeps s0 (x >>= fun trap => finishTask trap) := by
  intro s hs
  obtain ⟨xm, xl⟩ := hx s hs
  cases h : x s with
  | ok p =>
    obtain ⟨trap, u⟩ := p
    refine ⟨fun t r => ?_, fun hl => ?_⟩
    · simp only [Reaches, M.bind_ok h] at r
      exact frame_memKept.trans (xm u (.inl ⟨trap, h⟩)) (within_finishTask frame_memKept (fun _ w => w) trap u t r)
    · simp only [M.bind_ok h]
      have hu := (xl hl).1 trap u h
      by_cases he : u.eip.toNat ≤ u.segs.cs.limit.toNat
      · rw [finishTask_ok he]
        refine ⟨fun a t ht => ?_, fun e t ht => by cases ht⟩
        cases ht
        exact State.settled_legal hu
      · rw [finishTask_late (by omega)]
        refine ⟨fun a t ht => (nomatch ht), fun e t ht => ?_⟩
        cases ht
        exact State.settled_legal hu
  | error e =>
    refine ⟨fun t r => ?_, fun hl => ⟨fun a t h' => ?_, fun e' t h' => ?_⟩⟩
    · simp only [Reaches, M.bind_error h] at r
      rcases r with ⟨a, h'⟩ | ⟨e', h', hs'⟩
      · cases h'
      · cases h'
        exact xm t (.inr ⟨_, h, hs'⟩)
    · rw [M.bind_error h] at h'
      cases h'
    · rw [M.bind_error h] at h'
      cases h'
      exact (xl hl).2 e' t h

end Sys2Proof.Machine
end

section
/-!
PROOFS. What every step keeps, continued: entries to handlers, far transfers and returns (60_exceptions.md R721 to R730; 46_control_transfer.md
R503 to R515; 47_interrupt.md R578).
-/

namespace Sys2Proof.Machine

/-! ## Updates that settle or keep the mode -/

/-- The form of memory and a legal mode are kept. -/
def Kept (s t : State) : Prop := MemKept s t ∧ (s.modeLegal = true → t.modeLegal = true)

theorem Steady.kept {s t : State} (h : Steady s t) : Kept s t := ⟨h.1, fun hl => h.2.modeLegal.trans hl⟩

theorem frame_kept : Frame Kept := by
  have f := frame_steady
  constructor
  case composes => exact ⟨fun s => (f.composes.refl s).kept, fun h1 h2 => ⟨frame_memKept.trans h1.1 h2.1, h2.2 ∘ h1.2⟩⟩
  case flags => exact fun s v h => (f.flags s v h).kept
  case cr0 => exact fun s v h => (f.cr0 s v h).kept
  case mem => exact fun s a v => (f.mem s a v).kept
  all_goals exact fun s v => ⟨fun w => w, fun h => h⟩

theorem State.modeLegal_levelOk {s : State} (h : s.modeLegal = true) : s.levelOk := ((State.modeLegal_iff s).mp h).2

theorem kept_settled (s : State) : Kept s s.settled := ⟨fun w => w, fun h => State.settled_legal (State.modeLegal_levelOk h)⟩

section
variable {s0 : State} {α β : Type}

theorem Keeps.of_kept {m : M α} (w : Within Kept m) : Keeps s0 m := fun s _ =>
  ⟨fun t r => (w s t r).1, fun hl => ⟨fun _ _ h => (w.of_ok h).2 hl, fun _ t h => (w s t (.inr ⟨_, h, rfl⟩)).2 hl⟩⟩

theorem Keeps.update_bind {g : State → State} {f : Unit → M β} (hm : ∀ s, (g s).mem = s.mem)
    (hg : ∀ s, ModeKept s0 s → s.modeLegal = true → (g s).modeLegal = true) (hf : ∀ s1, Keeps s1 (f ())) :
    Keeps s0 (Machine.update g >>= f) := (Keeps.update hm hg).seq fun _ s1 => hf s1

theorem keeps_inNewTask {m : M α} (h : Within Steady m) : Keeps s0 (inNewTask m) :=
  .of_kept (within_inNewTask frame_kept.composes kept_settled (h.mono fun _ _ => Steady.kept))

theorem keeps_switch_then {x : M Bool} {rest : M β} (hx : Arrives s0 x) (hr : ∀ s1, Keeps s1 rest) :
    Keeps s0 (x >>= fun trap => finishTask trap >>= fun _ => rest) := by
  rw [← bind_assoc]
  exact (keeps_switch_finish hx).seq fun _ s1 => hr s1

/-- A change to a level is legal when VM is clear, and with PE clear only where the level is 0. -/
theorem State.modeLegal_of_level {t : State} {c : BitVec 2} (hc : t.cpl = c) (hv : t.flags.vm = false)
    (hp : t.cr0.pe = false → c = 0) : t.modeLegal = true := by
  rw [State.modeLegal_iff]
  cases he : t.cr0.pe <;> simp_all

/-- From a legal mode, a level above another one has PE set. -/
theorem ModeKept.pe_of_inner {s : State} {c : BitVec 2} (hs : ModeKept s0 s) (hl : s.modeLegal = true)
    (hc : c.toNat < s0.cplNat) : s.cr0.pe = true := by
  obtain ⟨hp | ⟨h0, -⟩, -⟩ := (State.modeLegal_iff s).mp hl
  · exact hp
  · rw [State.cplNat, ← hs.1, h0] at hc
    exact absurd hc (Nat.not_lt_zero _)

end

theorem modeKept_clearGd (s : State) (ev : Event) : ModeKept s (s.clearGd ev) := by
  unfold State.clearGd
  split <;> exact ModeKept.refl s

theorem modeKept_atHandler (s : State) : ModeKept s s.atHandler := by simp [ModeKept]

/-! ## Entry to a handler (R721 to R724) -/

section
variable (s0 : State)

theorem within_pushThen {g : State → State} (n : Nat) (vs : List Word) (hg : ∀ s, Steady s (g s)) : Within Steady (do
    pushAll n vs
    update g) := frame_steady.bind (within_pushAll frame_steady n vs) fun _ => Within.update hg

theorem within_enterReal (ev : Event) : Within Steady (enterReal ev) := by
  have f := frame_steady
  refine f.bind f.get fun s => f.bind (f.check _ _) fun _ => f.bind (within_sysRead f _ _) fun _ => within_pushThen _ _ fun t => ?_
  exact ⟨fun w => by rwa [clearGd_mem], (show ModeKept t _ from ⟨rfl, rfl, rfl⟩).trans (modeKept_clearGd _ ev)⟩

theorem keeps_sameLevelEntry (ev : Event) (g c : Desc) : Keeps s0 (sameLevelEntry ev g c) := by
  have f := frame_steady
  refine .bind f.get fun s => .bind (within_frameTail f _ _) fun _ => .bind (within_checkRoom f _ _ _ _ _) fun _ =>
    .check_bind fun _ => .bind (within_planStack f _ _) fun _ => .bind (within_planAccessed f _) fun _ =>
    .bind (within_storeAll f _ _) fun _ => .bind (within_writeAccessed f _) fun _ =>
    .update (fun t => clearGd_mem _ ev) fun t _ hl => ?_
  rw [(modeKept_clearGd _ ev).modeLegal]
  obtain ⟨hp, -⟩ := (State.modeLegal_iff t).mp hl
  exact State.modeLegal_of_level (c := t.cpl) rfl rfl fun h => hp.elim (fun h' => absurd (h.symm.trans h') (by decide)) And.left

theorem keeps_innerEntry (ev : Event) (g c : Desc) (hc : c.dpl.toNat < s0.cplNat) : Keeps s0 (innerEntry ev g c) := by
  have f := frame_steady
  refine .bind f.get fun s => .bind (within_innerStack f _) fun _ => .bind (within_frameHead f _) fun _ =>
    .bind (within_frameTail f _ _) fun _ => .bind (within_checkRoom f _ _ _ _ _) fun _ => .check_bind fun _ =>
    .bind (within_planPushes f _ _ _ _ _ _ _) fun _ => .bind (within_planAccessed f _) fun _ =>
    .bind (within_writeAccessed f _) fun _ => .bind (within_storeAll f _ _) fun _ => .bind (within_writeAccessed f _) fun _ =>
    .update (fun t => clearGd_mem _ ev) fun t ht hl => ?_
  rw [(modeKept_clearGd _ ev).modeLegal]
  exact State.modeLegal_of_level (c := c.dpl) rfl rfl fun h => absurd (h.symm.trans (ht.pe_of_inner hl hc)) (by decide)

theorem keeps_taskGateEntry (ev : Event) (g : Desc) : Keeps s0 (taskGateEntry ev g) := by
  have f := frame_steady
  have hend (s1 : State) : Keeps s1 (update fun t => t.atHandler.clearGd ev) :=
    .update (fun t => (clearGd_mem _ ev).trans (State.atHandler_mem t)) fun t _ hl => by
      rw [(modeKept_clearGd _ ev).modeLegal]
      exact (modeKept_atHandler t).modeLegal.trans hl
  refine .bind f.get fun s => .bind (within_needTss f _) fun _ => keeps_switch_then (arrives_taskSwitch _ _ _ _ _ _ _) fun s1 => ?_
  cases ev.code with
  | none => exact hend s1
  | some c =>
    exact (keeps_inNewTask (f.bind (within_selWord f c) fun _ => within_pushAll f _ _)).seq fun _ s2 => hend s2

theorem keeps_gateEntry (ev : Event) (g : Desc) : Keeps s0 (gateEntry ev g) := by
  have f := frame_steady
  refine .get_bind fun s hs => .check_bind fun _ => .bind (within_needDesc f _ _) fun c => .check_bind fun _ => .check_bind fun _ =>
    .check_bind fun _ => .ite (fun h => keeps_innerEntry s0 ev g c ?_) fun _ => keeps_sameLevelEntry s0 ev g c
  have hlt : c.dpl.toNat < s.cplNat := of_decide_eq_true (Bool.and_eq_true_iff.mp h).2
  rwa [State.cplNat, hs.1] at hlt

theorem keeps_enter (ev : Event) : Keeps s0 (enter ev) := by
  have f := frame_steady
  have hprot : Keeps s0 (enterProt ev) :=
    .bind f.get fun s => .check_bind fun _ => .bind (within_sysRead f _ _) fun _ => .check_bind fun _ => .check_bind fun _ =>
      .check_bind fun _ => .ite (fun _ => keeps_taskGateEntry s0 ev _) fun _ =>
        .ite (fun _ => .of_steady (Within.refuse _)) fun _ => keeps_gateEntry s0 ev _
  exact .bind f.get fun s => .ite (fun _ => .of_steady (within_enterReal ev)) fun _ => hprot

/-! ## Far transfers (R503 to R512) -/

theorem keeps_innerCall (g : Desc) (csel : HWord) (c : Desc) (off : Word) (hc : c.dpl.toNat < s0.cplNat)
    (hv : s0.flags.vm = false) : Keeps s0 (innerCall g csel c off) := by
  have f := frame_steady
  refine .bind f.get fun s => .bind (within_innerStack f _) fun _ => .bind (within_checkRoom f _ _ _ _ _) fun _ =>
    .check_bind fun _ => .bind (within_selWord f _) fun _ => .bind (within_selWord f _) fun _ =>
    .bind (within_planPushes f _ _ _ _ _ _ _) fun _ => .bind (within_planParams f _ _ _ _) fun _ =>
    .bind (within_planPushes f _ _ _ _ _ _ _) fun _ => .bind (within_planAccessed f _) fun _ =>
    .bind (within_writeAccessed f _) fun _ => .bind (within_storeAll f _ _) fun _ => .bind (within_copyAll f _) fun _ =>
    .bind (within_storeAll f _ _) fun _ => .bind (within_writeAccessed f _) fun _ =>
    .update_bind (fun _ => rfl) (fun t ht hl => ?_) fun _ => .of_steady (within_farJump f _ _)
  exact State.modeLegal_of_level (c := c.dpl) rfl (ht.2.1.trans hv) fun h =>
    absurd (h.symm.trans (ht.pe_of_inner hl hc)) (by decide)

theorem keeps_callGate (gsel : HWord) (g : Desc) (kind : FarKind) (hv : s0.flags.vm = false) :
    Keeps s0 (callGate gsel g kind) := by
  have f := frame_steady
  refine .get_bind fun s hs => .check_bind fun _ => .check_bind fun _ => .check_bind fun _ => .bind (within_needDesc f _ _) fun c =>
    .check_bind fun _ => .check_bind fun _ => .check_bind fun _ => .ite (fun h => ?_) fun _ =>
    .of_steady (within_enterCode f _ _ _ _ _)
  obtain ⟨-, -, hlt⟩ := h
  exact keeps_innerCall s0 g _ c _ (by rwa [State.cplNat, hs.1] at hlt) hv

theorem keeps_transferTask (tsel : HWord) (new : Desc) (kind : FarKind) : Keeps s0 (transferTask tsel new kind) :=
  .bind frame_steady.get fun _ => keeps_switch_finish (arrives_taskSwitch _ _ _ _ _ _ _)

theorem keeps_farTarget (sel : HWord) (off : Word) (kind : FarKind) (hv : s0.flags.vm = false) :
    Keeps s0 (farTarget sel off kind) := by
  have f := frame_steady
  have hend {m : M Unit} (e : Ending) (hm : Keeps s0 m) : Keeps s0 (do
      m
      pure e) := hm.seq fun _ _ => .of_steady (f.pure e)
  have htss (d : Desc) : Keeps s0 (tssTransfer sel d kind) := .bind f.get fun _ => .check_bind fun _ => .check_bind fun _ =>
    .check_bind fun _ => keeps_transferTask s0 _ _ _
  have hgate (d : Desc) : Keeps s0 (taskGate sel d kind) := .bind f.get fun _ => .check_bind fun _ => .check_bind fun _ =>
    .bind (within_needTss f _) fun _ => keeps_transferTask s0 _ _ _
  exact .check_bind fun _ => .bind (within_needDesc f _ _) fun d =>
    .ite (fun _ => hend _ (.of_steady (within_codeTransfer f _ _ _ _))) fun _ =>
    .ite (fun _ => hend _ (keeps_callGate s0 _ _ _ hv)) fun _ => .ite (fun _ => hend _ (hgate d)) fun _ =>
    .ite (fun _ => hend _ (htss d)) fun _ => .ite (fun _ => .of_steady (Within.refuse _)) fun _ => .of_steady (f.raise _)

/-- Protected Mode has VM clear. -/
theorem State.vm_of_protMode {s : State} (h : s.protMode = true) : s.flags.vm = false := by
  simpa using (Bool.and_eq_true_iff.mp h).2

theorem keeps_farTransfer (sel : HWord) (off : Word) (kind : FarKind) : Keeps s0 (farTransfer sel off kind) := by
  have f := frame_steady
  exact .get_bind fun s hs => .ite (fun hp => keeps_farTarget s0 _ _ _ (hs.2.1.symm.trans (State.vm_of_protMode hp))) fun _ =>
    .bind (within_farReal f _ _ _) fun _ => .of_steady (f.pure _)

/-! ## Returns (R514, R515, R578) -/

/-- The end of a return to an outer level: the level of the selector, settled. -/
theorem keeps_outerEnd (c : BitVec 2) (ss : SegReg) (cs : State → Segs) (esp : State → Word) (hv : s0.flags.vm = false) :
    Keeps s0 (update fun t => (((t.withCpl c).withSegs ((cs t).set .ss ss)).withRegs { t.regs with esp := esp t }).settled) :=
  .update (fun _ => rfl) fun t ht _ => State.settled_legal fun h => absurd ((ht.2.1.trans hv).symm.trans h) (by decide)

theorem keeps_outerRetf (cs : HWord) (extra : Word) (hv : s0.flags.vm = false) : Keeps s0 (outerRetf cs extra) := by
  have f := frame_steady
  exact .bind f.get fun s => .bind (within_stackBlock f _) fun _ => .bind (within_returnCode f _) fun _ =>
    .bind (within_stackRead f _ _) fun _ => .bind (within_returnStack f _ _) fun _ => .bind (within_stackRead f _ _) fun _ =>
    .bind (within_stackRead f _ _) fun _ => .check_bind fun _ => .bind (within_planAccessed f _) fun _ =>
    .bind (within_planAccessed f _) fun _ => .bind (within_writeAccessed f _) fun _ => .bind (within_writeAccessed f _) fun _ =>
    .bind (within_farJump f _ _) fun _ => keeps_outerEnd s0 _ _ _ _ hv

theorem keeps_retFar (extra : Word) : Keeps s0 (retFar extra) := by
  have f := frame_steady
  refine .get_bind fun s hs => .ite (fun hp => ?_) fun _ => .of_steady (within_realRetf f _)
  have hv : s0.flags.vm = false := hs.2.1.symm.trans (State.vm_of_protMode hp)
  exact .bind f.get fun _ => .bind (within_stackRead f _ _) fun _ => .check_bind fun _ =>
    .ite (fun _ => .bind (within_returnCode f _) fun _ => .bind (within_stackRead f _ _) fun _ => .check_bind fun _ =>
      .bind (within_setAccessed f _) fun _ => .bind (within_releaseStack f _) fun _ => .of_steady (within_farJump f _ _)) fun _ =>
    keeps_outerRetf s0 _ _ hv

theorem keeps_outerIret (ip fl : Word) (cs : HWord) (c : Desc) (hv : s0.flags.vm = false) : Keeps s0 (outerIret ip fl cs c) := by
  have f := frame_steady
  exact .bind f.get fun s => .bind (within_stackBlock f _) fun _ => .bind (within_stackRead f _ _) fun _ =>
    .bind (within_stackRead f _ _) fun _ => .bind (within_returnStack f _ _) fun _ => .check_bind fun _ =>
    .bind (within_planAccessed f _) fun _ => .bind (within_planAccessed f _) fun _ => .bind (within_writeAccessed f _) fun _ =>
    .bind (within_writeAccessed f _) fun _ => .bind (within_farJump f _ _) fun _ => .bind (within_loadFlags f _ _ _) fun _ =>
    keeps_outerEnd s0 _ _ _ _ hv

theorem keeps_returnToV86 (ip fl : Word) (cs : HWord) : Keeps s0 (returnToV86 ip fl cs) := by
  have f := frame_steady
  exact .bind (within_stackBlock f _) fun _ => .check_bind fun _ => .bind (within_stackRead f _ _) fun _ =>
    .bind (within_stackRead f _ _) fun _ => .bind (within_stackRead f _ _) fun _ => .bind (within_stackRead f _ _) fun _ =>
    .bind (within_stackRead f _ _) fun _ => .bind (within_stackRead f _ _) fun _ =>
    .update_bind (fun _ => rfl) (fun t _ _ => State.settled_legal fun _ => rfl) fun _ => .of_steady (within_jumpTo f _)

theorem keeps_protIret (hv : s0.flags.vm = false) : Keeps s0 protIret := by
  have f := frame_steady
  exact .bind f.get fun s => .bind (within_stackBlock f _) fun _ => .bind (within_stackRead f _ _) fun _ =>
    .bind (within_stackRead f _ _) fun _ => .bind (within_stackRead f _ _) fun _ =>
    .ite (fun _ => keeps_returnToV86 s0 _ _ _) fun _ => .check_bind fun _ => .check_bind fun _ =>
    .bind (within_returnCode f _) fun _ => .ite (fun _ => .check_bind fun _ => .bind (within_setAccessed f _) fun _ =>
      .bind (within_releaseStack f _) fun _ => .bind (within_farJump f _ _) fun _ => .of_steady (within_loadFlags f _ _ _))
      fun _ => keeps_outerIret s0 _ _ _ _ hv

theorem keeps_taskReturn : Keeps s0 taskReturn := by
  have f := frame_steady
  exact .bind f.get fun s => .bind (within_sysRead f _ _) fun _ => .check_bind fun _ => .bind (within_needDesc f _ _) fun _ =>
    .bind (Within.cond (Within.refuse _) (f.pure _)) fun _ => .check_bind fun _ => .check_bind fun _ =>
    keeps_switch_finish (arrives_taskSwitch _ _ _ _ _ _ _)

/-- Neither Real Address Mode nor Virtual 8086 Mode: VM is clear. -/
theorem State.vm_of_not_modes {s : State} (hr : ¬ s.realMode = true) (hv : ¬ s.v86Mode = true) : s.flags.vm = false := by
  simp_all [State.realMode, State.v86Mode]

theorem keeps_returnInterrupt : Keeps s0 returnInterrupt := by
  have f := frame_steady
  have hend {m : M Unit} (e : Ending) (hm : Keeps s0 m) : Keeps s0 (do
      m
      pure e) := hm.seq fun _ _ => .of_steady (f.pure e)
  exact .get_bind fun s hs => .bind (within_unblockNmi f) fun _ =>
    .ite (fun _ => hend _ (.of_steady (within_realIret f))) fun hr =>
    .ite (fun _ => .check_bind fun _ => hend _ (.of_steady (within_realIret f))) fun hv =>
    .ite (fun _ => hend _ (keeps_taskReturn s0)) fun _ =>
      hend _ (keeps_protIret s0 (hs.2.1.symm.trans (State.vm_of_not_modes hr hv)))

end

end Sys2Proof.Machine
end

section
/-!
PROOFS. What every step keeps, the end: instructions, delivery and the step (60_exceptions.md R721 to R730;
70_reset_and_hazards.md R790).
-/

namespace Sys2Proof.Machine

/-! ## Outcomes -/

/-- The next state, if there is one, has memory in its form where `s` has, and a legal mode, or is shut down, where `s` has a legal
mode. -/
def Lands (s : State) (r : Host.Outcome State Fault Refusal) : Prop :=
  ∀ t, r = .next t → MemKept s t ∧ (s.modeLegal = true → t.modeOk = true)

theorem State.modeOk_of_legal {s : State} (h : s.modeLegal = true) : s.modeOk = true := by simp [State.modeOk, h]

theorem State.shutDown_modeOk (s : State) : s.shutDown.modeOk = true := by simp [State.modeOk]

theorem lands_next {s t : State} (hm : MemKept s t) (hl : s.modeLegal = true → t.modeLegal = true) : Lands s (.next t) := by
  rintro _ ⟨⟩
  exact ⟨hm, fun h => State.modeOk_of_legal (hl h)⟩

theorem lands_shutDown {s t : State} (hm : MemKept s t) : Lands s (.next t.shutDown) := by
  rintro _ ⟨⟩
  exact ⟨fun w => by simpa using hm w, fun _ => State.shutDown_modeOk t⟩

theorem Lands.of_kept {s u : State} {r : Host.Outcome State Fault Refusal} (h : Kept s u) (hr : Lands u r) : Lands s r :=
  fun t ht => ⟨frame_memKept.trans h.1 (hr t ht).1, fun hl => (hr t ht).2 (h.2 hl)⟩

theorem lands_ite {p : Prop} [Decidable p] {s : State} {x y : Host.Outcome State Fault Refusal} (hx : Lands s x)
    (hy : Lands s y) : Lands s (if p then x else y) := by split <;> assumption

theorem modeKept_abandon (s t : State) : ModeKept s (s.abandon t) := ⟨rfl, rfl, rfl⟩

/-- What is left of an instruction that a fault ends keeps the form of memory where the instruction kept it, and the mode. -/
theorem kept_abandon {s t : State} (h : MemKept s t) : Kept s (s.abandon t) :=
  ⟨fun w => by simpa using h w, fun hl => (modeKept_abandon s t).modeLegal.trans hl⟩

/-! ## Delivery (R721 to R730) -/

theorem kept_inOwnMode (s : State) : Kept s s.inOwnMode := frame_kept.fetch s _

/-- The state from which a second event is delivered differs in the count of draws alone. -/
theorem kept_nextEvent {ev ev' : Event} {e : Exc} {ret : Word} {s s' : State} (h : nextEvent ev e ret s = some (ev', s')) :
    Kept s s' := by
  unfold nextEvent at h
  split at h
  · cases h
  · split at h <;> cases h
    · exact frame_kept.draws s _
    · exact frame_kept.composes.refl s

theorem lands_deliver (fuel : Nat) (ev : Event) (s : State) : Lands s (deliver fuel ev s) := by
  induction fuel generalizing ev s with
  | zero => exact lands_shutDown (frame_memKept.composes.refl s)
  | succ fuel ih =>
    obtain ⟨km, kl⟩ := keeps_enter s ev s (ModeKept.refl s)
    have second {ret : Word} {e : Exc} {u : State} (hk : Kept s u) :
        Lands s (match nextEvent ev e ret u with
          | none => .next u.shutDown
          | some (ev', s') => deliver fuel ev' s'.inOwnMode) := by
      cases hn : nextEvent ev e ret u with
      | none => exact lands_shutDown hk.1
      | some p =>
        obtain ⟨ev', s'⟩ := p
        exact .of_kept (frame_kept.trans hk (frame_kept.trans (kept_nextEvent hn) (kept_inOwnMode s'))) (ih ev' _)
    unfold deliver
    cases he : enter ev s with
    | ok p => exact lands_next (km p.2 (.inl ⟨p.1, he⟩)) fun hl => (kl hl).1 p.1 p.2 he
    | error stop =>
      cases stop with
      | exc e u => exact second (kept_abandon (km u (.inr ⟨_, he, rfl⟩)))
      | late e u => exact second ⟨km u (.inr ⟨_, he, rfl⟩), fun hl => (kl hl).2 e u he⟩
      | shutdown u => exact lands_shutDown (kept_abandon (km u (.inr ⟨_, he, rfl⟩))).1
      | fault f => exact fun t ht => (nomatch ht)
      | refuse r => exact fun t ht => (nomatch ht)

theorem lands_take (ev : Event) (s : State) : Lands s (take ev s) := .of_kept (kept_inOwnMode s) (lands_deliver _ ev _)

theorem lands_takeSoftware (ev : Event) (s : State) : Lands s (takeSoftware ev s) := lands_deliver _ ev s

/-! ## The end of an instruction -/

theorem kept_retire (s s0 : State) (fin : Ending) : Kept s (s.retire s0 fin) :=
  Steady.kept ⟨fun w => by simpa using w, rfl, rfl, rfl⟩

theorem lands_conclude {s : State} {m : M Ending} (h : Keeps s m) : Lands s (conclude s (m s)) := by
  obtain ⟨km, kl⟩ := h s (ModeKept.refl s)
  unfold conclude
  cases hm : m s with
  | ok p =>
    obtain ⟨fin, u⟩ := p
    exact lands_next (frame_memKept.trans (km u (.inl ⟨fin, hm⟩)) (kept_retire u s fin).1)
      fun hl => (kept_retire u s fin).2 ((kl hl).1 fin u hm)
  | error stop =>
    cases stop with
    | exc e u => exact .of_kept (kept_abandon (km u (.inr ⟨_, hm, rfl⟩))) (lands_take _ _)
    | late e u => exact .of_kept ⟨km u (.inr ⟨_, hm, rfl⟩), fun hl => (kl hl).2 e u hm⟩ (lands_take _ _)
    | shutdown u => exact lands_shutDown (kept_abandon (km u (.inr ⟨_, hm, rfl⟩))).1
    | fault f => exact fun t ht => (nomatch ht)
    | refuse r => exact fun t ht => (nomatch ht)

theorem lands_of_keeps {s : State} {m : M Ending} (h : Keeps s m) : Lands s (runEnding m s) := lands_conclude h

theorem lands_run_of_keeps {s : State} {m : M Unit} (h : Keeps s m) : Lands s (run m s) :=
  lands_conclude (h.seq fun _ _ => .of_steady (frame_steady.pure _))

theorem lands_runEnding {s : State} {m : M Ending} (h : Within Steady m) : Lands s (runEnding m s) := lands_of_keeps (.of_steady h)

theorem lands_run {s : State} {m : M Unit} (h : Within Steady m) : Lands s (run m s) := lands_run_of_keeps (.of_steady h)

/-! ## Instructions that write CR0 or EFLAGS whole -/

theorem putCr0_kept (s : State) (c : Cr0) : (s.putCr0 c).cpl = s.cpl ∧ (s.putCr0 c).flags = s.flags ∧ (s.putCr0 c).mem = s.mem := by
  unfold State.putCr0 State.keepAhead
  cases c.pg == s.cr0.pg <;> cases c.pe == s.cr0.pe <;> exact ⟨rfl, rfl, rfl⟩

/-- At level 0 CR0 may take any value: VM is clear there. -/
theorem keeps_putCr0 {s0 : State} (h : s0.cpl = 0) (c : State → Cr0) : Keeps s0 (update fun t => t.putCr0 (c t)) := by
  refine .update (fun t => (putCr0_kept t _).2.2) fun t ht hl => ?_
  have h0 : t.cpl = 0 := ht.1.trans h
  have hv : t.flags.vm = false := by
    by_contra hv
    exact absurd (h0.symm.trans (State.modeLegal_levelOk hl (by simpa using hv))) (by decide)
  obtain ⟨hc, hf, -⟩ := putCr0_kept t (c t)
  exact State.modeLegal_of_level (c := 0) (hc.trans h0) (by rw [hf, hv]) fun _ => rfl

theorem keeps_writeCr {s0 : State} (h : s0.cpl = 0) (cr : CrReg) (v : Word) : Keeps s0 (writeCr cr v) := by
  have f := frame_steady
  cases cr with
  | cr0 => exact .ite (fun _ => .of_steady (Within.refuse _)) fun _ => keeps_putCr0 h _
  | cr2 => exact .of_steady (Within.update fun t => f.cr2 t _)
  | cr3 =>
    refine .of_steady (Within.update fun t => f.trans (f.trans ?_ (f.cr3 _ _)) (f.tlb _ _))
    cases t.pagingOn
    · exact f.composes.refl t
    · exact f.fetch t _

theorem keeps_popf (s : State) : Keeps s (do
    needV86Iopl
    let img ← popValue
    putFlags fun _ => s.popFlags img
    pure Ending.loadedRf) := by
  have f := frame_steady
  refine .bind (within_needV86Iopl f) fun _ => .bind (within_popValue f) fun img =>
    .update_bind (fun _ => rfl) (fun t ht hl => ?_) fun _ => .of_steady (f.pure _)
  exact (show ModeKept t (t.mapFlags fun _ => s.popFlags img) from ⟨rfl, ht.2.1.symm, rfl⟩).modeLegal.trans hl

/-! ## Every instruction -/

/-- Every instruction keeps the form of memory and a legal mode. -/
theorem lands_exec (i : Instr) (s : State) : Lands s (exec i s) := by
  have f := frame_steady
  cases i with
  | pfxEs | pfxCs | pfxSs | pfxDs | pfxFs | pfxGs | pfxOpsize | pfxAddrsize | pfxLock | pfxRepne | pfxRep =>
    exact lands_next (fun w => w) fun h => h
  | movRmR w reg rm | movRm8Imm rm imm | movRmImm rm imm | setcc cc rm => exact lands_run (within_moveToRm f _ _ _)
  | movRRm w reg rm | movsx w reg rm | movzx w reg rm =>
    exact lands_run (f.bind (within_readRm f _ _) fun _ => within_putReg f _ _ _)
  | movR8Imm reg imm | movRImm reg imm | lahf => exact lands_run (within_putReg f _ _ _)
  | movAccMoffs w off | xlat => exact lands_run (f.bind (within_readAt f _ _ _) fun _ => within_putReg f _ _ _)
  | movMoffsAcc w off => exact lands_run (f.bind (within_plan f _ _ _ _) fun _ => within_storeAt f _ _ _)
  | movSregRm sr rm => exact lands_run (f.bind (within_readRm f _ _) fun _ => within_moveToSeg f _ _)
  | movRmSreg sr rm => exact lands_run (within_storeSel f _ _)
  | pushR reg | pushImm imm | pushImm8 imm => exact lands_run (within_pushValue f _)
  | pushSreg sr | pushFs | pushGs => exact lands_run (within_pushSeg f _)
  | pusha => exact lands_run (f.bind (within_pushaGuard f) fun _ => within_pushAll f _ _)
  | popRm rm => exact lands_run (f.bind (within_popValue f) fun _ => within_moveToRm f _ _ _)
  | popR reg => exact lands_run (f.bind (within_popValue f) fun _ => within_putReg f _ _ _)
  | popEs | popSs | popDs | popFs | popGs => exact lands_run (within_popSeg f _)
  | popa =>
    exact lands_run (f.bind (within_stackSlots f _ _) fun _ => f.bind (within_stackRead f _ _) fun _ =>
      f.bind (within_stackRead f _ _) fun _ => f.bind (within_stackRead f _ _) fun _ =>
      f.bind (within_stackRead f _ _) fun _ => f.bind (within_stackRead f _ _) fun _ =>
      f.bind (within_stackRead f _ _) fun _ => f.bind (within_stackRead f _ _) fun _ =>
      f.bind (within_releaseStack f _) fun _ => Within.update fun t => f.regs t _)
  | nop => exact lands_run (f.pure ())
  | xchgAccR reg => exact lands_run (f.bind (within_putReg f _ _ _) fun _ => within_putReg f _ _ _)
  | xchgRmR w reg rm =>
    exact lands_run (f.bind (within_modifyRm f _ _) fun _ => f.bind (within_putPlace f _ _ _) fun _ => within_putReg f _ _ _)
  | inImm w port | inDx w => exact lands_run (within_inPort f _ _)
  | outImm w port | outDx w => exact lands_run (within_outPort f _ _)
  | lea reg m => exact lands_run (f.bind (within_effective f _) fun _ => within_putReg f _ _ _)
  | lds reg m | les reg m | lfs reg m | lgs reg m | lss reg m => exact lands_run (within_loadFarPointer f _ _ _)
  | clc | cld | cmc | sahf | stc | std => exact lands_run (within_putFlags f fun _ => by rfl)
  | cli => exact lands_run (f.bind (within_needIopl f) fun _ => within_putFlags f fun _ => rfl)
  | popf => exact lands_of_keeps (keeps_popf s)
  | pushf => exact lands_run (f.bind (within_needV86Iopl f) fun _ => within_pushValue f _)
  | sti =>
    exact lands_run (f.bind (within_needIopl f) fun _ => f.bind (Within.cond (f.pure _) (Within.update fun t => f.pend t _))
      fun _ => within_putFlags f fun _ => rfl)
  | clts => exact lands_run (f.bind (within_needCpl0 f) fun _ => Within.update fun t => f.cr0 t _ rfl)
  | addRmR d w reg rm => exact lands_run (within_aluRmR f (within_opAdd f) _ _ _ _)
  | addAlImm imm | addEaxImm imm => exact lands_run (within_aluAcc f (within_opAdd f) _ _)
  | addRm8Imm rm imm | addRmImm rm imm | addRmImm8s rm imm => exact lands_run (within_aluRm f (within_opAdd f) _ _ _)
  | orRmR d w reg rm => exact lands_run (within_aluRmR f (within_opOr f) _ _ _ _)
  | orAlImm imm | orEaxImm imm => exact lands_run (within_aluAcc f (within_opOr f) _ _)
  | orRm8Imm rm imm | orRmImm rm imm | orRmImm8s rm imm => exact lands_run (within_aluRm f (within_opOr f) _ _ _)
  | adcRmR d w reg rm => exact lands_run (within_aluRmR f (within_opAdc f) _ _ _ _)
  | adcAlImm imm | adcEaxImm imm => exact lands_run (within_aluAcc f (within_opAdc f) _ _)
  | adcRm8Imm rm imm | adcRmImm rm imm | adcRmImm8s rm imm => exact lands_run (within_aluRm f (within_opAdc f) _ _ _)
  | sbbRmR d w reg rm => exact lands_run (within_aluRmR f (within_opSbb f) _ _ _ _)
  | sbbAlImm imm | sbbEaxImm imm => exact lands_run (within_aluAcc f (within_opSbb f) _ _)
  | sbbRm8Imm rm imm | sbbRmImm rm imm | sbbRmImm8s rm imm => exact lands_run (within_aluRm f (within_opSbb f) _ _ _)
  | andRmR d w reg rm => exact lands_run (within_aluRmR f (within_opAnd f) _ _ _ _)
  | andAlImm imm | andEaxImm imm => exact lands_run (within_aluAcc f (within_opAnd f) _ _)
  | andRm8Imm rm imm | andRmImm rm imm | andRmImm8s rm imm => exact lands_run (within_aluRm f (within_opAnd f) _ _ _)
  | subRmR d w reg rm => exact lands_run (within_aluRmR f (within_opSub f) _ _ _ _)
  | subAlImm imm | subEaxImm imm => exact lands_run (within_aluAcc f (within_opSub f) _ _)
  | subRm8Imm rm imm | subRmImm rm imm | subRmImm8s rm imm => exact lands_run (within_aluRm f (within_opSub f) _ _ _)
  | xorRmR d w reg rm => exact lands_run (within_aluRmR f (within_opXor f) _ _ _ _)
  | xorAlImm imm | xorEaxImm imm => exact lands_run (within_aluAcc f (within_opXor f) _ _)
  | xorRm8Imm rm imm | xorRmImm rm imm | xorRmImm8s rm imm => exact lands_run (within_aluRm f (within_opXor f) _ _ _)
  | cmpRmR d w reg rm =>
    exact lands_run (f.bind (within_readRm f _ _) fun _ => Within.cond (within_opCmp f _ _ _) (within_opCmp f _ _ _))
  | cmpAlImm imm | cmpEaxImm imm => exact lands_run (within_opCmp f _ _ _)
  | cmpRm8Imm rm imm | cmpRmImm rm imm | cmpRmImm8s rm imm => exact lands_run (within_compareRm f _ _ _)
  | incRm w rm => exact lands_run (within_unaryRm f _ _ _ fun _ _ => by rfl)
  | incR reg => exact lands_run (within_unaryRm f s.opWidth (.reg reg) (· + 1) (g := Flags.inc) fun _ _ => rfl)
  | decRm w rm => exact lands_run (within_unaryRm f _ _ _ fun _ _ => by rfl)
  | decR reg => exact lands_run (within_unaryRm f s.opWidth (.reg reg) (· - 1) (g := Flags.dec) fun _ _ => rfl)
  | negRm w rm | notRm w rm => exact lands_run (within_unaryRm f _ _ _ fun _ _ => by rfl)
  | aaa | aas => exact lands_run (within_asciiAdjust f _ _)
  | daa => exact lands_run (within_decimalAdjust f daaValue)
  | das => exact lands_run (within_decimalAdjust f dasValue)
  | aam imm => exact lands_run (f.bind (f.check _ _) fun _ => within_putAdjusted f _ _)
  | aad imm => exact lands_run (within_putAdjusted f _ _)
  | mulRm w rm | imulRm w rm =>
    exact lands_run (f.bind (within_readRm f _ _) fun _ => f.bind (within_putWide f _ _ _) fun _ => within_mulFlags f _)
  | imulRRm reg rm | imulRRmImm reg rm imm | imulRRmImm8 reg rm imm =>
    exact lands_run (f.bind (within_readRm f _ _) fun _ => within_mulToReg f _ _ _ _)
  | divRm w rm | idivRm w rm =>
    exact lands_run (f.bind (within_readRm f _ _) fun _ => f.bind (f.check _ _) fun _ => f.bind (f.check _ _) fun _ =>
      f.bind (within_putWide f _ _ _) fun _ => within_freeFlags f)
  | cbw | cwde => exact lands_run (within_signAcc f)
  | cwd | cdq => exact lands_run (within_signDx f)
  | testAlImm imm | testEaxImm imm => exact lands_run (within_opTest f _ _ _)
  | testRm8Imm rm imm | testRmImm rm imm | testRmR w reg rm =>
    exact lands_run (f.bind (within_readRm f _ _) fun _ => within_opTest f _ _ _)
  | rolRm1 w rm | rolRmCl w rm | rolRmImm w rm imm | rorRm1 w rm | rorRmCl w rm | rorRmImm w rm imm
  | rclRm1 w rm | rclRmCl w rm | rclRmImm w rm imm | rcrRm1 w rm | rcrRmCl w rm | rcrRmImm w rm imm
  | shlRm1 w rm | shlRmCl w rm | shlRmImm w rm imm | shrRm1 w rm | shrRmCl w rm | shrRmImm w rm imm
  | sarRm1 w rm | sarRmCl w rm | sarRmImm w rm imm =>
    exact lands_run (within_shiftRm f _ _ _ _ _)
  | shldImm reg rm imm | shldCl reg rm => exact lands_run (within_shiftLeftDouble f _ _ _)
  | shrdImm reg rm imm | shrdCl reg rm => exact lands_run (within_shiftRightDouble f _ _ _)
  | movs w => exact lands_runEnding (within_repeated f _ (within_moveElement f _))
  | cmps w => exact lands_runEnding (within_repeated f _ (within_compareElements f _))
  | scas w => exact lands_runEnding (within_repeated f _ (within_scanElement f _))
  | stos w => exact lands_runEnding (within_repeated f _ (within_storeElement f _))
  | lods w => exact lands_runEnding (within_repeated f _ (within_loadElement f _))
  | ins w => exact lands_runEnding (within_repeated f _ (within_inputElement f _))
  | outs w => exact lands_runEnding (within_repeated f _ (within_outputElement f _))
  | btImm rm imm => exact lands_run (f.bind (within_readRm f _ _) fun _ => within_testBit f _ _ _)
  | btsImm rm imm | btrImm rm imm | btcImm rm imm => exact lands_run (within_changeBitImm f _ _ _)
  | btR reg rm => exact lands_run (within_testBitReg f _ _)
  | btsR reg rm | btrR reg rm | btcR reg rm => exact lands_run (within_changeBitReg f _ _ _)
  | bsf reg rm | bsr reg rm => exact lands_run (within_scanRm f _ _ _)
  | jmpRel8 d | jmpRel d => exact lands_run (within_jumpRel f _)
  | jmpRm rm => exact lands_run (f.bind (within_indirectTarget f _) fun _ => within_jumpTo f _)
  | jmpFar off sel | callFar off sel => exact lands_of_keeps (keeps_farTransfer s _ _ _)
  | jmpMemFar m | callMemFar m => exact lands_of_keeps (.bind (within_readFarPointer f _) fun _ => keeps_farTransfer s _ _ _)
  | callRel d => exact lands_run (f.bind (within_relTarget f _) fun _ => within_callTo f _)
  | callRm rm => exact lands_run (f.bind (within_indirectTarget f _) fun _ => within_callTo f _)
  | pushRm rm => exact lands_run (f.bind (within_readRm f _ _) fun _ => within_pushValue f _)
  | retNear | retNearImm n => exact lands_run (within_returnNear f _)
  | retFar | retFarImm n => exact lands_run_of_keeps (keeps_retFar s _)
  | jccRel8 cc d | jccRel cc d | jcxz d => exact lands_run (within_jumpIf f _ _)
  | loop d | loope d | loopne d => exact lands_run (within_loopIf f _ _)
  | enter size level => exact lands_run (within_enterFrame f _ _)
  | leave => exact lands_run (within_leaveFrame f)
  | int n => exact lands_ite (lands_run (f.raise _)) (lands_takeSoftware _ s)
  | int3 => exact lands_takeSoftware _ s
  | into => exact lands_ite (lands_takeSoftware _ s) (lands_run (f.pure _))
  | bound reg m =>
    exact lands_run (f.bind (within_addressOf f _) fun _ => f.bind (within_readAt f _ _ _) fun _ => f.bind (within_readAt f _
      _ _) fun _ => f.check _ _)
  | iret => exact lands_of_keeps (keeps_returnInterrupt s)
  | hlt => exact lands_run (f.bind (within_needCpl0 f) fun _ => Within.update fun t => f.pend t _)
  | movRCr reg cr =>
    exact lands_run (f.bind (within_needCpl0 f) fun _ => f.bind (within_readCr f _) fun _ => f.bind (within_putReg f _ _ _)
      fun _ => within_freeFlags f)
  | movCrR cr reg =>
    exact lands_run_of_keeps (.needCpl0_bind fun h => (keeps_writeCr h _ _).seq fun _ _ => .of_steady (within_freeFlags f))
  | movRDr reg dr =>
    exact lands_run (f.bind (within_needDebug f) fun _ => f.bind (within_readDr f _) fun _ => f.bind (within_putReg f _ _ _)
      fun _ => within_freeFlags f)
  | movDrR dr reg =>
    exact lands_run (f.bind (within_needDebug f) fun _ => f.bind (Within.update fun t => f.dregs t _) fun _ =>
      within_freeFlags f)
  | movRTr reg tr =>
    exact lands_run (f.bind (within_needCpl0 f) fun _ => f.bind (within_putReg f _ _ _) fun _ => within_freeFlags f)
  | movTrR tr reg =>
    exact lands_run (f.bind (within_needCpl0 f) fun _ => f.bind (Within.update fun t => f.test t _) fun _ => within_freeFlags
      f)
  | wait =>
    exact lands_runEnding (f.bind (f.check _ _) fun _ => Within.ite (f.bind (within_rewind f) fun _ => f.pure _) (f.bind
      (f.check _ _) fun _ => f.pure _))
  | esc ttt lll rm =>
    exact lands_run (f.bind (f.check _ _) fun _ => f.bind (Within.ite (Within.stopFault _) (f.pure _)) fun _ => f.bind
      (f.check _ _) fun _ => within_escStep f _ _ _)
  | arpl reg rm =>
    exact lands_run (f.bind (within_needProtMode f) fun _ => f.bind (within_targetRm f _) fun _ => f.bind (within_inspect f _
      _) fun _ => Within.ite (f.bind (within_placeOf f _ _) fun _ => f.bind (within_putFlags f fun _ => rfl) fun _ =>
      within_putPlace f _ _ _) (within_putFlags f fun _ => rfl))
  | lar reg rm | lsl reg rm => exact lands_run (within_examine f _ _ _ _)
  | sldt rm | str rm => exact lands_run (f.bind (within_needProtMode f) fun _ => within_storeSel f _ _)
  | lldt rm =>
    exact lands_run (f.bind (within_needProtMode f) fun _ => f.bind (within_needCpl0 f) fun _ => f.bind (within_readRm f _ _)
      fun _ => Within.ite (within_putLdtr f _) (f.bind (f.check _ _) fun _ => f.bind (within_needDesc f _ _) fun _ => f.bind
      (f.check _ _) fun _ => f.bind (f.check _ _) fun _ => within_putLdtr f _))
  | ltr rm =>
    exact lands_run (f.bind (within_needProtMode f) fun _ => f.bind (within_needCpl0 f) fun _ => f.bind (within_readRm f _ _)
      fun _ => f.bind (f.check _ _) fun _ => f.bind (f.check _ _) fun _ => f.bind (within_needDesc f _ _) fun _ => f.bind
      (Within.ite (Within.refuse _) (f.pure _)) fun _ => f.bind (f.check _ _) fun _ => f.bind (f.check _ _) fun _ =>
        f.bind (within_planBusy f _) fun _ => f.bind (within_writeBusy f _ _) fun _ => Within.update fun t => f.tables t _)
  | verr rm | verw rm => exact lands_run (within_verify f _ _)
  | sgdt m | sidt m => exact lands_run (within_storeTable f _ _)
  | lgdt m | lidt m => exact lands_run (f.bind (within_loadTable f _) fun _ => Within.update fun t => f.tables t _)
  | smsw rm => exact lands_run (f.bind (within_placeRm f _ _) fun _ => f.bind (f.drawBits _) fun _ => within_putSel f _ _)
  | lmsw rm => exact lands_run_of_keeps (.needCpl0_bind fun h => .bind (within_readRm f _ _) fun _ => keeps_putCr0 h _)

/-! ## Fetch -/

theorem within_queued {R : State → State → Prop} (f : Frame R) (a : Word) (l : List Host.Cell) (b : Byte) :
    Within R (queued a l b) := by
  induction l with
  | nil => exact f.pure b
  | cons c l ih => exact Within.ite (f.bind f.drawBit fun _ => Within.cond (f.pure _) ih) ih

theorem within_drawByte {R : State → State → Prop} (f : Frame R) (l : List Byte) : Within R (drawByte l) := by
  induction l with
  | nil => exact f.pure _
  | cons b l ih => exact f.bind f.drawBit fun _ => Within.cond (f.pure _) ih

theorem within_fetchByte {R : State → State → Prop} (f : Frame R) (i : Nat) : Within R (fetchByte i) := by
  refine f.bind f.get fun s => f.bind (f.check _ _) fun _ => f.bind (within_drawByte f _) fun b => ?_
  cases b with
  | some b => exact f.pure b
  | none => exact f.bind (within_translate f _ _ _) fun _ => f.bind (within_physReadByte f _) fun _ => within_queued f _ _ _

theorem within_fetchBytes {R : State → State → Prop} (f : Frame R) (c : Ctx) (fuel : Nat) (bs : List Byte) :
    Within R (fetchBytes c fuel bs) := by
  induction fuel generalizing bs with
  | zero => exact f.raise _
  | succ fuel ih =>
    refine f.bind (within_fetchByte f _) fun b => ?_
    dsimp only
    split
    · exact f.pure _
    · exact ih _
    · exact Within.refuse _
    · exact f.raise _

theorem within_fetchInstr {R : State → State → Prop} (f : Frame R) : Within R fetchInstr := by
  have hsize : Within R useOldSize := f.bind (f.look _) fun _ => Within.ite f.drawBit (f.pure _)
  have hmode (i : Instr) (flip : Bool) : Within R (useOldMode i flip) :=
    f.bind f.get fun _ => Within.ite (f.pure _) (Within.ite (f.pure _) f.drawBit)
  refine f.bind hsize fun flip => f.bind f.get fun s => f.bind (within_fetchBytes f _ _ _) fun p =>
    f.bind (hmode p.1 flip) fun old =>
    f.bind (Within.update fun t => ?_) fun _ => f.pure _
  unfold State.ready
  cases isPrefix p.1
  · exact f.trans (f.eip t _) (f.fetch _ _)
  · exact f.eip t _

/-! ## The step -/

theorem lands_runFetched (i : Instr) (s : State) : Lands s (runFetched i s) := by
  unfold runFetched
  split
  · exact lands_conclude (m := raise _) (.of_steady (frame_steady.raise _))
  · exact lands_exec i s

theorem lands_fetchAndRun (s : State) : Lands s (fetchAndRun s) := by
  have hw := within_fetchInstr frame_steady
  unfold fetchAndRun
  cases h : fetchInstr s with
  | ok p => exact .of_kept (hw.of_ok h).kept (lands_runFetched p.1 p.2)
  | error e =>
    have hc := lands_conclude (s := s) (m := fetchInstr >>= fun _ => pure Ending.plain)
      (.of_steady (frame_steady.bind hw fun _ => frame_steady.pure _))
    rwa [M.bind_error h] at hc

theorem kept_beginInstr (s : State) : Kept s s.beginInstr := frame_kept.trans (frame_kept.pend s _) (frame_kept.fetch _ _)

theorem lands_startInstr (s : State) : Lands s (startInstr s) := by
  have f := frame_kept
  unfold startInstr
  split
  · exact .of_kept (f.trans (kept_beginInstr s) (f.trans (f.eip _ _) (f.fetch _ _))) (lands_runFetched _ _)
  · exact lands_ite (.of_kept (kept_beginInstr s) (lands_fetchAndRun _))
      (.of_kept (f.trans (kept_beginInstr s) (f.trans (f.dregs _ _) (f.draws _ _))) (lands_take _ _))

theorem lands_boundary (s : State) : Lands s (boundary s) := by
  have f := frame_kept
  have hproceed : Lands s (proceed s) := lands_ite (lands_next (f.pend s _).1 (f.pend s _).2) (lands_startInstr s)
  have hafter : Lands s (afterNmi s) := by
    unfold afterNmi
    split
    · exact hproceed
    · exact lands_ite (.of_kept (f.pins s _) (lands_take _ _)) hproceed
  exact lands_ite (.of_kept (f.trans (f.dregs s _) (f.trans (f.pend _ _) (f.draws _ _))) (lands_take _ _))
    (lands_ite (.of_kept (f.pins s _) (lands_take _ _)) hafter)

theorem lands_step {s t : State} (h : step s = .next t) : MemKept s t ∧ (s.modeOk = true → t.modeOk = true) := by
  unfold step stepOnce at h
  split at h
  · cases h
    exact ⟨fun w => w, fun _ => rfl⟩
  · split at h
    · cases h
    · rename_i hrun
      have hl : s.modeOk = true → s.modeLegal = true := fun h => by simpa [State.modeOk, hrun] using h
      split at h
      · exact ⟨(lands_boundary s t h).1, fun ho => (lands_boundary s t h).2 (hl ho)⟩
      · exact ⟨(lands_fetchAndRun s t h).1, fun ho => (lands_fetchAndRun s t h).2 (hl ho)⟩

/-! ## The statements -/

/-- Settles O2: every write goes through `Memory.write`, which keeps the form. -/
theorem stepKeepsMemoryForm : Obligations.StepKeepsMemoryForm := fun _ _ hs h => (lands_step h).1 hs

/-- Settles O3: the level and the mode change only at the end of a transfer, a return, a delivery or a task switch, or by a write of CR0,
and legally there. -/
theorem stepKeepsMode : Obligations.StepKeepsMode := fun _ _ hs h => (lands_step h).2 hs

end Sys2Proof.Machine
end

section
/-!
PROOFS. The decoder reads back what the encoder writes (30_encoding.md R160 to R204): the fields, the mod r/m operand, the tails, and then
one case per instruction.
-/

namespace Sys2Proof

/-! ## Fields (R160, R170 to R181) -/

theorem modOf_packByte (md : BitVec 2) (reg rm : BitVec 3) : modOf (packByte md reg rm) = md := by revert md reg rm; decide
theorem regOf_packByte (md : BitVec 2) (reg rm : BitVec 3) : regOf (packByte md reg rm) = reg := by revert md reg rm; decide
theorem rmOf_packByte (md : BitVec 2) (reg rm : BitVec 3) : rmOf (packByte md reg rm) = rm := by revert md reg rm; decide

@[simp] theorem Gpr.ofBits_toBits (r : Gpr) : Gpr.ofBits r.toBits = r := by cases r <;> rfl
@[simp] theorem Sreg.ofBits_toBits (r : Sreg) : Sreg.ofBits r.toBits = some r := by cases r <;> rfl
@[simp] theorem CrReg.ofBits_toBits (r : CrReg) : CrReg.ofBits r.toBits = some r := by cases r <;> rfl
@[simp] theorem DrReg.ofBits_toBits (r : DrReg) : DrReg.ofBits r.toBits = some r := by cases r <;> rfl
@[simp] theorem TrReg.ofBits_toBits (r : TrReg) : TrReg.ofBits r.toBits = some r := by cases r <;> rfl
@[simp] theorem Base16.ofBits_toBits (b : Base16) : Base16.ofBits b.toBits = b := by cases b <;> rfl

theorem Gpr.toBits_eq_four {r : Gpr} : r.toBits = 4#3 ↔ r = .sp := by cases r <;> decide
theorem Gpr.toBits_eq_five {r : Gpr} : r.toBits = 5#3 ↔ r = .bp := by cases r <;> decide
theorem Base16.toBits_eq_six {b : Base16} : b.toBits = 6#3 ↔ b = .bp := by cases b <;> decide

theorem le16_bytes (v : HWord) : le16 (v.extractLsb' 0 8) (v.extractLsb' 8 8) = v :=
  (BitVec.extractLsb'_append_extractLsb'_eq_extractLsb' rfl).trans BitVec.extractLsb'_eq_self

theorem le32_bytes (v : Word) :
    le32 (v.extractLsb' 0 8) (v.extractLsb' 8 8) (v.extractLsb' 16 8) (v.extractLsb' 24 8) = v := by
  unfold le32
  rw [BitVec.extractLsb'_append_extractLsb'_eq_extractLsb' (start₁ := 16) (start₂ := 24) (len₁ := 8) rfl,
    BitVec.extractLsb'_append_extractLsb'_eq_extractLsb' (start₁ := 8) (start₂ := 16) (len₁ := 8) rfl,
    BitVec.extractLsb'_append_extractLsb'_eq_extractLsb' (start₁ := 0) (start₂ := 8) (len₁ := 8) rfl]
  exact BitVec.extractLsb'_eq_self

/-- A full-size field that fits its size is read back (R188). -/
theorem parseFull_encodeFull {is32 : Bool} {v : Word} (h : fitsSize is32 v = true) (rest : List Byte) :
    parseFull is32 (encodeFull is32 v ++ rest) = some (v, rest) := by
  cases is32
  · have hv : v.toNat < 65536 := by simpa [fitsSize] using h
    have hw : (v.setWidth 16).setWidth 32 = v := by
      apply BitVec.eq_of_toNat_eq
      simp only [BitVec.toNat_setWidth]
      omega
    show some ((le16 ((v.setWidth 16).extractLsb' 0 8) ((v.setWidth 16).extractLsb' 8 8)).setWidth 32, rest) = _
    rw [le16_bytes, hw]
  · show some (le32 (v.extractLsb' 0 8) (v.extractLsb' 8 8) (v.extractLsb' 16 8) (v.extractLsb' 24 8), rest) = _
    rw [le32_bytes]

/-! ## Operands (R180 to R185) -/

theorem parseMem16_m16 (base : Base16) (disp : Disp16) (h : ¬ (base = .bp ∧ disp = .none)) (rest : List Byte) :
    parseMem16 (encodeDisp16 disp).1 base.toBits ((encodeDisp16 disp).2 ++ rest) = some (.m16 base disp, rest) := by
  cases disp with
  | none =>
    have hb : base.toBits ≠ 6#3 := fun hb => h ⟨Base16.toBits_eq_six.mp hb, rfl⟩
    simp [encodeDisp16, parseMem16, hb]
  | d8 d => simp [encodeDisp16, parseMem16]
  | d16 d => simp [encodeDisp16, parseMem16, bytes16, le16_bytes]

theorem parseMem32_m32 (base : Gpr) (disp : Disp32) (hs : base ≠ .sp) (h : ¬ (base = .bp ∧ disp = .none)) (rest : List Byte) :
    parseMem32 (encodeDisp32 disp).1 base.toBits ((encodeDisp32 disp).2 ++ rest) = some (.m32 base disp, rest) := by
  have h4 : base.toBits ≠ 4#3 := fun hb => hs (Gpr.toBits_eq_four.mp hb)
  cases disp with
  | none =>
    have hb : base.toBits ≠ 5#3 := fun hb => h ⟨Gpr.toBits_eq_five.mp hb, rfl⟩
    simp [encodeDisp32, parseMem32, h4, hb]
  | d8 d => simp [encodeDisp32, parseMem32, h4]
  | d32 d => simp [encodeDisp32, parseMem32, h4, bytes32, le32_bytes]

theorem parseSib_sib (ss : BitVec 2) (index base : Gpr) (disp : Disp32) (h : ¬ (base = .bp ∧ disp = .none)) (rest : List Byte) :
    parseSib (encodeDisp32 disp).1 (packByte ss index.toBits base.toBits) ((encodeDisp32 disp).2 ++ rest) =
      some (.sib ss index base disp, rest) := by
  cases disp with
  | none =>
    have hb : base.toBits ≠ 5#3 := fun hb => h ⟨Gpr.toBits_eq_five.mp hb, rfl⟩
    simp [encodeDisp32, parseSib, modOf_packByte, regOf_packByte, rmOf_packByte, hb]
  | d8 d => simp [encodeDisp32, parseSib, modOf_packByte, regOf_packByte, rmOf_packByte]
  | d32 d => simp [encodeDisp32, parseSib, modOf_packByte, regOf_packByte, rmOf_packByte, bytes32, le32_bytes]

/-- The mod field of a displacement form is not that of a register operand. -/
theorem encodeDisp16_mod (d : Disp16) : (encodeDisp16 d).1 ≠ 3#2 := by cases d <;> simp [encodeDisp16]
theorem encodeDisp32_mod (d : Disp32) : (encodeDisp32 d).1 ≠ 3#2 := by cases d <;> simp [encodeDisp32]

/-- The bytes of an encodable memory operand are a mod r/m byte with the reg field and bytes that the operand is read back from. -/
theorem parseRm_encodeMem {a : Bool} {m : MemOp} (h : m.wellFormed a = true) (reg : BitVec 3) :
    ∃ b t, encodeMem reg m = b :: t ∧ regOf b = reg ∧ ∀ rest, parseRm a b (t ++ rest) = some (.mem m, rest) := by
  cases m with
  | m16 base disp =>
    obtain ⟨rfl, hb⟩ : a = false ∧ ¬ (base = .bp ∧ disp = .none) := by simpa [MemOp.wellFormed, ← imp_iff_not_or] using h
    refine ⟨_, _, rfl, regOf_packByte .., fun rest => ?_⟩
    simp [parseRm, modOf_packByte, rmOf_packByte, encodeDisp16_mod, parseMem16_m16 base disp hb rest]
  | abs16 d =>
    obtain rfl : a = false := by simpa [MemOp.wellFormed, ← imp_iff_not_or] using h
    refine ⟨_, _, rfl, regOf_packByte .., fun rest => ?_⟩
    simp [parseRm, modOf_packByte, rmOf_packByte, parseMem16, bytes16, le16_bytes]
  | m32 base disp =>
    obtain ⟨⟨rfl, hs⟩, hb⟩ : (a = true ∧ base ≠ .sp) ∧ ¬ (base = .bp ∧ disp = .none) := by simpa [MemOp.wellFormed, ← imp_iff_not_or] using h
    refine ⟨_, _, rfl, regOf_packByte .., fun rest => ?_⟩
    simp [parseRm, modOf_packByte, rmOf_packByte, encodeDisp32_mod, parseMem32_m32 base disp hs hb rest]
  | abs32 d =>
    obtain rfl : a = true := h
    refine ⟨_, _, rfl, regOf_packByte .., fun rest => ?_⟩
    simp [parseRm, modOf_packByte, rmOf_packByte, parseMem32, bytes32, le32_bytes]
  | sib ss index base disp =>
    obtain ⟨rfl, hb⟩ : a = true ∧ ¬ (base = .bp ∧ disp = .none) := by simpa [MemOp.wellFormed, ← imp_iff_not_or] using h
    refine ⟨_, _, rfl, regOf_packByte .., fun rest => ?_⟩
    simp [parseRm, modOf_packByte, rmOf_packByte, encodeDisp32_mod, parseMem32, parseSib_sib ss index base disp hb rest]
  | sibAbs ss index d =>
    obtain rfl : a = true := h
    refine ⟨_, _, rfl, regOf_packByte .., fun rest => ?_⟩
    simp [parseRm, modOf_packByte, rmOf_packByte, parseMem32, parseSib, regOf_packByte, bytes32, le32_bytes]

/-- As `parseRm_encodeMem`, of any operand. -/
theorem parseRm_encodeRm {a : Bool} {rm : Rm} (h : rm.wellFormed a = true) (reg : BitVec 3) :
    ∃ b t, encodeRm reg rm = b :: t ∧ regOf b = reg ∧ ∀ rest, parseRm a b (t ++ rest) = some (rm, rest) := by
  cases rm with
  | reg r =>
    refine ⟨_, _, rfl, regOf_packByte .., fun rest => ?_⟩
    simp [parseRm, modOf_packByte, rmOf_packByte]
  | mem m => exact parseRm_encodeMem h reg

/-! ## Opcodes and what follows them (R161, R188 to R190) -/

section
variable {c : Ctx} {rest : List Byte}

theorem decode_one {op : Byte} {bs : List Byte} (h : op ≠ 0x0F) : decode c (op :: bs) = parseShape c (oneByte c op) bs := if_neg h

theorem decode_two {op : Byte} {bs : List Byte} : decode c (0x0F :: op :: bs) = parseShape c (twoByte op) bs := rfl

/-- A mod r/m operand is read back, and its reg field. -/
theorem parseShape_encodeRm {k : BitVec 3 → Rm → Tail} {reg : BitVec 3} {rm : Rm} (h : rm.wellFormed c.addr32 = true)
    (bs : List Byte) : parseShape c (.modrm k) (encodeRm reg rm ++ bs) = parseTail c (k reg rm) bs := by
  obtain ⟨b, t, he, hr, hp⟩ := parseRm_encodeRm h reg
  rw [he, List.cons_append]
  simp only [parseShape, hp bs, hr]

theorem parse_rm {k : BitVec 3 → Rm → Tail} {reg : BitVec 3} {rm : Rm} {i : Instr} (h : rm.wellFormed c.addr32 = true)
    (hk : k reg rm = .done i) : parseShape c (.modrm k) (encodeRm reg rm ++ rest) = .ok i rest := by
  rw [parseShape_encodeRm h, hk]
  rfl

theorem parse_mem {k : BitVec 3 → Rm → Tail} {reg : BitVec 3} {m : MemOp} {i : Instr} (h : m.wellFormed c.addr32 = true)
    (hk : k reg (.mem m) = .done i) : parseShape c (.modrm k) (encodeMem reg m ++ rest) = .ok i rest :=
  parse_rm (rm := .mem m) h hk

theorem parse_rm_ib {k : BitVec 3 → Rm → Tail} {reg : BitVec 3} {rm : Rm} {f : Byte → Instr} {b : Byte}
    (h : rm.wellFormed c.addr32 = true) (hk : k reg rm = .ib f) :
    parseShape c (.modrm k) ((encodeRm reg rm ++ [b]) ++ rest) = .ok (f b) rest := by
  rw [List.append_assoc, parseShape_encodeRm h, hk]
  rfl

theorem parse_iv {f : Word → Instr} {v : Word} (h : fitsSize c.op32 v = true) :
    parseShape c (.tail (.iv f)) (encodeFull c.op32 v ++ rest) = .ok (f v) rest := by
  simp only [parseShape, parseTail, parseFull_encodeFull h]

theorem parse_rm_iv {k : BitVec 3 → Rm → Tail} {reg : BitVec 3} {rm : Rm} {f : Word → Instr} {v : Word}
    (h : rm.wellFormed c.addr32 = true ∧ fitsSize c.op32 v = true) (hk : k reg rm = .iv f) :
    parseShape c (.modrm k) ((encodeRm reg rm ++ encodeFull c.op32 v) ++ rest) = .ok (f v) rest := by
  rw [List.append_assoc, parseShape_encodeRm h.1, hk]
  exact parse_iv h.2

theorem parse_moffs {f : Word → Instr} {v : Word} (h : fitsSize c.addr32 v = true) :
    parseShape c (.tail (.moffs f)) (encodeFull c.addr32 v ++ rest) = .ok (f v) rest := by
  simp only [parseShape, parseTail, parseFull_encodeFull h]

theorem parse_ptr {f : Word → HWord → Instr} {v : Word} {sel : HWord} (h : fitsSize c.op32 v = true) :
    parseShape c (.tail (.ptr f)) ((encodeFull c.op32 v ++ bytes16 sel) ++ rest) = .ok (f v sel) rest := by
  simp only [parseShape, parseTail, List.append_assoc, parseFull_encodeFull h, bytes16, List.cons_append, le16_bytes, List.nil_append]

theorem parse_iw {f : HWord → Instr} {v : HWord} : parseShape c (.tail (.iw f)) (bytes16 v ++ rest) = .ok (f v) rest := by
  simp only [parseShape, parseTail, bytes16, List.cons_append, List.nil_append, le16_bytes]

theorem parse_iwib {f : HWord → Byte → Instr} {v : HWord} {b : Byte} :
    parseShape c (.tail (.iwib f)) ((bytes16 v ++ [b]) ++ rest) = .ok (f v b) rest := by
  simp only [parseShape, parseTail, bytes16, List.cons_append, List.nil_append, le16_bytes]

/-- The opcodes of ESC hold three bits of the coprocessor's opcode. -/
theorem oneByte_esc (t : BitVec 3) : oneByte c (0b11011#5 ++ t) = .modrm fun reg rm => .done (.esc t reg rm) := by
  have hrow : ∀ t : BitVec 3, (0b11011#5 ++ t).toNat / 8 = 27 ∧ rmOf (0b11011#5 ++ t) = t := by decide
  simp only [oneByte, (hrow t).1, (hrow t).2]

theorem esc_ne_escape (t : BitVec 3) : (0b11011#5 ++ t : Byte) ≠ 0x0F := by revert t; decide

/-! ## The statement -/

/-- Every well-formed instruction is read back from its encoding. -/
theorem decode_encode (i : Instr) (h : WellFormed c i = true) : decode c (encode c i ++ rest) = .ok i rest := by
  cases i with
  | pfxEs | pfxCs | pfxSs | pfxDs | pfxFs | pfxGs | pfxOpsize | pfxAddrsize | pfxLock | pfxRepne | pfxRep | pushImm8 imm
  | pushFs | pushGs | pusha | popEs | popSs | popDs | popFs | popGs | popa | nop | clc | cld | cli | cmc | lahf | popf
  | pushf | sahf | stc | std | sti | clts | addAlImm imm | orAlImm imm | adcAlImm imm | sbbAlImm imm | andAlImm imm
  | subAlImm imm | xorAlImm imm | cmpAlImm imm | aaa | aas | daa | das | aam imm | aad imm | testAlImm imm | xlat | jmpRel8 d
  | retNear | retFar | jcxz d | loop d | loope d | loopne d | leave | int n | int3 | into | iret | hlt | wait => rfl
  | movRmR w reg rm | movRRm w reg rm | xchgRmR w reg rm | testRmR w reg rm =>
    cases w <;> exact (decode_one (by decide)).trans (parse_rm h (by simp))
  | movRm8Imm rm imm | addRm8Imm rm imm | addRmImm8s rm imm | orRm8Imm rm imm | orRmImm8s rm imm | adcRm8Imm rm imm
  | adcRmImm8s rm imm | sbbRm8Imm rm imm | sbbRmImm8s rm imm | andRm8Imm rm imm | andRmImm8s rm imm | subRm8Imm rm imm
  | subRmImm8s rm imm | xorRm8Imm rm imm | xorRmImm8s rm imm | cmpRm8Imm rm imm | cmpRmImm8s rm imm | testRm8Imm rm imm =>
    exact (decode_one (by decide)).trans (parse_rm_ib h rfl)
  | movRmImm rm imm | addRmImm rm imm | orRmImm rm imm | adcRmImm rm imm | sbbRmImm rm imm | andRmImm rm imm
  | subRmImm rm imm | xorRmImm rm imm | cmpRmImm rm imm | testRmImm rm imm =>
    exact (decode_one (by decide)).trans (parse_rm_iv (Bool.and_eq_true_iff.mp h) rfl)
  | movR8Imm reg imm | pushR reg | popR reg | incR reg | decR reg => cases reg <;> rfl
  | movRImm reg imm => cases reg <;> exact (decode_one (by decide)).trans (parse_iv h)
  | movAccMoffs w off | movMoffsAcc w off => cases w <;> exact (decode_one (by decide)).trans (parse_moffs h)
  | movRmSreg sr rm => exact (decode_one (by decide)).trans (parse_rm h (by simp [movFromSregTail]))
  | arpl reg rm => exact (decode_one (by decide)).trans (parse_rm h (by simp))
  | movsx w reg rm | movzx w reg rm => cases w <;> exact decode_two.trans (parse_rm h (by simp))
  | pushImm imm | addEaxImm imm | orEaxImm imm | adcEaxImm imm | sbbEaxImm imm | andEaxImm imm | subEaxImm imm
  | xorEaxImm imm | cmpEaxImm imm | testEaxImm imm | jmpRel d | callRel d => exact (decode_one (by decide)).trans (parse_iv h)
  | popRm rm | jmpRm rm | callRm rm | pushRm rm => exact (decode_one (by decide)).trans (parse_rm h rfl)
  | inImm w port | inDx w | outImm w port | outDx w | movs w | cmps w | scas w | stos w | lods w | ins w | outs w =>
    cases w <;> rfl
  | lea reg m | lds reg m | les reg m | bound reg m => exact (decode_one (by decide)).trans (parse_mem h (by simp [needMem]))
  | lfs reg m | lgs reg m | lss reg m => exact decode_two.trans (parse_mem h (by simp [needMem]))
  | addRmR d w reg rm | orRmR d w reg rm | adcRmR d w reg rm | sbbRmR d w reg rm | andRmR d w reg rm | subRmR d w reg rm
  | xorRmR d w reg rm | cmpRmR d w reg rm =>
    cases d <;> cases w <;> exact (decode_one (by decide)).trans (parse_rm h (by simp [aluRmR]))
  | incRm w rm | decRm w rm | negRm w rm | mulRm w rm | imulRm w rm | divRm w rm | idivRm w rm | notRm w rm | rolRm1 w rm
  | rolRmCl w rm | rorRm1 w rm | rorRmCl w rm | rclRm1 w rm | rclRmCl w rm | rcrRm1 w rm | rcrRmCl w rm | shlRm1 w rm
  | shlRmCl w rm | shrRm1 w rm | shrRmCl w rm | sarRm1 w rm | sarRmCl w rm =>
    cases w <;> exact (decode_one (by decide)).trans (parse_rm h rfl)
  | imulRRm reg rm | shldCl reg rm | shrdCl reg rm | btR reg rm | btsR reg rm | btrR reg rm | btcR reg rm | bsf reg rm
  | bsr reg rm | lar reg rm | lsl reg rm => exact decode_two.trans (parse_rm h (by simp))
  | imulRRmImm reg rm imm => exact (decode_one (by decide)).trans (parse_rm_iv (Bool.and_eq_true_iff.mp h) (by simp))
  | imulRRmImm8 reg rm imm => exact (decode_one (by decide)).trans (parse_rm_ib h (by simp))
  | rolRmImm w rm imm | rorRmImm w rm imm | rclRmImm w rm imm | rcrRmImm w rm imm | shlRmImm w rm imm | shrRmImm w rm imm
  | sarRmImm w rm imm => cases w <;> exact (decode_one (by decide)).trans (parse_rm_ib h rfl)
  | shldImm reg rm imm | shrdImm reg rm imm => exact decode_two.trans (parse_rm_ib h (by simp))
  | btImm rm imm | btsImm rm imm | btrImm rm imm | btcImm rm imm => exact decode_two.trans (parse_rm_ib h rfl)
  | jmpFar off sel | callFar off sel => exact (decode_one (by decide)).trans (parse_ptr h)
  | jmpMemFar m | callMemFar m => exact (decode_one (by decide)).trans (parse_mem h rfl)
  | retNearImm n | retFarImm n => exact (decode_one (by decide)).trans parse_iw
  | jccRel8 cc d => cases cc <;> rfl
  | sldt rm | str rm | lldt rm | ltr rm | verr rm | verw rm | smsw rm | lmsw rm => exact decode_two.trans (parse_rm h rfl)
  | sgdt m | sidt m | lgdt m | lidt m => exact decode_two.trans (parse_mem h rfl)
  | movSregRm sr rm =>
    obtain ⟨hs, hr⟩ := Bool.and_eq_true_iff.mp h
    cases sr with
    | cs => cases hs
    | _ => exact (decode_one (by decide)).trans (parse_rm hr rfl)
  | pushSreg sr =>
    cases sr with
    | fs | gs => cases h
    | _ => rfl
  | xchgAccR reg =>
    cases reg with
    | ax => cases h
    | _ => rfl
  | cbw | cwd =>
    obtain ⟨op32, addr32⟩ := c
    cases op32 with
    | false => rfl
    | true => cases h
  | cwde | cdq =>
    obtain ⟨op32, addr32⟩ := c
    cases op32 with
    | false => cases h
    | true => rfl
  | jccRel cc d => cases cc <;> exact decode_two.trans (parse_iv h)
  | setcc cc rm => cases cc <;> exact decode_two.trans (parse_rm h rfl)
  | enter size level => exact (decode_one (by decide)).trans parse_iwib
  | movRCr reg cr => exact decode_two.trans (parse_rm (rm := .reg reg) rfl (by simp [crTail, needReg]))
  | movCrR cr reg => exact decode_two.trans (parse_rm (rm := .reg reg) rfl (by simp [crTail, needReg]))
  | movRDr reg dr => exact decode_two.trans (parse_rm (rm := .reg reg) rfl (by simp [drTail, needReg]))
  | movDrR dr reg => exact decode_two.trans (parse_rm (rm := .reg reg) rfl (by simp [drTail, needReg]))
  | movRTr reg tr => exact decode_two.trans (parse_rm (rm := .reg reg) rfl (by simp [trTail, needReg]))
  | movTrR tr reg => exact decode_two.trans (parse_rm (rm := .reg reg) rfl (by simp [trTail, needReg]))
  | esc ttt lll rm =>
    refine (decode_one (esc_ne_escape ttt)).trans ?_
    rw [oneByte_esc]
    exact parse_rm h rfl

end

/-- Settles O4: each opcode's row of the maps has the shape that the encoder follows. -/
theorem decodeEncode : Obligations.DecodeEncode := fun _ i _ h => decode_encode i h

end Sys2Proof
end

section
/-!
PROOFS. Moves and flag control: what each instruction does once its operand accesses have answered (40_data_transfer.md,
41_flag_control.md).
-/

namespace Sys2Proof.Machine

/-! ## Shapes of completion -/

/-- A body that reads an operand and goes on to a state that matches what is expected. -/
theorem completes_after {α : Type} {i : Instr} {s e u w : State} {x : M α} {f : α → M Unit} {a : α}
    (hi : exec i s = run (x >>= f) s) (hx : x s = .ok (a, u)) (hf : f a u = .ok ((), w)) (q : Quiet s u) (m : Matches e w)
    (hm : w.mem = u.mem) (hp : e.pend.bs = s.pend.bs) : Completes i s (DoneQuiet s e) :=
  completes_quiet_of hi ((M.bind_ok hx).trans hf) q.mem m hm hp

/-- A body that makes no access at all. -/
theorem completes_still {i : Instr} {s e w : State} {body : M Unit} (hi : exec i s = run body s) (hb : body s = .ok ((), w))
    (m : Matches e w) (hm : w.mem = s.mem) (hp : e.pend.bs = s.pend.bs) : Completes i s (DoneQuiet s e) :=
  completes_quiet_of hi hb (.refl s) m hm hp

/-- A body that ends in writing its result to a place. -/
theorem completes_place {i : Instr} {k : Width} {p : Place} {v : BitVec k.bits} {s e u w : State} {body : M Unit}
    (hi : exec i s = run body s) (hb : body s = putPlace k p v w) (q : Quiet s u) (r : p.ready s) (m : Matches e w)
    (hm : w.mem = u.mem) (hp : w.params = s.params) (hbs : e.pend.bs = s.pend.bs) :
    Completes i s (DonePlace k p v s e u) := by
  obtain ⟨w', h1, h2⟩ := putPlace_done (v := v) q r m hm hp hbs
  exact ⟨_, hi.trans (run_ok (hb.trans h1)), h2⟩

/-- `completes_place` for a body that does nothing but place its operand and write to it. -/
theorem completes_moveTo {i : Instr} {k : Width} {rm : Rm} {p : Place} {v : BitVec k.bits} {s u : State}
    (hi : exec i s = run (moveToRm k rm v) s) (hx : placeRm k rm s = .ok (p, u)) (r : p.ready s) :
    Completes i s (DonePlace k p v s s u) :=
  have q := quiet_placeRm k rm s p u hx
  completes_place hi (M.bind_ok hx) q r q.matches rfl q.sys.params rfl

/-- A body that reads a value and puts it in a register. -/
theorem completes_load {i : Instr} {k : Width} {x : M (BitVec k.bits)} {reg : Gpr} {v : BitVec k.bits} {s u : State}
    (hi : exec i s = run (x >>= fun v => putReg k reg v) s) (q : OnOk Quiet x) (hx : x s = .ok (v, u)) :
    Completes i s (DoneQuiet s (s.setReg k reg v)) :=
  have q := q s v u hx
  completes_after hi hx rfl q (q.matches.setReg k reg v) rfl rfl

/-- `completes_load` for a value that is made from what is read. -/
theorem completes_loadMap {i : Instr} {α : Type} {x : M α} {k : Width} {reg : Gpr} {g : α → BitVec k.bits} {a : α} {s u : State}
    (hi : exec i s = run (x >>= fun v => putReg k reg (g v)) s) (q : OnOk Quiet x) (hx : x s = .ok (a, u)) :
    Completes i s (DoneQuiet s (s.setReg k reg (g a))) :=
  have q := q s a u hx
  completes_after hi hx rfl q (q.matches.setReg k reg (g a)) rfl rfl

/-! ## Data transfer -/

/-- Settles O12: the operand access, then the register. -/
theorem movesToRegister : Obligations.MovesToRegister :=
  ⟨fun _ _ _ _ _ _ h => completes_load rfl (quiet_readRm _ _) h, fun _ _ _ _ _ h => completes_load rfl (quiet_readAt _ _ _) h,
    fun _ _ _ _ _ h => ⟨completes_loadMap rfl (quiet_readRm _ _) h, completes_loadMap rfl (quiet_readRm _ _) h⟩,
    fun _ _ _ _ _ h => ⟨completes_loadMap rfl (quiet_readRm _ _) h, completes_loadMap rfl (quiet_readRm _ _) h⟩,
    fun _ _ _ h => completes_load rfl (quiet_readAt _ _ _) h⟩

/-- The effective address is answered in every state; it is the operand's where that is defined (R182, R185, U7). -/
theorem effective_ok (m : MemOp) (s : State) :
    ∃ off u, effective m s = .ok (off, u) ∧ (undefinedAddress m = false → off = offsetOf s.regs m) := by
  unfold effective
  cases h : undefinedAddress m with
  | true => exact ⟨_, _, rfl, nofun⟩
  | false => exact ⟨_, _, rfl, fun _ => rfl⟩

/-- A body that puts a value in a register and does nothing else. -/
theorem completes_putReg {i : Instr} {k : Width} {reg : Gpr} {v : BitVec k.bits} {s : State}
    (hi : exec i s = run (putReg k reg v) s) : Completes i s (DoneQuiet s (s.setReg k reg v)) :=
  completes_still hi rfl (.refl _) rfl rfl

theorem signAcc_16 {s : State} (h : s.op32 = false) : signAcc s = putReg .w .ax ((s.reg .b .ax).signExtend 16) s := by
  simp [signAcc, M.bind_apply, h]

theorem signAcc_32 {s : State} (h : s.op32 = true) : signAcc s = putReg .d .ax ((s.reg .w .ax).signExtend 32) s := by
  simp [signAcc, M.bind_apply, h]

/-- The sign of the accumulator in every bit (R371). -/
theorem sign_fill {n : Nat} (x : BitVec n) :
    (bif x.msb then BitVec.allOnes n else 0) = if x.toInt < 0 then BitVec.allOnes n else 0 := by
  rw [BitVec.msb_eq_toInt]
  by_cases h : x.toInt < 0 <;> simp [h]

theorem signDx_16 {s : State} (h : s.op32 = false) :
    signDx s = putReg .w .dx (if (s.reg .w .ax).toInt < 0 then 0xFFFF else 0) s := by
  have hk : s.opWidth = .w := by rw [State.opWidth, h]; rfl
  rw [signDx, M.bind_ok (M.get_apply s), hk]
  exact congrArg (putReg .w .dx · s) (sign_fill _)

theorem signDx_32 {s : State} (h : s.op32 = true) :
    signDx s = putReg .d .dx (if (s.reg .d .ax).toInt < 0 then 0xFFFFFFFF else 0) s := by
  have hk : s.opWidth = .d := by rw [State.opWidth, h]; rfl
  rw [signDx, M.bind_ok (M.get_apply s), hk]
  exact congrArg (putReg .d .dx · s) (sign_fill _)

/-- Settles O13: none of them makes an access; LEA computes an address without using it. -/
theorem registerOnly : Obligations.RegisterOnly := by
  intro s
  refine ⟨fun reg imm => completes_putReg rfl, fun reg imm => completes_putReg rfl, fun reg m hm => ?_, fun reg m => ?_,
    completes_still (body := pure ()) rfl rfl (.refl s) rfl rfl, fun reg => ?_, fun h => ⟨?_, ?_⟩, fun h => ⟨?_, ?_⟩, ?_⟩
  · obtain ⟨off, u, he, hoff⟩ := effective_ok m s
    rw [← hoff hm]
    exact completes_loadMap rfl (quiet_effective m) he
  · obtain ⟨off, u, he, -⟩ := effective_ok m s
    obtain ⟨t, ht, hd⟩ := completes_loadMap (i := .lea reg m) rfl (quiet_effective m) he
    exact ⟨t, ht, _, hd⟩
  · exact completes_still (body := putReg s.opWidth .ax _ >>= fun _ => putReg s.opWidth reg _) rfl rfl (.refl _) rfl rfl
  · exact completes_still rfl (signAcc_16 h) (.refl _) rfl rfl
  · exact completes_still rfl (signDx_16 h) (.refl _) rfl rfl
  · exact completes_still rfl (signAcc_32 h) (.refl _) rfl rfl
  · exact completes_still rfl (signDx_32 h) (.refl _) rfl rfl
  · have hacc : ∃ t, signAcc s = .ok ((), t) := by
      cases h : s.op32 with
      | false => exact ⟨_, signAcc_16 h⟩
      | true => exact ⟨_, signAcc_32 h⟩
    obtain ⟨t, ht⟩ := hacc
    have hdx : ∃ t, signDx s = .ok ((), t) := ⟨_, rfl⟩
    obtain ⟨t', ht'⟩ := hdx
    rintro i (rfl | rfl | rfl | rfl)
    · exact ⟨_, run_ok ht⟩
    · exact ⟨_, run_ok ht⟩
    · exact ⟨_, run_ok ht'⟩
    · exact ⟨_, run_ok ht'⟩

/-- Settles O14: the place is planned first, then written. -/
theorem movesToOperand : Obligations.MovesToOperand := by
  refine ⟨fun s w reg rm p u h r => completes_moveTo rfl h r, fun s rm imm p u h r => completes_moveTo rfl h r,
    fun s rm imm p u h r => completes_moveTo rfl h r, fun s w off ps u h r => ?_, fun s cc rm p u h r => completes_moveTo ?_ h r,
    fun s w reg rm p v u h r => ?_⟩
  · have q := quiet_plan _ _ _ _ _ _ _ h
    exact completes_place rfl (M.bind_ok h) q r q.matches rfl q.sys.params rfl
  · rw [← Bool.cond_eq_ite]
    rfl
  · have q := quiet_modifyRm _ _ _ _ _ h
    cases p with
    | reg r0 => exact completes_after rfl h rfl q ((q.matches.setReg _ _ _).setReg _ _ _) rfl rfl
    | mem ps =>
      obtain ⟨w', h1, h2, h3, h4⟩ := storeAt_ends (v := s.reg (s.widthOf w) reg) q r q.matches rfl q.sys.params
      exact ⟨_, run_ok ((M.bind_ok h).trans ((M.bind_ok h1).trans rfl)), (h2.setReg _ _ _).done rfl, h3, h4.congr rfl rfl⟩

/-! ## Selectors -/

/-- The end of an instruction that puts 16 bits at a place: 16 bits, or a doubleword whose upper half is free (R252, U5). -/
def DoneSel (p : Place) (x : HWord) (s u t : State) : Prop :=
  match p with
  | .reg r => if s.op32 then ∃ high : HWord, DoneQuiet s (s.setReg .d r (high ++ x)) t else DoneQuiet s (s.setReg .w r x) t
  | .mem ps => DoneStored ps (bytesOf 2 (x.setWidth 32)) s s u t

/-- A selector or status word is put at its place: 16 bits, or a doubleword whose upper half is free (R252, U5). -/
theorem completes_putSel {i : Instr} {s u w : State} {p : Place} {x : HWord} {body : M Unit} (hi : exec i s = run body s)
    (hb : body s = putSel p x w) (q : Quiet s u) (m : Matches s w) (hm : w.mem = u.mem) (r : p.ready s) :
    Completes i s (DoneSel p x s u) := by
  cases p with
  | mem ps => exact completes_place hi (hb.trans rfl) q r m hm m.sys.params rfl
  | reg g =>
    by_cases h : s.op32 = true
    · have hput : putSel (.reg g) x w = .ok ((), (w.withDraws (w.draws + 1)).setReg .d g (Config.freeBits 16 w.draws ++ x)) := by
        simp [putSel, M.bind_apply, m.op32, h, selWord, putReg]
      have m' := (m.trans (matches_withDraws w (w.draws + 1))).setReg .d g (Config.freeBits 16 w.draws ++ x)
      refine ⟨_, hi.trans (run_ok (hb.trans hput)), ?_⟩
      rw [DoneSel, if_pos h]
      exact ⟨_, m'.done rfl, q.mem.congr hm⟩
    · have hput : putSel (.reg g) x w = .ok ((), w.setReg .w g x) := by simp [putSel, M.bind_apply, m.op32, h, putReg]
      obtain ⟨t, ht, hd⟩ := completes_quiet_of hi (hb.trans hput) q.mem (m.setReg .w g x) hm rfl
      refine ⟨t, ht, ?_⟩
      rwa [DoneSel, if_neg h]

theorem msw_bits (c : Cr0) (free : BitVec 26) : (c.msw free).getLsbD 0 = c.pe ∧ (c.msw free).getLsbD 1 = c.mp ∧
    (c.msw free).getLsbD 2 = c.em ∧ (c.msw free).getLsbD 3 = c.ts ∧ (c.msw free).getLsbD 4 = c.et := by
  refine ⟨?_, ?_, ?_, ?_, ?_⟩ <;> rw [Cr0.msw, Cr0.toWord, BitVec.getLsbD_setWidth] <;>
    simp only [BitVec.getLsbD_append] <;> simp

/-- Settles O15: the place, then the selector or the machine status word. -/
theorem selectorStores : Obligations.SelectorStores := by
  rintro s rm i v hi p u hp r
  have q := quiet_placeRm _ _ _ _ _ hp
  have stored (x : HWord) : storeSel rm x s = putSel p x u := M.bind_ok hp
  have guarded (x : HWord) (h : s.protMode = true) : (needProtMode >>= fun _ => storeSel rm x) s = putSel p x u :=
    (M.bind_ok (needProtMode_ok h)).trans (stored x)
  rcases hi with ⟨sr, rfl, rfl⟩ | ⟨rfl, h, rfl⟩ | ⟨rfl, h, rfl⟩ | ⟨rfl, rfl⟩
  · obtain ⟨t, ht, hd⟩ := completes_putSel (i := .movRmSreg sr rm) rfl (stored _) q q.matches rfl r
    exact ⟨t, ht, _, rfl, hd⟩
  · obtain ⟨t, ht, hd⟩ := completes_putSel (i := .sldt rm) rfl (guarded _ h) q q.matches rfl r
    exact ⟨t, ht, _, rfl, hd⟩
  · obtain ⟨t, ht, hd⟩ := completes_putSel (i := .str rm) rfl (guarded _ h) q q.matches rfl r
    exact ⟨t, ht, _, rfl, hd⟩
  · obtain ⟨t, ht, hd⟩ := completes_putSel (i := .smsw rm) (x := s.cr0.msw (Config.freeBits 26 u.draws)) rfl (M.bind_ok hp) q
      (q.matches.trans (matches_withDraws u (u.draws + 1))) rfl r
    exact ⟨t, ht, _, msw_bits _ _, hd⟩

end Sys2Proof.Machine
end

section
/-!
PROOFS. Reset, worked encodings, the accesses to memory and flag control (70_reset_and_hazards.md, 30_encoding.md, 20_memory.md,
41_flag_control.md).
-/

namespace Sys2Proof.Machine

/-! ## Reset (R790 to R795) -/

/-- Settles O1: the values are those of `State.resetOf`, which RESET keeps but for the record of ports, the count of draws and the
environment's pins. -/
theorem resetValues : Obligations.ResetValues := by
  unfold Obligations.ResetValues
  intro isReset
  have values (p : Params) (mem : List Host.Cell) (pins : Pins) (io : List IoEvent) (n : Nat) (h1 : pins.nmiBlocked = false)
      (h2 : pins.nmiPending = false) : isReset ((((State.resetOf p mem).withPins pins).withIo io).withDraws n) := by
    refine ⟨?_, rfl, rfl, ⟨rfl, rfl, rfl, rfl, rfl, rfl⟩, fun r hr => ?_, ⟨rfl, rfl, rfl, rfl, rfl, ?_⟩, rfl,
      ⟨rfl, rfl, rfl, rfl, rfl⟩, ?_, rfl, rfl, rfl, h1, h2, ⟨rfl, rfl, rfl⟩, ?_⟩
    · show Flags.reset.toWord = 2
      decide
    · cases r with
      | cs => exact absurd rfl hr
      | _ => exact ⟨rfl, rfl, rfl, rfl, rfl, rfl, rfl, rfl⟩
    · exact beq_iff_eq
    · show (0x300 : Word).extractLsb' 8 8 = 3
      decide
    · show (0xFFFF0000 : Word) + 0xFFF0 = 0xFFFFFFF0
      decide
  refine ⟨values Params.standard [] _ _ _ rfl rfl, rfl, rfl, rfl, fun s hs => ⟨s.onReset, ?_, values s.params s.mem _ _ _ rfl rfl,
    rfl, rfl, rfl⟩⟩
  rw [step, stepOnce, if_pos hs]

/-! ## Worked encodings -/

/-- Settles O5: the decoder evaluates. -/
theorem decodedWords : Obligations.DecodedWords := ⟨rfl, rfl, rfl, rfl, rfl, rfl, rfl, rfl, rfl, rfl, rfl⟩

/-! ## Accesses (R101, R102, R110, R134) -/

/-- Settles O8, by the law of each access. -/
theorem operandAccess : Obligations.OperandAccess :=
  ⟨fun k rm => quiet_readRm k rm, fun k rm => quiet_placeRm k rm, fun k rm s p v => quiet_modifyRm k rm s (p, v),
    fun r off n w => quiet_plan r off n w, fun n vs => quiet_planStack n vs, fun above n => quiet_stackRead above n⟩

theorem storedByte_of_notMem {ps : List Word} {a : Word} (bs : List Byte) (old : Byte) (h : a ∉ ps) :
    storedByte ps bs a old = old := by
  induction ps generalizing bs old with
  | nil => rfl
  | cons p ps ih =>
    cases bs with
    | nil => rfl
    | cons b bs =>
      obtain ⟨hp, hps⟩ := not_or.mp (List.mem_cons.not.mp h)
      rw [storedByte, if_neg (Ne.symm hp), ih bs old hps]

/-- Distinct addresses hold the bytes stored at them. -/
theorem map_storedByte {ps : List Word} {bs : List Byte} (f : Word → Byte) (hn : ps.Nodup) (hl : ps.length = bs.length) :
    (ps.map fun a => storedByte ps bs a (f a)) = bs := by
  induction ps generalizing bs f with
  | nil => exact (List.eq_nil_of_length_eq_zero hl.symm).symm
  | cons p ps ih =>
    cases bs with
    | nil => cases hl
    | cons b bs =>
      obtain ⟨hp, hps⟩ := List.nodup_cons.mp hn
      rw [List.map_cons, storedByte, if_pos rfl, storedByte_of_notMem bs b hp]
      exact congrArg (b :: ·) (ih (fun a => if p = a then b else f a) hps (Nat.succ.inj hl))

/-- Settles O11: the bytes stand at four distinct addresses. -/
theorem storeThenRead : Obligations.StoreThenRead := by
  intro s a v hok hram
  obtain ⟨t, hw, hmem, hst⟩ := physWrite_ram (bs := bytesOf 4 v) hram
  have m := hmem.matches
  have hread : (addrsFrom a 4).map t.byteAt = bytesOf 4 v := by
    rw [funext (hst hok)]
    exact map_storedByte _ (addrsFrom_nodup a) (by simp)
  have h3 : a + 3 = a + 1 + 1 + 1 := by bv_omega
  simp only [addrsFrom, bytesOf, List.map_cons, List.map_nil, List.cons.injEq, and_true] at hread
  obtain ⟨b0, b1, b2, b3⟩ := hread
  refine ⟨t, hw, ⟨_, physRead_ram (hram.congr m.sys.params), ?_⟩, ?_, ?_, fun x hx => ?_, m.regs, m.flags, m.sys⟩
  · simp only [addrsFrom, List.map_cons, List.map_nil, b0, b1, b2, b3]
    exact wordOf_bytesOf_four v
  · rw [b0]
    rfl
  · rw [h3, b3]
    apply BitVec.eq_of_getLsbD_eq
    intro i hi
    simp [hi]
  · rw [hst hok x, storedByte_of_notMem _ _ hx]

/-! ## Flag control (R300 to R312) -/

theorem needIopl_ok {s : State} (h : s.realMode = true ∨ s.cpl.toNat ≤ s.flags.iopl.toNat) : needIopl s = .ok ((), s) := by
  refine (M.bind_ok (M.get_apply s)).trans (check_ok _ s ?_)
  rcases h with h | h
  · rw [h, Bool.true_or]
  · exact Bool.or_eq_true_iff.mpr (.inr (decide_eq_true h))

/-- The layout of the status flags in AH (R304). -/
theorem toAh_eq (f : Flags) : f.toAh = BitVec.ofBool f.sf ++ BitVec.ofBool f.zf ++ 0#1 ++ BitVec.ofBool f.af ++ 0#1 ++
    BitVec.ofBool f.pf ++ 1#1 ++ BitVec.ofBool f.cf := by
  apply BitVec.eq_of_getLsbD_eq
  intro i hi
  rw [Flags.toAh, Flags.toWord, BitVec.getLsbD_setWidth]
  simp only [BitVec.getLsbD_append]
  interval_cases i <;> simp

theorem setReg_ah (s : State) (v : Byte) : (s.setReg .b .sp v).regs.eax.extractLsb' 8 8 = v := by
  show (setHigh8 s.regs.eax v).extractLsb' 8 8 = v
  apply BitVec.eq_of_getLsbD_eq
  intro i hi
  rw [BitVec.getLsbD_extractLsb', setHigh8]
  simp only [BitVec.getLsbD_append]
  simp [hi]

theorem setIf_of_set {s : State} (h : s.flags.intf = true) : (s.mapFlags fun f => { f with intf := true }) = s := by
  rw [State.mapFlags, ← h]
  rfl

/-- Settles O26: the checks that are met, then the change of one flag. -/
theorem flagControl : Obligations.FlagControl := by
  refine ⟨fun s c => ⟨⟨decode_singleton (by decide) rfl, completes_putFlags rfl⟩,
    ⟨decode_singleton (by decide) rfl, completes_putFlags rfl⟩, ⟨decode_singleton (by decide) rfl, completes_putFlags rfl⟩,
    ⟨decode_singleton (by decide) rfl, ?_⟩, ⟨decode_singleton (by decide) rfl, completes_putFlags rfl⟩⟩,
    fun s => ⟨fun h => ⟨?_, fun hi => ?_, fun hi => ?_⟩, fun h => ?_⟩⟩
  · obtain ⟨t, ht, hd⟩ := completes_putReg (i := .lahf) (k := .b) (reg := .sp) (v := s.flags.toAh) (s := s) rfl
    have hah : t.regs.eax.extractLsb' 8 8 = s.flags.toAh := by
      rw [hd.1.regs]
      exact setReg_ah s _
    refine ⟨t, ht, ?_, hah.trans (toAh_eq _)⟩
    rw [hah]
    exact hd
  · exact completes_still rfl ((M.bind_ok (needIopl_ok h)).trans rfl) (.refl _) rfl rfl
  · refine completes_still rfl ((M.bind_ok (needIopl_ok h)).trans ?_) (.refl s) rfl rfl
    rw [hi]
    exact congrArg (fun t => Except.ok ((), t)) (setIf_of_set hi)
  · refine completes_still rfl ((M.bind_ok (needIopl_ok h)).trans ?_) (.refl _) rfl rfl
    rw [hi]
    rfl
  · exact completes_still rfl ((M.bind_ok (needCpl0_ok h)).trans rfl) (.refl _) rfl rfl

end Sys2Proof.Machine
end

section
/-!
PROOFS. Two-operand and one-operand operations, shifts and double shifts: the operand, the operation, the place of the result
(42_arithmetic.md, 43_logic_shift.md).
-/

namespace Sys2Proof.Machine

/-! ## The two-operand shape (R330) -/

/-- An operation whose result goes to a register, after operand accesses that led to `u`. -/
theorem AluKind.completes_reg {o : AluKind} {i : Instr} {k : Width} {reg : Gpr} {a b : BitVec k.bits} {s u : State} {body : M Unit}
    (hi : exec i s = run body s) (hb : body s = (o.op k a b >>= putReg k reg) u) (q : Quiet s u) :
    Completes i s fun t => ∃ af, DoneQuiet s
      ((s.setReg k reg (o.result a b s.flags.cf)).withFlags (o.flags s.flags a b af)) t := by
  obtain ⟨w, af, hop, hm, -, m⟩ := o.op_ok k a b u
  rw [q.flags] at hop m
  obtain ⟨t, ht, hd⟩ := completes_quiet_of (w := w.setReg k reg (o.result a b s.flags.cf)) hi
    (hb.trans ((M.bind_ok hop).trans rfl)) q.mem (((q.matches.withFlags _).trans m).setReg k reg _) hm rfl
  exact ⟨t, ht, af, hd⟩

/-- An operation whose result goes to a place. -/
theorem AluKind.completes_place {o : AluKind} {i : Instr} {k : Width} {p : Place} {a b : BitVec k.bits} {s u : State}
    {body : M Unit} (hi : exec i s = run body s) (hb : body s = (o.op k a b >>= putPlace k p) u) (q : Quiet s u) (r : p.ready s) :
    Completes i s fun t => ∃ af,
      DonePlace k p (o.result a b s.flags.cf) s (s.withFlags (o.flags s.flags a b af)) u t := by
  obtain ⟨w, af, hop, hm, hp, m⟩ := o.op_ok k a b u
  rw [q.flags] at hop m
  obtain ⟨t, ht, hd⟩ := Machine.completes_place hi (hb.trans (M.bind_ok hop)) q r ((q.matches.withFlags _).trans m) hm
    (hp.trans q.sys.params) rfl
  exact ⟨t, ht, af, hd⟩

theorem aluRmR_reg {op : AluOp} {w : Bool} {reg : Gpr} {rm : Rm} {s u : State} {v : BitVec (s.widthOf w).bits}
    (h : readRm (s.widthOf w) rm s = .ok (v, u)) :
    aluRmR op true w reg rm s = (op (s.widthOf w) (s.reg (s.widthOf w) reg) v >>= putReg (s.widthOf w) reg) u :=
  (M.bind_ok (look_apply _ s)).trans ((M.bind_ok (look_apply _ s)).trans (M.bind_ok h))

theorem aluRmR_place {op : AluOp} {w : Bool} {reg : Gpr} {rm : Rm} {s u : State} {p : Place} {v : BitVec (s.widthOf w).bits}
    (h : modifyRm (s.widthOf w) rm s = .ok ((p, v), u)) :
    aluRmR op false w reg rm s = (op (s.widthOf w) v (s.reg (s.widthOf w) reg) >>= putPlace (s.widthOf w) p) u :=
  (M.bind_ok (look_apply _ s)).trans ((M.bind_ok (look_apply _ s)).trans (M.bind_ok h))

theorem aluRm_place {op : AluOp} {k : Width} {rm : Rm} {imm v : BitVec k.bits} {s u : State} {p : Place}
    (h : modifyRm k rm s = .ok ((p, v), u)) : aluRm op k rm imm s = (op k v imm >>= putPlace k p) u := M.bind_ok h

theorem aluAcc_reg {op : AluOp} {k : Width} {imm : BitVec k.bits} {s : State} :
    aluAcc op k imm s = (op k (s.reg k .ax) imm >>= putReg k .ax) s := M.bind_ok (look_apply _ s)

/-- Settles O28: every form is one of the shapes. -/
theorem twoOperand : Obligations.TwoOperand :=
  ⟨fun o s => ⟨fun w reg rm _ _ h => o.completes_reg (o.exec_rmR true w reg rm s) (aluRmR_reg h) (quiet_readRm _ _ _ _ _ h),
      fun imm => o.completes_reg (o.exec_alImm imm s) aluAcc_reg (composes_quiet.refl s),
      fun imm => o.completes_reg (o.exec_eaxImm imm s) aluAcc_reg (composes_quiet.refl s)⟩,
    fun o s rm => ⟨fun w reg _ _ _ h r =>
        o.completes_place (o.exec_rmR false w reg rm s) (aluRmR_place h) (quiet_modifyRm _ _ _ _ _ h) r,
      fun imm _ _ _ h r => o.completes_place (o.exec_rm8Imm rm imm s) (aluRm_place h) (quiet_modifyRm _ _ _ _ _ h) r,
      fun imm _ _ _ h r => o.completes_place (o.exec_rmImm rm imm s) (aluRm_place h) (quiet_modifyRm _ _ _ _ _ h) r,
      fun imm _ _ _ h r => o.completes_place (o.exec_rmImm8s rm imm s) (aluRm_place h) (quiet_modifyRm _ _ _ _ _ h) r⟩⟩

/-! ## Comparisons and the one-operand shape (R333, R336 to R338, R393, R394) -/

/-- A comparison, after operand accesses that led to `u`. -/
theorem completes_cmp {i : Instr} {k : Width} {a b : BitVec k.bits} {s u : State} {body : M Unit} (hi : exec i s = run body s)
    (hb : body s = opCmp k a b u) (q : Quiet s u) : Completes i s (DoneQuiet s (s.withFlags (s.flags.sub a b false))) := by
  refine completes_quiet_of (w := u.withFlags (u.flags.sub a b false)) hi hb q.mem ?_ rfl rfl
  rw [q.flags]
  exact q.matches.withFlags _

/-- A test, after operand accesses that led to `u`: AF is free (U2). -/
theorem completes_test {i : Instr} {k : Width} {a b : BitVec k.bits} {s u : State} {body : M Unit} (hi : exec i s = run body s)
    (hb : body s = opTest k a b u) (q : Quiet s u) :
    Completes i s fun t => ∃ af, DoneQuiet s (s.withFlags (s.flags.logic (a &&& b) af)) t := by
  have m := (q.matches.trans (matches_withDraws u (u.draws + 1))).withFlags (u.flags.logic (a &&& b) (Config.freeBit u.draws))
  obtain ⟨t, ht, hd⟩ := completes_quiet_of hi (hb.trans rfl) q.mem m rfl rfl
  rw [q.flags] at hd
  exact ⟨t, ht, _, hd⟩

/-- The one-operand shape at a place. -/
theorem completes_unary {i : Instr} {k : Width} {rm : Rm} {value : BitVec k.bits → BitVec k.bits}
    {flags : Flags → BitVec k.bits → Flags} {s u : State} {p : Place} {v : BitVec k.bits}
    (hi : exec i s = run (unaryRm k rm value flags) s) (h : modifyRm k rm s = .ok ((p, v), u)) (r : p.ready s) :
    Completes i s (DonePlace k p (value v) s (s.withFlags (flags s.flags v)) u) := by
  have q := quiet_modifyRm _ _ _ _ _ h
  refine completes_place (w := u.withFlags (flags u.flags v)) hi (M.bind_ok h) q r ?_ rfl q.sys.params rfl
  rw [q.flags]
  exact q.matches.withFlags _

/-- Settles O29. -/
theorem compareAndOneOperand : Obligations.CompareAndOneOperand := by
  refine ⟨fun s => ⟨fun w reg rm v u h => ?_, fun imm => ?_, fun imm => ?_, fun rm imm v u h => ?_, fun rm v u h => ?_⟩,
    fun s => ⟨fun w rm p v u h r => ?_, fun w rm p v u h r => ?_, fun w rm p v u h r => ?_, fun w rm p v u h r => ?_,
      fun reg => ?_, fun reg => ?_⟩⟩
  · have q := quiet_readRm _ _ _ _ _ h
    exact ⟨completes_cmp rfl (M.bind_ok h) q, completes_cmp rfl (M.bind_ok h) q, completes_test rfl (M.bind_ok h) q⟩
  · have q := composes_quiet.refl s
    exact ⟨completes_cmp (body := opCmp _ _ _) rfl rfl q, completes_test (body := opTest _ _ _) rfl rfl q⟩
  · have q := composes_quiet.refl s
    exact ⟨completes_cmp (body := opCmp _ _ _) rfl rfl q, completes_test (body := opTest _ _ _) rfl rfl q⟩
  · have q := quiet_readRm _ _ _ _ _ h
    exact ⟨completes_cmp (body := compareRm _ _ _) rfl (M.bind_ok h) q, completes_test rfl (M.bind_ok h) q⟩
  · have q := quiet_readRm _ _ _ _ _ h
    exact ⟨fun imm => ⟨completes_cmp (body := compareRm _ _ _) rfl (M.bind_ok h) q, completes_test rfl (M.bind_ok h) q⟩,
      fun imm => completes_cmp (body := compareRm _ _ _) rfl (M.bind_ok h) q⟩
  · exact completes_unary (value := (· + 1)) (flags := Flags.inc) rfl h r
  · exact completes_unary (value := (· - 1)) (flags := Flags.dec) rfl h r
  · have hneg := completes_unary (i := .negRm w rm) (value := (0 - ·)) (flags := fun f v => f.sub 0 v false) rfl h r
    simpa only [BitVec.ofNat_eq_ofNat, BitVec.zero_sub] using hneg
  · have hnot := completes_unary (i := .notRm w rm) (value := (~~~ ·)) (flags := fun f _ => f) rfl h r
    simpa only [BitVec.xor_allOnes] using hnot
  · exact completes_unary (i := .incR reg) (rm := .reg reg) (value := (· + 1)) (flags := Flags.inc) (p := .reg reg) rfl rfl trivial
  · exact completes_unary (i := .decR reg) (rm := .reg reg) (value := (· - 1)) (flags := Flags.dec) (p := .reg reg) rfl rfl trivial

/-! ## Shifts (R400 to R408) -/

/-- A count of 0: the operand is examined, and nothing else is done (D15). -/
theorem completes_inspect {i : Instr} {k : Width} {rm : Rm} {s u1 u : State} {x : Target} {v : BitVec k.bits} {body : M Unit}
    (hi : exec i s = run body s) (hb : body s = inspectOnly k rm s) (h1 : targetRm rm s = .ok (x, u1))
    (h : inspect k x u1 = .ok (v, u)) : Completes i s (DoneQuiet s s) :=
  have q := composes_quiet.trans (quiet_targetRm _ _ _ _ h1) (quiet_inspect _ _ _ _ _ h)
  completes_quiet_of hi (hb.trans ((M.bind_ok h1).trans ((M.bind_ok h).trans rfl))) q.mem q.matches rfl rfl

theorem shiftRm_zero {op : ShiftOp} {rot w : Bool} {rm : Rm} {count : Byte} {s : State} (h : count.toNat % 32 = 0) :
    shiftRm op rot w rm count s = inspectOnly (s.widthOf w) rm s := by
  simp only [shiftRm, M.bind_ok (look_apply _ s), if_pos h]

theorem shiftRm_some {op : ShiftOp} {rot w : Bool} {rm : Rm} {count : Byte} {s u : State} {p : Place}
    {v : BitVec (s.widthOf w).bits} (hc : count.toNat % 32 ≠ 0) (h : modifyRm (s.widthOf w) rm s = .ok ((p, v), u)) :
    shiftRm op rot w rm count s = (shiftFlags rot (op _ v s.flags.cf (count.toNat % 32)) (count.toNat % 32) >>= fun _ =>
      putPlace (s.widthOf w) p (op _ v s.flags.cf (count.toNat % 32)).val) u := by
  simp only [shiftRm, M.bind_ok (look_apply _ s), if_neg hc, M.bind_ok h]

/-- The operation of a kind computes its outcome. -/
theorem ShiftKind.op_eq (o : ShiftKind) {n : Nat} (v : BitVec n) (cf : Bool) (c : Nat) : o.op n v cf c = o.outcome v cf c := by
  cases o <;> rfl

/-- Every form of a shift by a count that is not 0. -/
theorem ShiftKind.completes {o : ShiftKind} {i : Instr} {w : Bool} {rm : Rm} {count : Byte} {s u : State} {p : Place}
    {v : BitVec (s.widthOf w).bits} (hi : exec i s = run (shiftRm o.op o.rotates w rm count) s) (hc : count.toNat % 32 ≠ 0)
    (h : modifyRm (s.widthOf w) rm s = .ok ((p, v), u)) (r : p.ready s) : Completes i s fun t => ∃ of af,
      DonePlace (s.widthOf w) p (o.outcome v s.flags.cf (count.toNat % 32)).val s
        (s.withFlags (o.flags s.flags (o.outcome v s.flags.cf (count.toNat % 32)) (count.toNat % 32) of af)) u t := by
  have q := quiet_modifyRm _ _ _ _ _ h
  obtain ⟨of, af, t, hf, hm, hp, m⟩ := o.flags_ok (o.op _ v s.flags.cf (count.toNat % 32)) (count.toNat % 32) u
  rw [q.flags, o.op_eq] at m
  have hb := (shiftRm_some (op := o.op) (rot := o.rotates) hc h).trans (M.bind_ok hf)
  rw [o.op_eq] at hb
  obtain ⟨t', ht, hd⟩ := completes_place hi hb q r ((q.matches.withFlags _).trans m) hm (hp.trans q.sys.params) rfl
  exact ⟨t', ht, of, af, hd⟩

/-- Settles O34: the forms differ in where the count comes from. -/
theorem shifts : Obligations.Shifts := fun o s w rm =>
  ⟨⟨fun hc _ _ _ _ h1 h => completes_inspect (o.exec_by1 w rm s) (shiftRm_zero hc) h1 h,
      fun hc _ _ _ h r => o.completes (o.exec_by1 w rm s) hc h r⟩,
    ⟨fun hc _ _ _ _ h1 h => completes_inspect (o.exec_byCl w rm s) (shiftRm_zero hc) h1 h,
      fun hc _ _ _ h r => o.completes (o.exec_byCl w rm s) hc h r⟩,
    fun imm => ⟨fun hc _ _ _ _ h1 h => completes_inspect (o.exec_byImm w rm imm s) (shiftRm_zero hc) h1 h,
      fun hc _ _ _ h r => o.completes (o.exec_byImm w rm imm s) hc h r⟩⟩

/-! ## Double shifts (R410, R411) -/

/-- The upper half of the joined operands, shifted left (R410). -/
theorem shldValue_eq {n : Nat} (a b : BitVec n) {c : Nat} (hc : c < n) :
    shldValue a b c = ((a ++ b) <<< c).extractLsb' n n := by
  apply BitVec.eq_of_getLsbD_eq
  intro i hi
  simp only [shldValue, BitVec.getLsbD_or, BitVec.getLsbD_shiftLeft, BitVec.getLsbD_ushiftRight, BitVec.getLsbD_extractLsb',
    BitVec.getLsbD_append]
  by_cases h : i < c
  · have h1 : n + i - c < n := by omega
    have h2 : n - c + i = n + i - c := by omega
    simp [h, h1, h2, hi]
    omega
  · have h1 : ¬ n + i - c < n := by omega
    have h2 : n ≤ n - c + i := by omega
    have h3 : n + i - c - n = i - c := by omega
    simp [h, h1, h3, hi, BitVec.getLsbD_of_ge b _ h2]
    omega

/-- The lower half of the joined operands, shifted right (R411). -/
theorem shrdValue_eq {n : Nat} (a b : BitVec n) {c : Nat} (hc : c < n) :
    shrdValue a b c = ((b ++ a) >>> c).setWidth n := by
  apply BitVec.eq_of_getLsbD_eq
  intro i hi
  simp only [shrdValue, BitVec.getLsbD_or, BitVec.getLsbD_shiftLeft, BitVec.getLsbD_ushiftRight, BitVec.getLsbD_setWidth,
    BitVec.getLsbD_append]
  by_cases h : c + i < n
  · have h1 : i < n - c := by omega
    simp [h, h1, hi]
  · have h1 : ¬ i < n - c := by omega
    have h2 : i - (n - c) = c + i - n := by omega
    simp [h, h1, h2, hi, BitVec.getLsbD_of_ge a _ (Nat.le_of_not_lt h)]

theorem doubleRm_zero {value : (n : Nat) → BitVec n → BitVec n → Nat → BitVec n} {last : Nat → Nat → Nat} {reg : Gpr} {rm : Rm}
    {count : Byte} {s : State} (h : count.toNat % 32 = 0) :
    doubleRm value last reg rm count s = inspectOnly s.opWidth rm s := by
  simp only [doubleRm, M.bind_ok (look_apply _ s), if_pos h]

/-- A count below the operand size (R410, R411). -/
theorem completes_doubleRm {i : Instr} {value : (n : Nat) → BitVec n → BitVec n → Nat → BitVec n} {last : Nat → Nat → Nat}
    {reg : Gpr} {rm : Rm} {count : Byte} {s u : State} {p : Place} {a : BitVec s.opWidth.bits}
    (hi : exec i s = run (doubleRm value last reg rm count) s) (hc : count.toNat % 32 ≠ 0)
    (hn : count.toNat % 32 < s.opWidth.bits) (h : modifyRm s.opWidth rm s = .ok ((p, a), u)) (r : p.ready s) :
    Completes i s fun t => ∃ of af, DonePlace s.opWidth p (value _ a (s.reg s.opWidth reg) (count.toNat % 32)) s
      (s.withFlags { s.flags.szp (value _ a (s.reg s.opWidth reg) (count.toNat % 32)) with
        cf := a.getLsbD (last s.opWidth.bits (count.toNat % 32)), of := of, af := af }) u t := by
  have q := quiet_modifyRm _ _ _ _ _ h
  have hb : ∃ of af, doubleRm value last reg rm count s = putPlace s.opWidth p (value _ a (s.reg s.opWidth reg) (count.toNat % 32))
      ((u.withDraws (u.draws + 2)).withFlags { u.flags.szp (value _ a (s.reg s.opWidth reg) (count.toNat % 32)) with
        cf := a.getLsbD (last s.opWidth.bits (count.toNat % 32)), of := of, af := af }) := by
    refine ⟨Config.freeBit u.draws, Config.freeBit (u.draws + 1), ?_⟩
    simp only [doubleRm, M.bind_ok (look_apply _ s), if_neg hc, if_neg (Nat.not_le.mpr hn), M.bind_ok h, M.bind_ok (drawBit_apply _),
      M.bind_ok (putFlags_apply _ _)]
    rfl
  obtain ⟨of, af, hb⟩ := hb
  have m := (q.matches.trans (matches_withDraws u (u.draws + 2))).withFlags { u.flags.szp
    (value _ a (s.reg s.opWidth reg) (count.toNat % 32)) with
      cf := a.getLsbD (last s.opWidth.bits (count.toNat % 32)), of := of, af := af }
  obtain ⟨t, ht, hd⟩ := completes_place hi hb q r m rfl q.sys.params rfl
  rw [q.flags] at hd
  exact ⟨t, ht, of, af, hd⟩

/-- A count of the operand size or more: everything is free (U3, D19). -/
theorem completes_doubleRm_free {i : Instr} {value : (n : Nat) → BitVec n → BitVec n → Nat → BitVec n} {last : Nat → Nat → Nat}
    {reg : Gpr} {rm : Rm} {count : Byte} {s u : State} {p : Place} {a : BitVec s.opWidth.bits}
    (hi : exec i s = run (doubleRm value last reg rm count) s) (hc : count.toNat % 32 ≠ 0)
    (hn : s.opWidth.bits ≤ count.toNat % 32) (h : modifyRm s.opWidth rm s = .ok ((p, a), u)) (r : p.ready s) :
    Completes i s fun t => ∃ x cf pf af zf sf of, DonePlace s.opWidth p x s
      (s.withFlags { s.flags with cf := cf, pf := pf, af := af, zf := zf, sf := sf, of := of }) u t := by
  have q := quiet_modifyRm _ _ _ _ _ h
  obtain ⟨cf, pf, af, zf, sf, of, t, hf, hm, hp, -, m⟩ := freeFlags_ok (u.withDraws (u.draws + 1))
  have hb : doubleRm value last reg rm count s = putPlace s.opWidth p (Config.freeBits s.opWidth.bits u.draws) t := by
    simp only [doubleRm, M.bind_ok (look_apply _ s), if_neg hc, if_pos hn, M.bind_ok h, M.bind_ok (drawBits_apply _ _), M.bind_ok hf]
  have m' := ((q.matches.trans (matches_withDraws u (u.draws + 1))).withFlags _).trans m
  obtain ⟨t', ht, hd⟩ := completes_place hi hb q r m' hm (hp.trans q.sys.params) rfl
  simp only [State.withDraws_flags, q.flags] at hd
  exact ⟨t', ht, _, cf, pf, af, zf, sf, of, hd⟩

/-- Every form of a double shift whose value and last bit are the stated ones. -/
theorem doubleShift_form {i : Instr} {value : (n : Nat) → BitVec n → BitVec n → Nat → BitVec n} {last : Nat → Nat → Nat}
    {reg : Gpr} {rm : Rm} {count : Byte} {s : State} {stated : BitVec s.opWidth.bits → Nat → BitVec s.opWidth.bits}
    (hi : exec i s = run (doubleRm value last reg rm count) s)
    (hv : ∀ a c, c < s.opWidth.bits → value _ a (s.reg s.opWidth reg) c = stated a c) :
    (count.toNat % 32 = 0 → ∀ x v u1 u, targetRm rm s = .ok (x, u1) → inspect s.opWidth x u1 = .ok (v, u) →
      Completes i s (DoneQuiet s s)) ∧
    (count.toNat % 32 ≠ 0 → ∀ p (a : BitVec s.opWidth.bits) u, modifyRm s.opWidth rm s = .ok ((p, a), u) → p.ready s →
      (count.toNat % 32 < s.opWidth.bits → Completes i s fun t => ∃ of af, DonePlace s.opWidth p (stated a (count.toNat % 32)) s
        (s.withFlags { s.flags.szp (stated a (count.toNat % 32)) with
          cf := a.getLsbD (last s.opWidth.bits (count.toNat % 32)), of := of, af := af }) u t) ∧
      (s.opWidth.bits ≤ count.toNat % 32 → Completes i s fun t => ∃ r cf pf af zf sf of, DonePlace s.opWidth p r s
        (s.withFlags { s.flags with cf := cf, pf := pf, af := af, zf := zf, sf := sf, of := of }) u t)) := by
  refine ⟨fun hc _ _ _ _ h1 h => completes_inspect hi (doubleRm_zero hc) h1 h, fun hc p a u h r => ⟨fun hn => ?_, fun hn =>
    completes_doubleRm_free hi hc hn h r⟩⟩
  rw [← hv a _ hn]
  exact completes_doubleRm hi hc hn h r

/-- Settles O35: the immediate and the CL forms differ in where the count comes from. -/
theorem doubleShifts : Obligations.DoubleShifts := by
  intro s reg rm k b shifts left right
  have hl (a : BitVec k.bits) (c : Nat) (hc : c < k.bits) : shldValue a b c = left a c := shldValue_eq a b hc
  have hr (a : BitVec k.bits) (c : Nat) (hc : c < k.bits) : shrdValue a b c = right a c := shrdValue_eq a b hc
  have formLeft (i : Instr) (count : Byte) (hi : exec i s = run (shiftLeftDouble reg rm count) s) :
      shifts i count left (k.bits - ·) := doubleShift_form (last := fun n c => n - c) hi hl
  have formRight (i : Instr) (count : Byte) (hi : exec i s = run (shiftRightDouble reg rm count) s) :
      shifts i count right (· - 1) := doubleShift_form (last := fun _ c => c - 1) hi hr
  exact ⟨fun imm => ⟨formLeft _ imm rfl, formRight _ imm rfl⟩, formLeft _ _ rfl, formRight _ _ rfl⟩

end Sys2Proof.Machine
end

section
/-!
PROOFS. The arithmetic meaning of the flags of a sum, of a difference and of a result (10_state.md R39).
-/

namespace Sys2Proof.Machine

/-! ## Sums and differences as numbers -/

theorem carryIn_toNat {n : Nat} (c : Bool) (h : 1 ≤ n) : (carryIn n c).toNat = c.toNat := by
  have hn : 2 ≤ 2 ^ n := Nat.pow_le_pow_right (n := 2) (by decide) h
  cases c <;> simp [carryIn]
  omega

/-- The two halves of the range of a width. -/
theorem pow_halves {n : Nat} (h : 1 ≤ n) : 2 ^ n = 2 * 2 ^ (n - 1) := by
  rw [← Nat.pow_succ']
  congr 1
  omega

/-- The sum is exact, or one range too high. -/
theorem addValue_toNat_cases {n : Nat} (a b : BitVec n) (c : Bool) (h : 1 ≤ n) :
    (a.toNat + b.toNat + c.toNat < 2 ^ n ∧ (addValue a b c).toNat = a.toNat + b.toNat + c.toNat) ∨
      (2 ^ n ≤ a.toNat + b.toNat + c.toNat ∧ (addValue a b c).toNat + 2 ^ n = a.toNat + b.toNat + c.toNat) := by
  have ha := a.isLt
  have hb := b.isLt
  have hc : c.toNat ≤ 1 := c.toNat_le
  have e : (addValue a b c).toNat = (a.toNat + b.toNat + c.toNat) % 2 ^ n := by
    simp [addValue, carryIn_toNat c h]
  rcases Nat.lt_or_ge (a.toNat + b.toNat + c.toNat) (2 ^ n) with hlt | hge
  · exact .inl ⟨hlt, by rw [e, Nat.mod_eq_of_lt hlt]⟩
  · have h2 : (a.toNat + b.toNat + c.toNat) % 2 ^ n = a.toNat + b.toNat + c.toNat - 2 ^ n := by
      rw [Nat.mod_eq_sub_mod hge, Nat.mod_eq_of_lt (by omega)]
    exact .inr ⟨hge, by omega⟩

theorem addValue_subValue {n : Nat} (a b : BitVec n) (c : Bool) : addValue (subValue a b c) b c = a := by
  simp only [addValue, subValue]
  rw [BitVec.sub_sub, BitVec.add_assoc, BitVec.sub_add_cancel]

/-- The difference is exact, or one range too low. -/
theorem subValue_toNat_cases {n : Nat} (a b : BitVec n) (c : Bool) (h : 1 ≤ n) :
    (b.toNat + c.toNat ≤ a.toNat ∧ (subValue a b c).toNat + b.toNat + c.toNat = a.toNat) ∨
      (a.toNat < b.toNat + c.toNat ∧ (subValue a b c).toNat + b.toNat + c.toNat = a.toNat + 2 ^ n) := by
  have hr : a = addValue (subValue a b c) b c := (addValue_subValue a b c).symm
  rcases addValue_toNat_cases (subValue a b c) b c h with ⟨h1, h2⟩ | ⟨h1, h2⟩
  · rw [← hr] at h2
    exact .inl ⟨by omega, by omega⟩
  · rw [← hr] at h2
    have := (subValue a b c).isLt
    exact .inr ⟨by omega, by omega⟩

/-- A signed value and its bits. -/
theorem toInt_cases {n : Nat} (a : BitVec n) :
    (a.msb = false ∧ a.toNat < 2 ^ (n - 1) ∧ a.toInt = a.toNat) ∨
      (a.msb = true ∧ 2 ^ (n - 1) ≤ a.toNat ∧ a.toInt = a.toNat - (2 ^ n : Nat)) := by
  rw [BitVec.toInt_eq_msb_cond, BitVec.msb_eq_decide]
  by_cases h : 2 ^ (n - 1) ≤ a.toNat
  · exact .inr ⟨by simpa using h, h, by simp [h]⟩
  · exact .inl ⟨by simpa using h, by omega, by simp [h]⟩

/-! ## Each flag -/

theorem parity_iff {n : Nat} (x : BitVec n) :
    parity (x.setWidth 8) = true ↔ ((List.range 8).countP fun i => x.getLsbD i) % 2 = 0 := by
  have key : ∀ b0 b1 b2 b3 b4 b5 b6 b7 : Bool, (!(b0 ^^ b1 ^^ b2 ^^ b3 ^^ b4 ^^ b5 ^^ b6 ^^ b7)) = true ↔
      ([b0, b1, b2, b3, b4, b5, b6, b7].countP id) % 2 = 0 := by decide
  have hmap : ((List.range 8).countP fun i => x.getLsbD i) = ((List.range 8).map fun i => x.getLsbD i).countP id :=
    (List.countP_map ..).symm
  rw [hmap]
  simp only [parity, BitVec.getLsbD_setWidth]
  exact key _ _ _ _ _ _ _ _

theorem getLsbD_four {n : Nat} (x : BitVec n) : x.getLsbD 4 = decide (x.toNat / 16 % 2 = 1) := by
  rw [BitVec.getLsbD, Nat.testBit_eq_decide_div_mod_eq]

theorem zf_iff {n : Nat} (r : BitVec n) : (r == 0) = true ↔ r.toNat = 0 := by
  rw [beq_iff_eq, ← BitVec.toNat_inj]
  simp

/-- The range of an operand width is a multiple of 32. -/
theorem pow_eq_mul_32 {n : Nat} (h : 8 ≤ n) : 2 ^ n = 32 * 2 ^ (n - 5) := by
  rw [show (32 : Nat) = 2 ^ 5 from rfl, ← Nat.pow_add]
  congr 1
  omega

theorem adjust_add {n : Nat} (a b : BitVec n) (c : Bool) (h : 8 ≤ n) :
    adjust a b (addValue a b c) = true ↔ 16 ≤ a.toNat % 16 + b.toNat % 16 + c.toNat := by
  have hp := pow_eq_mul_32 h
  have hc : c.toNat ≤ 1 := c.toNat_le
  have hs := addValue_toNat_cases a b c (by omega)
  rw [adjust, BitVec.getLsbD_xor, BitVec.getLsbD_xor, getLsbD_four, getLsbD_four, getLsbD_four]
  by_cases x : a.toNat / 16 % 2 = 1 <;> by_cases y : b.toNat / 16 % 2 = 1 <;>
    by_cases z : (addValue a b c).toNat / 16 % 2 = 1 <;> simp [x, y, z] <;> omega

/-- A borrow is the carry of the sum that undoes the difference. -/
theorem adjust_sub {n : Nat} (a b : BitVec n) (c : Bool) (h : 8 ≤ n) :
    adjust a b (subValue a b c) = true ↔ a.toNat % 16 < b.toNat % 16 + c.toNat := by
  have hp := pow_eq_mul_32 h
  have hc : c.toNat ≤ 1 := c.toNat_le
  have hs := subValue_toNat_cases a b c (by omega)
  have hx : adjust a b (subValue a b c) = adjust (subValue a b c) b a := by
    rw [adjust, adjust, BitVec.xor_comm (a ^^^ b), BitVec.xor_comm a, BitVec.xor_assoc]
  have hadd := adjust_add (subValue a b c) b c h
  rw [addValue_subValue] at hadd
  rw [hx, hadd]
  omega

/-- The sign bit of the result differs from both operands' exactly when the signed sum does not fit. -/
theorem overflow_add {n : Nat} (a b : BitVec n) (c : Bool) (h : 1 ≤ n) :
    (a.msb == b.msb && (addValue a b c).msb != a.msb) = true ↔
      ¬ (-(2 ^ (n - 1) : Int) ≤ a.toInt + b.toInt + c.toNat ∧ a.toInt + b.toInt + c.toNat < 2 ^ (n - 1)) := by
  have hp := pow_halves h
  have hc : c.toNat ≤ 1 := c.toNat_le
  have hm : ((2 ^ (n - 1) : Nat) : Int) = 2 ^ (n - 1) := by push_cast; rfl
  rw [← hm]
  have hs := addValue_toNat_cases a b c h
  rcases toInt_cases a with ⟨h1, h2, h3⟩ | ⟨h1, h2, h3⟩ <;> rcases toInt_cases b with ⟨h4, h5, h6⟩ | ⟨h4, h5, h6⟩ <;>
    rcases toInt_cases (addValue a b c) with ⟨h7, h8, h9⟩ | ⟨h7, h8, h9⟩ <;> simp only [h1, h4, h7] <;> simp <;> omega

theorem overflow_sub {n : Nat} (a b : BitVec n) (c : Bool) (h : 1 ≤ n) :
    (a.msb != b.msb && (subValue a b c).msb != a.msb) = true ↔
      ¬ (-(2 ^ (n - 1) : Int) ≤ a.toInt - b.toInt - c.toNat ∧ a.toInt - b.toInt - c.toNat < 2 ^ (n - 1)) := by
  have hp := pow_halves h
  have hc : c.toNat ≤ 1 := c.toNat_le
  have hm : ((2 ^ (n - 1) : Nat) : Int) = 2 ^ (n - 1) := by push_cast; rfl
  rw [← hm]
  have hs := subValue_toNat_cases a b c h
  rcases toInt_cases a with ⟨h1, h2, h3⟩ | ⟨h1, h2, h3⟩ <;> rcases toInt_cases b with ⟨h4, h5, h6⟩ | ⟨h4, h5, h6⟩ <;>
    rcases toInt_cases (subValue a b c) with ⟨h7, h8, h9⟩ | ⟨h7, h8, h9⟩ <;> simp only [h1, h4, h7] <;> simp <;> omega

/-- The difference as a word is the signed difference, modulo the range. -/
theorem subValue_eq_ofInt {n : Nat} (a b : BitVec n) (c : Bool) (h : 1 ≤ n) :
    subValue a b c = BitVec.ofInt n (a.toInt - b.toInt - c.toNat) := by
  have hc : carryIn n c = BitVec.ofInt n c.toNat := by
    apply BitVec.eq_of_toNat_eq
    rw [carryIn_toNat c h, BitVec.ofInt_natCast, BitVec.toNat_ofNat, Nat.mod_eq_of_lt]
    exact Nat.lt_of_le_of_lt c.toNat_le (Nat.one_lt_two_pow (by omega))
  rw [subValue, hc, Int.sub_eq_add_neg, Int.sub_eq_add_neg, BitVec.ofInt_add, BitVec.ofInt_add, BitVec.ofInt_neg, BitVec.ofInt_neg,
    BitVec.ofInt_toInt, BitVec.ofInt_toInt, BitVec.sub_eq_add_neg, BitVec.sub_eq_add_neg]

theorem addValue_eq_ofNat {n : Nat} (a b : BitVec n) (c : Bool) (h : 1 ≤ n) :
    addValue a b c = BitVec.ofNat n (a.toNat + b.toNat + c.toNat) := by
  apply BitVec.eq_of_toNat_eq
  simp [addValue, carryIn_toNat c h]

/-- Settles O27. -/
theorem sumFlags : Obligations.SumFlags := by
  intro k f a b c sum ssum sdiff fits evenOnes
  have h8 : 8 ≤ k.bits := by cases k <;> decide
  have h1 : 1 ≤ k.bits := by omega
  have hsum : (addValue a b c).toNat = sum % 2 ^ k.bits := by
    rw [addValue_eq_ofNat a b c h1, BitVec.toNat_ofNat]
  have hdiff : ((subValue a b c).toNat : Int) = sdiff % 2 ^ k.bits := by
    rw [subValue_eq_ofInt a b c h1, BitVec.toNat_ofInt]
    exact Int.toNat_of_nonneg (Int.emod_nonneg _ (by positivity))
  have hsf (r : BitVec k.bits) : r.msb = true ↔ 2 ^ (k.bits - 1) ≤ r.toNat := by
    rw [BitVec.msb_eq_decide, decide_eq_true_iff]
  refine ⟨decide_eq_true_iff, overflow_add a b c h1, adjust_add a b c h8, ?_, ?_, ?_, decide_eq_true_iff, overflow_sub a b c h1,
    adjust_sub a b c h8, ?_, ?_, ?_, fun r => ⟨zf_iff r, ?_, parity_iff r⟩⟩
  · rw [← hsum]
    exact zf_iff _
  · rw [← hsum]
    exact hsf _
  · rw [← addValue_eq_ofNat a b c h1]
    exact parity_iff _
  · rw [← hdiff]
    exact (zf_iff _).trans (by omega)
  · rw [← hdiff]
    exact (hsf _).trans (by exact_mod_cast Iff.rfl)
  · rw [← subValue_eq_ofInt a b c h1]
    exact parity_iff _
  · show r.msb = true ↔ r.toInt < 0
    rw [BitVec.msb_eq_toInt, decide_eq_true_iff]

end Sys2Proof.Machine
end

section
/-!
PROOFS. What shifts and rotates compute (43_logic_shift.md R401 to R403, R405 to R408).
-/

namespace Sys2Proof.Machine

theorem getLsbD_eq_div {n : Nat} (x : BitVec n) (i : Nat) : x.getLsbD i = decide (x.toNat / 2 ^ i % 2 = 1) := by
  rw [BitVec.getLsbD, Nat.testBit_eq_decide_div_mod_eq]

theorem shl_cf_iff {n : Nat} (a : BitVec n) (cf : Bool) (c : Nat) :
    (shl a cf c).cf = true ↔ a.toNat * 2 ^ c / 2 ^ n % 2 = 1 := by
  simp only [shl, getLsbD_eq_div, Bool.and_eq_true, decide_eq_true_eq]
  by_cases h : c ≤ n
  · have hp : 2 ^ n = 2 ^ (n - c) * 2 ^ c := by rw [← Nat.pow_add, Nat.sub_add_cancel h]
    rw [hp, Nat.mul_div_mul_right _ _ (Nat.two_pow_pos c)]
    exact and_iff_right h
  · have hp : 2 ^ c = 2 ^ (c - n - 1) * 2 * 2 ^ n := by
      rw [← Nat.pow_succ, ← Nat.pow_add]
      congr 1
      omega
    rw [hp, ← Nat.mul_assoc, Nat.mul_div_cancel _ (Nat.two_pow_pos n), ← Nat.mul_assoc, Nat.mul_mod_left]
    omega

theorem shr_cf_iff {n : Nat} (a : BitVec n) (cf : Bool) {c : Nat} (hc : 1 ≤ c) :
    (shr a cf c).cf = true ↔ a.toNat / 2 ^ (c - 1) % 2 = 1 := by
  simp only [shr, getLsbD_eq_div, Bool.and_eq_true, decide_eq_true_eq]
  by_cases h : c ≤ n
  · exact and_iff_right h
  · have hp : a.toNat < 2 ^ (c - 1) := Nat.lt_of_lt_of_le a.isLt (Nat.pow_le_pow_right (by decide) (by omega))
    rw [Nat.div_eq_of_lt hp]
    omega

/-- The lowest bit of a signed value tells whether it is odd. -/
theorem toInt_odd_iff {n : Nat} (x : BitVec n) (h : 1 ≤ n) : x.toInt % 2 = 1 ↔ x.getLsbD 0 = true := by
  have hp := pow_halves h
  rw [getLsbD_eq_div, decide_eq_true_iff]
  rcases toInt_cases x with ⟨-, -, e⟩ | ⟨-, -, e⟩ <;> rw [e, Nat.pow_zero, Nat.div_one] <;> omega

theorem sar_cf_iff {n : Nat} (a : BitVec n) (cf : Bool) {c : Nat} (h : 1 ≤ n) (hc : 1 ≤ c) :
    (sar a cf c).cf = true ↔ a.toInt / 2 ^ (c - 1) % 2 = 1 := by
  have hs : a.toInt / 2 ^ (c - 1) = (a.sshiftRight (c - 1)).toInt := by
    rw [BitVec.toInt_sshiftRight, Int.shiftRight_eq_div_pow]
    push_cast
    rfl
  rw [hs, toInt_odd_iff _ h, BitVec.getLsbD_sshiftRight]
  have hb : (c - 1 + 0 < n) = (c ≤ n) := by
    rw [eq_iff_iff]
    omega
  have hn : ¬ n ≤ 0 := by omega
  simp only [sar, Nat.add_zero] at hb ⊢
  simp [hb, hn]

/-- A value of one bit more is its top bit and the rest. -/
theorem ofBool_msb_append {n : Nat} (r : BitVec (1 + n)) : BitVec.ofBool r.msb ++ r.setWidth n = r := by
  apply BitVec.eq_of_getLsbD_eq
  intro i hi
  rw [BitVec.getLsbD_append, BitVec.getLsbD_setWidth]
  by_cases h : i < n
  · simp [h]
  · have hin : i = n := by omega
    subst hin
    simp [BitVec.msb_eq_getLsbD_last]

/-- Settles O33. -/
theorem shiftValues : Obligations.ShiftValues := by
  intro k a cf c h1 h31 n
  have hn : 1 ≤ k.bits := by cases k <;> decide
  refine ⟨⟨?_, shl_cf_iff a cf c, rfl⟩, ⟨?_, shr_cf_iff a cf h1, rfl⟩, ⟨?_, sar_cf_iff a cf hn h1, rfl⟩, ⟨rfl, rfl, rfl⟩,
    ⟨rfl, rfl, rfl⟩, ⟨?_, rfl⟩, ?_, rfl⟩
  · rw [shl, BitVec.toNat_shiftLeft, Nat.shiftLeft_eq]
  · rw [shr, BitVec.toNat_ushiftRight, Nat.shiftRight_eq_div_pow]
  · rw [sar, BitVec.toInt_sshiftRight, Int.shiftRight_eq_div_pow]
    push_cast
    rfl
  · refine (ofBool_msb_append _).trans ?_
    rw [Nat.add_comm k.bits 1]
    rfl
  · refine (ofBool_msb_append _).trans ?_
    rw [Nat.add_comm k.bits 1]
    rfl

end Sys2Proof.Machine
end

section
/-!
PROOFS. Decimal and ASCII adjusts, multiplication and division (42_arithmetic.md R340 to R343, R350 to R355, R366, R367).
-/

namespace Sys2Proof.Machine

/-! ## Adjusts -/

/-- The condition of an adjustment of the low nibble. -/
theorem nibbleAdjust_eq (al : Byte) (af : Bool) : nibbleAdjust al af = decide (9 < al.toNat % 16 ∨ af = true) := by
  cases af <;> simp [nibbleAdjust]

theorem asciiAdjust_apply (x y : Byte) (s : State) : asciiAdjust x y s =
    let adj := nibbleAdjust (s.reg .b .ax) s.flags.af
    .ok ((), ((s.withDraws (s.draws + 4)).setReg .w .ax ((bif adj then s.reg .b .sp + y else s.reg .b .sp) ++
      ((bif adj then s.reg .b .ax + x else s.reg .b .ax) &&& 0x0F))).mapFlags fun f => f.undef adj (Config.freeBit s.draws) adj
        (Config.freeBit (s.draws + 1)) (Config.freeBit (s.draws + 2)) (Config.freeBit (s.draws + 3))) := by
  simp only [asciiAdjust, M.bind_ok (M.get_apply _), M.bind_ok (drawBit_apply _), State.withDraws_draws, withDraws_withDraws]
  rfl

/-- AAA and AAS (R340, R341): the statement's cases are those of the adjustment. -/
theorem completes_ascii {i : Instr} {x y : Byte} {s : State} (hi : exec i s = run (asciiAdjust x y) s) :
    Completes i s fun t => ∃ pf zf sf of,
      if 9 < (s.reg .b .ax).toNat % 16 ∨ s.flags.af = true then
        DoneQuiet s ((s.setReg .w .ax ((s.reg .b .sp + y) ++ ((s.reg .b .ax + x) &&& 0x0F))).withFlags
          { s.flags with af := true, cf := true, pf := pf, zf := zf, sf := sf, of := of }) t
      else DoneQuiet s ((s.setReg .w .ax (s.reg .b .sp ++ (s.reg .b .ax &&& 0x0F))).withFlags
        { s.flags with af := false, cf := false, pf := pf, zf := zf, sf := sf, of := of }) t := by
  have m := matches_withDraws s (s.draws + 4)
  have ha := asciiAdjust_apply x y s
  rw [nibbleAdjust_eq] at ha
  by_cases low : 9 < (s.reg .b .ax).toNat % 16 ∨ s.flags.af = true
  · simp only [low, decide_true, cond_true] at ha
    obtain ⟨t, ht, hd⟩ := completes_still hi ha ((m.setReg .w .ax _).mapFlags _) rfl rfl
    simp only [if_pos low]
    exact ⟨t, ht, _, _, _, _, hd⟩
  · simp only [low, decide_false, cond_false] at ha
    obtain ⟨t, ht, hd⟩ := completes_still hi ha ((m.setReg .w .ax _).mapFlags _) rfl rfl
    simp only [if_neg low]
    exact ⟨t, ht, _, _, _, _, hd⟩

/-- DAA and DAS (R342, R343). -/
theorem completes_decimal {i : Instr} {value : Byte → Bool → Bool → Byte × Bool × Bool} {s : State} {r : Byte} {cf af : Bool}
    (hi : exec i s = run (decimalAdjust value) s) (hv : value (s.reg .b .ax) s.flags.cf s.flags.af = (r, cf, af)) :
    Completes i s fun t => ∃ of,
      DoneQuiet s ((s.setReg .b .ax r).withFlags { s.flags.szp r with af := af, cf := cf, of := of }) t := by
  have hb : decimalAdjust value s = .ok ((), ((s.withDraws (s.draws + 1)).setReg .b .ax r).mapFlags fun f =>
      { f.szp r with cf := cf, af := af, of := Config.freeBit s.draws }) := by
    simp only [decimalAdjust, M.bind_ok (M.get_apply _), hv, M.bind_ok (drawBit_apply _)]
    rfl
  obtain ⟨t, ht, hd⟩ := completes_still hi hb (((matches_withDraws s (s.draws + 1)).setReg .b .ax r).mapFlags _) rfl rfl
  exact ⟨t, ht, _, hd⟩

/-- The end of AAM and AAD (R366, R367). -/
theorem completes_putAdjusted {i : Instr} {ah al : Byte} {s : State} {body : M Unit} (hi : exec i s = run body s)
    (hb : body s = putAdjusted ah al s) : Completes i s fun t => ∃ of af cf,
      DoneQuiet s ((s.setReg .w .ax (ah ++ al)).withFlags { s.flags.szp al with of := of, af := af, cf := cf }) t := by
  have ha : putAdjusted ah al s = .ok ((), ((s.withDraws (s.draws + 3)).setReg .w .ax (ah ++ al)).mapFlags fun f =>
      { f.szp al with of := Config.freeBit s.draws, af := Config.freeBit (s.draws + 1), cf := Config.freeBit (s.draws + 2) }) := by
    simp only [putAdjusted, M.bind_ok (drawBit_apply _), State.withDraws_draws, withDraws_withDraws]
    rfl
  obtain ⟨t, ht, hd⟩ := completes_still hi (hb.trans ha) (((matches_withDraws s (s.draws + 3)).setReg .w .ax (ah ++ al)).mapFlags _)
    rfl rfl
  exact ⟨t, ht, _, _, _, hd⟩

theorem daaValue_eq (al : Byte) (cf af : Bool) : daaValue al cf af =
    (al + (if 9 < al.toNat % 16 ∨ af = true then 6 else 0) + (if 0x99 < al.toNat ∨ cf = true then 0x60 else 0),
      decide (0x99 < al.toNat ∨ cf = true), decide (9 < al.toNat % 16 ∨ af = true)) := by
  have hh : (decide (0x99 < al.toNat) || cf) = decide (0x99 < al.toNat ∨ cf = true) := by cases cf <;> simp
  simp only [daaValue, nibbleAdjust_eq, hh, Bool.cond_decide]

theorem dasValue_eq (al : Byte) (cf af : Bool) : dasValue al cf af =
    (al - (if 9 < al.toNat % 16 ∨ af = true then 6 else 0) - (if 0x99 < al.toNat ∨ cf = true then 0x60 else 0),
      decide ((0x99 < al.toNat ∨ cf = true) ∨ ((9 < al.toNat % 16 ∨ af = true) ∧ al.toNat < 6)),
      decide (9 < al.toNat % 16 ∨ af = true)) := by
  have hh : (decide (0x99 < al.toNat) || cf) = decide (0x99 < al.toNat ∨ cf = true) := by cases cf <;> simp
  have hcf (low : Prop) [Decidable low] : (decide (0x99 < al.toNat ∨ cf = true) || (decide low && (cf || decide (al.toNat < 6)))) =
      decide ((0x99 < al.toNat ∨ cf = true) ∨ (low ∧ al.toNat < 6)) := by
    cases cf <;> simp
  simp only [dasValue, nibbleAdjust_eq, hh, Bool.cond_decide, hcf]

/-- Settles O30. -/
theorem adjusts : Obligations.Adjusts := by
  intro s al ah f low high ascii sums diff
  refine ⟨completes_ascii rfl, completes_ascii rfl, completes_decimal (value := daaValue) rfl (daaValue_eq _ _ _),
    completes_decimal (value := dasValue) rfl (dasValue_eq _ _ _), fun b hb => ?_, fun b => ?_⟩
  · have hq : BitVec.ofNat 8 (al.toNat / b.toNat) = al / b := by
      rw [← BitVec.toNat_udiv]
      rw [BitVec.ofNat_toNat, BitVec.setWidth_eq]
    have hm : BitVec.ofNat 8 (al.toNat % b.toNat) = al % b := by
      rw [← BitVec.toNat_umod]
      rw [BitVec.ofNat_toNat, BitVec.setWidth_eq]
    rw [hq, hm]
    exact completes_putAdjusted rfl (M.bind_ok (check_ok _ s (bne_iff_ne.mpr hb)))
  · exact completes_putAdjusted (i := .aad b) (ah := 0#8) (al := ah * b + al) (body := putAdjusted 0 (ah * b + al)) rfl rfl

/-! ## Multiplication (R350 to R353) -/

/-- A double-width product and its flags, after operand accesses that led to `u`. -/
theorem completes_product {i : Instr} {s e u w : State} {c : Bool} {isOver : Prop} {body : M Unit} (hi : exec i s = run body s)
    (hb : body s = mulFlags c w) (q : Quiet s u) (m : Matches e w) (hm : w.mem = u.mem) (hf : e.flags = s.flags)
    (hp : e.pend.bs = s.pend.bs) (hc : c = true ↔ isOver) : Completes i s fun t => ∃ c sf zf af pf, (c = true ↔ isOver) ∧
      DoneQuiet s (e.withFlags { s.flags with cf := c, of := c, sf := sf, zf := zf, af := af, pf := pf }) t := by
  obtain ⟨sf, zf, af, pf, t, hok, hmem, -, mt⟩ := mulFlags_ok c w
  have m' := (m.withFlags { s.flags with cf := c, of := c, sf := sf, zf := zf, af := af, pf := pf }).trans
    ((m.flags.trans hf) ▸ mt)
  obtain ⟨t', ht, hd⟩ := completes_quiet_of hi (hb.trans hok) q.mem m' (hmem.trans hm) hp
  exact ⟨t', ht, c, sf, zf, af, pf, hc, hd⟩

theorem signedOverflow_iff {n : Nat} {p : Int} : signedOverflow n p = true ↔ (BitVec.ofInt n p).toInt ≠ p := by
  rw [signedOverflow, decide_eq_true_iff]
  exact ne_comm

theorem ofInt_mul_toInt {n : Nat} (a b : BitVec n) : BitVec.ofInt n (a.toInt * b.toInt) = a * b := by
  apply BitVec.eq_of_toInt_eq
  rw [BitVec.toInt_ofInt, BitVec.toInt_mul]

/-- The halves of an unsigned product. -/
theorem halves_toNat {n p : Nat} (h : p < 2 ^ n * 2 ^ n) :
    (BitVec.ofNat n (p / 2 ^ n) ++ BitVec.ofNat n p).toNat = p := by
  have hd : p / 2 ^ n < 2 ^ n := Nat.div_lt_of_lt_mul h
  rw [BitVec.toNat_append, BitVec.toNat_ofNat, BitVec.toNat_ofNat, Nat.mod_eq_of_lt hd,
    ← Nat.shiftLeft_add_eq_or_of_lt (Nat.mod_lt _ (Nat.two_pow_pos n)), Nat.shiftLeft_eq]
  exact Nat.div_add_mod' p (2 ^ n)

/-- The halves of a signed product. -/
theorem halves_toInt {n : Nat} {p : Int} (hn : 1 ≤ n) (h1 : -2 ^ (n - 1) ≤ p / 2 ^ n) (h2 : p / 2 ^ n < 2 ^ (n - 1)) :
    (BitVec.ofInt n (p / 2 ^ n) ++ BitVec.ofInt n p).toInt = p := by
  have hn0 : (n == 0) = false := by
    rw [beq_eq_false_iff_ne]
    omega
  have hlow : ((BitVec.ofInt n p).toNat : Int) = p % 2 ^ n := by
    rw [BitVec.toNat_ofInt, Int.toNat_of_nonneg (Int.emod_nonneg _ (by positivity))]
    push_cast
    rfl
  rw [BitVec.toInt_append, hn0, BitVec.toInt_ofInt_eq_self hn h1 h2, hlow]
  exact Int.mul_ediv_add_emod p (2 ^ n)

/-- The high half of a signed product is a signed value of the width. -/
theorem product_high {n : Nat} (a b : BitVec n) (hn : 1 ≤ n) :
    -2 ^ (n - 1) ≤ a.toInt * b.toInt / 2 ^ n ∧ a.toInt * b.toInt / 2 ^ n < 2 ^ (n - 1) := by
  have hp : (2 ^ n : Int) = 2 * 2 ^ (n - 1) := by exact_mod_cast pow_halves hn
  have hpos : (0 : Int) < 2 ^ (n - 1) := by positivity
  have ha : |a.toInt| ≤ 2 ^ (n - 1) := abs_le.mpr ⟨BitVec.le_toInt a, BitVec.toInt_lt.le⟩
  have hb : |b.toInt| ≤ 2 ^ (n - 1) := abs_le.mpr ⟨BitVec.le_toInt b, BitVec.toInt_lt.le⟩
  have hab : |a.toInt * b.toInt| ≤ 2 ^ (n - 1) * 2 ^ (n - 1) := by
    rw [abs_mul]
    exact mul_le_mul ha hb (abs_nonneg _) hpos.le
  obtain ⟨hlo, hhi⟩ := abs_le.mp hab
  rw [hp]
  constructor
  · rw [Int.le_ediv_iff_mul_le (by positivity)]
    nlinarith
  · rw [Int.ediv_lt_iff_lt_mul (by positivity)]
    nlinarith

/-- Settles O31: the product is computed in integers and cut into halves. -/
theorem multiply : Obligations.Multiply := by
  intro s done
  have bits (k : Width) : 1 ≤ k.bits := by cases k <;> decide
  refine ⟨fun w rm v u h => ⟨⟨_, _, halves_toNat ?_, ?_⟩, ⟨_, _, halves_toInt (bits _) ?_ ?_, ?_⟩⟩, fun reg rm v u h => ?_⟩
  · exact Nat.mul_lt_mul'' (s.reg (s.widthOf w) .ax).isLt v.isLt
  · have q := quiet_readRm _ _ _ _ _ h
    exact completes_product rfl ((M.bind_ok h).trans (M.bind_ok (putWide_ok _ _ _ u))) q (q.matches.setWide _ _ _)
      (setWide_mem ..) (setWide_flags ..) (by simp) bne_iff_ne
  · exact (product_high _ _ (bits _)).1
  · exact (product_high _ _ (bits _)).2
  · have q := quiet_readRm _ _ _ _ _ h
    exact completes_product rfl ((M.bind_ok h).trans (M.bind_ok (putWide_ok _ _ _ u))) q (q.matches.setWide _ _ _)
      (setWide_mem ..) (setWide_flags ..) (by simp) signedOverflow_iff
  · have q := quiet_readRm _ _ _ _ _ h
    have low (i : Instr) (a b : BitVec s.opWidth.bits) {body : M Unit} (hi : exec i s = run body s)
        (hb : body s = mulToReg s.opWidth reg a b u) :
        done i (s.setReg s.opWidth reg (a * b)) ((a * b).toInt ≠ a.toInt * b.toInt) := by
      rw [← ofInt_mul_toInt]
      exact completes_product hi hb q (q.matches.setReg _ _ _) rfl rfl rfl signedOverflow_iff
    exact ⟨low _ _ _ rfl (M.bind_ok h), fun imm => low _ _ _ rfl (M.bind_ok h), fun imm => low _ _ _ rfl (M.bind_ok h)⟩

/-! ## Division (R354, R355, R366) -/

/-- A quotient and a remainder, after operand accesses that led to `u`: all status flags are free (U4). -/
theorem completes_quotient {i : Instr} {s u : State} {k : Width} {hi lo : BitVec k.bits} {body : M Unit}
    (he : exec i s = run body s) (hb : body s = (putWide k hi lo >>= fun _ => freeFlags) u) (q : Quiet s u) :
    Completes i s (DoneFreeFlags s (s.setWide k hi lo)) := by
  obtain ⟨cf, pf, af, zf, sf, of, t, hok, hm, -, -, m⟩ := freeFlags_ok (u.setWide k hi lo)
  rw [setWide_flags, q.flags] at m
  obtain ⟨t', ht, hd⟩ := completes_quiet_of he (hb.trans ((M.bind_ok (putWide_ok k hi lo u)).trans hok)) q.mem
    (((q.matches.setWide k hi lo).withFlags _).trans m) (hm.trans (setWide_mem ..)) (by simp)
  exact ⟨t', ht, cf, pf, af, zf, sf, of, hd⟩

/-- Quotient and remainder toward zero are unique. -/
theorem tdiv_tmod_of_eq {d v q r : Int} (he : d = q * v + r) (hr : r.natAbs < v.natAbs) (hs : r = 0 ∨ (r < 0 ↔ d < 0)) :
    d.tdiv v = q ∧ d.tmod v = r := by
  have hv : v ≠ 0 := by omega
  have he' : r + v * q = d := by rw [he, Int.mul_comm v q, Int.add_comm]
  rcases Int.lt_or_le d 0 with hd | hd
  · exact (Int.tdiv_tmod_unique' hd.le hv).mpr ⟨he', by omega, by omega⟩
  · exact (Int.tdiv_tmod_unique hd hv).mpr ⟨he', by omega, by omega⟩

theorem faults_aam (s : State) : Faults (.aam 0) s 0 none s :=
  faults_of (e := excDE) (body := check false excDE >>= fun _ => putAdjusted (s.reg .b .ax / 0) (s.reg .b .ax % 0)) rfl
    (M.bind_error rfl) (by decide)

theorem divRm_ok {w : Bool} {rm : Rm} {s u : State} {v q r : BitVec (s.widthOf w).bits}
    (h : readRm (s.widthOf w) rm s = .ok (v, u)) (he : (s.wideAcc (s.widthOf w)).toNat = q.toNat * v.toNat + r.toNat)
    (hr : r.toNat < v.toNat) : Completes (.divRm w rm) s (DoneFreeFlags s (s.setWide (s.widthOf w) r q)) := by
  obtain ⟨hdiv, hmod⟩ : (s.wideAcc (s.widthOf w)).toNat / v.toNat = q.toNat ∧ (s.wideAcc (s.widthOf w)).toNat % v.toNat = r.toNat :=
    (Nat.div_mod_unique (by omega)).mpr ⟨by rw [he, Nat.mul_comm, Nat.add_comm], hr⟩
  have hv : (v != 0) = true := by
    rw [bne_iff_ne]
    rintro rfl
    simp at hr
  have hfit : decide ((s.wideAcc (s.widthOf w)).toNat / v.toNat < 2 ^ (s.widthOf w).bits) = true := by
    rw [hdiv, decide_eq_true_iff]
    exact q.isLt
  refine completes_quotient rfl ((M.bind_ok h).trans ((M.bind_ok (check_ok _ _ hv)).trans ((M.bind_ok (check_ok _ _ hfit)).trans ?_)))
    (quiet_readRm _ _ _ _ _ h)
  rw [hdiv, hmod, BitVec.ofNat_toNat, BitVec.ofNat_toNat, BitVec.setWidth_eq, BitVec.setWidth_eq]

theorem idivRm_ok {w : Bool} {rm : Rm} {s u : State} {v q r : BitVec (s.widthOf w).bits}
    (h : readRm (s.widthOf w) rm s = .ok (v, u)) (he : (s.wideAcc (s.widthOf w)).toInt = q.toInt * v.toInt + r.toInt)
    (hr : r.toInt.natAbs < v.toInt.natAbs) (hs : r.toInt = 0 ∨ (r.toInt < 0 ↔ (s.wideAcc (s.widthOf w)).toInt < 0)) :
    Completes (.idivRm w rm) s (DoneFreeFlags s (s.setWide (s.widthOf w) r q)) := by
  obtain ⟨hdiv, hmod⟩ := tdiv_tmod_of_eq he hr hs
  have hv : (v != 0) = true := by
    rw [bne_iff_ne]
    rintro rfl
    simp at hr
  have hfit : (!signedOverflow (s.widthOf w).bits ((s.wideAcc (s.widthOf w)).toInt.tdiv v.toInt)) = true := by
    rw [hdiv, signedOverflow, BitVec.ofInt_toInt]
    simp
  refine completes_quotient rfl ((M.bind_ok h).trans ((M.bind_ok (check_ok _ _ hv)).trans ((M.bind_ok (check_ok _ _ hfit)).trans ?_)))
    (quiet_readRm _ _ _ _ _ h)
  rw [hdiv, hmod, BitVec.ofInt_toInt, BitVec.ofInt_toInt]

/-- Of two checks that raise the same exception one fails. -/
theorem check_check_exc {c1 c2 : Bool} {e : Exc} {f : Unit → M Unit} {u : State} (h : c1 = false ∨ c2 = false) :
    (check c1 e >>= fun _ => check c2 e >>= f) u = .error (.exc e u) := by
  cases c1 with
  | false => exact M.bind_error rfl
  | true =>
    obtain rfl : c2 = false := h.resolve_left (by decide)
    exact (M.bind_ok rfl).trans (M.bind_error rfl)

/-- Settles O32: the divisor, then the quotient, decide between the result and #DE. -/
theorem divide : Obligations.Divide := by
  refine ⟨?_, faults_aam⟩
  intro s w rm v u h k d
  refine ⟨fun q r he hr => divRm_ok h he hr, fun q r he hr hs => idivRm_ok h he hr hs, fun hv => ?_, fun hv => ?_⟩
  · refine faults_of (e := excDE) rfl ((M.bind_ok h).trans (check_check_exc ?_)) (by decide)
    rw [bne_eq_false_iff_eq, decide_eq_false_iff_not, Nat.not_lt]
    exact hv
  · refine faults_of (e := excDE) rfl ((M.bind_ok h).trans (check_check_exc ?_)) (by decide)
    rw [bne_eq_false_iff_eq, Bool.not_eq_false', signedOverflow_iff]
    exact hv.imp_right fun hq => hq _

end Sys2Proof.Machine
end

section
/-!
PROOFS. The stack: where a push goes, and the instructions that push and pop (20_memory.md R127, R128; 40_data_transfer.md R255 to
R260; 41_flag_control.md R305, R307).
-/

namespace Sys2Proof.Machine

/-! ## Pointers (R41, R127) -/

theorem stackPtr_eq (big : Bool) (esp : Word) : stackPtr big esp = if big then esp else esp &&& 0xFFFF := by
  cases big
  · apply BitVec.eq_of_toNat_eq
    simp only [stackPtr, cond_false, Bool.false_eq_true, if_false, BitVec.toNat_and, BitVec.toNat_setWidth]
    rw [show BitVec.toNat (65535 : Word) = 2 ^ 16 - 1 from rfl, Nat.and_two_pow_sub_one_eq_mod]
    omega
  · rfl

theorem stackPtr_toNat (big : Bool) (esp : Word) :
    (stackPtr big esp).toNat = if big then esp.toNat else esp.toNat % 65536 := by
  cases big
  · simp only [stackPtr, cond_false, Bool.false_eq_true, if_false, BitVec.toNat_setWidth]
    omega
  · rfl

/-- The pointer moved down by an operand's bytes. -/
theorem moveSp_neg (big : Bool) (esp : Word) {n : Nat} (h : n = 2 ∨ n = 4) :
    moveSp big esp (-(BitVec.ofNat 32 n)) = if big then esp - BitVec.ofNat 32 n
      else esp.extractLsb' 16 16 ++ (esp.setWidth 16 - BitVec.ofNat 16 n) := by
  cases big
  · have hn : (-(BitVec.ofNat 32 n)).setWidth 16 = -(BitVec.ofNat 16 n) := by rcases h with rfl | rfl <;> rfl
    simp only [moveSp, setLow16, cond_false, Bool.false_eq_true, if_false, hn, BitVec.sub_eq_add_neg]
  · simp only [moveSp, cond_true, if_true, BitVec.sub_eq_add_neg]

theorem pushCrosses_iff (s : State) (n : Nat) : pushCrosses s s.regs.esp n = true ↔ s.realMode = true ∧
    0 < (if s.stack32 then s.regs.esp.toNat else s.regs.esp.toNat % 65536) ∧
    (if s.stack32 then s.regs.esp.toNat else s.regs.esp.toNat % 65536) < n := by
  simp only [pushCrosses, stackPtr_toNat, Bool.and_eq_true, decide_eq_true_eq, and_assoc]

/-- One push that does not cross the end of the segment: the plan of its slot. -/
theorem planStack_one {n : Nat} (v : Word) {s : State} (h : pushCrosses s s.regs.esp n = false) : planStack n [v] s =
    (plan .ss (stackPtr s.stack32 (moveSp s.stack32 s.regs.esp (-(BitVec.ofNat 32 n)))) n true >>= fun ps =>
      pure ([(ps, v)], moveSp s.stack32 s.regs.esp (-(BitVec.ofNat 32 n)))) s := by
  have hplan : plan .ss (stackPtr s.stack32 (moveSp s.stack32 s.regs.esp (-(BitVec.ofNat 32 n)))) n true s =
      planSeg (s.seg .ss) (excSS 0) s.userLevel (stackPtr s.stack32 (moveSp s.stack32 s.regs.esp (-(BitVec.ofNat 32 n)))) n true s :=
    M.bind_ok (M.get_apply s)
  simp only [planStack, planPushes, planPush, M.bind_apply, M.get_apply, h, Bool.false_eq_true, if_false, M.pure_apply, hplan]
  cases planSeg (s.seg .ss) (excSS 0) s.userLevel (stackPtr s.stack32 (moveSp s.stack32 s.regs.esp (-(BitVec.ofNat 32 n)))) n true s
  all_goals rfl

theorem planStack_crosses {n : Nat} (v : Word) {s : State} (h : pushCrosses s s.regs.esp n = true) :
    planStack n [v] s = .error (.shutdown s) := by
  simp only [planStack, planPushes, planPush, M.bind_apply, M.get_apply, h, if_true, shutDown_apply]

/-- Settles O16. -/
theorem pushAddress : Obligations.PushAddress := by
  intro s n v hn sp t off
  have ht : moveSp s.stack32 s.regs.esp (-(BitVec.ofNat 32 n)) = t := moveSp_neg _ _ hn
  have hoff : stackPtr s.stack32 t = off := stackPtr_eq _ _
  have hone (h : ¬ (s.realMode = true ∧ 0 < sp ∧ sp < n)) :=
    planStack_one v (Bool.eq_false_iff.mpr ((pushCrosses_iff s n).not.mpr h))
  simp only [ht, hoff] at hone
  refine ⟨fun h => planStack_crosses v ((pushCrosses_iff s n).mpr h), fun h ps u hp => ?_, fun h e hp => ?_⟩
  · exact (hone h).trans (M.bind_ok hp)
  · exact (hone h).trans (M.bind_error hp)

/-! ## Pushes (R255 to R257, R307) -/

/-- Values pushed after operand accesses that led to `u0`. -/
theorem completes_push {i : Instr} {n : Nat} {vs : List Word} {s u0 u : State} {stores : List (List Word × Word)} {esp : Word}
    {body : M Unit} (hi : exec i s = run body s) (hb : body s = pushAll n vs u0) (q0 : Quiet s u0)
    (h : planStack n vs u0 = .ok ((stores, esp), u)) (r : AllStorable s stores) :
    Completes i s (DoneStores n stores s (s.withEsp esp) u) := by
  have q := composes_quiet.trans q0 (quiet_planStack _ _ _ _ _ h)
  obtain ⟨t, h1, m, h2, h3, -, -⟩ := storeAll_ends (n := n) q r q.matches rfl q.sys.params
  have hok : body s = .ok ((), t.withEsp esp) := hb.trans ((M.bind_ok h).trans ((M.bind_ok h1).trans rfl))
  exact ⟨_, hi.trans (run_ok hok), (m.withEsp esp).done rfl, h2, h3⟩

theorem pushValue_apply (v : Word) (s : State) : pushValue v s = pushAll s.opWidth.bytes [v] s := M.bind_ok (look_apply _ s)

theorem needV86Iopl_ok {s : State} (h : s.v86Mode = true → s.flags.iopl = 3) : needV86Iopl s = .ok ((), s) := by
  refine (M.bind_ok (M.get_apply s)).trans (check_ok _ s ?_)
  cases hv : s.v86Mode with
  | false => rfl
  | true => simp [h hv]

theorem pushFlags_eq (s : State) :
    s.pushFlags = if s.op32 then s.flags.toWord &&& 0x00FCFFFF else s.flags.toWord &&& 0xFFFF := by
  have h : s.flags.toHWord.setWidth 32 = s.flags.toWord &&& 0xFFFF := (stackPtr_eq false s.flags.toWord)
  rw [State.pushFlags, h, Bool.cond_eq_ite]

/-- Settles O17. -/
theorem pushes : Obligations.Pushes := by
  refine ⟨?_, ?_⟩
  · rintro s i v u0 hi stores esp u h r
    rcases hi with ⟨reg, rfl, rfl, rfl⟩ | ⟨rfl, rfl⟩ | ⟨imm, rfl, rfl, rfl⟩ | ⟨rm, x, rfl, hx, rfl⟩ | ⟨rfl, hv, rfl, rfl⟩
    · exact completes_push rfl (pushValue_apply _ _) (composes_quiet.refl _) h r
    · exact completes_push rfl (pushValue_apply _ _) (composes_quiet.refl _) h r
    · exact completes_push rfl (pushValue_apply _ _) (composes_quiet.refl _) h r
    · have q := quiet_readRm _ _ _ _ _ hx
      refine completes_push rfl ((M.bind_ok hx).trans ((pushValue_apply _ _).trans ?_)) q h r
      rw [q.matches.opWidth]
    · rw [← pushFlags_eq] at h
      exact completes_push rfl ((M.bind_ok (needV86Iopl_ok hv)).trans (pushValue_apply _ _)) (composes_quiet.refl _) h r
  · rintro s i sr hi
    have hseg : exec i s = run (pushSeg sr) s := by
      rcases hi with rfl | ⟨rfl, rfl⟩ | ⟨rfl, rfl⟩ <;> rfl
    refine ⟨fun ho stores esp u h r => ?_, fun ho w u0 hw => ⟨selWord_low hw, fun stores esp u h r => ?_⟩⟩
    · refine completes_push hseg ?_ (composes_quiet.refl _) h r
      simp [pushSeg, M.bind_ok (M.get_apply s), ho]
    · refine completes_push hseg ?_ (quiet_selWord _ _ _ _ hw) h r
      simp [pushSeg, M.bind_ok (M.get_apply s), ho, M.bind_ok hw]

theorem pushaGuard_ok {s : State} (h : s.realMode = true → let sp := if s.stack32 then s.regs.esp.toNat else s.regs.esp.toNat % 65536
      sp % 2 = 0 ∨ 15 < sp) : pushaGuard s = .ok ((), s) := by
  rw [← stackPtr_toNat] at h
  rw [pushaGuard, M.bind_ok (M.get_apply s)]
  have h1 : ¬ (s.realMode ∧ ((stackPtr s.stack32 s.regs.esp).toNat = 1 ∨ (stackPtr s.stack32 s.regs.esp).toNat = 3 ∨
      (stackPtr s.stack32 s.regs.esp).toNat = 5)) := fun ⟨hr, hs⟩ => by
    have := h hr
    omega
  have h2 : ¬ (s.realMode ∧ (stackPtr s.stack32 s.regs.esp).toNat % 2 = 1 ∧ 7 ≤ (stackPtr s.stack32 s.regs.esp).toNat ∧
      (stackPtr s.stack32 s.regs.esp).toNat ≤ 15) := fun ⟨hr, hs⟩ => by
    have := h hr
    omega
  simp only [h1, h2, if_false]
  rfl

/-- Settles O18. -/
theorem pushaPopa : Obligations.PushaPopa := by
  refine ⟨fun s stores esp u hg h r => completes_push rfl (M.bind_ok (pushaGuard_ok hg)) (composes_quiet.refl _) h r, ?_, ?_⟩
  · intro s di si bp bx dx cx ax u1 u2 u3 u4 u5 u6 u n k load hs h1 h2 h3 h4 h5 h6 h7
    have c := composes_quiet
    have q := c.trans (c.trans (c.trans (c.trans (c.trans (c.trans (quiet_stackRead _ _ _ _ _ h1) (quiet_stackRead _ _ _ _ _ h2))
      (quiet_stackRead _ _ _ _ _ h3)) (quiet_stackRead _ _ _ _ _ h4)) (quiet_stackRead _ _ _ _ _ h5))
      (quiet_stackRead _ _ _ _ _ h6)) (quiet_stackRead _ _ _ _ _ h7)
    have m := (q.matches.withEsp (moveSp s.stack32 s.regs.esp (BitVec.ofNat 32 (8 * n)))).withRegs
      (popaRegs k { s.regs with esp := moveSp s.stack32 s.regs.esp (BitVec.ofNat 32 (8 * n)) } di si bp bx dx cx ax)
    refine completes_quiet_of rfl ((M.bind_ok hs).trans ((M.bind_ok h1).trans ((M.bind_ok h2).trans ((M.bind_ok h3).trans
      ((M.bind_ok h4).trans ((M.bind_ok h5).trans ((M.bind_ok h6).trans ((M.bind_ok h7).trans ?_)))))))) q.mem m rfl rfl
    rw [← q.matches.stack32, ← q.regs]
    rfl
  · intro s h
    have hs : stackSlots s.opWidth.bytes 8 s = .error (.exc (excSS 0) s) := by
      rw [stackSlots, M.bind_ok (M.get_apply s)]
      show check (slotsLegal s.segs.ss s.protMode s.stack32 s.opWidth.bytes 8 s.regs.esp) (excSS 0) s = _
      rw [h]
      rfl
    exact faults_of (e := excSS 0) rfl (M.bind_error hs) (by decide)

end Sys2Proof.Machine
end

section
/-!
PROOFS. Pops, and the loads of segment registers (40_data_transfer.md R251, R258, R259, R265 to R270; 20_memory.md R111, R115, R123,
R124).
-/

namespace Sys2Proof.Machine

/-! ## Registers that move while an instruction runs -/

theorem SameMemory.of_withRegs {s t : State} {r : Regs} (h : SameMemory (s.withRegs r) t) : SameMemory s t := ⟨h.unpaged, h.paged⟩

/-- Replacing the general registers on both sides keeps what the operand accesses leave unchanged. -/
theorem Quiet.withRegs {s u : State} (q : Quiet s u) (r : Regs) : Quiet (s.withRegs r) (u.withRegs r) :=
  .of_matches (q.matches.withRegs r) q.memOk ⟨q.mem.unpaged, q.mem.paged⟩

theorem Quiet.withEsp {s u : State} (q : Quiet s u) (v : Word) : Quiet (s.withEsp v) (u.withEsp v) := by
  rw [State.withEsp, State.withEsp, q.regs]
  exact q.withRegs _

theorem Place.ready_withRegs {s : State} {p : Place} (r : Regs) (h : p.ready s) : p.ready (s.withRegs r) := by
  cases p with
  | reg g => trivial
  | mem ps => exact h

/-- The end of an instruction does not depend on the general registers it started with. -/
theorem Ends.of_withRegs {s e t : State} {r : Regs} (h : Ends (s.withRegs r) e t) : Ends s e t :=
  ⟨h.regs, h.eip, h.flags, h.sys, h.pfx, h.oldMode, h.held, h.shadow, h.activity, h.bs, h.bt⟩

theorem DonePlace.of_withRegs {k : Width} {p : Place} {v : BitVec k.bits} {s e u t : State} {r : Regs}
    (h : DonePlace k p v (s.withRegs r) e u t) : DonePlace k p v s e u t := by
  cases p with
  | reg g => exact ⟨h.1.of_withRegs, h.2.of_withRegs⟩
  | mem ps => exact ⟨h.1.of_withRegs, h.2.1.of_withRegs, h.2.2⟩

/-! ## Pops (R128, R258, R305) -/

/-- A value popped: the read, then eSP. -/
theorem popValue_ok {s u : State} {v : Word} (h : stackRead 0 s.opWidth.bytes s = .ok (v, u)) :
    popValue s = .ok (v, u.withEsp (moveSp s.stack32 s.regs.esp (BitVec.ofNat 32 s.opWidth.bytes))) := by
  have q := quiet_stackRead _ _ _ _ _ h
  refine (M.bind_ok (look_apply _ s)).trans ((M.bind_ok h).trans ?_)
  rw [← q.matches.stack32, ← q.regs]
  rfl

theorem popFlags_eq (s : State) (v : Word) : s.popFlags v = { Flags.ofWord v with
    intf := if s.realMode = true ∨ s.cpl.toNat ≤ s.flags.iopl.toNat then (Flags.ofWord v).intf else s.flags.intf
    iopl := if s.cpl = 0 then (Flags.ofWord v).iopl else s.flags.iopl
    rf := s.flags.rf
    vm := s.flags.vm } := by
  have h1 : (s.realMode || decide (s.cplNat ≤ s.ioplNat)) = decide (s.realMode = true ∨ s.cpl.toNat ≤ s.flags.iopl.toNat) := by
    rw [Bool.decide_or, Bool.decide_eq_true]
    rfl
  have h2 : (s.cpl == 0) = decide (s.cpl = 0) := rfl
  simp only [State.popFlags, Flags.load, h1, h2, Bool.cond_decide, cond_false]

/-- Settles O19. -/
theorem pops : Obligations.Pops := by
  intro s v u h popped
  have q := quiet_stackRead _ _ _ _ _ h
  have hpop : popValue s = .ok (v, popped u) := popValue_ok h
  have qp : Quiet (popped s) (popped u) := q.withEsp _
  refine ⟨fun reg => ?_, fun rm p u' hp r => ?_, fun hv => ?_⟩
  · exact completes_quiet_of rfl (M.bind_ok hpop) q.mem ((q.matches.withEsp _).setReg _ _ _) rfl rfl
  · have q' := composes_quiet.trans qp (quiet_placeRm _ _ _ _ _ hp)
    obtain ⟨w', h1, h2⟩ := putPlace_done (v := (v.setWidth s.opWidth.bits)) q' (Place.ready_withRegs _ r) q'.matches rfl
      q'.sys.params rfl
    exact ⟨_, run_ok ((M.bind_ok hpop).trans ((M.bind_ok hp).trans h1)), h2.of_withRegs⟩
  · have m := (q.matches.withEsp (moveSp s.stack32 s.regs.esp (BitVec.ofNat 32 s.opWidth.bytes))).withFlags (s.popFlags v)
    refine ⟨_, runEnding_ok ((M.bind_ok (needV86Iopl_ok hv)).trans ((M.bind_ok hpop).trans (M.bind_ok (putFlags_apply _ _)))), ?_, ?_⟩
    · rw [← popFlags_eq]
      exact m.ends_kept Ending.loadedRf rfl rfl rfl
    · exact q.mem.congr rfl

/-! ## Loads outside Protected Mode (R111, D8) -/

theorem loadedReal_eq (s : State) (r : Sreg) (sel : HWord) : s.loadedReal r sel = s.realSeg r sel := by
  simp only [State.loadedReal, State.realSeg, Bool.cond_eq_ite, SegReg.v86, SegReg.rebase, realBase_eq]
  split <;> rfl

theorem Matches.v86Mode {e w : State} (m : Matches e w) : w.v86Mode = e.v86Mode := by
  simp only [State.v86Mode, State.peInForce, m.oldMode, m.sys.cr0, m.flags]

theorem Matches.seg {e w : State} (m : Matches e w) (r : Sreg) : w.seg r = e.seg r := by simp only [State.seg, m.sys.segs]

theorem Matches.realSeg {e w : State} (m : Matches e w) (r : Sreg) (sel : HWord) : w.realSeg r sel = e.realSeg r sel := by
  simp only [State.realSeg, m.v86Mode, m.seg]

theorem loadSeg_real {s u : State} (m : Matches s u) (h : s.protMode = false) (r : Sreg) (sel : HWord) :
    loadSeg r sel u = .ok (s.realSeg r sel, u) := by
  rw [loadSeg, M.bind_ok (M.get_apply u), m.protMode, h, loadedReal_eq, m.realSeg]
  rfl

/-! ## What each instruction does with a loaded segment register (R251, R259, R270) -/

/-- MOV SS and POP SS set the shadow (R59). -/
def State.shadowed (e : State) (r : Sreg) : State := if r = .ss then e.withShadow .movSs else e

theorem Matches.shadowed {e w : State} (m : Matches e w) (r : Sreg) : Matches (e.shadowed r) (w.shadowed r) := by
  unfold State.shadowed
  split
  · exact m.withShadow _
  · exact m

@[simp] theorem shadowed_mem (s : State) (r : Sreg) : (s.shadowed r).mem = s.mem := by unfold State.shadowed; split <;> rfl
@[simp] theorem shadowed_bs (s : State) (r : Sreg) : (s.shadowed r).pend.bs = s.pend.bs := by
  unfold State.shadowed
  split <;> rfl

@[simp] theorem shadowed_regs (s : State) (r : Sreg) : (s.shadowed r).regs = s.regs := by unfold State.shadowed; split <;> rfl
@[simp] theorem shadowed_protMode (s : State) (r : Sreg) : (s.shadowed r).protMode = s.protMode := by
  unfold State.shadowed
  split <;> rfl

@[simp] theorem shadowed_stack32 (s : State) (r : Sreg) : (s.shadowed r).stack32 = s.stack32 := by
  unfold State.shadowed
  split <;> rfl

/-- Loading a segment register, and the shadow that goes with it. -/
theorem moveToSeg_ok {r : Sreg} {sel : HWord} {u w : State} {g : SegReg} (h : loadSeg r sel u = .ok (g, w)) :
    moveToSeg r sel u = .ok ((), (w.setSeg r g).shadowed r) := by
  refine (M.bind_ok h).trans ((M.bind_ok (update_apply _ w)).trans ?_)
  unfold State.shadowed
  split <;> rfl

/-- The stack released by `n` bytes (R128). -/
def State.release (s : State) (n : Nat) : State := s.withEsp (moveSp s.stack32 s.regs.esp (BitVec.ofNat 32 n))

theorem releaseStack_apply (n : Nat) (s : State) : releaseStack (BitVec.ofNat 32 n) s = .ok ((), s.release n) := rfl

theorem Matches.release {e w : State} (m : Matches e w) (n : Nat) : Matches (e.release n) (w.release n) := by
  rw [State.release, State.release, m.stack32, m.regs]
  exact m.withEsp _

/-- POP of a segment register: eSP moves by the stack in use after the load (R259; log entry 35). -/
theorem popSeg_ok {s u w : State} {r : Sreg} {v : Word} {g : SegReg} (h : stackRead 0 s.opWidth.bytes s = .ok (v, u))
    (hl : loadSeg r (v.setWidth 16) u = .ok (g, w)) :
    popSeg r s = .ok ((), ((w.setSeg r g).shadowed r).release s.opWidth.bytes) :=
  (M.bind_ok (look_apply _ s)).trans ((M.bind_ok h).trans ((M.bind_ok (moveToSeg_ok hl)).trans rfl))

/-- The far-pointer loads (R270). -/
theorem loadFarPointer_ok {s u1 u2 u w : State} {r sr : Sreg} {reg : Gpr} {m : MemOp} {off : Word} {v : BitVec s.opWidth.bits}
    {sel : HWord} {g : SegReg} (h1 : addressOf m s = .ok ((sr, off), u1)) (h2 : readAt s.opWidth sr off u1 = .ok (v, u2))
    (h3 : readAt .w sr (off + BitVec.ofNat 32 s.opWidth.bytes) u2 = .ok (sel, u)) (hl : loadSeg r sel u = .ok (g, w)) :
    loadFarPointer r reg m s = .ok ((), (w.setSeg r g).setReg s.opWidth reg v) :=
  (M.bind_ok (look_apply _ s)).trans ((M.bind_ok h1).trans ((M.bind_ok h2).trans ((M.bind_ok h3).trans ((M.bind_ok hl).trans rfl))))

/-- The reads of a far pointer change no register and store nothing. -/
theorem quiet_farPointer {s u1 u2 u : State} {sr : Sreg} {m : MemOp} {off : Word} {v : BitVec s.opWidth.bits} {sel : HWord}
    (h1 : addressOf m s = .ok ((sr, off), u1)) (h2 : readAt s.opWidth sr off u1 = .ok (v, u2))
    (h3 : readAt .w sr (off + BitVec.ofNat 32 s.opWidth.bytes) u2 = .ok (sel, u)) : Quiet s u :=
  composes_quiet.trans (composes_quiet.trans (quiet_addressOf _ _ _ _ h1) (quiet_readAt _ _ _ _ _ _ h2)) (quiet_readAt _ _ _ _ _ _ h3)

/-- Settles O20. -/
theorem segmentLoadsReal : Obligations.SegmentLoadsReal := by
  intro s hp loaded shadowed
  refine ⟨fun sr rm sel u h => ?_, ?_, ?_⟩
  · have q := quiet_readRm _ _ _ _ _ h
    exact completes_quiet_of rfl ((M.bind_ok h).trans (moveToSeg_ok (loadSeg_real q.matches hp sr sel))) q.mem
      ((q.matches.setSeg sr _).shadowed sr) (shadowed_mem ..) (shadowed_bs ..)
  · intro v u h after
    have q := quiet_stackRead _ _ _ _ _ h
    have pop (i : Instr) (sr : Sreg) (hi : exec i s = run (popSeg sr) s) : Completes i s (DoneQuiet s (after sr)) := by
      have m := (q.matches.setSeg sr (s.realSeg sr (v.setWidth 16))).shadowed sr
      have hprot : ((s.setSeg sr (s.realSeg sr (v.setWidth 16))).shadowed sr).protMode = false := by
        rw [shadowed_protMode]
        exact hp
      have hafter : ((s.setSeg sr (s.realSeg sr (v.setWidth 16))).shadowed sr).release s.opWidth.bytes = after sr := by
        rw [State.release, State.stack32, hprot, Bool.false_and, shadowed_regs]
        show _ = State.withEsp _ (moveSp s.stack32 _ _)
        rw [State.stack32, hp, Bool.false_and]
        rfl
      rw [← hafter]
      exact completes_quiet_of hi (popSeg_ok h (loadSeg_real q.matches hp sr _)) q.mem (m.release _) (shadowed_mem ..)
        (shadowed_bs ..)
    exact ⟨pop _ _ rfl, pop _ _ rfl, pop _ _ rfl, pop _ _ rfl, pop _ _ rfl⟩
  · intro m reg sr off v sel u1 u2 u h1 h2 h3 after
    have q := quiet_farPointer h1 h2 h3
    have load (i : Instr) (r : Sreg) (hi : exec i s = run (loadFarPointer r reg m) s) : Completes i s (DoneQuiet s (after r)) :=
      completes_quiet_of hi (loadFarPointer_ok h1 h2 h3 (loadSeg_real q.matches hp r sel)) q.mem
        ((q.matches.setSeg r _).setReg _ _ _) rfl rfl
    exact ⟨load _ _ rfl, load _ _ rfl, load _ _ rfl, load _ _ rfl, load _ _ rfl⟩

/-! ## Loads in Protected Mode (R115, R123, R124) -/

theorem needDesc_some {sel : HWord} {e : Exc} {d : Desc} {s u : State} (h : fetchDesc sel s = .ok (some d, u)) :
    needDesc sel e s = .ok (d, u) := M.bind_ok h

theorem needDesc_none {sel : HWord} {e : Exc} {s : State} (h : descAddress s.tables sel = none) :
    needDesc sel e s = .error (.exc e s) := (M.bind_ok (fetchDesc_none (.refl s) h)).trans rfl

theorem loadSeg_prot {s : State} (h : s.protMode = true) (r : Sreg) (sel : HWord) :
    loadSeg r sel s = if r = .ss then loadStackSeg sel s else loadDataSeg sel s := by
  rw [loadSeg, M.bind_ok (M.get_apply s), h]
  simp only [if_true, M.ite_apply]

/-- Two checks that raise the same exception are one. -/
theorem check_check {α : Type} (a b : Bool) (e : Exc) (f : Unit → M α) :
    (check a e >>= fun _ => check b e >>= f) = (check (a && b) e >>= f) := by
  funext s
  cases a <;> cases b <;> rfl

/-- The load of a data segment register, once its descriptor is read (R123). -/
theorem loadDataSeg_desc {s u : State} {sel : HWord} {d : Desc} (hn : 4 ≤ sel.toNat) (h : fetchDesc sel s = .ok (some d, u))
    (ha : d.d1.getLsbD 8 = true) : loadDataSeg sel s =
      (check ((d.isData || d.readableCode) && (d.conforming || (decide ((selRpl sel).toNat ≤ d.dpl.toNat) &&
        decide (s.cplNat ≤ d.dpl.toNat)))) (excGP sel) >>= fun _ => check d.present (excNP sel) >>= fun _ => pure (d.toSeg sel)) u := by
  have hset : (setAccessed d >>= fun _ => pure (d.toSeg sel)) = (pure (d.toSeg sel) : M SegReg) :=
    funext fun x => M.bind_ok (setAccessed_ok ha x)
  simp only [loadDataSeg, selNull_false hn, Bool.false_eq_true, if_false, M.bind_ok (look_apply _ s), M.bind_ok (needDesc_some h), hset,
    check_check]

/-- The load of SS, once its descriptor is read (R124). -/
theorem loadStackSeg_desc {s u : State} {sel : HWord} {d : Desc} (hn : 4 ≤ sel.toNat) (h : fetchDesc sel s = .ok (some d, u))
    (ha : d.d1.getLsbD 8 = true) : loadStackSeg sel s =
      (check (selRpl sel == s.cpl && (d.writableData && d.dpl == s.cpl)) (excGP sel) >>= fun _ => check d.present (excSS sel) >>= fun _ =>
        pure (d.toSeg sel)) u := by
  have hset : (setAccessed d >>= fun _ => pure (d.toSeg sel)) = (pure (d.toSeg sel) : M SegReg) :=
    funext fun x => M.bind_ok (setAccessed_ok ha x)
  have hnull : (!selNull sel) = true := by rw [selNull_false hn]; rfl
  simp only [loadStackSeg, M.bind_ok (look_apply _ s), M.bind_ok (check_ok _ _ hnull), M.bind_ok (needDesc_some h), hset, check_check]

/-- What the load of a segment register in Protected Mode answers and raises (R115, R123, R124). -/
theorem loadSeg_cases {s : State} {sel : HWord} (hp : s.protMode = true) :
    let rpl := sel.extractLsb' 0 2
    let code : HWord := sel &&& 0xFFFC
    (∀ r : Sreg, r ≠ .ss → sel.toNat < 4 → loadSeg r sel s = .ok (SegReg.invalid sel, s)) ∧
    (sel.toNat < 4 → loadSeg .ss sel s = .error (.exc ⟨13, some 0⟩ s)) ∧
    (4 ≤ sel.toNat → ∀ r : Sreg, descAddress s.tables sel = none → loadSeg r sel s = .error (.exc ⟨13, some code⟩ s)) ∧
    (4 ≤ sel.toNat → ∀ (d : Desc) (u : State), fetchDesc sel s = .ok (some d, u) → d.d1.getLsbD 8 = true →
      let visible := d.conforming = true ∨ (rpl.toNat ≤ d.dpl.toNat ∧ s.cpl.toNat ≤ d.dpl.toNat)
      (∀ r : Sreg, r ≠ .ss →
        (¬ (d.isData = true ∨ d.readableCode = true) ∨ ¬ visible → loadSeg r sel s = .error (.exc ⟨13, some code⟩ u)) ∧
        ((d.isData = true ∨ d.readableCode = true) ∧ visible →
          (d.present = false → loadSeg r sel s = .error (.exc ⟨11, some code⟩ u)) ∧
          (d.present = true → loadSeg r sel s = .ok (d.toSeg sel, u)))) ∧
      (¬ (rpl = s.cpl ∧ d.writableData = true ∧ d.dpl = s.cpl) → loadSeg .ss sel s = .error (.exc ⟨13, some code⟩ u)) ∧
      ((rpl = s.cpl ∧ d.writableData = true ∧ d.dpl = s.cpl) →
        (d.present = false → loadSeg .ss sel s = .error (.exc ⟨12, some code⟩ u)) ∧
        (d.present = true → loadSeg .ss sel s = .ok (d.toSeg sel, u)))) := by
  intro rpl code
  have data (r : Sreg) (hr : r ≠ .ss) : loadSeg r sel s = loadDataSeg sel s := (loadSeg_prot hp r sel).trans (if_neg hr)
  have stack : loadSeg .ss sel s = loadStackSeg sel s := (loadSeg_prot hp .ss sel).trans (if_pos rfl)
  refine ⟨fun r hr hn => ?_, fun hn => ?_, fun hn r hd => ?_, ?_⟩
  · rw [data r hr, loadDataSeg, if_pos (selNull_true hn)]
    rfl
  · rw [stack, loadStackSeg, M.bind_ok (look_apply _ s), selNull_true hn]
    rfl
  · by_cases hr : r = .ss
    · subst hr
      have hnull : (!selNull sel) = true := by rw [selNull_false hn]; rfl
      rw [stack, loadStackSeg, M.bind_ok (look_apply _ s), M.bind_ok (check_ok _ _ hnull), M.bind_error (needDesc_none hd)]
      rfl
    · rw [data r hr, loadDataSeg, selNull_false hn, if_neg Bool.false_ne_true, M.bind_ok (look_apply _ s),
        M.bind_error (needDesc_none hd)]
      rfl
  · intro hn d u h ha visible
    have hdata : (d.isData = true ∨ d.readableCode = true) ∧ visible ↔ ((d.isData || d.readableCode) && (d.conforming ||
        (decide ((selRpl sel).toNat ≤ d.dpl.toNat) && decide (s.cplNat ≤ d.dpl.toNat)))) = true := by
      rw [Bool.and_eq_true, Bool.or_eq_true, Bool.or_eq_true, Bool.and_eq_true, decide_eq_true_iff, decide_eq_true_iff]
      exact Iff.rfl
    have hstack : rpl = s.cpl ∧ d.writableData = true ∧ d.dpl = s.cpl ↔
        (selRpl sel == s.cpl && (d.writableData && d.dpl == s.cpl)) = true := by
      rw [Bool.and_eq_true, Bool.and_eq_true, beq_iff_eq, beq_iff_eq]
      exact Iff.rfl
    refine ⟨fun r hr => ?_, fun hv => ?_, fun hv => ?_⟩
    · rw [data r hr, loadDataSeg_desc hn h ha, ← not_and_or, hdata, Bool.not_eq_true]
      exact ⟨fun hv => by rw [hv]; rfl, fun hv => ⟨fun hpr => by rw [hv, hpr]; rfl, fun hpr => by rw [hv, hpr]; rfl⟩⟩
    · rw [hstack, Bool.not_eq_true] at hv
      rw [stack, loadStackSeg_desc hn h ha, hv]
      rfl
    · rw [hstack] at hv
      rw [stack, loadStackSeg_desc hn h ha, hv]
      exact ⟨fun hpr => by rw [hpr]; rfl, fun hpr => by rw [hpr]; rfl⟩

/-- A relation on the states an operation ends in that follows from another. -/
theorem OnOk.mono {α : Type} {R Q : State → State → Prop} {m : M α} (h : OnOk R m) (hq : ∀ s t, R s t → Q s t) : OnOk Q m :=
  fun s a t ht => hq s t (h s a t ht)

theorem composes_matches : Composes Matches := ⟨.refl, .trans⟩

theorem matches_setAccessed (d : Desc) : OnOk Matches (setAccessed d) :=
  OnOk.bind composes_matches ((quiet_planAccessed d).mono fun _ _ q => q.matches) fun _ _ _ _ h => (writeAccessed_memOnly h).1

/-- Loading a segment register changes no register; it may mark the descriptor accessed (R126). -/
theorem matches_loadSeg (r : Sreg) (sel : HWord) : OnOk Matches (loadSeg r sel) := by
  have c := composes_matches
  have need (e : Exc) : OnOk Matches (needDesc sel e) := (quiet_needDesc sel e).mono fun _ _ q => q.matches
  have data : OnOk Matches (loadDataSeg sel) :=
    OnOk.ite (OnOk.pure c _) (OnOk.bind c (OnOk.look c _) fun _ => OnOk.bind c (need _) fun _ => OnOk.bind c (OnOk.check c _ _) fun _ =>
      OnOk.bind c (OnOk.check c _ _) fun _ => OnOk.bind c (OnOk.check c _ _) fun _ => OnOk.bind c (matches_setAccessed _) fun _ =>
        OnOk.pure c _)
  have stack : OnOk Matches (loadStackSeg sel) :=
    OnOk.bind c (OnOk.look c _) fun _ => OnOk.bind c (OnOk.check c _ _) fun _ => OnOk.bind c (need _) fun _ =>
      OnOk.bind c (OnOk.check c _ _) fun _ => OnOk.bind c (OnOk.check c _ _) fun _ => OnOk.bind c (OnOk.check c _ _) fun _ =>
        OnOk.bind c (OnOk.check c _ _) fun _ => OnOk.bind c (matches_setAccessed _) fun _ => OnOk.pure c _
  exact OnOk.bind c (OnOk.get c) fun _ => OnOk.ite (OnOk.ite stack data) (OnOk.pure c _)

theorem moveToSeg_error {r : Sreg} {sel : HWord} {u : State} {e : Stop} (h : loadSeg r sel u = .error e) :
    moveToSeg r sel u = .error e := M.bind_error h

theorem popSeg_error {s u : State} {r : Sreg} {v : Word} {e : Stop} (h : stackRead 0 s.opWidth.bytes s = .ok (v, u))
    (hl : loadSeg r (v.setWidth 16) u = .error e) : popSeg r s = .error e :=
  (M.bind_ok (look_apply _ s)).trans ((M.bind_ok h).trans (M.bind_error (moveToSeg_error hl)))

theorem loadFarPointer_error {s u1 u2 u : State} {r sr : Sreg} {reg : Gpr} {m : MemOp} {off : Word} {v : BitVec s.opWidth.bits}
    {sel : HWord} {e : Stop} (h1 : addressOf m s = .ok ((sr, off), u1)) (h2 : readAt s.opWidth sr off u1 = .ok (v, u2))
    (h3 : readAt .w sr (off + BitVec.ofNat 32 s.opWidth.bytes) u2 = .ok (sel, u)) (hl : loadSeg r sel u = .error e) :
    loadFarPointer r reg m s = .error e :=
  (M.bind_ok (look_apply _ s)).trans ((M.bind_ok h1).trans ((M.bind_ok h2).trans ((M.bind_ok h3).trans (M.bind_error hl))))

/-- The POPs of segment registers are one operation. -/
theorem exec_popSeg {i : Instr} {sr : Sreg}
    (h : (i, sr) ∈ [(Instr.popEs, Sreg.es), (.popSs, .ss), (.popDs, .ds), (.popFs, .fs), (.popGs, .gs)]) (s : State) :
    exec i s = run (popSeg sr) s := by
  simp only [List.mem_cons, Prod.mk.injEq, List.not_mem_nil, or_false] at h
  rcases h with ⟨rfl, rfl⟩ | ⟨rfl, rfl⟩ | ⟨rfl, rfl⟩ | ⟨rfl, rfl⟩ | ⟨rfl, rfl⟩ <;> rfl

/-- The far-pointer loads are one operation. -/
theorem exec_loadFarPointer {i : Instr} {sr : Sreg} {reg : Gpr} {m : MemOp}
    (h : (i, sr) ∈ [(Instr.lds reg m, Sreg.ds), (.les reg m, .es), (.lfs reg m, .fs), (.lgs reg m, .gs), (.lss reg m, .ss)])
    (s : State) : exec i s = run (loadFarPointer sr reg m) s := by
  simp only [List.mem_cons, Prod.mk.injEq, List.not_mem_nil, or_false] at h
  rcases h with ⟨rfl, rfl⟩ | ⟨rfl, rfl⟩ | ⟨rfl, rfl⟩ | ⟨rfl, rfl⟩ | ⟨rfl, rfl⟩ <;> rfl

/-- Settles O21: each instruction completes with what the load answers, and raises what it raises. -/
theorem segmentLoadsProtected : Obligations.SegmentLoadsProtected := by
  refine ⟨fun s sel hp => loadSeg_cases hp, ?_⟩
  intro s hp n shadowed loads
  refine ⟨fun sr rm sel u h => ⟨fun g w hl => ?_, fun e w h9 hl => ?_⟩, fun i sr hm v u h => ⟨fun g w hl => ?_, fun e w h9 hl => ?_⟩,
    fun m reg i sr hm r off v sel u1 u2 u h1 h2 h3 => ⟨fun g w hl => ?_, fun e w h9 hl => ?_⟩⟩
  · have ml := (quiet_readRm _ _ _ _ _ h).matches.trans (matches_loadSeg _ _ _ _ _ hl)
    exact ⟨_, run_ok ((M.bind_ok h).trans (moveToSeg_ok hl)), ((ml.setSeg sr g).shadowed sr).done (shadowed_bs ..),
      (retire_mem _ _ _).trans (shadowed_mem (w.setSeg sr g) sr)⟩
  · exact faults_of (i := .movSregRm sr rm) (body := readRm .w rm >>= moveToSeg sr) rfl
      ((M.bind_ok h).trans (moveToSeg_error hl)) h9
  · have ml := (quiet_stackRead _ _ _ _ _ h).matches.trans (matches_loadSeg _ _ _ _ _ hl)
    have m := ((ml.setSeg sr g).shadowed sr).release n
    refine ⟨_, (exec_popSeg hm s).trans (run_ok (popSeg_ok h hl)), ?_, (retire_mem _ _ _).trans (shadowed_mem (w.setSeg sr g) sr)⟩
    have hd := m.done (s := s) (shadowed_bs ..)
    rw [State.release, shadowed_regs, shadowed_stack32] at hd
    exact hd
  · exact faults_of (exec_popSeg hm s) (popSeg_error h hl) h9
  · have ml := ((quiet_farPointer h1 h2 h3).matches.trans (matches_loadSeg _ _ _ _ _ hl)).setSeg sr g
    exact ⟨_, (exec_loadFarPointer hm s).trans (run_ok (loadFarPointer_ok h1 h2 h3 hl)), (ml.setReg _ _ _).done rfl, rfl⟩
  · exact faults_of (exec_loadFarPointer hm s) (loadFarPointer_error h1 h2 h3 hl) h9

end Sys2Proof.Machine
end

section
/-!
PROOFS. Ports and string instructions (20_memory.md R104, R138; 40_data_transfer.md R262, R263; 44_string_rep.md).
-/

namespace Sys2Proof.Machine

/-! ## Access to ports (R138) -/

theorem ioCheck_granted {s : State} {port n : Nat}
    (h : s.realMode = true ∨ (s.protMode = true ∧ s.cpl.toNat ≤ s.flags.iopl.toNat)) : ioCheck port n s = .ok ((), s) := by
  have hb : (s.realMode || (s.protMode && decide (s.cplNat ≤ s.ioplNat))) = true := by
    rw [Bool.or_eq_true, Bool.and_eq_true, decide_eq_true_iff]
    exact h
  rw [ioCheck, M.bind_ok (M.get_apply s), if_pos hb]
  rfl

/-- Without the grant of the mode or IOPL the task state segment decides. -/
theorem ioCheck_asked {s : State} {port n : Nat}
    (h : ¬ (s.realMode = true ∨ (s.protMode = true ∧ s.cpl.toNat ≤ s.flags.iopl.toNat))) : ioCheck port n s =
      (check (s.tables.tr.typ == 9 || s.tables.tr.typ == 0xB) (excGP 0) >>= fun _ => sysRead (s.tables.tr.base + 0x66) 2 >>= fun map =>
        check (decide ((hwordOf map).toNat + port / 8 + 1 ≤ s.tables.tr.limit.toNat)) (excGP 0) >>= fun _ =>
        sysRead (s.tables.tr.base + BitVec.ofNat 32 ((hwordOf map).toNat + port / 8)) 2 >>= fun bits =>
        check (((hwordOf bits) >>> (port % 8)).setWidth n == 0) (excGP 0)) s := by
  have hb : ¬ (s.realMode || (s.protMode && decide (s.cplNat ≤ s.ioplNat))) = true := by
    rw [Bool.or_eq_true, Bool.and_eq_true, decide_eq_true_iff]
    exact h
  rw [ioCheck, M.bind_ok (M.get_apply s), if_neg hb]

/-- No bit of the map is set for the ports of the access. -/
theorem mapClear_iff (x : HWord) (p n : Nat) : ((x >>> p).setWidth n == 0) = true ↔ ∀ k, k < n → x.getLsbD (p + k) = false := by
  rw [beq_iff_eq]
  constructor
  · intro h k hk
    have hb := congrArg (·.getLsbD k) h
    simpa [BitVec.getLsbD_setWidth, hk] using hb
  · intro h
    apply BitVec.eq_of_getLsbD_eq
    intro k hk
    rw [BitVec.getLsbD_setWidth, BitVec.getLsbD_ushiftRight, h k hk]
    simp

/-- What the check of a port answers (R138). -/
theorem ioCheck_cases (s : State) (port n : Nat) :
    let granted := s.realMode = true ∨ (s.protMode = true ∧ s.cpl.toNat ≤ s.flags.iopl.toNat)
    let tr := s.tables.tr
    let refused (u : State) : Prop := ioCheck port n s = .error (.exc ⟨13, some 0⟩ u)
    (granted → ioCheck port n s = .ok ((), s)) ∧
    (¬ granted → tr.typ ≠ 9 ∧ tr.typ ≠ 11 → refused s) ∧
    (¬ granted → tr.typ = 9 ∨ tr.typ = 11 → ∀ (lo hi : Byte) (u1 : State), sysRead (tr.base + 0x66) 2 s = .ok ([lo, hi], u1) →
      let off := (hi ++ lo : HWord).toNat + port / 8
      (tr.limit.toNat < off + 1 → refused u1) ∧
      (off + 1 ≤ tr.limit.toNat → ∀ (b0 b1 : Byte) (u : State), sysRead (tr.base + BitVec.ofNat 32 off) 2 u1 = .ok ([b0, b1], u) →
        let bit (k : Nat) : Bool := (b1 ++ b0 : HWord).getLsbD (port % 8 + k)
        ((∃ k, k < n ∧ bit k = true) → refused u) ∧
        ((∀ k, k < n → bit k = false) → ioCheck port n s = .ok ((), u) ∧ Quiet s u))) := by
  intro granted tr refused
  refine ⟨ioCheck_granted, fun hg ht => ?_, fun hg ht lo hi u1 hmap => ?_⟩
  · have hb : (s.tables.tr.typ == 9 || s.tables.tr.typ == 0xB) = false := by
      rw [Bool.or_eq_false_iff, beq_eq_false_iff_ne, beq_eq_false_iff_ne]
      exact ht
    show ioCheck port n s = _
    rw [ioCheck_asked hg, hb]
    rfl
  · have hb : (s.tables.tr.typ == 9 || s.tables.tr.typ == 0xB) = true := by
      rw [Bool.or_eq_true, beq_iff_eq, beq_iff_eq]
      exact ht
    have hmapped := (ioCheck_asked (port := port) (n := n) hg).trans ((M.bind_ok (check_ok _ _ hb)).trans (M.bind_ok hmap))
    rw [hwordOf_two] at hmapped
    refine ⟨fun hl => ?_, fun hl b0 b1 u hbits => ?_⟩
    · have hlim : decide ((hi ++ lo : HWord).toNat + port / 8 + 1 ≤ s.tables.tr.limit.toNat) = false := by
        rw [decide_eq_false_iff_not, Nat.not_le]
        exact hl
      show ioCheck port n s = _
      rw [hmapped, hlim]
      rfl
    · have hread := hmapped.trans ((M.bind_ok (check_ok _ _ (decide_eq_true hl))).trans (M.bind_ok hbits))
      rw [hwordOf_two] at hread
      refine ⟨fun ⟨k, hk, hset⟩ => ?_, fun hclear => ?_⟩
      · have hno : ((b1 ++ b0 : HWord) >>> (port % 8)).setWidth n ≠ 0 := fun h => by
          exact Bool.false_ne_true (((mapClear_iff _ _ _).mp (beq_iff_eq.mpr h) k hk).symm.trans hset)
        show ioCheck port n s = _
        rw [hread, beq_eq_false_iff_ne.mpr hno]
        rfl
      · have hok := hread.trans (check_ok _ _ ((mapClear_iff _ _ _).mpr hclear))
        exact ⟨hok, quiet_ioCheck _ _ _ _ _ hok⟩

theorem inPort_error {w : Bool} {port : Nat} {s : State} {e : Stop} (h : ioCheck port (s.widthOf w).bytes s = .error e) :
    inPort w port s = .error e := (M.bind_ok (look_apply _ s)).trans (M.bind_error h)

theorem outPort_error {w : Bool} {port : Nat} {s : State} {e : Stop} (h : ioCheck port (s.widthOf w).bytes s = .error e) :
    outPort w port s = .error e := (M.bind_ok (M.get_apply s)).trans (M.bind_error h)

/-- An element that raises an exception raises it for the string instruction (R450). -/
theorem repeated_error {compares : Bool} {element : M Unit} {s : State} {e : Stop} (hr : elementRuns s)
    (h : element s = .error e) : repeated compares element s = .error e := by
  rw [repeated, M.bind_ok (M.get_apply s)]
  cases hrep : s.fetch.pfx.rep with
  | none => exact M.bind_error h
  | some kind =>
    have hc : addrReg s .cx ≠ 0 := hr.resolve_left (by rw [hrep]; exact nofun)
    simp only [if_neg hc]
    exact M.bind_error h

/-- The elements of INS and OUTS begin with the check of the port. -/
theorem portElement_error {k : Width} {s : State} {e : Stop} (h : ioCheck (s.reg .w .dx).toNat k.bytes s = .error e) :
    inputElement k s = .error e ∧ outputElement k s = .error e :=
  ⟨(M.bind_ok (look_apply _ s)).trans (M.bind_error h), (M.bind_ok (look_apply _ s)).trans (M.bind_error h)⟩

/-- Settles O23. -/
theorem ioPermission : Obligations.IoPermission := by
  refine ⟨ioCheck_cases, fun s w port u h => ?_⟩
  have simple {i : Instr} {body : M Unit} (hi : exec i s = run body s) (hb : body s = .error (.exc ⟨13, some 0⟩ u)) :
      Faults i s 13 (some 0) u := faults_of (e := ⟨13, some 0⟩) hi hb (by decide)
  have repeats {i : Instr} {element : M Unit} (hi : exec i s = runEnding (repeated false element) s) (hr : elementRuns s)
      (hb : element s = .error (.exc ⟨13, some 0⟩ u)) : Faults i s 13 (some 0) u :=
    faults_of_ending (e := ⟨13, some 0⟩) hi (repeated_error hr hb) (by decide)
  refine ⟨fun b hb => ?_, fun hd => ?_⟩
  · subst hb
    exact ⟨simple (i := .inImm w b) rfl (inPort_error h), simple (i := .outImm w b) rfl (outPort_error h)⟩
  · subst hd
    obtain ⟨hin, hout⟩ := portElement_error h
    exact ⟨simple (i := .inDx w) rfl (inPort_error h), simple (i := .outDx w) rfl (outPort_error h),
      fun hr => ⟨repeats (i := .ins w) rfl hr hin, repeats (i := .outs w) rfl hr hout⟩⟩

/-! ## IN and OUT (R262, R263) -/

theorem width_bits_eq (k : Width) : k.bits = 8 * k.bytes := by cases k <;> rfl

/-- The device's value as a word is that of the operand width. -/
theorem setWidth_device (k : Width) (v : BitVec (8 * k.bytes)) : ((v.setWidth 32).setWidth k.bits).setWidth 32 = v.setWidth 32 := by
  have hk := width_bits_eq k
  apply BitVec.eq_of_getLsbD_eq
  intro i hi
  rw [BitVec.getLsbD_setWidth, BitVec.getLsbD_setWidth]
  by_cases h : i < k.bits
  · simp [h]
  · have hv : v.getLsbD i = false := BitVec.getLsbD_of_ge v i (by omega)
    simp [h, hv]

/-- A port read: the device's value is free, of the operand width, and the access is recorded (R104; log entry 22). -/
theorem ioRead_ok (k : Width) (port : Nat) (s : State) : ∃ x : Word, (x.setWidth k.bits).setWidth 32 = x ∧
    ioRead port k.bytes s = .ok (x, (s.withDraws (s.draws + 1)).withIo (.read port k.bytes x :: s.io)) :=
  ⟨(Config.freeBits (8 * k.bytes) s.draws).setWidth 32, setWidth_device _ _, rfl⟩

/-- Settles O22. -/
theorem ports : Obligations.Ports := by
  intro s w port u h
  have q := quiet_ioCheck _ _ _ _ _ h
  refine ⟨fun i hi => ?_, fun i hi => ?_⟩
  · have hin : exec i s = run (inPort w port) s := by
      rcases hi with ⟨b, rfl, rfl⟩ | ⟨rfl, rfl⟩ <;> rfl
    obtain ⟨x, hx, hr⟩ := ioRead_ok (s.widthOf w) port u
    have hb : inPort w port s = .ok ((), ((u.withDraws (u.draws + 1)).withIo (.read port (s.widthOf w).bytes x :: u.io)).setReg
        (s.widthOf w) .ax (x.setWidth _)) := (M.bind_ok (look_apply _ s)).trans ((M.bind_ok h).trans ((M.bind_ok hr).trans rfl))
    obtain ⟨t, ht, hd⟩ := completes_quiet_of hin hb q.mem
      (((q.matches.trans (matches_withDraws u (u.draws + 1))).withIo _).setReg _ _ _) rfl rfl
    refine ⟨t, ht, x.setWidth _, ?_⟩
    rw [hx, ← q.sys.io]
    exact hd
  · have hout : exec i s = run (outPort w port) s := by
      rcases hi with ⟨b, rfl, rfl⟩ | ⟨rfl, rfl⟩ <;> rfl
    have hb : outPort w port s = .ok ((), u.withIo (.write port (s.widthOf w).bytes ((s.reg (s.widthOf w) .ax).setWidth 32) :: u.io)) :=
      (M.bind_ok (M.get_apply s)).trans (M.bind_ok h)
    rw [q.sys.io] at hb
    exact completes_quiet_of hout hb q.mem (q.matches.withIo _) rfl rfl

/-! ## Elements of string instructions (R440) -/

/-- The index register moved by an element, by the direction that held when the element began. -/
theorem stepIndex_eq {s e : State} (h : e.flags.df = s.flags.df) (r : Gpr) (n : Nat) : e.stepIndex r n =
    e.setAddrReg r (if s.flags.df then addrReg e r - BitVec.ofNat 32 n else addrReg e r + BitVec.ofNat 32 n) := by
  rw [State.stepIndex, h, Bool.cond_eq_ite]

theorem Matches.moveIndex {s e w : State} (m : Matches e w) (h : e.flags.df = s.flags.df) (r : Gpr) (n : Nat) :
    Matches (e.setAddrReg r (if s.flags.df then Machine.addrReg e r - BitVec.ofNat 32 n else Machine.addrReg e r + BitVec.ofNat 32 n))
      (w.stepIndex r n) := by
  rw [← stepIndex_eq h]
  exact m.stepIndex r n

theorem sourceElement_apply {k : Width} {s u : State} (m : Matches s u) :
    sourceElement k u = readAt k (s.segOr .ds) (addrReg s .si) u := by
  rw [sourceElement, M.bind_ok (M.get_apply u), m.addrReg, State.segOr, State.segOr, m.pfx]

theorem destElement_apply {k : Width} {s u : State} (m : Matches s u) :
    destElement k u = readAt k .es (addrReg s .di) u := by
  rw [destElement, M.bind_ok (M.get_apply u), m.addrReg]

theorem destPlan_apply {k : Width} {s u : State} (m : Matches s u) :
    destPlan k u = plan .es (addrReg s .di) k.bytes true u := by
  rw [destPlan, M.bind_ok (M.get_apply u), m.addrReg]

/-- A string instruction whose element stores nothing. -/
theorem completes_element {compares : Bool} {element : M Unit} {i : Instr} {s e u w : State}
    (hi : exec i s = runEnding (repeated compares element) s) (hr : elementRuns s) (h : element s = .ok ((), w))
    (q : SameMemory s u) (m : Matches e w) (hm : w.mem = u.mem) (hp : e.pend.bs = s.pend.bs) (hf : e.fetch.start = s.fetch.start) :
    Completes i s fun t => Ends s (afterElement compares s e) t ∧ SameMemory s t := by
  obtain ⟨w', fin, hx, hw, hends⟩ := repeated_ends hi hr h m hp hf
  exact ⟨_, hx, hends, q.congr (hw.trans hm)⟩

/-- A string instruction whose element is stored at planned addresses. -/
theorem completes_storedElement {compares : Bool} {element : M Unit} {i : Instr} {s e u w : State} {ps : List Word} {bs : List Byte}
    (hi : exec i s = runEnding (repeated compares element) s) (hr : elementRuns s) (h : element s = .ok ((), w))
    (q : SameMemory s u) (m : Matches e w) (hst : Stored ps bs u w) (hp : e.pend.bs = s.pend.bs)
    (hf : e.fetch.start = s.fetch.start) :
    Completes i s fun t => Ends s (afterElement compares s e) t ∧ SameMemory s u ∧ Stored ps bs u t := by
  obtain ⟨w', fin, hx, hw, hends⟩ := repeated_ends hi hr h m hp hf
  exact ⟨_, hx, hends, q, hst.congr rfl hw⟩

theorem repeated_zero {compares : Bool} {element : M Unit} {s : State} (hp : s.fetch.pfx.rep.isSome = true)
    (hc : addrReg s .cx = 0) : repeated compares element s = .ok (Ending.plain, s) := by
  obtain ⟨kind, hk⟩ := Option.isSome_iff_exists.mp hp
  rw [repeated, M.bind_ok (M.get_apply s), hk]
  simp only [if_pos hc, M.pure_apply]

/-- Settles O36. -/
theorem stringMovesAndCountZero : Obligations.StringMovesAndCountZero := by
  refine ⟨fun s w hp hc i hi => ?_, ?_⟩
  · have done {element : M Unit} {compares : Bool} (hx : exec i s = runEnding (repeated compares element) s) :
        Completes i s (DoneQuiet s s) :=
      ⟨_, hx.trans (runEnding_ok (repeated_zero hp hc)), (Matches.refl s).done rfl, (SameMemory.refl s).congr rfl⟩
    rcases hi with rfl | rfl | rfl | rfl | rfl | rfl | rfl <;> exact done rfl
  · intro s w hr k n move
    refine ⟨fun v u1 ps u h1 h2 r => ?_, fun ps u h r => ?_, fun v u h => ?_⟩
    · have q1 := quiet_readAt _ _ _ _ _ _ h1
      have q := composes_quiet.trans q1 (quiet_plan _ _ _ _ _ _ _ h2)
      obtain ⟨w', hst, m, hmem, hbytes⟩ := storeAt_ends (v := v) q r q.matches rfl q.sys.params
      have hb : moveElement k s = .ok ((), (w'.stepIndex .si n).stepIndex .di n) :=
        (M.bind_ok ((sourceElement_apply (.refl s)).trans h1)).trans ((M.bind_ok ((destPlan_apply q1.matches).trans h2)).trans
          ((M.bind_ok hst).trans rfl))
      have m2 := (m.moveIndex (s := s) rfl .si n).moveIndex (s := s) rfl .di n
      exact completes_storedElement (i := .movs w) rfl hr hb hmem m2 (hbytes.congr rfl rfl) rfl rfl
    · have q := quiet_plan _ _ _ _ _ _ _ h
      obtain ⟨w', hst, m, hmem, hbytes⟩ := storeAt_ends (v := s.reg k .ax) q r q.matches rfl q.sys.params
      have hb : storeElement k s = .ok ((), w'.stepIndex .di n) :=
        (M.bind_ok (look_apply _ s)).trans ((M.bind_ok ((destPlan_apply (.refl s)).trans h)).trans ((M.bind_ok hst).trans rfl))
      have m2 := m.moveIndex (s := s) rfl .di n
      exact completes_storedElement (i := .stos w) rfl hr hb hmem m2 (hbytes.congr rfl rfl) rfl rfl
    · have q := quiet_readAt _ _ _ _ _ _ h
      have hb : loadElement k s = .ok ((), (u.setReg k .ax v).stepIndex .si n) :=
        (M.bind_ok ((sourceElement_apply (.refl s)).trans h)).trans rfl
      have m2 := (q.matches.setReg k .ax v).moveIndex (s := s) rfl .si n
      exact completes_element (i := .lods w) rfl hr hb q.mem m2 rfl rfl rfl

/-- Settles O37. -/
theorem stringComparesAndPorts : Obligations.StringComparesAndPorts := by
  refine ⟨?_, ?_⟩
  · intro s w hr k n move
    refine ⟨fun a b u1 u h1 h2 => ?_, fun b u h => ?_⟩
    · have q1 := quiet_readAt _ _ _ _ _ _ h1
      have q := composes_quiet.trans q1 (quiet_readAt _ _ _ _ _ _ h2)
      have hb : compareElements k s = .ok ((), ((u.withFlags (u.flags.sub a b false)).stepIndex .si n).stepIndex .di n) :=
        (M.bind_ok ((sourceElement_apply (.refl s)).trans h1)).trans ((M.bind_ok ((destElement_apply q1.matches).trans h2)).trans rfl)
      rw [q.flags] at hb
      have m2 := ((q.matches.withFlags (s.flags.sub a b false)).moveIndex (s := s) rfl .si n).moveIndex (s := s) rfl .di n
      exact completes_element (i := .cmps w) rfl hr hb q.mem m2 rfl rfl rfl
    · have q := quiet_readAt _ _ _ _ _ _ h
      have hb : scanElement k s = .ok ((), (u.withFlags (u.flags.sub (s.reg k .ax) b false)).stepIndex .di n) :=
        (M.bind_ok (look_apply _ s)).trans ((M.bind_ok ((destElement_apply (.refl s)).trans h)).trans rfl)
      rw [q.flags] at hb
      have m2 := (q.matches.withFlags (s.flags.sub (s.reg k .ax) b false)).moveIndex (s := s) rfl .di n
      exact completes_element (i := .scas w) rfl hr hb q.mem m2 rfl rfl rfl
  · intro s w u1 hr k n port move hio
    have q1 := quiet_ioCheck _ _ _ _ _ hio
    refine ⟨fun ps u h r => ?_, fun v u h => ?_⟩
    · have q := composes_quiet.trans q1 (quiet_plan _ _ _ _ _ _ _ h)
      obtain ⟨x, hx, hrd⟩ := ioRead_ok k port u
      have m1 := (q.matches.trans (matches_withDraws u (u.draws + 1))).withIo (.read port n x :: u.io)
      obtain ⟨w', hst, m, hmem, hbytes⟩ := storeAt_ends (v := x.setWidth k.bits) q r m1 rfl q.sys.params
      have hb : inputElement k s = .ok ((), w'.stepIndex .di n) :=
        (M.bind_ok (look_apply _ s)).trans ((M.bind_ok hio).trans ((M.bind_ok ((destPlan_apply q1.matches).trans h)).trans
          ((M.bind_ok hrd).trans ((M.bind_ok hst).trans rfl))))
      have m2 := m.moveIndex (s := s) rfl .di n
      rw [q.sys.io] at m2
      obtain ⟨t, ht, hends, hrest⟩ := completes_storedElement (i := .ins w) rfl hr hb hmem m2 (hbytes.congr rfl rfl) rfl rfl
      refine ⟨t, ht, x.setWidth k.bits, ?_, hrest⟩
      rw [hx]
      exact hends
    · have q := composes_quiet.trans q1 (quiet_readAt _ _ _ _ _ _ h)
      have hb : outputElement k s = .ok ((), (u.withIo (.write port n (v.setWidth 32) :: u.io)).stepIndex .si n) :=
        (M.bind_ok (look_apply _ s)).trans ((M.bind_ok hio).trans ((M.bind_ok ((sourceElement_apply q1.matches).trans h)).trans rfl))
      rw [q.sys.io] at hb
      have m2 := (q.matches.withIo (.write port n (v.setWidth 32) :: s.io)).moveIndex (s := s) rfl .si n
      exact completes_element (i := .outs w) rfl hr hb q.mem m2 rfl rfl rfl

end Sys2Proof.Machine
end

section
/-!
PROOFS. Bit test and bit scan (45_bit.md).
-/

namespace Sys2Proof.Machine

/-! ## The selected bit (R480 to R484) -/

/-- The signed and the unsigned offset of a register operand select the same bit: the width divides the range. -/
theorem bitNumber_reg (k : Width) (o : BitVec k.bits) : bitNumber k o = o.toNat % k.bits := by
  rw [bitNumber]
  rcases toInt_cases o with ⟨-, -, h⟩ | ⟨-, -, h⟩ <;> rw [h] <;> cases k <;> simp only [Width.bits] <;> omega

theorem bitNumber_lt (k : Width) (o : BitVec k.bits) : bitNumber k o < k.bits := by
  rw [bitNumber_reg]
  exact Nat.mod_lt _ (by cases k <;> decide)

/-- The mask of a bit. -/
theorem getLsbD_mask {n : Nat} (bit j : Nat) (hj : j < n) :
    (((1 <<< bit : Nat) : BitVec n)).getLsbD j = decide (j = bit) := by
  rw [BitVec.natCast_eq_ofNat, BitVec.getLsbD_ofNat, Nat.one_shiftLeft, Nat.testBit_two_pow, decide_eq_true hj, Bool.true_and]
  exact decide_eq_decide.2 eq_comm

/-- What an operation makes of one bit. -/
def BitOp.sets (f : BitOp) (new : Bool → Bool) : Prop :=
  ∀ (k : Width) (v : BitVec k.bits) (bit j : Nat), bit < k.bits → j < k.bits →
    (f k v ((1 <<< bit : Nat) : BitVec k.bits)).getLsbD j = if j = bit then new (v.getLsbD j) else v.getLsbD j

theorem bitSet_sets : BitOp.sets bitSet fun _ => true := by
  intro k v bit j hb hj
  rw [bitSet, BitVec.getLsbD_or, getLsbD_mask bit j hj]
  by_cases h : j = bit <;> simp [h]

theorem bitReset_sets : BitOp.sets bitReset fun _ => false := by
  intro k v bit j hb hj
  rw [bitReset, BitVec.getLsbD_and, BitVec.getLsbD_not, getLsbD_mask bit j hj]
  by_cases h : j = bit <;> simp [h, hj]

theorem bitComplement_sets : BitOp.sets bitComplement (!·) := by
  intro k v bit j hb hj
  rw [bitComplement, BitVec.getLsbD_xor, getLsbD_mask bit j hj]
  by_cases h : j = bit <;> simp [h]

/-- A bit tested, after operand accesses that led to `u`. -/
theorem completes_testBit {i : Instr} {k : Width} {v : BitVec k.bits} {bit : Nat} {s u : State} {body : M Unit}
    (hi : exec i s = run body s) (hb : body s = testBit k v bit u) (q : Quiet s u) :
    Completes i s fun t => ∃ sf zf af pf of, DoneQuiet s (s.withFlags
      { s.flags with cf := v.getLsbD bit, sf := sf, zf := zf, af := af, pf := pf, of := of }) t := by
  obtain ⟨sf, zf, af, pf, of, t, hok, hm, -, m⟩ := bitFlags_ok (v.getLsbD bit) u
  rw [q.flags] at m
  obtain ⟨t', ht, hd⟩ := completes_quiet_of hi (hb.trans hok) q.mem ((q.matches.withFlags _).trans m) hm rfl
  exact ⟨t', ht, sf, zf, af, pf, of, hd⟩

/-- A bit tested and changed. -/
theorem completes_changeBit {i : Instr} {k : Width} {f : BitOp} {new : Bool → Bool} {p : Place} {v : BitVec k.bits} {bit : Nat}
    {s u : State} {body : M Unit} (hf : f.sets new) (hbit : bit < k.bits) (hi : exec i s = run body s)
    (hb : body s = changeBit k (f k) p v bit u) (q : Quiet s u) (r : p.ready s) :
    Completes i s fun t => ∃ x : BitVec k.bits, ∃ sf zf af pf of,
      (∀ j, j < k.bits → x.getLsbD j = if j = bit then new (v.getLsbD j) else v.getLsbD j) ∧
      DonePlace k p x s (s.withFlags
        { s.flags with cf := v.getLsbD bit, sf := sf, zf := zf, af := af, pf := pf, of := of }) u t := by
  obtain ⟨sf, zf, af, pf, of, t, hok, hm, hp, m⟩ := bitFlags_ok (v.getLsbD bit) u
  rw [q.flags] at m
  obtain ⟨t', ht, hd⟩ := completes_place hi (hb.trans (M.bind_ok hok)) q r ((q.matches.withFlags _).trans m) hm
    (hp.trans q.sys.params) rfl
  exact ⟨t', ht, _, sf, zf, af, pf, of, fun j hj => hf k v bit j hbit hj, hd⟩

theorem changeBitImm_ok {f : BitOp} {rm : Rm} {imm : Byte} {s u : State} {p : Place} {v : BitVec s.opWidth.bits}
    (h : modifyRm s.opWidth rm s = .ok ((p, v), u)) :
    changeBitImm f rm imm s = changeBit s.opWidth (f s.opWidth) p v (imm.toNat % s.opWidth.bits) u := by
  rw [changeBitImm, M.bind_ok (look_apply _ s), M.bind_ok h]

theorem changeBitReg_reg {f : BitOp} {reg r : Gpr} {s : State} : changeBitReg f reg (.reg r) s =
    changeBit s.opWidth (f s.opWidth) (.reg r) (s.reg s.opWidth r) ((s.reg s.opWidth reg).toNat % s.opWidth.bits) s := by
  rw [← bitNumber_reg]
  rfl

theorem testBitReg_reg {reg r : Gpr} {s : State} : testBitReg reg (.reg r) s =
    testBit s.opWidth (s.reg s.opWidth r) ((s.reg s.opWidth reg).toNat % s.opWidth.bits) s := by
  rw [← bitNumber_reg]
  rfl

/-- The operand that holds the bit at a register's offset (R480). -/
theorem bitAddress_ok {k : Width} {m : MemOp} {o : BitVec k.bits} {s u : State} {sr : Sreg} {off : Word}
    (h : addressOf m s = .ok ((sr, off), u)) : bitAddress k m o s =
      .ok ((sr, addrTrunc s (off + BitVec.ofInt 32 (k.bytes * (o.toInt / k.bits)))), u) := by
  refine (M.bind_ok h).trans ((M.bind_ok (M.get_apply u)).trans ?_)
  rw [addrTrunc, addrTrunc, (quiet_addressOf _ _ _ _ h).matches.addr32]
  rfl

/-! ## Bit scan (R485, R486) -/

theorem scanForward_eq {n : Nat} (a : BitVec n) {i fuel : Nat} (hi : a.getLsbD i = true) :
    ∀ from_, (∀ j, from_ ≤ j → j < i → a.getLsbD j = false) → from_ ≤ i → i < from_ + fuel → scanForward a fuel from_ = i := by
  induction fuel with
  | zero => exact fun from_ _ h1 h2 => absurd h2 (by omega)
  | succ fuel ih =>
    intro from_ hlow h1 h2
    rw [scanForward]
    by_cases h : from_ = i
    · subst h
      rw [if_pos hi]
    · rw [hlow from_ (le_refl _) (by omega), if_neg Bool.false_ne_true]
      exact ih (from_ + 1) (fun j hj => hlow j (by omega)) (by omega) (by omega)

theorem scanReverse_eq {n : Nat} (a : BitVec n) {i top : Nat} (hi : a.getLsbD i = true) (hhigh : ∀ j, i < j → a.getLsbD j = false)
    (h : i < top) : scanReverse a top = i := by
  induction top with
  | zero => omega
  | succ top ih =>
    rw [scanReverse]
    by_cases hc : top = i
    · subst hc
      rw [if_pos hi]
    · rw [hhigh top (by omega), if_neg Bool.false_ne_true]
      exact ih (by omega)

theorem testBitReg_mem {reg : Gpr} {m : MemOp} {s u1 u : State} {sr : Sreg} {off : Word} {v : BitVec s.opWidth.bits}
    (h1 : addressOf m s = .ok ((sr, off), u1))
    (h : readAt s.opWidth sr (addrTrunc s (off + BitVec.ofInt 32
      (s.opWidth.bytes * ((s.reg s.opWidth reg).toInt / s.opWidth.bits)))) u1 = .ok (v, u)) :
    testBitReg reg (.mem m) s = testBit s.opWidth v (bitNumber s.opWidth (s.reg s.opWidth reg)) u := by
  rw [testBitReg, M.bind_ok (look_apply _ s), M.bind_ok (look_apply _ s)]
  exact (M.bind_ok (bitAddress_ok h1)).trans (M.bind_ok h)

theorem changeBitReg_mem {f : BitOp} {reg : Gpr} {m : MemOp} {s u1 u : State} {sr : Sreg} {off : Word} {p : Place}
    {v : BitVec s.opWidth.bits} (h1 : addressOf m s = .ok ((sr, off), u1))
    (h : modifyAt s.opWidth sr (addrTrunc s (off + BitVec.ofInt 32
      (s.opWidth.bytes * ((s.reg s.opWidth reg).toInt / s.opWidth.bits)))) u1 = .ok ((p, v), u)) :
    changeBitReg f reg (.mem m) s =
      changeBit s.opWidth (f s.opWidth) p v (bitNumber s.opWidth (s.reg s.opWidth reg)) u := by
  simp only [changeBitReg, M.bind_ok (look_apply _ s), M.bind_ok (bitAddress_ok h1), M.bind_ok h]

/-- What BSF and BSR do: the index, or a free value for a source of 0 (R485, R486, U14). -/
theorem completes_scan {i : Instr} {index : (k : Width) → BitVec k.bits → Nat} {reg : Gpr} {rm : Rm} {s u : State}
    {v : BitVec s.opWidth.bits} (hi : exec i s = run (scanRm index reg rm) s) (h : readRm s.opWidth rm s = .ok (v, u)) :
    ∃ r, (v ≠ 0 → r = BitVec.ofNat _ (index s.opWidth v)) ∧ Completes i s fun t => ∃ sf af pf cf of,
      DoneQuiet s ((s.setReg s.opWidth reg r).withFlags
        { s.flags with zf := v == 0, sf := sf, af := af, pf := pf, cf := cf, of := of }) t := by
  have q := quiet_readRm _ _ _ _ _ h
  have hb : scanRm index reg rm s = .ok ((), ((u.withDraws (u.draws + 6)).setReg s.opWidth reg
      (bif v == 0 then Config.freeBits s.opWidth.bits u.draws else BitVec.ofNat _ (index s.opWidth v))).mapFlags fun f =>
        f.bitScan (v == 0) (Config.freeBit (u.draws + 1)) (Config.freeBit (u.draws + 2)) (Config.freeBit (u.draws + 3))
          (Config.freeBit (u.draws + 4)) (Config.freeBit (u.draws + 5))) := by
    simp only [scanRm, M.bind_ok (look_apply _ _), M.bind_ok h, M.bind_ok (drawBits_apply _ _), M.bind_ok (drawBit_apply _),
      State.withDraws_draws, withDraws_withDraws]
    rfl
  obtain ⟨t, ht, hd⟩ := completes_quiet_of hi hb q.mem
    (((q.matches.trans (matches_withDraws u (u.draws + 6))).setReg s.opWidth reg _).mapFlags _) rfl rfl
  refine ⟨_, fun hv => ?_, t, ht, _, _, _, _, _, hd⟩
  rw [beq_eq_false_iff_ne.2 hv, cond_false]

/-- Settles O38. -/
theorem bitInstructions : Obligations.BitInstructions := by
  refine ⟨?_, ?_⟩
  · intro s k f tests changes
    have hk (n : Nat) : n % k.bits < k.bits := Nat.mod_lt _ (by cases k <;> decide)
    have c := composes_quiet
    refine ⟨fun rm imm v u h => completes_testBit rfl (M.bind_ok h) (quiet_readRm _ _ _ _ _ h), fun rm imm p v u h r => ?_,
      ?_, ?_⟩
    · have q := quiet_modifyRm _ _ _ _ _ h
      exact ⟨completes_changeBit bitSet_sets (hk _) rfl (changeBitImm_ok h) q r,
        completes_changeBit bitReset_sets (hk _) rfl (changeBitImm_ok h) q r,
        completes_changeBit bitComplement_sets (hk _) rfl (changeBitImm_ok h) q r⟩
    · intro reg r bit
      exact ⟨completes_testBit rfl testBitReg_reg (c.refl s),
        completes_changeBit bitSet_sets (hk _) rfl changeBitReg_reg (c.refl s) trivial,
        completes_changeBit bitReset_sets (hk _) rfl changeBitReg_reg (c.refl s) trivial,
        completes_changeBit bitComplement_sets (hk _) rfl changeBitReg_reg (c.refl s) trivial⟩
    · intro reg m sr off u1 h1 o bit at_
      have q1 := quiet_addressOf _ _ _ _ h1
      have hbit : bit < k.bits := bitNumber_lt k _
      refine ⟨fun v u h => ?_, fun p v u h r => ?_⟩
      · exact completes_testBit rfl (testBitReg_mem h1 h) (c.trans q1 (quiet_readAt _ _ _ _ _ _ h))
      · have q := c.trans q1 (quiet_modifyAt _ _ _ _ _ _ h)
        exact ⟨completes_changeBit bitSet_sets hbit rfl (changeBitReg_mem h1 h) q r,
          completes_changeBit bitReset_sets hbit rfl (changeBitReg_mem h1 h) q r,
          completes_changeBit bitComplement_sets hbit rfl (changeBitReg_mem h1 h) q r⟩
  · intro s reg rm v u h k done
    have nonzero {i : Nat} (hi : v.getLsbD i = true) : v ≠ 0 := fun h0 => by simp [h0] at hi
    have inside {i : Nat} (hi : v.getLsbD i = true) : i < k.bits := BitVec.lt_of_getLsbD hi
    obtain ⟨rf, hf, tf, ef, df⟩ := completes_scan (i := .bsf reg rm) rfl h
    obtain ⟨rr, hr, tr, er, dr⟩ := completes_scan (i := .bsr reg rm) rfl h
    refine ⟨fun i hi low => ⟨tf, ef, ?_⟩, fun i hi high => ⟨tr, er, ?_⟩, fun h0 => ⟨⟨tf, rf, ef, ?_⟩, tr, rr, er, ?_⟩⟩
    · rwa [hf (nonzero hi), scanForward_eq v hi 0 (fun j _ => low j) (Nat.zero_le _) (by simpa using inside hi),
        beq_eq_false_iff_ne.2 (nonzero hi)] at df
    · rwa [hr (nonzero hi), scanReverse_eq v hi high (inside hi), beq_eq_false_iff_ne.2 (nonzero hi)] at dr
    · rwa [beq_iff_eq.2 h0] at df
    · rwa [beq_iff_eq.2 h0] at dr

end Sys2Proof.Machine
end

section
/-!
PROOFS. Near transfers, ENTER and LEAVE (46_control_transfer.md R500 to R505, R513, R520 to R524, R540, R541).
-/

namespace Sys2Proof.Machine

/-! ## Targets (R500) -/

theorem sizeTarget_eq (is32 : Bool) (t : Word) : sizeTarget is32 t = if is32 then t else t &&& 0xFFFF := Bool.cond_eq_ite ..

theorem dispOf_eq (is32 : Bool) (d : Word) : dispOf is32 d = if is32 then d else (d.setWidth 16).signExtend 32 := Bool.cond_eq_ite ..

theorem relTarget_ok {s : State} {d : Word} (h : (sizeTarget s.op32 (s.eip + d)).toNat ≤ s.segs.cs.limit.toNat) :
    relTarget d s = .ok (sizeTarget s.op32 (s.eip + d), s) :=
  (M.bind_ok (M.get_apply s)).trans (M.bind_ok (checkTarget_ok h))

theorem relTarget_exc {s : State} {d : Word} (h : s.segs.cs.limit.toNat < (sizeTarget s.op32 (s.eip + d)).toNat) :
    relTarget d s = .error (.exc (excGP 0) s) :=
  (M.bind_ok (M.get_apply s)).trans (M.bind_error (checkTarget_exc h))

theorem indirectTarget_ok {rm : Rm} {s u : State} {v : BitVec s.opWidth.bits} (h : readRm s.opWidth rm s = .ok (v, u))
    (hl : (v.setWidth 32).toNat ≤ s.segs.cs.limit.toNat) : indirectTarget rm s = .ok (v.setWidth 32, u) := by
  have hu : (v.setWidth 32).toNat ≤ u.segs.cs.limit.toNat := by rwa [(quiet_readRm _ _ _ _ _ h).sys.segs]
  exact (M.bind_ok (look_apply _ s)).trans ((M.bind_ok h).trans (M.bind_ok (checkTarget_ok hu)))

theorem indirectTarget_exc {rm : Rm} {s u : State} {v : BitVec s.opWidth.bits} (h : readRm s.opWidth rm s = .ok (v, u))
    (hl : s.segs.cs.limit.toNat < (v.setWidth 32).toNat) : indirectTarget rm s = .error (.exc (excGP 0) u) := by
  have hu : u.segs.cs.limit.toNat < (v.setWidth 32).toNat := by rwa [(quiet_readRm _ _ _ _ _ h).sys.segs]
  exact (M.bind_ok (look_apply _ s)).trans ((M.bind_ok h).trans (M.bind_error (checkTarget_exc hu)))

theorem operand_toNat (k : Width) (v : BitVec k.bits) : (v.setWidth 32).toNat = v.toNat := by
  have h : v.toNat < 2 ^ k.bits := v.isLt
  rw [BitVec.toNat_setWidth, Nat.mod_eq_of_lt]
  cases k <;> exact Nat.lt_of_lt_of_le h (by decide)

/-! ## Near jumps (R501, R502, R520 to R524) -/

/-- The two outcomes of a jump to `t`. -/
theorem jump_form {i : Instr} {s e : State} {t : Word} {body : M Unit} (hi : exec i s = run body s)
    (hok : t.toNat ≤ s.segs.cs.limit.toNat → body s = .ok ((), (e.withEip t).flushQueue))
    (herr : s.segs.cs.limit.toNat < t.toNat → body s = .error (.exc (excGP 0) s)) (hm : e.mem = s.mem)
    (hp : e.pend.bs = s.pend.bs) :
    (t.toNat ≤ s.segs.cs.limit.toNat → Completes i s (DoneQuiet s (e.withEip t))) ∧
      (s.segs.cs.limit.toNat < t.toNat → Faults i s 13 (some 0) s) :=
  ⟨fun h => completes_still hi (hok h) (Matches.refl (e.withEip t)).flushQueue hm hp, fun h => faults_of (e := excGP 0) hi (herr h) (by decide)⟩

theorem jumpRel_form {i : Instr} {s : State} {d : Word} (hi : exec i s = run (jumpRel d) s) :
    let t := sizeTarget s.op32 (s.eip + d)
    (t.toNat ≤ s.segs.cs.limit.toNat → Completes i s (DoneQuiet s (s.withEip t))) ∧
      (s.segs.cs.limit.toNat < t.toNat → Faults i s 13 (some 0) s) :=
  jump_form hi (fun h => M.bind_ok (relTarget_ok h)) (fun h => M.bind_error (relTarget_exc h)) rfl rfl

theorem jumpIf_true (d : Word) : jumpIf true d = jumpRel d := rfl

theorem jumpIf_stays {i : Instr} {s : State} {d : Word} (hi : exec i s = run (jumpIf false d) s) :
    Completes i s (DoneQuiet s s) := completes_still hi rfl (.refl s) rfl rfl

/-- A taken LOOP: the target is checked, then the count changes. -/
theorem loop_taken {i : Instr} {s : State} {d : Byte} {ok : Bool} (hi : exec i s = run (loopIf ok d) s) (hok : ok = true)
    (hc : s.loopCount ≠ 0) :
    let t := sizeTarget s.op32 (s.eip + sext32 d)
    (t.toNat ≤ s.segs.cs.limit.toNat → Completes i s (DoneQuiet s ((s.setAddrReg .cx s.loopCount).withEip t))) ∧
      (s.segs.cs.limit.toNat < t.toNat → Faults i s 13 (some 0) s) := by
  have hb : loopIf ok d s =
      (relTarget (sext32 d) >>= fun t => update (fun s' => s'.setAddrReg .cx s.loopCount) >>= fun _ => jumpTo t) s := by
    rw [loopIf, M.bind_ok (look_apply _ s), hok, Bool.true_and, if_pos (bne_iff_ne.2 hc)]
  exact jump_form hi (fun h => hb.trans (M.bind_ok (relTarget_ok h))) (fun h => hb.trans (M.bind_error (relTarget_exc h)))
    (by simp [State.setAddrReg]) (by simp [State.setAddrReg])

theorem loop_stays {i : Instr} {s : State} {d : Byte} {ok : Bool} (hi : exec i s = run (loopIf ok d) s)
    (h : s.loopCount = 0 ∨ ok = false) : Completes i s (DoneQuiet s (s.setAddrReg .cx s.loopCount)) := by
  have hb : loopIf ok d s = .ok ((), s.setAddrReg .cx s.loopCount) := by
    rw [loopIf, M.bind_ok (look_apply _ s), if_neg (by rcases h with h | h <;> simp [h])]
    rfl
  exact completes_still hi hb (.refl _) (by simp [State.setAddrReg]) (by simp [State.setAddrReg])

/-- Settles O39. -/
theorem nearJumps : Obligations.NearJumps := by
  intro s limit target full jumps stays
  have rel (i : Instr) (d : Word) (hi : exec i s = run (jumpRel d) s) : jumps i s d := by
    have h := jumpRel_form hi
    simp only [sizeTarget_eq] at h
    exact h
  have hfull (d : Word) : full d = dispOf s.op32 d := (dispOf_eq ..).symm
  have taken (i : Instr) (ok : Bool) (d : Byte) (hi : exec i s = run (loopIf ok d) s) (hok : ok = true) (hc : s.loopCount ≠ 0) :
      jumps i (s.setAddrReg .cx s.loopCount) (d.signExtend 32) := by
    have h := loop_taken hi hok hc
    simp only [sizeTarget_eq] at h
    exact h
  refine ⟨fun d => rel _ _ rfl, fun d => rel _ _ (by rw [hfull]; rfl), fun cc => ⟨fun h => ⟨fun d => rel _ _ ?_, fun d => rel _ _ ?_⟩,
    fun h => ⟨fun d => jumpIf_stays (d := sext32 d) ?_, fun d => jumpIf_stays (d := dispOf s.op32 d) ?_⟩⟩, fun d => ⟨fun h => rel _ _ ?_,
      fun h => jumpIf_stays (d := sext32 d) ?_⟩, ?_, fun rm v u h => ⟨fun hl => ?_, fun hl => ?_⟩⟩
  · rw [← jumpIf_true, ← h]
    rfl
  · rw [← jumpIf_true, ← h, hfull]
    rfl
  · rw [← h]
    rfl
  · rw [← h]
    rfl
  · rw [← jumpIf_true, ← beq_iff_eq.2 h]
    rfl
  · rw [← beq_eq_false_iff_ne.2 h]
    rfl
  · intro c e d
    exact ⟨fun hc => taken _ true d rfl rfl hc, fun hc => loop_stays (ok := true) (d := d) rfl (.inl hc),
      fun h => taken _ s.flags.zf d rfl h.2 h.1, fun h => loop_stays (ok := s.flags.zf) (d := d) rfl h,
      fun h => taken _ (!s.flags.zf) d rfl (by rw [h.2]; rfl) h.1,
      fun h => loop_stays (ok := !s.flags.zf) (d := d) rfl (h.imp_right fun hz => by rw [hz]; rfl)⟩
  · have hi := indirectTarget_ok h (by rwa [operand_toNat])
    have q := quiet_readRm _ _ _ _ _ h
    exact completes_after (f := jumpTo) rfl hi rfl q (q.matches.withEip (v.setWidth 32)).flushQueue rfl rfl
  · exact faults_of (e := excGP 0) (body := indirectTarget rm >>= jumpTo) rfl
      (M.bind_error (indirectTarget_exc h (by rwa [operand_toNat]))) (by decide)

/-! ## Near calls and returns (R504, R505, R513) -/

/-- A call to a checked target: the address of the next instruction is pushed, then the transfer. -/
theorem completes_callTo {i : Instr} {s u0 u : State} {t esp : Word} {stores : List (List Word × Word)} {body : M Unit}
    (hi : exec i s = run body s) (hb : body s = callTo t u0) (q0 : Quiet s u0)
    (h : planStack s.opWidth.bytes [s.eip] u0 = .ok ((stores, esp), u)) (r : AllStorable s stores) :
    Completes i s (DoneStores s.opWidth.bytes stores s ((s.withEsp esp).withEip t) u) := by
  have q := composes_quiet.trans q0 (quiet_planStack _ _ _ _ _ h)
  obtain ⟨w, h1, m, h2, h3, -, -⟩ := storeAll_ends (n := s.opWidth.bytes) q r q.matches rfl q.sys.params
  rw [← q0.matches.opWidth, ← q0.eip] at h
  rw [← q0.matches.opWidth] at h1
  have hpush : pushValue u0.eip u0 = .ok ((), w.withEsp esp) :=
    (pushValue_apply _ _).trans ((M.bind_ok h).trans ((M.bind_ok h1).trans rfl))
  have hok : body s = .ok ((), ((w.withEsp esp).withEip t).flushQueue) :=
    hb.trans ((M.bind_ok (look_apply _ u0)).trans ((M.bind_ok hpush).trans rfl))
  exact ⟨_, hi.trans (run_ok hok), ((m.withEsp esp).withEip t).flushQueue.done rfl, h2, h3⟩

theorem returnNear_ok {extra t : Word} {s u : State} (h : stackRead 0 s.opWidth.bytes s = .ok (t, u))
    (hl : t.toNat ≤ s.segs.cs.limit.toNat) : returnNear extra s = .ok ((),
      ((u.withEsp (moveSp u.stack32 u.regs.esp (BitVec.ofNat 32 s.opWidth.bytes + extra))).withEip t).flushQueue) := by
  have hu : t.toNat ≤ u.segs.cs.limit.toNat := by rwa [(quiet_stackRead _ _ _ _ _ h).sys.segs]
  exact (M.bind_ok (look_apply _ s)).trans ((M.bind_ok h).trans (M.bind_ok (checkTarget_ok hu)))

theorem returnNear_exc {extra t : Word} {s u : State} (h : stackRead 0 s.opWidth.bytes s = .ok (t, u))
    (hl : s.segs.cs.limit.toNat < t.toNat) : returnNear extra s = .error (.exc (excGP 0) u) := by
  have hu : u.segs.cs.limit.toNat < t.toNat := by rwa [(quiet_stackRead _ _ _ _ _ h).sys.segs]
  exact (M.bind_ok (look_apply _ s)).trans ((M.bind_ok h).trans (M.bind_error (checkTarget_exc hu)))

/-- Settles O40. -/
theorem nearCallsReturns : Obligations.NearCallsReturns := by
  intro s limit n calls
  refine ⟨fun d => ?_, fun rm v u0 h => ⟨fun hl stores esp u hp r => ?_, fun hl => ?_⟩, fun t u h => ?_⟩
  · intro full
    have ht : (if s.op32 then s.eip + full else (s.eip + full) &&& 0xFFFF) = sizeTarget s.op32 (s.eip + dispOf s.op32 d) := by
      rw [sizeTarget_eq, dispOf_eq]
    rw [ht]
    exact ⟨fun hl stores esp u hp r => completes_callTo (i := .callRel d) rfl (M.bind_ok (relTarget_ok hl))
        (composes_quiet.refl s) hp r,
      fun hl => faults_of (e := excGP 0) (body := relTarget (dispOf s.op32 d) >>= callTo) rfl (M.bind_error (relTarget_exc hl))
        (by decide)⟩
  · exact completes_callTo (i := .callRm rm) rfl (M.bind_ok (indirectTarget_ok h hl)) (quiet_readRm _ _ _ _ _ h) hp r
  · exact faults_of (e := excGP 0) (body := indirectTarget rm >>= callTo) rfl (M.bind_error (indirectTarget_exc h hl)) (by decide)
  · have q := quiet_stackRead _ _ _ _ _ h
    have form (i : Instr) (extra : Word) (hi : exec i s = run (returnNear extra) s) :
        (t.toNat ≤ limit → Completes i s (DoneQuiet s
          ((s.withEsp (moveSp s.stack32 s.regs.esp (BitVec.ofNat 32 n + extra))).withEip t))) ∧
        (limit < t.toNat → Faults i s 13 (some 0) u) := by
      refine ⟨fun hl => ?_, fun hl => faults_of (e := excGP 0) hi (returnNear_exc h hl) (by decide)⟩
      have hok := returnNear_ok (extra := extra) h hl
      rw [q.matches.stack32, q.regs] at hok
      exact completes_quiet_of hi hok q.mem ((q.matches.withEsp _).withEip t).flushQueue rfl rfl
    exact ⟨form _ _ rfl, fun imm => form _ _ rfl⟩

/-! ## ENTER and LEAVE (R540, R541) -/

/-- The low part of a register loaded, as the statements write it. -/
theorem loadSp_part (big : Bool) (old new : Word) :
    loadSp big old new = if big then new else old.extractLsb' 16 16 ++ new.extractLsb' 0 16 := loadSp_eq ..

/-- The frame ENTER leaves: eBP the frame pointer, eSP below the locals. -/
def State.framed (s : State) (size : HWord) (frame last : Word) : State := s.withRegs
  { s.regs with ebp := loadSp s.stack32 s.regs.ebp frame, esp := moveSp s.stack32 last (-(size.setWidth 32)) }

/-- The stores of ENTER, every access planned. -/
def enterStores (size : HWord) (s : State) (wr : List Word) (display : List (List Word × List Word)) (link : List Word)
    (frame final : Word) : M Unit := do
  physWrite wr (bytesOf s.opWidth.bytes s.regs.ebp)
  copyAll display
  physWrite link (bytesOf s.opWidth.bytes frame)
  update fun t => t.withRegs
    { t.regs with ebp := loadSp s.stack32 t.regs.ebp frame, esp := moveSp s.stack32 final (-(size.setWidth 32)) }

theorem enterStores_ends {size : HWord} {s u : State} {wr link : List Word} {display : List (List Word × List Word)}
    {frame final : Word} (q : Quiet s u) (r : Storable s (wr ++ link)) (rd : ∀ p ∈ display, AllRam s (p.1 ++ p.2)) :
    ∃ t, enterStores size s wr display link frame final u = .ok ((), t) ∧ Matches (s.framed size frame final) t ∧
      ∀ a, t.byteAt a = storedIn link (bytesOf s.opWidth.bytes frame)
        (copiedIn display (storedIn wr (bytesOf s.opWidth.bytes s.regs.ebp) u.byteAt)) a := by
  have rwr : AllRam s wr := fun a h => r.2 a (List.mem_append_left _ h)
  have rlink : AllRam s link := fun a h => r.2 a (List.mem_append_right _ h)
  obtain ⟨t1, h1, m1, ok1, b1⟩ := physWrite_storedIn (bs := bytesOf s.opWidth.bytes s.regs.ebp) (rwr.congr q.sys.params) (q.memOk r.1)
  have q1 := q.matches.trans m1
  obtain ⟨t2, h2, m2, ok2, b2⟩ := copyAll_ends (fun p hp => (rd p hp).congr q1.sys.params) ok1
  have q2 := q1.trans m2
  obtain ⟨t3, h3, m3, -, b3⟩ := physWrite_storedIn (bs := bytesOf s.opWidth.bytes frame) (rlink.congr q2.sys.params) ok2
  have q3 := q2.trans m3
  refine ⟨_, (M.bind_ok h1).trans ((M.bind_ok h2).trans ((M.bind_ok h3).trans rfl)), ?_, fun a => ?_⟩
  · simp only [q3.regs]
    exact q3.withRegs _
  · refine (congrFun b3 a).trans ?_
    rw [← b1, funext b2]

/-- ENTER of level 0 (R540). -/
theorem enterFrame_flat {size : HWord} {level : Byte} {s u : State} {wr : List Word} {esp : Word} (h0 : level.toNat % 32 = 0)
    (h : planPush (s.seg .ss) s.stack32 s.userLevel (excSS 0) s.regs.esp s.opWidth.bytes s = .ok ((wr, esp), u)) :
    enterFrame size level s = enterStores size s wr [] [] esp esp u := by
  rw [enterFrame, M.bind_ok (M.get_apply s)]
  simp only [h0, if_true]
  exact (M.bind_ok h).trans rfl

/-- ENTER of a higher level (R540). -/
theorem enterFrame_nested {size : HWord} {level : Byte} {s u1 u2 u : State} {wr link : List Word}
    {display : List (List Word × List Word)} {esp last final : Word} (h0 : 1 ≤ level.toNat % 32)
    (h : planPush (s.seg .ss) s.stack32 s.userLevel (excSS 0) s.regs.esp s.opWidth.bytes s = .ok ((wr, esp), u1))
    (h1 : planDisplay s.opWidth.bytes (level.toNat % 32 - 1) s.regs.ebp esp u1 = .ok ((display, last), u2))
    (h2 : planPush (s.seg .ss) s.stack32 s.userLevel (excSS 0) last s.opWidth.bytes u2 = .ok ((link, final), u)) :
    enterFrame size level s = enterStores size s wr display link esp final u := by
  have hne : level.toNat % 32 ≠ 0 := by omega
  rw [enterFrame, M.bind_ok (M.get_apply s)]
  simp only [hne, if_false]
  exact (M.bind_ok h).trans ((M.bind_ok h1).trans ((M.bind_ok h2).trans rfl))

/-- Settles O45. -/
theorem enterLeave : Obligations.EnterLeave := by
  intro s n part push framed
  have hpart (old new : Word) : part old new = loadSp s.stack32 old new := (loadSp_part ..).symm
  have hframed (size : HWord) (frame last : Word) : framed size frame last = s.framed size frame last := by
    simp only [framed, hpart, State.framed]
  refine ⟨fun size level wr esp u h0 h r => ?_, fun size level wr esp u1 display last u2 link final u h0 h h1 h2 r rd => ?_, ?_⟩
  · have q := quiet_planPush _ _ _ _ _ _ _ _ _ h
    obtain ⟨t, ht, m, hb⟩ := enterStores_ends (size := size) (link := []) (display := []) (frame := esp) (final := esp) q
      (by rwa [List.append_nil]) (by simp)
    rw [hframed]
    exact ⟨_, (rfl : exec (.enter size level) s = run (enterFrame size level) s).trans (run_ok ((enterFrame_flat h0 h).trans ht)),
      m.done rfl, q.mem, hb⟩
  · have c := composes_quiet
    have q := c.trans (c.trans (quiet_planPush _ _ _ _ _ _ _ _ _ h) (quiet_planDisplay _ _ _ _ _ _ _ h1))
      (quiet_planPush _ _ _ _ _ _ _ _ _ h2)
    obtain ⟨t, ht, m, hb⟩ := enterStores_ends (size := size) (frame := esp) (final := final) q r rd
    rw [hframed]
    exact ⟨_, (rfl : exec (.enter size level) s = run (enterFrame size level) s).trans
      (run_ok ((enterFrame_nested h0 h h1 h2).trans ht)), m.done rfl, q.mem, hb⟩
  · intro v u s1 h
    have hs1 : s1 = s.withEsp (loadSp s.stack32 s.regs.esp s.regs.ebp) := by rw [← hpart]
    have q := quiet_stackRead _ _ _ _ _ h
    have hpop : popValue (s.withEsp (loadSp s.stack32 s.regs.esp s.regs.ebp)) =
        .ok (v, u.withEsp (moveSp s1.stack32 s1.regs.esp (BitVec.ofNat 32 n))) := hs1 ▸ popValue_ok (s := s1) h
    have hb : leaveFrame s = .ok ((), (u.withEsp (moveSp s1.stack32 s1.regs.esp (BitVec.ofNat 32 n))).setReg s.opWidth .bp
        (immOf s.opWidth v)) := by
      rw [leaveFrame, M.bind_ok (update_apply _ s)]
      exact (M.bind_ok (look_apply _ _)).trans (M.bind_ok hpop)
    have m := (q.matches.withEsp (moveSp s1.stack32 s1.regs.esp (BitVec.ofNat 32 n))).setReg s.opWidth .bp (v.setWidth s.opWidth.bits)
    exact completes_quiet_of rfl hb (SameMemory.of_withRegs q.mem) m rfl rfl

end Sys2Proof.Machine
end

section
/-!
PROOFS. Far JMP, CALL and RET, to a code segment and through a call gate (46_control_transfer.md R503, R506 to R509, R512, R514).
-/

namespace Sys2Proof.Machine

/-! ## What an instruction comes to -/

/-- The meaning of `i` in `s` comes to what `m` does in the state `u`. -/
def ComesTo (i : Instr) (s : State) (m : M Ending) (u : State) : Prop := ∃ body, exec i s = runEnding body s ∧ body s = m u

theorem ComesTo.of_exec {i : Instr} {s : State} {m : M Ending} (h : exec i s = runEnding m s) : ComesTo i s m s := ⟨m, h, rfl⟩

/-- A meaning with a plain ending. -/
theorem ComesTo.of_run {i : Instr} {s : State} {m : M Unit} (h : exec i s = run m s) :
    ComesTo i s (m >>= fun _ => pure Ending.plain) s := ⟨_, h, rfl⟩

theorem ComesTo.step {i : Instr} {s u w : State} {m m' : M Ending} (h : ComesTo i s m u) (e : m u = m' w) : ComesTo i s m' w :=
  h.imp fun _ ⟨h1, h2⟩ => ⟨h1, h2.trans e⟩

theorem ComesTo.faults {i : Instr} {s u w : State} {m : M Ending} (h : ComesTo i s m u) {vector : Byte} {code : Option HWord}
    (e : m u = .error (.exc ⟨vector, code⟩ w)) (h9 : vector ≠ 9) : Faults i s vector code w := by
  obtain ⟨body, h1, h2⟩ := h
  exact faults_of_ending (e := ⟨vector, code⟩) h1 (h2.trans e) h9

theorem ComesTo.next {i : Instr} {s u w : State} {m : M Ending} {fin : Ending} (h : ComesTo i s m u) (e : m u = .ok (fin, w)) :
    exec i s = .next (w.retire s fin) := by
  obtain ⟨body, h1, h2⟩ := h
  exact h1.trans (runEnding_ok (h2.trans e))

/-- Completion that stored nothing since `u1`. -/
theorem ComesTo.completes_quiet {i : Instr} {s e u u1 w : State} {m : M Ending} (h : ComesTo i s m u)
    (hm : m u = .ok (Ending.plain, w)) (q : SameMemory s u1) (hw : w.mem = u1.mem) (me : Matches e w) (hp : e.pend.bs = s.pend.bs) :
    Completes i s (DoneQuiet s e) := ⟨_, h.next hm, me.done hp, q.congr hw⟩

/-- The ending after an operation that is carried out. -/
theorem plain_ok {m : M Unit} {u w : State} (h : m u = .ok ((), w)) : (m >>= fun _ => pure Ending.plain) u = .ok (Ending.plain, w) :=
  (M.bind_ok h).trans rfl

theorem check_error {b : Bool} (e : Exc) (s : State) (h : b = false) : check b e s = .error (.exc e s) := by
  rw [h]
  rfl

/-! ## The forms of a far transfer (R503, R512) -/

theorem sizeTarget_operand (s : State) (v : BitVec s.opWidth.bits) : sizeTarget s.op32 (v.setWidth 32) = v.setWidth 32 := by
  cases ho : s.op32 with
  | true => rfl
  | false =>
    have hb : s.opWidth.bits = 16 := by
      rw [State.opWidth, ho]
      rfl
    have hv : v.toNat < 2 ^ 16 := hb ▸ v.isLt
    apply BitVec.eq_of_toNat_eq
    rw [sizeTarget, cond_false, BitVec.toNat_and, operand_toNat, show BitVec.toNat (65535 : Word) = 2 ^ 16 - 1 from rfl,
      Nat.and_two_pow_sub_one_eq_mod, Nat.mod_eq_of_lt hv]

theorem sizeTarget_idem (is32 : Bool) (t : Word) : sizeTarget is32 (sizeTarget is32 t) = sizeTarget is32 t := by
  cases is32
  · simp [sizeTarget, BitVec.and_assoc]
  · rfl

/-- What a pair of far forms has in common: each comes to its transfer in the state that reading the target leaves. -/
structure FarPair (s : State) (sel : HWord) (off : Word) (jmp call : Instr) (u0 : State) : Prop where
  jmp : ComesTo jmp s (farTransfer sel off .jmp) u0
  call : ComesTo call s (farTransfer sel off .call) u0
  quiet : Quiet s u0

theorem FarForms.pair {s u0 : State} {sel : HWord} {off : Word} {jmp call : Instr} (h : FarForms s sel off jmp call u0) :
    FarPair s sel (sizeTarget s.op32 off) jmp call u0 := by
  rcases h with ⟨rfl, rfl, rfl⟩ | ⟨m, sr, at_, v, u1, u2, rfl, rfl, h1, h2, h3, rfl⟩
  · exact ⟨.of_exec rfl, .of_exec rfl, composes_quiet.refl _⟩
  · have hr : readFarPointer m s = .ok ((v.setWidth 32, sel), u0) :=
      (M.bind_ok (look_apply _ s)).trans ((M.bind_ok h1).trans ((M.bind_ok h2).trans ((M.bind_ok h3).trans rfl)))
    rw [sizeTarget_operand]
    have c := composes_quiet
    have form (i : Instr) (kind : FarKind)
        (hi : exec i s = runEnding (readFarPointer m >>= fun p => farTransfer p.2 p.1 kind) s) :
        ComesTo i s (farTransfer sel (v.setWidth 32) kind) u0 :=
      ⟨_, hi, by rw [M.bind_ok hr]⟩
    exact ⟨form _ .jmp rfl, form _ .call rfl,
      c.trans (c.trans (quiet_addressOf _ _ _ _ h1) (quiet_readAt _ _ _ _ _ _ h2)) (quiet_readAt _ _ _ _ _ _ h3)⟩

/-! ## Outside Protected Mode (R503, R512, R514) -/

theorem selWord_ok (sel : HWord) (s : State) : ∃ w u, selWord sel s = .ok (w, u) ∧ w.setWidth 16 = sel ∧ Quiet s u := by
  have h : selWord sel s = .ok (Config.freeBits 16 s.draws ++ sel, s.withDraws (s.draws + 1)) := M.bind_ok (drawBits_apply 16 s)
  exact ⟨_, _, h, selWord_low h, quiet_withDraws s _⟩

/-- The return address of a far CALL, planned (R507, R512). -/
theorem planReturn_ok {n : Nat} {s u0 u1 u : State} {w esp : Word} {stores : List (List Word × Word)} (q : Quiet s u0)
    (hw : selWord s.segs.cs.sel u0 = .ok (w, u1)) (h : planStack n [w, s.eip] u1 = .ok ((stores, esp), u)) :
    planReturn n u0 = .ok ((stores, esp), u) := by
  rw [← q.sys.segs] at hw
  rw [← q.eip] at h
  exact (M.bind_ok (M.get_apply u0)).trans ((M.bind_ok hw).trans h)

theorem farTransfer_real {sel : HWord} {off : Word} {kind : FarKind} {u : State} (h : u.protMode = false) :
    farTransfer sel off kind u = (farReal sel off kind >>= fun _ => pure Ending.plain) u := by
  rw [farTransfer, M.bind_ok (M.get_apply u), h]
  rfl

theorem farReal_exc {sel : HWord} {off : Word} {kind : FarKind} {u : State} (h : 0xFFFF < off.toNat) :
    farReal sel off kind u = .error (.exc (excGP 0) u) :=
  (M.bind_ok (M.get_apply u)).trans (M.bind_error (check_error _ _ (decide_eq_false (by omega))))

theorem farReal_jmp {sel : HWord} {off : Word} {u : State} (h : off.toNat ≤ 0xFFFF) :
    farReal sel off .jmp u = .ok ((), ((u.setSeg .cs (u.realSeg .cs sel)).withEip off).flushQueue) := by
  rw [← loadedReal_eq]
  exact (M.bind_ok (M.get_apply u)).trans ((M.bind_ok (check_ok _ _ (decide_eq_true h))).trans rfl)

theorem farReal_call {sel : HWord} {off esp : Word} {u u1 t : State} {stores : List (List Word × Word)} (h : off.toNat ≤ 0xFFFF)
    (hp : planReturn u.opWidth.bytes u = .ok ((stores, esp), u1)) (hs : storeAll u.opWidth.bytes stores u1 = .ok ((), t)) :
    farReal sel off .call u =
      .ok ((), (((t.withEsp esp).setSeg .cs (u.realSeg .cs sel)).withEip off).flushQueue) := by
  have hpush : (planReturn u.opWidth.bytes >>= fun p => storeAll u.opWidth.bytes p.1 >>= fun _ => setEsp p.2) u =
      .ok ((), t.withEsp esp) := (M.bind_ok hp).trans ((M.bind_ok hs).trans rfl)
  rw [← loadedReal_eq]
  exact (M.bind_ok (M.get_apply u)).trans ((M.bind_ok (check_ok _ _ (decide_eq_true h))).trans ((M.bind_ok hpush).trans rfl))

/-- The state a transfer outside Protected Mode leads to. -/
def State.atReal (s e : State) (sel : HWord) (off : Word) : State := (e.setSeg .cs (s.realSeg .cs sel)).withEip off

/-- Both outcomes of both far forms outside Protected Mode. -/
theorem farReal_forms {s u0 : State} {sel : HWord} {off : Word} {jmp call : Instr} (f : FarPair s sel off jmp call u0)
    (hp : s.protMode = false) :
    (off.toNat ≤ 0xFFFF → Completes jmp s (DoneQuiet s (s.atReal s sel off)) ∧
      ∃ w u1, selWord s.segs.cs.sel u0 = .ok (w, u1) ∧ w.setWidth 16 = s.segs.cs.sel ∧
        ∀ stores esp u, planStack s.opWidth.bytes [w, s.eip] u1 = .ok ((stores, esp), u) → AllStorable s stores →
          Completes call s (DoneStores s.opWidth.bytes stores s (s.atReal (s.withEsp esp) sel off) u)) ∧
    (0xFFFF < off.toNat → Faults jmp s 13 (some 0) u0 ∧ Faults call s 13 (some 0) u0) := by
  have m := f.quiet.matches
  have hr (kind : FarKind) := farTransfer_real (sel := sel) (off := off) (kind := kind) (m.protMode.trans hp)
  refine ⟨fun h => ⟨?_, ?_⟩, fun h => ⟨(f.jmp.step (hr _)).faults (M.bind_error (farReal_exc h)) (by decide),
    (f.call.step (hr _)).faults (M.bind_error (farReal_exc h)) (by decide)⟩⟩
  · have ok := plain_ok (farReal_jmp (sel := sel) (u := u0) h)
    rw [m.realSeg] at ok
    exact (f.jmp.step (hr _)).completes_quiet ok f.quiet.mem rfl ((m.setSeg _ _).withEip _).flushQueue rfl
  · obtain ⟨w, u1, hw, low, q1⟩ := selWord_ok s.segs.cs.sel u0
    refine ⟨w, u1, hw, low, fun stores esp u hst r => ?_⟩
    have c := composes_quiet
    have q := c.trans (c.trans f.quiet q1) (quiet_planStack _ _ _ _ _ hst)
    obtain ⟨t, h1, mt, h2, h3, -, -⟩ := storeAll_ends (n := s.opWidth.bytes) q r q.matches rfl q.sys.params
    have hplan := planReturn_ok f.quiet hw hst
    rw [← m.opWidth] at hplan h1
    have ok := plain_ok (farReal_call (sel := sel) h hplan h1)
    rw [m.realSeg] at ok
    exact ⟨_, (f.call.step (hr _)).next ok, (((mt.withEsp esp).setSeg _ _).withEip _).flushQueue.done rfl, h2, h3⟩

theorem realRetf_ok {extra ip cs : Word} {s u1 u : State} (h1 : stackRead 0 s.opWidth.bytes s = .ok (ip, u1))
    (h2 : stackRead s.opWidth.bytes s.opWidth.bytes u1 = .ok (cs, u)) (hl : ip.toNat ≤ 0xFFFF) :
    realRetf extra s = .ok ((), (((u.withEsp (moveSp u.stack32 u.regs.esp (BitVec.ofNat 32 (2 * s.opWidth.bytes) + extra))).setSeg .cs
      (s.realSeg .cs (cs.setWidth 16))).withEip ip).flushQueue) := by
  rw [← loadedReal_eq]
  exact (M.bind_ok (M.get_apply s)).trans ((M.bind_ok h1).trans ((M.bind_ok h2).trans
    ((M.bind_ok (check_ok _ _ (decide_eq_true hl))).trans rfl)))

theorem realRetf_exc {extra ip cs : Word} {s u1 u : State} (h1 : stackRead 0 s.opWidth.bytes s = .ok (ip, u1))
    (h2 : stackRead s.opWidth.bytes s.opWidth.bytes u1 = .ok (cs, u)) (hl : 0xFFFF < ip.toNat) :
    realRetf extra s = .error (.exc (excGP 0) u) :=
  (M.bind_ok (M.get_apply s)).trans ((M.bind_ok h1).trans ((M.bind_ok h2).trans
    (M.bind_error (check_error _ _ (decide_eq_false (by omega))))))

/-- RET far in its two forms. -/
theorem retFar_comesTo {i : Instr} {extra : Word} (h : (i = .retFar ∧ extra = 0) ∨
    ∃ imm : HWord, i = .retFarImm imm ∧ extra = imm.setWidth 32) (s : State) :
    ComesTo i s ((if s.protMode then protRetf extra else realRetf extra) >>= fun _ => pure Ending.plain) s := by
  have hr : retFar extra s = (if s.protMode then protRetf extra else realRetf extra) s := M.bind_ok (M.get_apply s)
  have hb : (retFar extra >>= fun _ => pure Ending.plain) s =
      ((if s.protMode then protRetf extra else realRetf extra) >>= fun _ => pure Ending.plain) s := by
    rw [M.bind_apply, hr, ← M.bind_apply]
  rcases h with ⟨rfl, rfl⟩ | ⟨imm, rfl, rfl⟩
  · exact (ComesTo.of_run (m := retFar 0) rfl).step hb
  · exact (ComesTo.of_run (m := retFar (imm.setWidth 32)) rfl).step hb

/-- Settles O41. -/
theorem farRealTransfers : Obligations.FarReal := by
  intro s hp n at_ transfers
  refine ⟨fun off sel => ?_, fun m sr at0 v sel u1 u2 u h1 h2 h3 => ?_, fun ip cs u1 u h1 h2 => ?_⟩
  · rw [← sizeTarget_eq]
    exact farReal_forms (FarForms.pair (.inl ⟨rfl, rfl, rfl⟩)) hp
  · have f := FarForms.pair (.inr ⟨m, sr, at0, v, u1, u2, rfl, rfl, h1, h2, h3, rfl⟩)
    rw [sizeTarget_operand] at f
    exact farReal_forms f hp
  · have form (i : Instr) (extra : Word)
        (hi : (i = .retFar ∧ extra = 0) ∨ ∃ imm : HWord, i = .retFarImm imm ∧ extra = imm.setWidth 32) :
        (ip.toNat ≤ 0xFFFF → Completes i s (DoneQuiet s
          (at_ (s.withEsp (moveSp s.stack32 s.regs.esp (BitVec.ofNat 32 (2 * n) + extra))) (cs.setWidth 16) ip))) ∧
        (0xFFFF < ip.toNat → Faults i s 13 (some 0) u) := by
      have hc := retFar_comesTo hi s
      rw [hp, if_neg Bool.false_ne_true] at hc
      refine ⟨fun hl => ?_, fun hl => hc.faults (M.bind_error (realRetf_exc h1 h2 hl)) (by decide)⟩
      have q := composes_quiet.trans (quiet_stackRead _ _ _ _ _ h1) (quiet_stackRead _ _ _ _ _ h2)
      have ok := plain_ok (realRetf_ok (extra := extra) h1 h2 hl)
      rw [q.matches.stack32, q.regs] at ok
      exact hc.completes_quiet ok q.mem rfl (((q.matches.withEsp _).setSeg _ _).withEip _).flushQueue rfl
    exact ⟨form _ _ (.inl ⟨rfl, rfl⟩), fun imm => form _ _ (.inr ⟨imm, rfl, rfl⟩)⟩

end Sys2Proof.Machine
end

section
/-!
PROOFS. Far JMP and CALL in Protected Mode: to a code segment and through a call gate (46_control_transfer.md R506 to R509, R512).
-/

namespace Sys2Proof.Machine

/-! ## The dispatch (R506) -/

theorem farTransfer_prot {sel : HWord} {off : Word} {kind : FarKind} {u : State} (h : u.protMode = true) :
    farTransfer sel off kind u = farTarget sel off kind u := by
  rw [farTransfer, M.bind_ok (M.get_apply u), h]
  rfl

theorem notNull_ok {sel : HWord} (h : 4 ≤ sel.toNat) (e : Exc) (s : State) : check (!selNull sel) e s = .ok ((), s) :=
  check_ok _ _ (by rw [selNull_false h]; rfl)

theorem notNull_exc {sel : HWord} (h : sel.toNat < 4) (e : Exc) (s : State) : check (!selNull sel) e s = .error (.exc e s) :=
  check_error _ _ (by rw [selNull_true h]; rfl)

theorem needDesc_beyond {sel : HWord} {e : Exc} {s u : State} (m : Matches s u) (h : descAddress s.tables sel = none) :
    needDesc sel e u = .error (.exc e u) := (M.bind_ok (fetchDesc_none m h)).trans rfl

section
variable {sel : HWord} {off : Word} {kind : FarKind} {u : State}

theorem farTarget_null (h : sel.toNat < 4) : farTarget sel off kind u = .error (.exc ⟨13, some 0⟩ u) :=
  M.bind_error (notNull_exc h (excGP 0) u)

theorem farTarget_beyond {s : State} (m : Matches s u) (hn : 4 ≤ sel.toNat) (h : descAddress s.tables sel = none) :
    farTarget sel off kind u = .error (.exc ⟨13, some (sel &&& 0xFFFC)⟩ u) :=
  (M.bind_ok (notNull_ok hn _ _)).trans (M.bind_error (needDesc_beyond m h))

theorem farTarget_code {d : Desc} {u1 : State} (hn : 4 ≤ sel.toNat) (h : fetchDesc sel u = .ok (some d, u1)) (hc : d.isCode = true) :
    farTarget sel off kind u = (codeTransfer sel d off kind >>= fun _ => pure Ending.plain) u1 := by
  rw [farTarget, M.bind_ok (notNull_ok hn _ _), M.bind_ok (needDesc_some h), hc]
  rfl

theorem farTarget_gate {d : Desc} {u1 : State} (hn : 4 ≤ sel.toNat) (h : fetchDesc sel u = .ok (some d, u1))
    (hg : d.isSystem 12 = true) : farTarget sel off kind u = (callGate sel d kind >>= fun _ => pure Ending.plain) u1 := by
  rw [farTarget, M.bind_ok (notNull_ok hn _ _), M.bind_ok (needDesc_some h), Desc.isCode_of_isSystem hg, hg]
  rfl

end

theorem FarPair.prot {s u0 : State} {sel : HWord} {off : Word} {jmp call : Instr} (f : FarPair s sel off jmp call u0)
    (hp : s.protMode = true) : ComesTo jmp s (farTarget sel off .jmp) u0 ∧ ComesTo call s (farTarget sel off .call) u0 :=
  have h := f.quiet.matches.protMode.trans hp
  ⟨f.jmp.step (farTransfer_prot h), f.call.step (farTransfer_prot h)⟩

/-! ## Entry to a code segment of the same level (R507, R508) -/

theorem checkRoom_ok {g : SegReg} {big : Bool} {esp : Word} {n k : Nat} {u : State} (h : roomFor g true big n k esp = true) :
    checkRoom g big esp n k u = .ok ((), u) := (M.bind_ok (look_apply _ u)).trans (check_ok _ _ (roomFor_weak h))

theorem checkRoom_exc {g : SegReg} {big : Bool} {esp : Word} {n k : Nat} {u : State} (hp : u.protMode = true)
    (h : roomFor g true big n k esp = false) : checkRoom g big esp n k u = .error (.exc ⟨12, some 0⟩ u) :=
  (M.bind_ok (look_apply _ u)).trans (check_error _ _ (by rw [hp, h]))

theorem limit_ok {a b : Nat} (h : a ≤ b) (e : Exc) (s : State) : check (decide (a ≤ b)) e s = .ok ((), s) :=
  check_ok _ _ (decide_eq_true h)

theorem limit_exc {a b : Nat} (h : b < a) (e : Exc) (s : State) : check (decide (a ≤ b)) e s = .error (.exc e s) :=
  check_error _ _ (decide_eq_false (by omega))

/-- Room on the current stack for a return address, as the statements ask for it. -/
def State.returnRoom (s : State) (n : Nat) : Bool := roomFor s.segs.ss true s.stack32 n 2 s.regs.esp

theorem Matches.returnRoom {e w : State} (m : Matches e w) (n : Nat) : w.returnRoom n = e.returnRoom n := by
  simp only [State.returnRoom, m.sys.segs, m.stack32, m.regs]

section
variable {sel : HWord} {c : Desc} {off : Word} {n : Nat} {u : State}

theorem enterCode_jmp_limit (h : c.limit.toNat < off.toNat) : enterCode sel c off n .jmp u = .error (.exc ⟨13, some 0⟩ u) :=
  (M.bind_ok (M.get_apply u)).trans ((M.bind_ok (M.pure_apply () u)).trans (M.bind_error (limit_exc h _ _)))

theorem enterCode_call_room (hp : u.protMode = true) (h : u.returnRoom n = false) :
    enterCode sel c off n .call u = .error (.exc ⟨12, some 0⟩ u) :=
  (M.bind_ok (M.get_apply u)).trans (M.bind_error (checkRoom_exc hp h))

theorem enterCode_call_limit (hr : u.returnRoom n = true) (h : c.limit.toNat < off.toNat) :
    enterCode sel c off n .call u = .error (.exc ⟨13, some 0⟩ u) :=
  (M.bind_ok (M.get_apply u)).trans ((M.bind_ok (checkRoom_ok hr)).trans (M.bind_error (limit_exc h _ _)))

/-- The state a transfer to a code segment leads to. -/
def State.atCode (e : State) (sel : HWord) (c : Desc) (off : Word) : State := (e.setSeg .cs (c.toSeg sel)).withEip off

theorem Matches.atCode {e w : State} (m : Matches e w) (sel : HWord) (c : Desc) (off : Word) :
    Matches (e.atCode sel c off) (w.atCode sel c off) := (m.setSeg _ _).withEip off

theorem enterCode_jmp (h : off.toNat ≤ c.limit.toNat) (ha : c.d1.getLsbD 8 = true) :
    enterCode sel c off n .jmp u = .ok ((), (u.atCode (withRpl sel u.cpl) c off).flushQueue) :=
  (M.bind_ok (M.get_apply u)).trans ((M.bind_ok (M.pure_apply () u)).trans ((M.bind_ok (limit_ok h _ _)).trans
    ((M.bind_ok (M.pure_apply _ u)).trans ((M.bind_ok (planAccessed_ok ha u)).trans ((M.bind_ok (M.pure_apply () u)).trans
      ((M.bind_ok (writeAccessed_nil u)).trans rfl))))))

theorem enterCode_call {stores : List (List Word × Word)} {esp : Word} {u1 t : State} (hr : u.returnRoom n = true)
    (h : off.toNat ≤ c.limit.toNat) (ha : c.d1.getLsbD 8 = true) (hpl : planReturn n u = .ok ((stores, esp), u1))
    (hs : storeAll n stores u1 = .ok ((), t)) :
    enterCode sel c off n .call u = .ok ((), ((t.withEsp esp).atCode (withRpl sel u.cpl) c off).flushQueue) :=
  (M.bind_ok (M.get_apply u)).trans ((M.bind_ok (checkRoom_ok hr)).trans ((M.bind_ok (limit_ok h _ _)).trans
    ((M.bind_ok hpl).trans ((M.bind_ok (planAccessed_ok ha u1)).trans ((M.bind_ok hs).trans
      ((M.bind_ok (writeAccessed_nil t)).trans rfl))))))

end

/-- Both far forms, come to the entry of an accessed code segment in `u1` after quiet accesses: room, target, completion. -/
theorem enterCode_forms {s u1 : State} {sel : HWord} {c : Desc} {off : Word} {n : Nat} {jmp call : Instr} (q : Quiet s u1)
    (hp : s.protMode = true)
    (hj : ComesTo jmp s (enterCode sel c off n .jmp >>= fun _ => pure Ending.plain) u1)
    (hc : ComesTo call s (enterCode sel c off n .call >>= fun _ => pure Ending.plain) u1) :
    (s.returnRoom n = false → Faults call s 12 (some 0) u1) ∧
    (c.limit.toNat < off.toNat → Faults jmp s 13 (some 0) u1 ∧ (s.returnRoom n = true → Faults call s 13 (some 0) u1)) ∧
    (off.toNat ≤ c.limit.toNat → c.d1.getLsbD 8 = true →
      Completes jmp s (DoneQuiet s (s.atCode (withRpl sel s.cpl) c off)) ∧
      ∀ w u2 stores esp u, s.returnRoom n = true → selWord s.segs.cs.sel u1 = .ok (w, u2) →
        planStack n [w, s.eip] u2 = .ok ((stores, esp), u) → AllStorable s stores →
        Completes call s (DoneStores n stores s ((s.withEsp esp).atCode (withRpl sel s.cpl) c off) u)) := by
  have m := q.matches
  have hp1 := m.protMode.trans hp
  refine ⟨fun hr => hc.faults (M.bind_error (enterCode_call_room hp1 ((m.returnRoom n).trans hr))) (by decide),
    fun hl => ⟨hj.faults (M.bind_error (enterCode_jmp_limit hl)) (by decide),
      fun hr => hc.faults (M.bind_error (enterCode_call_limit ((m.returnRoom n).trans hr) hl)) (by decide)⟩,
    fun hl ha => ⟨?_, fun w u2 stores esp u hr hw hst r => ?_⟩⟩
  · have ok := plain_ok (enterCode_jmp (sel := sel) (n := n) (u := u1) hl ha)
    rw [m.sys.cpl] at ok
    exact hj.completes_quiet ok q.mem rfl (m.atCode _ _ _).flushQueue rfl
  · have cq := composes_quiet
    have q' := cq.trans (cq.trans q (quiet_selWord _ _ _ _ hw)) (quiet_planStack _ _ _ _ _ hst)
    obtain ⟨t, h1, mt, h2, h3, -, -⟩ := storeAll_ends (n := n) q' r q'.matches rfl q'.sys.params
    have ok := plain_ok (enterCode_call (sel := sel) ((m.returnRoom n).trans hr) hl ha (planReturn_ok q hw hst) h1)
    rw [m.sys.cpl] at ok
    exact ⟨_, hc.next ok, ((mt.withEsp esp).atCode _ _ _).flushQueue.done rfl, h2, h3⟩

/-! ## To a code segment (R507) -/

/-- What a code segment must allow for a direct far transfer (R507). -/
def Desc.reachable (d : Desc) (sel : HWord) (cpl : BitVec 2) : Prop :=
  if d.conforming then d.dpl.toNat ≤ cpl.toNat else (sel.extractLsb' 0 2).toNat ≤ cpl.toNat ∧ d.dpl = cpl

theorem reachable_iff (d : Desc) (sel : HWord) (u : State) : d.reachable sel u.cpl ↔
    (bif d.conforming then decide (d.dpl.toNat ≤ u.cplNat) else decide ((selRpl sel).toNat ≤ u.cplNat) && d.dpl == u.cpl) = true := by
  rw [Desc.reachable]
  cases d.conforming
  · simp only [Bool.false_eq_true, if_false, cond_false, Bool.and_eq_true, decide_eq_true_eq, beq_iff_eq]
    exact Iff.rfl
  · simp only [if_true, cond_true, decide_eq_true_eq]
    exact Iff.rfl

section
variable {sel : HWord} {d : Desc} {off : Word} {kind : FarKind} {u : State}

theorem codeTransfer_barred (h : ¬ d.reachable sel u.cpl) :
    codeTransfer sel d off kind u = .error (.exc ⟨13, some (sel &&& 0xFFFC)⟩ u) :=
  (M.bind_ok (M.get_apply u)).trans (M.bind_error (check_error _ _ (Bool.eq_false_iff.2 ((reachable_iff d sel u).not.1 h))))

theorem codeTransfer_absent (h : d.reachable sel u.cpl) (hp : d.present = false) :
    codeTransfer sel d off kind u = .error (.exc ⟨11, some (sel &&& 0xFFFC)⟩ u) :=
  (M.bind_ok (M.get_apply u)).trans ((M.bind_ok (check_ok _ _ ((reachable_iff d sel u).1 h))).trans (M.bind_error (check_error _ _ hp)))

theorem codeTransfer_enters (h : d.reachable sel u.cpl) (hp : d.present = true) :
    codeTransfer sel d off kind u = enterCode sel d (sizeTarget u.op32 off) u.opWidth.bytes kind u :=
  (M.bind_ok (M.get_apply u)).trans ((M.bind_ok (check_ok _ _ ((reachable_iff d sel u).1 h))).trans (M.bind_ok (check_ok _ _ hp)))

end

/-- A plain ending after operations that do the same. -/
theorem then_plain {m m' : M Unit} {u w : State} (h : m u = m' w) :
    (m >>= fun _ => pure Ending.plain) u = (m' >>= fun _ => pure Ending.plain) w := by
  rw [M.bind_apply, h, ← M.bind_apply]

/-- Settles O42. -/
theorem farProtected : Obligations.FarProtected := by
  intro s off sel jmp call u0 hp hf n o code both room
  have ho : o = sizeTarget s.op32 off := (sizeTarget_eq ..).symm
  have f := hf.pair
  have m0 := f.quiet.matches
  obtain ⟨hj, hc⟩ := f.prot hp
  refine ⟨fun hn => ⟨hj.faults (farTarget_null hn) (by decide), hc.faults (farTarget_null hn) (by decide)⟩,
    fun hn hb => ⟨hj.faults (farTarget_beyond m0 hn hb) (by decide), hc.faults (farTarget_beyond m0 hn hb) (by decide)⟩,
    fun hn d u1 h hcode => ?_⟩
  have q1 := composes_quiet.trans f.quiet (quiet_fetchDesc _ _ _ _ h)
  have m1 := q1.matches
  have hj1 := hj.step (farTarget_code hn h hcode)
  have hc1 := hc.step (farTarget_code hn h hcode)
  intro allowed
  have hcpl : allowed ↔ d.reachable sel u1.cpl := by rw [m1.sys.cpl]; exact Iff.rfl
  refine ⟨fun ha => ?_, fun ha hpr => ?_, fun ha hpr => ?_⟩
  · have e (kind : FarKind) := codeTransfer_barred (off := sizeTarget s.op32 off) (kind := kind) (hcpl.not.1 ha)
    exact ⟨hj1.faults (M.bind_error (e _)) (by decide), hc1.faults (M.bind_error (e _)) (by decide)⟩
  · have e (kind : FarKind) := codeTransfer_absent (off := sizeTarget s.op32 off) (kind := kind) (hcpl.1 ha) hpr
    exact ⟨hj1.faults (M.bind_error (e _)) (by decide), hc1.faults (M.bind_error (e _)) (by decide)⟩
  · have e (kind : FarKind) := codeTransfer_enters (off := sizeTarget s.op32 off) (kind := kind) (hcpl.1 ha) hpr
    rw [m1.op32, sizeTarget_idem, m1.opWidth, ← ho] at e
    rw [← ho] at hj1 hc1
    obtain ⟨h1, h2, h3⟩ := enterCode_forms q1 hp (hj1.step (then_plain (e .jmp))) (hc1.step (then_plain (e .call)))
    refine ⟨h1, h2, fun hl hacc => ?_⟩
    obtain ⟨w, u2, hw, low, -⟩ := selWord_ok s.segs.cs.sel u1
    obtain ⟨g1, g2⟩ := h3 hl hacc
    exact ⟨g1, w, u2, hw, low, fun stores esp u hr hst r => g2 w u2 stores esp u hr hw hst r⟩

/-! ## Through a call gate (R508) -/

section
variable {gsel : HWord} {g : Desc} {kind : FarKind} {u : State}

/-- What a call gate must allow (R508). -/
def Desc.callable (g : Desc) (gsel : HWord) (cpl : BitVec 2) : Prop :=
  cpl.toNat ≤ g.dpl.toNat ∧ (gsel.extractLsb' 0 2).toNat ≤ g.dpl.toNat

theorem callable_iff : g.callable gsel u.cpl ↔
    (decide (u.cplNat ≤ g.dpl.toNat) && decide ((selRpl gsel).toNat ≤ g.dpl.toNat)) = true := by
  rw [Bool.and_eq_true, decide_eq_true_eq, decide_eq_true_eq]
  exact Iff.rfl

theorem callGate_barred (h : ¬ g.callable gsel u.cpl) :
    callGate gsel g kind u = .error (.exc ⟨13, some (gsel &&& 0xFFFC)⟩ u) :=
  (M.bind_ok (M.get_apply u)).trans (M.bind_error (check_error _ _ (Bool.eq_false_iff.2 (callable_iff.not.1 h))))

theorem callGate_absent (h : g.callable gsel u.cpl) (hp : g.present = false) :
    callGate gsel g kind u = .error (.exc ⟨11, some (gsel &&& 0xFFFC)⟩ u) :=
  (M.bind_ok (M.get_apply u)).trans ((M.bind_ok (check_ok _ _ (callable_iff.1 h))).trans (M.bind_error (check_error _ _ hp)))

theorem callGate_null (h : g.callable gsel u.cpl) (hp : g.present = true) (hn : g.gateSel.toNat < 4) :
    callGate gsel g kind u = .error (.exc ⟨13, some 0⟩ u) :=
  (M.bind_ok (M.get_apply u)).trans ((M.bind_ok (check_ok _ _ (callable_iff.1 h))).trans ((M.bind_ok (check_ok _ _ hp)).trans
    (M.bind_error (notNull_exc hn _ _))))

theorem callGate_beyond {s : State} (m : Matches s u) (h : g.callable gsel u.cpl) (hp : g.present = true) (hn : 4 ≤ g.gateSel.toNat)
    (hd : descAddress s.tables g.gateSel = none) :
    callGate gsel g kind u = .error (.exc ⟨13, some (g.gateSel &&& 0xFFFC)⟩ u) :=
  (M.bind_ok (M.get_apply u)).trans ((M.bind_ok (check_ok _ _ (callable_iff.1 h))).trans ((M.bind_ok (check_ok _ _ hp)).trans
    ((M.bind_ok (notNull_ok hn _ _)).trans (M.bind_error (needDesc_beyond m hd)))))

/-- The rest of a transfer through a gate, once its code segment's descriptor is read. -/
def throughGate (csel : HWord) (g c : Desc) (kind : FarKind) (s : State) : M Unit := do
  check (c.isCode && decide (c.dpl.toNat ≤ s.cplNat)) (excGP csel)
  check (kind != .jmp || c.conforming || c.dpl == s.cpl) (excGP csel)
  check c.present (excNP csel)
  if kind = .call ∧ !c.conforming ∧ c.dpl.toNat < s.cplNat then innerCall g csel c g.gateOff
  else enterCode csel c g.gateOff 4 kind

theorem callGate_through {c : Desc} {u1 : State} (h : g.callable gsel u.cpl) (hp : g.present = true) (hn : 4 ≤ g.gateSel.toNat)
    (hd : fetchDesc g.gateSel u = .ok (some c, u1)) : callGate gsel g kind u = throughGate g.gateSel g c kind u u1 :=
  (M.bind_ok (M.get_apply u)).trans ((M.bind_ok (check_ok _ _ (callable_iff.1 h))).trans ((M.bind_ok (check_ok _ _ hp)).trans
    ((M.bind_ok (notNull_ok hn _ _)).trans (M.bind_ok (needDesc_some hd)))))

end

section
variable {csel : HWord} {g c : Desc} {kind : FarKind} {u : State}

/-- The code segment of a gate is code, and not of an outer level (R508). -/
def Desc.gateTarget (c : Desc) (cpl : BitVec 2) : Prop := c.isCode = true ∧ c.dpl.toNat ≤ cpl.toNat

theorem gateTarget_iff : c.gateTarget u.cpl ↔ (c.isCode && decide (c.dpl.toNat ≤ u.cplNat)) = true := by
  rw [Bool.and_eq_true, decide_eq_true_eq]
  exact Iff.rfl

theorem throughGate_wrong (h : ¬ c.gateTarget u.cpl) :
    throughGate csel g c kind u u = .error (.exc ⟨13, some (csel &&& 0xFFFC)⟩ u) :=
  M.bind_error (check_error _ _ (Bool.eq_false_iff.2 (gateTarget_iff.not.1 h)))

/-- The code segment of a gate is entered at the current level. -/
def Desc.sameLevel (c : Desc) (cpl : BitVec 2) : Prop := c.conforming = true ∨ c.dpl = cpl

theorem sameLevel_ok (kind : FarKind) (h : c.sameLevel u.cpl) : (kind != .jmp || c.conforming || c.dpl == u.cpl) = true := by
  rcases h with h | h <;> simp [h]

theorem throughGate_absent (h : c.gateTarget u.cpl) (hs : c.sameLevel u.cpl) (hp : c.present = false) :
    throughGate csel g c kind u u = .error (.exc ⟨11, some (csel &&& 0xFFFC)⟩ u) :=
  (M.bind_ok (check_ok _ _ (gateTarget_iff.1 h))).trans ((M.bind_ok (check_ok _ _ (sameLevel_ok kind hs))).trans
    (M.bind_error (check_error _ _ hp)))

theorem throughGate_same (h : c.gateTarget u.cpl) (hs : c.sameLevel u.cpl) (hp : c.present = true) :
    throughGate csel g c kind u u = enterCode csel c g.gateOff 4 kind u := by
  have hne : ¬ (kind = .call ∧ (!c.conforming) = true ∧ c.dpl.toNat < u.cplNat) := by
    rintro ⟨-, h1, h2⟩
    rcases hs with hs | hs
    · simp [hs] at h1
    · rw [hs] at h2
      exact Nat.lt_irrefl _ h2
  rw [throughGate, M.bind_ok (check_ok _ _ (gateTarget_iff.1 h)), M.bind_ok (check_ok _ _ (sameLevel_ok kind hs)),
    M.bind_ok (check_ok _ _ hp), if_neg hne]

theorem throughGate_jmp_inner (h : c.gateTarget u.cpl) (hs : ¬ c.sameLevel u.cpl) :
    throughGate csel g c .jmp u u = .error (.exc ⟨13, some (csel &&& 0xFFFC)⟩ u) := by
  obtain ⟨hc, hd⟩ := not_or.1 hs
  have he : (FarKind.jmp != .jmp || c.conforming || c.dpl == u.cpl) = false := by simp [hc, hd]
  exact (M.bind_ok (check_ok _ _ (gateTarget_iff.1 h))).trans (M.bind_error (check_error _ _ he))

theorem throughGate_call_absent (h : c.gateTarget u.cpl) (hp : c.present = false) :
    throughGate csel g c .call u u = .error (.exc ⟨11, some (csel &&& 0xFFFC)⟩ u) :=
  (M.bind_ok (check_ok _ _ (gateTarget_iff.1 h))).trans ((M.bind_ok (check_ok _ _ (by rfl))).trans (M.bind_error (check_error _ _ hp)))

theorem throughGate_inner (h : c.gateTarget u.cpl) (hs : ¬ c.sameLevel u.cpl) (hp : c.present = true) :
    throughGate csel g c .call u u = innerCall g csel c g.gateOff u := by
  obtain ⟨hc, hd⟩ := not_or.1 hs
  have hlt : c.dpl.toNat < u.cplNat := Nat.lt_of_le_of_ne h.2 fun e => hd (BitVec.eq_of_toNat_eq e)
  have hall : FarKind.call = .call ∧ (!c.conforming) = true ∧ c.dpl.toNat < u.cplNat := ⟨rfl, by simp [hc], hlt⟩
  rw [throughGate, M.bind_ok (check_ok _ _ (gateTarget_iff.1 h)), M.bind_ok (check_ok _ _ (by rfl)), M.bind_ok (check_ok _ _ hp),
    if_pos hall]

end

/-! ## To an inner level (R509) -/

/-- Room on the stack of an inner level, as the statements ask for it. -/
def SegReg.innerRoom (ss : SegReg) (k : Nat) (start : Word) : Bool := roomFor ss true ss.ar.db 4 k start

section
variable {g c : Desc} {csel : HWord} {off sp : Word} {ss : SegReg} {acc : List Word} {u u3 : State}

theorem innerCall_room (hp : u.protMode = true) (hi : innerStack c.dpl u = .ok ((sp, ss, acc), u3))
    (hr : ss.innerRoom (4 + g.gateCount) (loadSp ss.ar.db u.regs.esp sp) = false) :
    innerCall g csel c off u = .error (.exc ⟨12, some 0⟩ u3) :=
  (M.bind_ok (M.get_apply u)).trans ((M.bind_ok hi).trans
    (M.bind_error (checkRoom_exc ((quiet_innerStack _ _ _ _ hi).matches.protMode.trans hp) hr)))

theorem innerCall_limit (hi : innerStack c.dpl u = .ok ((sp, ss, acc), u3))
    (hr : ss.innerRoom (4 + g.gateCount) (loadSp ss.ar.db u.regs.esp sp) = true) (hl : c.limit.toNat < off.toNat) :
    innerCall g csel c off u = .error (.exc ⟨13, some 0⟩ u3) :=
  (M.bind_ok (M.get_apply u)).trans ((M.bind_ok hi).trans ((M.bind_ok (checkRoom_ok hr)).trans (M.bind_error (limit_exc hl _ _))))

/-- CALL to an inner level, every access planned and every store made. -/
theorem innerCall_ok {u4 u5 u6 u7 u8 t1 t2 t3 : State} {oldSs oldCs esp1 esp2 esp3 : Word} {link ret : List (List Word × Word)}
    {params : List (List Word × List Word)} (hi : innerStack c.dpl u = .ok ((sp, ss, []), u3))
    (hr : ss.innerRoom (4 + g.gateCount) (loadSp ss.ar.db u.regs.esp sp) = true) (hl : off.toNat ≤ c.limit.toNat)
    (ha : c.d1.getLsbD 8 = true) (h4 : selWord u.segs.ss.sel u3 = .ok (oldSs, u4)) (h5 : selWord u.segs.cs.sel u4 = .ok (oldCs, u5))
    (h6 : planPushes ss ss.ar.db false (excSS 0) 4 (loadSp ss.ar.db u.regs.esp sp) [oldSs, u.regs.esp] u5 = .ok ((link, esp1), u6))
    (h7 : planParams u ss g.gateCount esp1 u6 = .ok ((params, esp2), u7))
    (h8 : planPushes ss ss.ar.db false (excSS 0) 4 esp2 [oldCs, u.eip] u7 = .ok ((ret, esp3), u8))
    (w1 : storeAll 4 link u8 = .ok ((), t1)) (w2 : copyAll params t1 = .ok ((), t2)) (w3 : storeAll 4 ret t2 = .ok ((), t3)) :
    innerCall g csel c off u =
      .ok ((), ((((t3.setSeg .ss ss).withEsp esp3).withCpl c.dpl).atCode (withRpl csel c.dpl) c off).flushQueue) :=
  (M.bind_ok (M.get_apply u)).trans ((M.bind_ok hi).trans ((M.bind_ok (checkRoom_ok hr)).trans ((M.bind_ok (limit_ok hl _ _)).trans
    ((M.bind_ok h4).trans ((M.bind_ok h5).trans ((M.bind_ok h6).trans ((M.bind_ok h7).trans ((M.bind_ok h8).trans
      ((M.bind_ok (planAccessed_ok ha u8)).trans ((M.bind_ok (writeAccessed_nil u8)).trans ((M.bind_ok w1).trans ((M.bind_ok w2).trans
        ((M.bind_ok w3).trans ((M.bind_ok (writeAccessed_nil t3)).trans rfl))))))))))))))

end

theorem AllStorable.left {s : State} {l r : List (List Word × Word)} (h : AllStorable s (l ++ r)) : AllStorable s l :=
  ⟨h.1, fun p hp => h.2 p (List.mem_append_left _ hp)⟩

theorem AllStorable.right {s : State} {l r : List (List Word × Word)} (h : AllStorable s (l ++ r)) : AllStorable s r :=
  ⟨h.1, fun p hp => h.2 p (List.mem_append_right _ hp)⟩

/-- Stores, copies and stores again, in their order (R509). -/
theorem linkedStores_ends {s u : State} {link ret : List (List Word × Word)} {params : List (List Word × List Word)} (q : Quiet s u)
    (r : AllStorable s (link ++ ret)) (rp : ∀ p ∈ params, AllRam s (p.1 ++ p.2)) :
    ∃ t1 t2 t3, storeAll 4 link u = .ok ((), t1) ∧ copyAll params t1 = .ok ((), t2) ∧ storeAll 4 ret t2 = .ok ((), t3) ∧
      Matches s t3 ∧ ∀ a, t3.byteAt a = storedAll 4 ret a (copiedIn params (fun b => storedAll 4 link b (u.byteAt b)) a) := by
  obtain ⟨t1, h1, m1, -, b1, ok1, p1⟩ := storeAll_ends (n := 4) q r.left q.matches rfl q.sys.params
  obtain ⟨t2, h2, m2, ok2, b2⟩ := copyAll_ends (fun p hp => (rp p hp).congr p1) ok1
  have m12 := m1.trans m2
  obtain ⟨t3, h3, m3, b3⟩ := storeAll_ok (n := 4) (stores := ret) (s := t2) fun p hp => (r.right.2 p hp).congr m12.sys.params
  refine ⟨t1, t2, t3, h1, h2, h3, m12.trans m3.matches, fun a => ?_⟩
  rw [b3 ok2 a, b2 a, funext b1]

/-- Settles O43. -/
theorem callGates : Obligations.CallGates := by
  intro s off sel jmp call u0 g u1 hp hf hn hg hsys both csel code visible
  have f := hf.pair
  have cq := composes_quiet
  have q1 := cq.trans f.quiet (quiet_fetchDesc _ _ _ _ hg)
  have m1 := q1.matches
  obtain ⟨hj0, hc0⟩ := f.prot hp
  have hj := hj0.step (farTarget_gate hn hg hsys)
  have hc := hc0.step (farTarget_gate hn hg hsys)
  have hvis : visible ↔ g.callable sel u1.cpl := by rw [m1.sys.cpl]; exact Iff.rfl
  have raises {m : FarKind → M Unit} {u w : State} {v : Byte} {x : Option HWord} (h9 : v ≠ 9)
      (hj : ComesTo jmp s (m .jmp >>= fun _ => pure Ending.plain) u) (hc : ComesTo call s (m .call >>= fun _ => pure Ending.plain) u)
      (e : ∀ kind, m kind u = .error (.exc ⟨v, x⟩ w)) : both fun i => Faults i s v x w :=
    ⟨hj.faults (M.bind_error (e _)) h9, hc.faults (M.bind_error (e _)) h9⟩
  refine ⟨fun hv => raises (by decide) hj hc fun _ => callGate_barred (hvis.not.1 hv),
    fun hv ha => raises (by decide) hj hc fun _ => callGate_absent (hvis.1 hv) ha,
    fun hv ha h0 => raises (by decide) hj hc fun _ => callGate_null (hvis.1 hv) ha h0,
    fun hv ha h0 hb => raises (by decide) hj hc fun _ => callGate_beyond m1 (hvis.1 hv) ha h0 hb,
    fun hv ha h0 c u2 hd => ?_⟩
  have q2 := cq.trans q1 (quiet_fetchDesc _ _ _ _ hd)
  have m2 := q2.matches
  have thr (kind : FarKind) : callGate sel g kind u1 = throughGate g.gateSel g c kind u2 u2 := by
    rw [callGate_through (hvis.1 hv) ha h0 hd]
    simp only [throughGate, State.cplNat, m1.sys.cpl, m2.sys.cpl]
  have hj2 := hj.step (then_plain (thr .jmp))
  have hc2 := hc.step (then_plain (thr .call))
  have htgt : (c.isCode = true ∧ c.dpl.toNat ≤ s.cpl.toNat) ↔ c.gateTarget u2.cpl := by rw [m2.sys.cpl]; exact Iff.rfl
  refine ⟨fun hw => raises (m := fun kind => throughGate csel g c kind u2) (by decide) hj2 hc2
    fun _ => throughGate_wrong (htgt.not.1 hw), fun ht => ?_⟩
  intro same
  have ht2 := htgt.1 ht
  have hsame : same ↔ c.sameLevel u2.cpl := by rw [m2.sys.cpl]; exact Iff.rfl
  refine ⟨fun hs hpr => raises (m := fun kind => throughGate csel g c kind u2) (by decide) hj2 hc2
      fun _ => throughGate_absent ht2 (hsame.1 hs) hpr,
    fun hs => ⟨hj2.faults (M.bind_error (throughGate_jmp_inner ht2 (hsame.not.1 hs))) (by decide),
      fun hpr => hc2.faults (M.bind_error (throughGate_call_absent ht2 hpr)) (by decide)⟩, fun hs hpr hacc => ?_,
    fun hs hpr hacc sp ss acc u3 hi => ?_⟩
  · have e (kind : FarKind) := throughGate_same (csel := g.gateSel) (g := g) (kind := kind) ht2 (hsame.1 hs) hpr
    obtain ⟨h1, h2, h3⟩ := enterCode_forms q2 hp (hj2.step (then_plain (e .jmp))) (hc2.step (then_plain (e .call)))
    refine ⟨h1, h2, fun hl => ⟨(h3 hl hacc).1, fun w u3 stores esp u hr hw hst r => ⟨selWord_low hw, ?_⟩⟩⟩
    exact (h3 hl hacc).2 w u3 stores esp u hr hw hst r
  · intro start room
    have q3 := cq.trans q2 (quiet_innerStack _ _ _ _ hi)
    have hc3 := hc2.step (then_plain (throughGate_inner ht2 (hsame.not.1 hs) hpr))
    have hstart : start = loadSp ss.ar.db u2.regs.esp sp := by
      rw [m2.regs, loadSp_eq]
    have hroom : room = ss.innerRoom (4 + g.gateCount) (loadSp ss.ar.db u2.regs.esp sp) := by
      rw [← hstart]
      rfl
    rw [hroom]
    refine ⟨fun hr => hc3.faults (M.bind_error (innerCall_room (m2.protMode.trans hp) hi hr)) (by decide),
      fun hr hl => hc3.faults (M.bind_error (innerCall_limit hi hr hl)) (by decide), ?_⟩
    intro hr hl hnil oldSs u4 oldCs u5 link esp1 u6 params esp2 u7 ret esp3 u h4 h5 h6 h7 h8 r rp
    subst hnil
    have q := cq.trans (cq.trans (cq.trans (cq.trans (cq.trans q3 (quiet_selWord _ _ _ _ h4)) (quiet_selWord _ _ _ _ h5))
      (quiet_planPushes _ _ _ _ _ _ _ _ _ _ h6)) (quiet_planParams _ _ _ _ _ _ _ h7)) (quiet_planPushes _ _ _ _ _ _ _ _ _ _ h8)
    obtain ⟨t1, t2, t3, w1, w2, w3, mt, hb⟩ := linkedStores_ends q r rp
    refine ⟨selWord_low h4, selWord_low h5, ?_⟩
    rw [hstart, ← m2.regs] at h6
    rw [← m2.eip] at h8
    rw [← m2.sys.segs] at h4 h5
    have ok := plain_ok (innerCall_ok (csel := g.gateSel) hi hr hl hacc h4 h5 h6 h7 h8 w1 w2 w3)
    exact ⟨_, hc3.next ok, ((((mt.setSeg .ss ss).withEsp esp3).withCpl c.dpl).atCode _ _ _).flushQueue.done rfl, q.mem, hb⟩

end Sys2Proof.Machine
end

section
/-!
PROOFS. The stack of an inner level, and RET far in Protected Mode (46_control_transfer.md R509, R515).
-/

namespace Sys2Proof.Machine

/-! ## Descriptors that a return names (R515, R578) -/

section
variable {sel : HWord} {d : Desc} {u u1 : State}

/-- A code segment at the level its selector asks for (R515, R578, R762). -/
def Desc.codeFor (d : Desc) (rpl : BitVec 2) : Prop :=
  d.isCode = true ∧ (if d.conforming then d.dpl.toNat ≤ rpl.toNat else d.dpl = rpl)

theorem returnCode_null (h : sel.toNat < 4) : returnCode sel u = .error (.exc ⟨13, some 0⟩ u) := M.bind_error (notNull_exc h _ _)

theorem returnCode_beyond {s : State} (m : Matches s u) (hn : 4 ≤ sel.toNat) (h : descAddress s.tables sel = none) :
    returnCode sel u = .error (.exc ⟨13, some (sel &&& 0xFFFC)⟩ u) :=
  (M.bind_ok (notNull_ok hn _ _)).trans (M.bind_error (needDesc_beyond m h))

theorem returnCode_desc (hn : 4 ≤ sel.toNat) (h : fetchDesc sel u = .ok (some d, u1)) : returnCode sel u =
    (check (d.isCode && (bif d.conforming then decide (d.dpl.toNat ≤ (selRpl sel).toNat) else d.dpl == selRpl sel)) (excGP sel) >>=
      fun _ => check d.present (excNP sel) >>= fun _ => pure d) u1 := by
  rw [← check_check]
  exact (M.bind_ok (notNull_ok hn _ _)).trans (M.bind_ok (needDesc_some h))

theorem returnCode_wrong (hn : 4 ≤ sel.toNat) (h : fetchDesc sel u = .ok (some d, u1)) (hg : ¬ d.codeFor (sel.extractLsb' 0 2)) :
    returnCode sel u = .error (.exc ⟨13, some (sel &&& 0xFFFC)⟩ u1) :=
  (returnCode_desc hn h).trans (M.bind_error (check_error _ _ (Bool.eq_false_iff.2 (codeLevel_iff.not.1 hg))))

theorem returnCode_absent (hn : 4 ≤ sel.toNat) (h : fetchDesc sel u = .ok (some d, u1)) (hg : d.codeFor (sel.extractLsb' 0 2))
    (hp : d.present = false) : returnCode sel u = .error (.exc ⟨11, some (sel &&& 0xFFFC)⟩ u1) :=
  (returnCode_desc hn h).trans ((M.bind_ok (check_ok _ _ (codeLevel_iff.1 hg))).trans (M.bind_error (check_error _ _ hp)))

theorem returnCode_ok (hn : 4 ≤ sel.toNat) (h : fetchDesc sel u = .ok (some d, u1)) (hg : d.codeFor (sel.extractLsb' 0 2))
    (hp : d.present = true) : returnCode sel u = .ok (d, u1) :=
  (returnCode_desc hn h).trans ((M.bind_ok (check_ok _ _ (codeLevel_iff.1 hg))).trans (M.bind_ok (check_ok _ _ hp)))

/-- A stack segment for a level (R515). -/
def Desc.stackFor (d : Desc) (sel : HWord) (rpl : BitVec 2) : Prop :=
  sel.extractLsb' 0 2 = rpl ∧ d.writableData = true ∧ d.dpl = rpl

theorem stackFor_iff {rpl : BitVec 2} :
    d.stackFor sel rpl ↔ (selRpl sel == rpl && (d.writableData && d.dpl == rpl)) = true := by
  rw [Bool.and_eq_true, Bool.and_eq_true, beq_iff_eq, beq_iff_eq]
  exact Iff.rfl

theorem returnStack_null {rpl : BitVec 2} (h : sel.toNat < 4) : returnStack sel rpl u = .error (.exc ⟨13, some 0⟩ u) :=
  M.bind_error (notNull_exc h _ _)

theorem returnStack_beyond {s : State} {rpl : BitVec 2} (m : Matches s u) (hn : 4 ≤ sel.toNat)
    (h : descAddress s.tables sel = none) : returnStack sel rpl u = .error (.exc ⟨13, some (sel &&& 0xFFFC)⟩ u) :=
  (M.bind_ok (notNull_ok hn _ _)).trans (M.bind_error (needDesc_beyond m h))

theorem returnStack_desc {rpl : BitVec 2} (hn : 4 ≤ sel.toNat) (h : fetchDesc sel u = .ok (some d, u1)) : returnStack sel rpl u =
    (check (selRpl sel == rpl && (d.writableData && d.dpl == rpl)) (excGP sel) >>= fun _ => check d.present (excSS sel) >>= fun _ =>
      pure d) u1 := by
  rw [← check_check, ← check_check]
  exact (M.bind_ok (notNull_ok hn _ _)).trans (M.bind_ok (needDesc_some h))

theorem returnStack_wrong {rpl : BitVec 2} (hn : 4 ≤ sel.toNat) (h : fetchDesc sel u = .ok (some d, u1))
    (hg : ¬ d.stackFor sel rpl) : returnStack sel rpl u = .error (.exc ⟨13, some (sel &&& 0xFFFC)⟩ u1) :=
  (returnStack_desc hn h).trans (M.bind_error (check_error _ _ (Bool.eq_false_iff.2 (stackFor_iff.not.1 hg))))

theorem returnStack_absent {rpl : BitVec 2} (hn : 4 ≤ sel.toNat) (h : fetchDesc sel u = .ok (some d, u1)) (hg : d.stackFor sel rpl)
    (hp : d.present = false) : returnStack sel rpl u = .error (.exc ⟨12, some (sel &&& 0xFFFC)⟩ u1) :=
  (returnStack_desc hn h).trans ((M.bind_ok (check_ok _ _ (stackFor_iff.1 hg))).trans (M.bind_error (check_error _ _ hp)))

theorem returnStack_ok {rpl : BitVec 2} (hn : 4 ≤ sel.toNat) (h : fetchDesc sel u = .ok (some d, u1)) (hg : d.stackFor sel rpl)
    (hp : d.present = true) : returnStack sel rpl u = .ok (d, u1) :=
  (returnStack_desc hn h).trans ((M.bind_ok (check_ok _ _ (stackFor_iff.1 hg))).trans (M.bind_ok (check_ok _ _ hp)))

end

/-! ## The stack of an inner level (R509) -/

/-- The checks of the stack selector from the task state segment (R509). -/
def innerStackOf (n : BitVec 2) (sp : List Byte) (sel : HWord) : M (Word × SegReg × List Word) := do
  check (!selNull sel) (excTS sel)
  let d ← needDesc sel (excTS sel)
  check (selRpl sel == n && d.dpl == n && d.writableData) (excTS sel)
  check d.present (excSS sel)
  let acc ← planAccessed d
  pure (wordOf sp, d.toSeg sel, acc)

theorem innerStack_read {n : BitVec 2} {s u1 u2 : State} {sp ss : List Byte} (hl : 9 + 8 * n.toNat ≤ s.tables.tr.limit.toNat)
    (h1 : sysRead (s.tables.tr.base + BitVec.ofNat 32 (4 + 8 * n.toNat)) 4 s = .ok (sp, u1))
    (h2 : sysRead (s.tables.tr.base + BitVec.ofNat 32 (8 + 8 * n.toNat)) 2 u1 = .ok (ss, u2)) :
    innerStack n s = innerStackOf n sp (hwordOf ss) u2 :=
  (M.bind_ok (look_apply _ s)).trans ((M.bind_ok (limit_ok (by omega) _ _)).trans ((M.bind_ok h1).trans (M.bind_ok h2)))

/-- A stack segment for an inner level (R509). -/
theorem innerStackOf_desc {n : BitVec 2} {sp : List Byte} {sel : HWord} {d : Desc} {u u1 : State} (hn : 4 ≤ sel.toNat)
    (h : fetchDesc sel u = .ok (some d, u1)) : innerStackOf n sp sel u =
      (check (selRpl sel == n && d.dpl == n && d.writableData) (excTS sel) >>= fun _ => check d.present (excSS sel) >>= fun _ =>
        planAccessed d >>= fun acc => pure (wordOf sp, d.toSeg sel, acc)) u1 :=
  (M.bind_ok (notNull_ok hn _ _)).trans (M.bind_ok (needDesc_some h))

theorem innerStack_cases (s : State) (n : BitVec 2) :
    let tr := s.tables.tr
    (tr.limit.toNat < 9 + 8 * n.toNat → innerStack n s = .error (.exc ⟨10, some (tr.sel &&& 0xFFFC)⟩ s)) ∧
    (9 + 8 * n.toNat ≤ tr.limit.toNat → ∀ (sp : List Byte) u1 (lo hi : Byte) u2,
      sysRead (tr.base + BitVec.ofNat 32 (4 + 8 * n.toNat)) 4 s = .ok (sp, u1) →
      sysRead (tr.base + BitVec.ofNat 32 (8 + 8 * n.toNat)) 2 u1 = .ok ([lo, hi], u2) →
      let sel : HWord := hi ++ lo
      let code : HWord := sel &&& 0xFFFC
      (sel.toNat < 4 → innerStack n s = .error (.exc ⟨10, some 0⟩ u2)) ∧
      (4 ≤ sel.toNat → descAddress s.tables sel = none → innerStack n s = .error (.exc ⟨10, some code⟩ u2)) ∧
      (4 ≤ sel.toNat → ∀ d u, fetchDesc sel u2 = .ok (some d, u) →
        let good := sel.extractLsb' 0 2 = n ∧ d.dpl = n ∧ d.writableData = true
        (¬ good → innerStack n s = .error (.exc ⟨10, some code⟩ u)) ∧
        (good → d.present = false → innerStack n s = .error (.exc ⟨12, some code⟩ u)) ∧
        (good → d.present = true → d.d1.getLsbD 8 = true → innerStack n s = .ok ((wordOf sp, d.toSeg sel, []), u)))) := by
  intro tr
  refine ⟨fun h => (M.bind_ok (look_apply _ s)).trans (M.bind_error (limit_exc (show tr.limit.toNat < _ by omega) _ _)), fun hl sp u1 lo hi u2 h1 h2 => ?_⟩
  intro sel code
  have hread : innerStack n s = innerStackOf n sp sel u2 := by
    have h := innerStack_read hl h1 h2
    rwa [hwordOf_two] at h
  have m : Matches s u2 := (composes_quiet.trans (quiet_sysRead _ _ _ _ _ h1) (quiet_sysRead _ _ _ _ _ h2)).matches
  rw [hread]
  refine ⟨fun h0 => ?_, fun hn hb => (M.bind_ok (notNull_ok hn _ _)).trans (M.bind_error (needDesc_beyond m hb)), fun hn d u h => ?_⟩
  · have e : excTS sel = ⟨10, some 0⟩ := by rw [excTS, selCode_null h0]
    exact (M.bind_error (notNull_exc h0 _ _)).trans (by rw [e])
  · intro good
    have hgood : good ↔ (selRpl sel == n && d.dpl == n && d.writableData) = true := by
      rw [Bool.and_eq_true, Bool.and_eq_true, beq_iff_eq, beq_iff_eq, and_assoc]
      exact Iff.rfl
    rw [innerStackOf_desc hn h]
    exact ⟨fun hg => M.bind_error (check_error _ _ (Bool.eq_false_iff.2 (hgood.not.1 hg))),
      fun hg hp => (M.bind_ok (check_ok _ _ (hgood.1 hg))).trans (M.bind_error (check_error _ _ hp)),
      fun hg hp ha => (M.bind_ok (check_ok _ _ (hgood.1 hg))).trans ((M.bind_ok (check_ok _ _ hp)).trans
        (M.bind_ok (planAccessed_ok ha u)))⟩

/-! ## Return to an outer level (R515) -/

/-- SS:eSP, the level and the data segment registers as a return to an outer level leaves them (R515, R578). -/
def State.toOuter (t : State) (rpl : BitVec 2) (ss : SegReg) (esp : Word) : State :=
  (((t.withCpl rpl).withSegs ((t.segs.forOuter t.tables rpl).set .ss ss)).withRegs { t.regs with esp := esp }).settled

theorem Matches.toOuter {e w : State} (m : Matches e w) (rpl : BitVec 2) (ss : SegReg) (esp : Word) :
    Matches (e.toOuter rpl ss esp) (w.toOuter rpl ss esp) := by
  rw [State.toOuter, State.toOuter, m.sys.segs, m.sys.tables, m.regs]
  exact (((m.withCpl _).withSegs _).withRegs _).settled

/-- The same as the statements write it. -/
theorem atCode_toOuter (s : State) (sel : HWord) (c : Desc) (ip esp : Word) (rpl : BitVec 2) (ss : SegReg) :
    (s.atCode sel c ip).toOuter rpl ss esp =
      ((((s.withCpl rpl).withSegs (s.segs.afterReturn s.tables rpl (c.toSeg sel) ss)).withEip ip).withEsp esp).settled := by
  rw [← Segs.forOuter_eq]
  rfl

/-! ## RET far -/

/-- The rest of a RET far to the same level, its code segment checked (R515). -/
def retfSame (extra : Word) (sel : HWord) (n : Nat) (c : Desc) : M Unit := do
  let ip ← stackRead 0 n
  check (decide (ip.toNat ≤ c.limit.toNat)) (excGP 0)
  setAccessed c
  releaseStack (BitVec.ofNat 32 (2 * n) + extra)
  farJump (c.toSeg sel) ip

/-- The rest of a RET far to an outer level, its code segment checked (R515). -/
def retfOuter (s : State) (extra : Word) (sel : HWord) (n : Nat) (c : Desc) : M Unit := do
  let newSs ← stackRead (3 * n + extra.toNat) n
  let sd ← returnStack (newSs.setWidth 16) (selRpl sel)
  let ip ← stackRead 0 n
  let newEsp ← stackRead (2 * n + extra.toNat) n
  check (decide (ip.toNat ≤ c.limit.toNat)) (excGP 0)
  let csAcc ← planAccessed c
  let ssAcc ← planAccessed sd
  writeAccessed csAcc
  writeAccessed ssAcc
  farJump (c.toSeg sel) ip
  update fun t => t.toOuter (selRpl sel) (sd.toSeg (newSs.setWidth 16))
    (loadOuterStack (moveSp s.stack32 s.regs.esp (BitVec.ofNat 32 (2 * n) + extra)) newEsp extra s.op32 (sd.toSeg (newSs.setWidth 16)))

section
variable {s u1 : State} {csWord extra : Word}

theorem protRetf_inner (h : stackRead s.opWidth.bytes s.opWidth.bytes s = .ok (csWord, u1))
    (hr : (selRpl (csWord.setWidth 16)).toNat < s.cpl.toNat) :
    protRetf extra s = .error (.exc ⟨13, some (csWord.setWidth 16 &&& 0xFFFC)⟩ u1) :=
  (M.bind_ok (M.get_apply s)).trans ((M.bind_ok h).trans (M.bind_error (limit_exc hr _ _)))

theorem protRetf_same (h : stackRead s.opWidth.bytes s.opWidth.bytes s = .ok (csWord, u1)) (hr : selRpl (csWord.setWidth 16) = s.cpl) :
    protRetf extra s =
      (returnCode (csWord.setWidth 16) >>= retfSame extra (csWord.setWidth 16) s.opWidth.bytes) u1 := by
  have hle : s.cplNat ≤ (selRpl (csWord.setWidth 16)).toNat := by rw [hr]; exact Nat.le_refl _
  rw [protRetf, M.bind_ok (M.get_apply s), M.bind_ok h, M.bind_ok (limit_ok hle _ _), if_pos hr]
  rfl

theorem protRetf_outer (h : stackRead s.opWidth.bytes s.opWidth.bytes s = .ok (csWord, u1))
    (hr : s.cpl.toNat < (selRpl (csWord.setWidth 16)).toNat) : protRetf extra s = outerRetf (csWord.setWidth 16) extra u1 := by
  have hne : selRpl (csWord.setWidth 16) ≠ s.cpl := fun e => by rw [e] at hr; exact Nat.lt_irrefl _ hr
  have hle : s.cplNat ≤ (selRpl (csWord.setWidth 16)).toNat := Nat.le_of_lt hr
  rw [protRetf, M.bind_ok (M.get_apply s), M.bind_ok h, M.bind_ok (limit_ok hle _ _), if_neg hne]

theorem outerRetf_block {sel : HWord} {e : Stop} (m : Matches s u1)
    (hb : stackBlock (4 * s.opWidth.bytes + extra.toNat) u1 = .error e) : outerRetf sel extra u1 = .error e := by
  rw [← m.opWidth] at hb
  exact (M.bind_ok (M.get_apply u1)).trans (M.bind_error hb)

theorem outerRetf_checked {sel : HWord} (m : Matches s u1)
    (hb : stackBlock (4 * s.opWidth.bytes + extra.toNat) u1 = .ok ((), u1)) :
    outerRetf sel extra u1 = (returnCode sel >>= retfOuter s extra sel s.opWidth.bytes) u1 := by
  rw [← m.opWidth] at hb
  rw [outerRetf, M.bind_ok (M.get_apply u1), M.bind_ok hb]
  have hs : retfOuter s extra sel u1.opWidth.bytes = retfOuter u1 extra sel u1.opWidth.bytes := by
    funext c
    simp only [retfOuter, m.stack32, m.regs, m.op32]
  rw [← m.opWidth, hs]
  rfl

end

section
variable {s u2 u : State} {extra ip : Word} {sel : HWord} {n : Nat} {c : Desc}

theorem retfSame_limit (h : stackRead 0 n u2 = .ok (ip, u)) (hl : c.limit.toNat < ip.toNat) :
    retfSame extra sel n c u2 = .error (.exc ⟨13, some 0⟩ u) := (M.bind_ok h).trans (M.bind_error (limit_exc hl _ _))

theorem retfSame_ok (h : stackRead 0 n u2 = .ok (ip, u)) (hl : ip.toNat ≤ c.limit.toNat) (ha : c.d1.getLsbD 8 = true) :
    retfSame extra sel n c u2 = .ok ((), (((u.withEsp (moveSp u.stack32 u.regs.esp (BitVec.ofNat 32 (2 * n) + extra))).atCode sel c
      ip)).flushQueue) :=
  (M.bind_ok h).trans ((M.bind_ok (limit_ok hl _ _)).trans ((M.bind_ok (setAccessed_ok ha u)).trans rfl))

variable {ssWord : Word} {u3 : State}

theorem retfOuter_stack {e : Stop} (h : stackRead (3 * n + extra.toNat) n u2 = .ok (ssWord, u3))
    (he : returnStack (ssWord.setWidth 16) (selRpl sel) u3 = .error e) : retfOuter s extra sel n c u2 = .error e :=
  (M.bind_ok h).trans (M.bind_error he)

variable {sd : Desc} {u4 u5 : State} {esp : Word}

theorem retfOuter_limit (h : stackRead (3 * n + extra.toNat) n u2 = .ok (ssWord, u3))
    (hs : returnStack (ssWord.setWidth 16) (selRpl sel) u3 = .ok (sd, u4)) (h1 : stackRead 0 n u4 = .ok (ip, u5))
    (h2 : stackRead (2 * n + extra.toNat) n u5 = .ok (esp, u)) (hl : c.limit.toNat < ip.toNat) :
    retfOuter s extra sel n c u2 = .error (.exc ⟨13, some 0⟩ u) :=
  (M.bind_ok h).trans ((M.bind_ok hs).trans ((M.bind_ok h1).trans ((M.bind_ok h2).trans (M.bind_error (limit_exc hl _ _)))))

theorem retfOuter_ok (h : stackRead (3 * n + extra.toNat) n u2 = .ok (ssWord, u3))
    (hs : returnStack (ssWord.setWidth 16) (selRpl sel) u3 = .ok (sd, u4)) (h1 : stackRead 0 n u4 = .ok (ip, u5))
    (h2 : stackRead (2 * n + extra.toNat) n u5 = .ok (esp, u)) (hl : ip.toNat ≤ c.limit.toNat) (ha : c.d1.getLsbD 8 = true)
    (hb : sd.d1.getLsbD 8 = true) : retfOuter s extra sel n c u2 = .ok ((), ((u.atCode sel c ip).flushQueue).toOuter (selRpl sel)
      (sd.toSeg (ssWord.setWidth 16)) (moveSp (sd.d1.getLsbD 22)
        (newEsp s.op32 (moveSp s.stack32 s.regs.esp (BitVec.ofNat 32 (2 * n) + extra)) esp) extra)) := by
  rw [← loadOuterStack_eq (sel := ssWord.setWidth 16)]
  exact (M.bind_ok h).trans ((M.bind_ok hs).trans ((M.bind_ok h1).trans ((M.bind_ok h2).trans ((M.bind_ok (limit_ok hl _ _)).trans
    ((M.bind_ok (planAccessed_ok ha u)).trans ((M.bind_ok (planAccessed_ok hb u)).trans ((M.bind_ok (writeAccessed_nil u)).trans
      ((M.bind_ok (writeAccessed_nil u)).trans rfl))))))))

end

/-- The way a RET far takes once the room of its frame is seen to (R515). -/
theorem retf_comesTo {i : Instr} {s : State} {extra : Word} (hi : (i = .retFar ∧ extra = 0) ∨
    ∃ imm : HWord, i = .retFarImm imm ∧ extra = imm.setWidth 32) (hp : s.protMode = true) :
    ComesTo i s (protRetf extra >>= fun _ => pure Ending.plain) s := by
  have h := retFar_comesTo hi s
  rwa [hp, if_pos rfl] at h

/-- Settles O44. -/
theorem retFarProtected : Obligations.RetFarProtected := by
  refine ⟨innerStack_cases, ?_⟩
  intro s csWord u1 i extra hp hi n x h sel rpl code good popped
  have cq := composes_quiet
  have q1 := quiet_stackRead _ _ _ _ _ h
  have m1 := q1.matches
  have hc := retf_comesTo hi hp
  refine ⟨fun hr => hc.faults (M.bind_error (protRetf_inner h hr)) (by decide), fun hr => ?_, fun hr hblock => ?_⟩
  · have he (e : Stop) (he : stackBlock (4 * n + x) u1 = .error e) : protRetf extra s = .error e :=
      (protRetf_outer h hr).trans (outerRetf_block m1 he)
    exact ⟨fun u hb => hc.faults (M.bind_error (he _ hb)) (by decide),
      fun hs => hc.faults (M.bind_error (he _ (stackBlock_short m1 hs))) (by decide)⟩
  · have outer (hlt : s.cpl.toNat < rpl.toNat) (hb : stackBlock (4 * n + x) u1 = .ok ((), u1)) : protRetf extra s =
        (returnCode sel >>= retfOuter s extra sel n) u1 := (protRetf_outer h hlt).trans (outerRetf_checked m1 hb)
    have blocked (hlt : s.cpl.toNat < rpl.toNat) : stackBlock (4 * n + x) u1 = .ok ((), u1) :=
      hblock.resolve_left fun e => by rw [e] at hlt; exact Nat.lt_irrefl _ hlt
    have raised (e : Stop) (he : returnCode sel u1 = .error e) : protRetf extra s = .error e := by
      by_cases hs : rpl = s.cpl
      · exact (protRetf_same h hs).trans (M.bind_error he)
      · have hlt : s.cpl.toNat < rpl.toNat := Nat.lt_of_le_of_ne hr fun e => hs (BitVec.eq_of_toNat_eq e.symm)
        exact (outer hlt (blocked hlt)).trans (M.bind_error he)
    refine ⟨fun h0 => hc.faults (M.bind_error (raised _ (returnCode_null h0))) (by decide),
      fun hn hb => hc.faults (M.bind_error (raised _ (returnCode_beyond m1 hn hb))) (by decide), fun hn d u2 hd => ?_⟩
    have q2 := cq.trans q1 (quiet_fetchDesc _ _ _ _ hd)
    refine ⟨fun hg => hc.faults (M.bind_error (raised _ (returnCode_wrong hn hd hg))) (by decide),
      fun hg ha => hc.faults (M.bind_error (raised _ (returnCode_absent hn hd hg ha))) (by decide),
      fun hg ha hs ip u hip => ?_, fun hg ha hlt ssWord u3 hss => ?_⟩
    · have q := cq.trans q2 (quiet_stackRead _ _ _ _ _ hip)
      have hb := (protRetf_same (extra := extra) h hs).trans (M.bind_ok (returnCode_ok hn hd hg ha))
      refine ⟨fun hl => hc.faults (M.bind_error (hb.trans (retfSame_limit hip hl))) (by decide), fun hl hacc => ?_⟩
      have ok := hb.trans (retfSame_ok hip hl hacc)
      rw [q.matches.stack32, q.regs] at ok
      exact hc.completes_quiet (plain_ok ok) q.mem rfl ((q.matches.withEsp _).atCode _ _ _).flushQueue rfl
    · intro ssel scode
      have hb := (outer hlt (blocked hlt)).trans (M.bind_ok (returnCode_ok hn hd hg ha))
      have q3 := cq.trans q2 (quiet_stackRead _ _ _ _ _ hss)
      have m3 := q3.matches
      have stack (e : Stop) (he : returnStack ssel rpl u3 = .error e) : protRetf extra s = .error e :=
        hb.trans (retfOuter_stack hss he)
      refine ⟨fun h0 => hc.faults (M.bind_error (stack _ (returnStack_null h0))) (by decide),
        fun hn hb => hc.faults (M.bind_error (stack _ (returnStack_beyond m3 hn hb))) (by decide), fun hn sd u4 hsd => ?_⟩
      refine ⟨fun hf => hc.faults (M.bind_error (stack _ (returnStack_wrong hn hsd hf))) (by decide),
        fun hf ha => hc.faults (M.bind_error (stack _ (returnStack_absent hn hsd hf ha))) (by decide),
        fun hf ha ip u5 esp u hip hesp => ?_⟩
      have q := cq.trans (cq.trans (cq.trans q3 (quiet_fetchDesc _ _ _ _ hsd)) (quiet_stackRead _ _ _ _ _ hip))
        (quiet_stackRead _ _ _ _ _ hesp)
      have hst := returnStack_ok hn hsd hf ha
      refine ⟨fun hl => hc.faults (M.bind_error (hb.trans (retfOuter_limit hss hst hip hesp hl))) (by decide), fun hl hacc hacc' => ?_⟩
      have ok := hb.trans (retfOuter_ok (s := s) hss hst hip hesp hl hacc hacc')
      rw [← atCode_toOuter]
      exact hc.completes_quiet (plain_ok ok) q.mem rfl ((q.matches.atCode _ _ _).flushQueue.toOuter _ _ _) rfl

end Sys2Proof.Machine
end

section
/-!
PROOFS. IRET (47_interrupt.md R578).
-/

namespace Sys2Proof.Machine

/-! ## The way IRET takes -/

/-- NMI is no longer held off (R727; log entry 48). -/
def State.nmiFreed (s : State) : State := s.withPins { s.pins with nmiBlocked := false }

/-- IRET outside Protected Mode. -/
theorem iret_real {s : State} (h : s.realMode = true ∨ (s.v86Mode = true ∧ s.flags.iopl = 3)) :
    ComesTo .iret s (realIret >>= fun _ => pure Ending.loadedRf) s.nmiFreed := by
  refine (ComesTo.of_exec (m := returnInterrupt) rfl).step ?_
  refine (M.bind_ok (M.get_apply s)).trans ((M.bind_ok (update_apply _ s)).trans ?_)
  by_cases hr : s.realMode = true
  · rw [if_pos hr]
    rfl
  · obtain ⟨hv, hi⟩ := h.resolve_left hr
    rw [if_neg hr, if_pos hv, beq_iff_eq.2 hi]
    rfl

theorem not_real_of_prot {s : State} (h : s.protMode = true) : s.realMode = false ∧ s.v86Mode = false := by
  obtain ⟨h1, h2⟩ := Bool.and_eq_true_iff.1 h
  rw [State.realMode, State.v86Mode, h1]
  exact ⟨rfl, by simpa using h2⟩

/-- IRET in Protected Mode: a return, or with NT set a switch of tasks. -/
theorem iret_prot {s : State} (h : s.protMode = true) :
    ComesTo .iret s ((if s.flags.nt then taskReturn else protIret) >>= fun _ => pure Ending.loadedRf) s.nmiFreed := by
  obtain ⟨hr, hv⟩ := not_real_of_prot h
  refine (ComesTo.of_exec (m := returnInterrupt) rfl).step ?_
  refine (M.bind_ok (M.get_apply s)).trans ((M.bind_ok (update_apply _ s)).trans ?_)
  rw [hr, hv, if_neg Bool.false_ne_true, if_neg Bool.false_ne_true]
  cases s.flags.nt <;> rfl

theorem iret_return {s : State} (h : s.protMode = true) (hn : s.flags.nt = false) :
    ComesTo .iret s (protIret >>= fun _ => pure Ending.loadedRf) s.nmiFreed := by
  have hc := iret_prot h
  rwa [hn, if_neg Bool.false_ne_true] at hc

/-- A frame that the limit of SS cuts off raises #SS(0) in every way. -/
theorem realIret_short {s : State} (h : s.stackFallsShort (3 * s.opWidth.bytes)) :
    realIret s = .error (.exc ⟨12, some 0⟩ s) :=
  (M.bind_ok (M.get_apply s)).trans (M.bind_error (stackBlock_short (.refl s) h))

theorem protIret_short {s : State} (h : s.stackFallsShort (3 * s.opWidth.bytes)) :
    protIret s = .error (.exc ⟨12, some 0⟩ s) :=
  (M.bind_ok (M.get_apply s)).trans (M.bind_error (stackBlock_short (.refl s) h))

theorem SameMemory.of_nmiFreed {s u : State} (h : SameMemory s.nmiFreed u) : SameMemory s u := ⟨h.unpaged, h.paged⟩

/-- The ending of IRET. -/
theorem ComesTo.completes_iret {i : Instr} {s e u u1 w : State} {m : M Unit}
    (h : ComesTo i s (m >>= fun _ => pure Ending.loadedRf) u) (hm : m u = .ok ((), w)) (q : SameMemory s.nmiFreed u1)
    (hw : w.mem = u1.mem) (me : Matches e w) (hp : e.pend.bs = s.pend.bs) :
    Completes i s fun t => Ends s (e.withHeld none) t ∧ SameMemory s t :=
  ⟨_, h.next ((M.bind_ok hm).trans rfl), me.ends_kept Ending.loadedRf rfl rfl hp, q.of_nmiFreed.congr hw⟩

/-! ## The flags (R578) -/

/-- EFLAGS as a return to other code than Virtual 8086 Mode loads it. -/
def State.returnedFlags (s : State) (fl : Word) : Flags := { Flags.ofWord fl with
  intf := if s.cpl.toNat ≤ s.flags.iopl.toNat then (Flags.ofWord fl).intf else s.flags.intf
  iopl := if s.cpl = 0 then (Flags.ofWord fl).iopl else s.flags.iopl
  rf := if s.op32 then (Flags.ofWord fl).rf else s.flags.rf
  vm := s.flags.vm }

theorem load_eq (s : State) (fl : Word) :
    s.flags.load fl (decide (s.cpl.toNat ≤ s.flags.iopl.toNat)) (s.cpl == 0) s.op32 = s.returnedFlags fl := by
  have h : (s.cpl == 0) = decide (s.cpl = 0) := rfl
  simp only [Flags.load, h, Bool.cond_eq_ite, decide_eq_true_eq, State.returnedFlags]

theorem loadFlags_matches {s e w : State} (m : Matches e w) (hf : e.flags = s.flags) (fl : Word) :
    ∃ w', loadFlags fl s.cpl s.op32 w = .ok ((), w') ∧ Matches (e.withFlags (s.returnedFlags fl)) w' ∧ w'.mem = w.mem := by
  refine ⟨_, rfl, ?_, rfl⟩
  have h := m.mapFlags fun f => f.load fl (decide (s.cpl.toNat ≤ f.iopl.toNat)) (s.cpl == 0) s.op32
  have he : (e.mapFlags fun f => f.load fl (decide (s.cpl.toNat ≤ f.iopl.toNat)) (s.cpl == 0) s.op32) =
      e.withFlags (s.returnedFlags fl) := by
    rw [← load_eq, ← hf]
    rfl
  rwa [he] at h

/-! ## The frame -/

/-- The three slots at the top of the stack that every IRET reads first (R578). -/
structure IretFrame (s : State) (ip cs fl : Word) (u : State) : Prop where
  block : stackBlock (3 * s.opWidth.bytes) s = .ok ((), s)
  quiet : Quiet s u
  reads : ∀ {α : Type} (f : Word → Word → Word → M α), (stackRead 0 s.opWidth.bytes >>= fun a =>
    stackRead s.opWidth.bytes s.opWidth.bytes >>= fun b => stackRead (2 * s.opWidth.bytes) s.opWidth.bytes >>= fun c => f a b c) s =
      f ip cs fl u

theorem iretFrame {s u1 u2 u : State} {ip cs fl : Word} (hb : stackBlock (3 * s.opWidth.bytes) s = .ok ((), s))
    (h1 : stackRead 0 s.opWidth.bytes s = .ok (ip, u1)) (h2 : stackRead s.opWidth.bytes s.opWidth.bytes u1 = .ok (cs, u2))
    (h3 : stackRead (2 * s.opWidth.bytes) s.opWidth.bytes u2 = .ok (fl, u)) : IretFrame s ip cs fl u :=
  ⟨hb, composes_quiet.trans (composes_quiet.trans (quiet_stackRead _ _ _ _ _ h1) (quiet_stackRead _ _ _ _ _ h2))
    (quiet_stackRead _ _ _ _ _ h3), fun _ => (M.bind_ok h1).trans ((M.bind_ok h2).trans (M.bind_ok h3))⟩

/-- EIP, CS and flags of a return that stays on its stack (R578). -/
def State.returned (s : State) (g : SegReg) (ip fl : Word) : State :=
  (((s.withEsp (moveSp s.stack32 s.regs.esp (BitVec.ofNat 32 (3 * s.opWidth.bytes)))).setSeg .cs g).withEip ip).withFlags
    (s.returnedFlags fl)

/-- What follows the checks of a return that stays on its stack (R578). -/
theorem sameReturn_ok {s u : State} (q : Quiet s u) (g : SegReg) (ip fl : Word) :
    ∃ w, (releaseStack (BitVec.ofNat 32 (3 * s.opWidth.bytes)) >>= fun _ => farJump g ip >>= fun _ => loadFlags fl s.cpl s.op32) u =
      .ok ((), w) ∧ Matches (s.returned g ip fl) w ∧ w.mem = u.mem := by
  have m := ((q.matches.release (3 * s.opWidth.bytes)).setSeg .cs g).withEip ip |>.flushQueue
  obtain ⟨w, h1, h2, h3⟩ := loadFlags_matches (s := s) m rfl fl
  exact ⟨w, (M.bind_ok (releaseStack_apply _ _)).trans ((M.bind_ok (update_apply _ _)).trans h1), h2, h3⟩

theorem realIret_ok {s u : State} {ip cs fl : Word} (f : IretFrame s ip cs fl u) (hl : ip.toNat ≤ 0xFFFF) :
    ∃ w, realIret s = .ok ((), w) ∧ Matches (s.returned (s.realSeg .cs (cs.setWidth 16)) ip fl) w ∧ w.mem = u.mem := by
  rw [← loadedReal_eq]
  obtain ⟨w, h1, h2, h3⟩ := sameReturn_ok f.quiet (s.loadedReal .cs (cs.setWidth 16)) ip fl
  exact ⟨w, (M.bind_ok (M.get_apply s)).trans ((M.bind_ok f.block).trans ((f.reads _).trans ((M.bind_ok (limit_ok hl _ _)).trans h1))),
    h2, h3⟩

/-- The image asks for Virtual 8086 Mode, and may (R578). -/
def State.asksV86 (s : State) (fl : Word) : Prop := s.op32 = true ∧ (Flags.ofWord fl).vm = true ∧ s.cpl = 0

theorem asksV86_iff {s : State} {fl : Word} : s.asksV86 fl ↔ (s.op32 && (Flags.ofWord fl).vm && s.cpl == 0) = true := by
  rw [Bool.and_eq_true, Bool.and_eq_true, beq_iff_eq, and_assoc]
  exact Iff.rfl

theorem protIret_v86 {s u : State} {ip cs fl : Word} (f : IretFrame s ip cs fl u) (hv : s.asksV86 fl) :
    protIret s = returnToV86 ip fl (cs.setWidth 16) u := by
  refine (M.bind_ok (M.get_apply s)).trans ((M.bind_ok f.block).trans ((f.reads _).trans ?_))
  rw [if_pos (asksV86_iff.1 hv)]

/-- What follows the check of the return's code segment, by its level (R578). -/
def iretTo (s : State) (ip fl : Word) (cs : HWord) (c : Desc) : M Unit :=
  if selRpl cs = s.cpl then do
    check (decide (ip.toNat ≤ c.limit.toNat)) (excGP 0)
    setAccessed c
    releaseStack (BitVec.ofNat 32 (3 * s.opWidth.bytes))
    farJump (c.toSeg cs) ip
    loadFlags fl s.cpl s.op32
  else outerIret ip fl cs c

theorem protIret_code {s u u1 : State} {ip cs fl : Word} {d : Desc} (f : IretFrame s ip cs fl u) (hv : ¬ s.asksV86 fl)
    (hr : s.cpl.toNat ≤ (selRpl (cs.setWidth 16)).toNat) (hn : 4 ≤ (cs.setWidth 16 : HWord).toNat)
    (hd : fetchDesc (cs.setWidth 16) u = .ok (some d, u1)) (hg : d.codeFor (selRpl (cs.setWidth 16))) (hp : d.present = true) :
    protIret s = iretTo s ip fl (cs.setWidth 16) d u1 := by
  have hle : s.cplNat ≤ (selRpl (cs.setWidth 16)).toNat := hr
  refine (M.bind_ok (M.get_apply s)).trans ((M.bind_ok f.block).trans ((f.reads _).trans ?_))
  rw [if_neg (asksV86_iff.not.1 hv), M.bind_ok (notNull_ok hn _ _), M.bind_ok (limit_ok hle _ _), M.bind_ok (returnCode_ok hn hd hg hp)]
  rfl

/-- Settles O47. -/
theorem interruptReturn : Obligations.InterruptReturn := by
  refine ⟨fun s h hs => ?_, ?_⟩
  · have freed (hf : Faults .iret s 12 (some 0) s.nmiFreed) : Faults .iret s 12 (some 0) s := hf
    rcases or_assoc.2 h with hr | ⟨hp, hn⟩
    · exact freed ((iret_real hr).faults (M.bind_error (realIret_short hs)) (by decide))
    · exact freed ((iret_return hp hn).faults (M.bind_error (protIret_short hs)) (by decide))
  · intro s ip cs fl u1 u2 u n s0 hb h1 h2 h3
    have fr := iretFrame hb h1 h2 h3
    intro w f sel back
    refine ⟨fun hr hl => ?_, fun hp hv hn hrpl d u3 hd hc hlev hpr ha hl => ?_⟩
    · obtain ⟨t, ht, m, hm⟩ := realIret_ok fr hl
      exact (iret_real hr).completes_iret ht fr.quiet.mem hm m rfl
    · have hg : d.codeFor (selRpl (cs.setWidth 16)) := by
        rw [Desc.codeFor, show selRpl (cs.setWidth 16) = s.cpl from hrpl]
        exact ⟨hc, hlev⟩
      have q := composes_quiet.trans fr.quiet (quiet_fetchDesc _ _ _ _ hd)
      obtain ⟨t, ht, m, hm⟩ := sameReturn_ok q (d.toSeg sel) ip fl
      have hle : s.cpl.toNat ≤ (selRpl (cs.setWidth 16)).toNat := by
        rw [show selRpl (cs.setWidth 16) = s.cpl from hrpl]
      have hok : protIret s.nmiFreed = .ok ((), t) := by
        refine (protIret_code fr hv hle hn hd hg hpr).trans ?_
        rw [iretTo, if_pos (show selRpl (cs.setWidth 16) = s0.cpl from hrpl)]
        exact (M.bind_ok (limit_ok hl _ _)).trans ((M.bind_ok (setAccessed_ok ha u3)).trans ht)
      exact (iret_return hp.1 hp.2).completes_iret hok q.mem hm m rfl

/-! ## To Virtual 8086 Mode -/

theorem returnToV86_high {u : State} {ip fl : Word} {cs : HWord} (hb : stackBlock 36 u = .ok ((), u)) (hl : 0xFFFF < ip.toNat) :
    returnToV86 ip fl cs u = .error (.exc ⟨13, some 0⟩ u) := (M.bind_ok hb).trans (M.bind_error (limit_exc hl _ _))

/-- The segment registers of Virtual 8086 Mode from the stack (R578). -/
def v86Segs (cs : HWord) (ss es ds fs gs : Word) : Segs :=
  { es := SegReg.v86 (es.setWidth 16) false, cs := SegReg.v86 cs true, ss := SegReg.v86 (ss.setWidth 16) false,
    ds := SegReg.v86 (ds.setWidth 16) false, fs := SegReg.v86 (fs.setWidth 16) false, gs := SegReg.v86 (gs.setWidth 16) false }

/-- The state a return to Virtual 8086 Mode leads to (R578). -/
def State.toV86 (s : State) (ip fl esp : Word) (g : Segs) : State :=
  (((((s.withFlags (Flags.ofWord fl)).withCpl 3).withSegs g).withEip ip).withEsp esp).settled

theorem returnToV86_ok {u u4 u5 u6 u7 u8 u9 : State} {ip fl esp ss es ds fs gs : Word} {cs : HWord}
    (hb : stackBlock 36 u = .ok ((), u)) (hl : ip.toNat ≤ 0xFFFF) (h1 : stackRead 12 4 u = .ok (esp, u4))
    (h2 : stackRead 16 4 u4 = .ok (ss, u5)) (h3 : stackRead 20 4 u5 = .ok (es, u6)) (h4 : stackRead 24 4 u6 = .ok (ds, u7))
    (h5 : stackRead 28 4 u7 = .ok (fs, u8)) (h6 : stackRead 32 4 u8 = .ok (gs, u9)) :
    returnToV86 ip fl cs u = .ok ((), (u9.toV86 ip fl esp (v86Segs cs ss es ds fs gs)).flushQueue) :=
  (M.bind_ok hb).trans ((M.bind_ok (limit_ok hl _ _)).trans ((M.bind_ok h1).trans ((M.bind_ok h2).trans ((M.bind_ok h3).trans
    ((M.bind_ok h4).trans ((M.bind_ok h5).trans ((M.bind_ok h6).trans rfl)))))))

theorem Matches.toV86 {e w : State} (m : Matches e w) (ip fl esp : Word) (g : Segs) :
    Matches (e.toV86 ip fl esp g) (w.toV86 ip fl esp g) :=
  (((((m.withFlags _).withCpl _).withSegs _).withEip _).withEsp _).settled

/-! ## To an outer level -/

section
variable {s u : State} {ip fl : Word} {cs : HWord} {c : Desc}

theorem outerIret_short (m : Matches s u) (h : s.stackFallsShort (5 * s.opWidth.bytes)) :
    outerIret ip fl cs c u = .error (.exc ⟨12, some 0⟩ u) := by
  rw [← m.opWidth] at h
  exact (M.bind_ok (M.get_apply u)).trans (M.bind_error (stackBlock_short m h))

/-- The rest of an IRET to an outer level, its stack's descriptor read (R578). -/
def iretOuter (s : State) (ip fl esp : Word) (cs ssSel : HWord) (c : Desc) : M Unit := do
  let sd ← returnStack ssSel (selRpl cs)
  check (decide (ip.toNat ≤ c.limit.toNat)) (excGP 0)
  let csAcc ← planAccessed c
  let ssAcc ← planAccessed sd
  writeAccessed csAcc
  writeAccessed ssAcc
  farJump (c.toSeg cs) ip
  loadFlags fl s.cpl s.op32
  update fun t => t.toOuter (selRpl cs) (sd.toSeg ssSel) (loadOuterStack t.regs.esp esp 0 s.op32 (sd.toSeg ssSel))

theorem outerIret_read {u5 u6 : State} {esp ssWord : Word} (m : Matches s u)
    (hb : stackBlock (5 * s.opWidth.bytes) u = .ok ((), u)) (h1 : stackRead (3 * s.opWidth.bytes) s.opWidth.bytes u = .ok (esp, u5))
    (h2 : stackRead (4 * s.opWidth.bytes) s.opWidth.bytes u5 = .ok (ssWord, u6)) :
    outerIret ip fl cs c u = iretOuter s ip fl esp cs (ssWord.setWidth 16) c u6 := by
  rw [← m.opWidth] at hb h1 h2
  have hs : iretOuter s ip fl esp cs (ssWord.setWidth 16) c = iretOuter u ip fl esp cs (ssWord.setWidth 16) c := by
    simp only [iretOuter, m.sys.cpl, m.op32]
  rw [hs]
  exact (M.bind_ok (M.get_apply u)).trans ((M.bind_ok hb).trans ((M.bind_ok h1).trans (M.bind_ok h2)))

variable {esp : Word} {ssSel : HWord} {sd : Desc} {u1 : State}

theorem iretOuter_limit (h : returnStack ssSel (selRpl cs) u = .ok (sd, u1)) (hl : c.limit.toNat < ip.toNat) :
    iretOuter s ip fl esp cs ssSel c u = .error (.exc ⟨13, some 0⟩ u1) := (M.bind_ok h).trans (M.bind_error (limit_exc hl _ _))

theorem iretOuter_ok (m : Matches s u1) (h : returnStack ssSel (selRpl cs) u = .ok (sd, u1)) (hl : ip.toNat ≤ c.limit.toNat)
    (ha : c.d1.getLsbD 8 = true) (hb : sd.d1.getLsbD 8 = true) : ∃ w, iretOuter s ip fl esp cs ssSel c u = .ok ((), w) ∧
      Matches (((s.atCode cs c ip).withFlags (s.returnedFlags fl)).toOuter (selRpl cs) (sd.toSeg ssSel)
        (newEsp s.op32 s.regs.esp esp)) w ∧ w.mem = u1.mem := by
  obtain ⟨w, h1, h2, h3⟩ := loadFlags_matches (s := s) (m.atCode cs c ip).flushQueue rfl fl
  have hesp : loadOuterStack w.regs.esp esp 0 s.op32 (sd.toSeg ssSel) = newEsp s.op32 s.regs.esp esp := by
    rw [loadOuterStack_eq, moveSp_zero, h2.regs]
    rfl
  refine ⟨w.toOuter (selRpl cs) (sd.toSeg ssSel) (newEsp s.op32 s.regs.esp esp), ?_, h2.toOuter _ _ _, h3⟩
  rw [← hesp]
  exact (M.bind_ok h).trans ((M.bind_ok (limit_ok hl _ _)).trans ((M.bind_ok (planAccessed_ok ha u1)).trans
    ((M.bind_ok (planAccessed_ok hb u1)).trans ((M.bind_ok (writeAccessed_nil u1)).trans ((M.bind_ok (writeAccessed_nil u1)).trans
      ((M.bind_ok (update_apply _ _)).trans ((M.bind_ok h1).trans rfl)))))))

end

/-- Settles O48. -/
theorem interruptReturnOuter : Obligations.InterruptReturnOuter := by
  intro s ip csWord fl u1 u2 u3 hp hnt n s0 hb h1 h2 h3 w cs rpl toV86
  have fr := iretFrame hb h1 h2 h3
  have cq := composes_quiet
  have m := fr.quiet.matches
  have hc := iret_return hp hnt
  refine ⟨fun hv hs => ?_, fun hv hblock => ⟨fun hl => ?_, ?_⟩, fun hv hr hn d u4 hd hcode hlev hpr => ?_⟩
  · have e : returnToV86 ip fl cs u3 = .error (.exc ⟨12, some 0⟩ u3) := M.bind_error (stackBlock_short m hs)
    exact hc.faults (M.bind_error ((protIret_v86 fr hv).trans e)) (by decide)
  · exact hc.faults (M.bind_error ((protIret_v86 fr hv).trans (returnToV86_high hblock hl))) (by decide)
  · intro hl esp ss es ds fs gs u4 u5 u6 u7 u8 u g1 g2 g3 g4 g5 g6 real
    have q := cq.trans (cq.trans (cq.trans (cq.trans (cq.trans (cq.trans fr.quiet (quiet_stackRead _ _ _ _ _ g1))
      (quiet_stackRead _ _ _ _ _ g2)) (quiet_stackRead _ _ _ _ _ g3)) (quiet_stackRead _ _ _ _ _ g4))
      (quiet_stackRead _ _ _ _ _ g5)) (quiet_stackRead _ _ _ _ _ g6)
    have hreal (code : Bool) (x : Word) : real code x = SegReg.v86 (x.setWidth 16) code := by
      rw [SegReg.v86, realBase_eq]
    simp only [hreal]
    exact hc.completes_iret ((protIret_v86 fr hv).trans (returnToV86_ok hblock hl g1 g2 g3 g4 g5 g6)) q.mem rfl
      (q.matches.toV86 ip fl esp _).flushQueue rfl
  · have hle : s.cpl.toNat ≤ (selRpl cs).toNat := Nat.le_of_lt hr
    have hne : selRpl cs ≠ s0.cpl := fun e => by
      have hr' : s0.cpl.toNat < (selRpl cs).toNat := hr
      rw [e] at hr'
      exact Nat.lt_irrefl _ hr'
    have q4 := cq.trans fr.quiet (quiet_fetchDesc _ _ _ _ hd)
    have hcodeTo : protIret s0 = outerIret ip fl cs d u4 := by
      refine (protIret_code fr hv hle hn hd ⟨hcode, hlev⟩ hpr).trans ?_
      rw [iretTo, if_neg hne]
    refine ⟨fun hs => hc.faults (M.bind_error (hcodeTo.trans (outerIret_short q4.matches hs))) (by decide),
      fun hblock esp u5 ssWord u6 g1 g2 => ?_⟩
    intro ss code
    have q6 := cq.trans (cq.trans q4 (quiet_stackRead _ _ _ _ _ g1)) (quiet_stackRead _ _ _ _ _ g2)
    have hread : protIret s0 = iretOuter s0 ip fl esp cs ss d u6 := hcodeTo.trans (outerIret_read q4.matches hblock g1 g2)
    refine ⟨fun h0 => hc.faults (M.bind_error (hread.trans (M.bind_error (returnStack_null h0)))) (by decide), fun hn sd u hsd => ?_⟩
    have q := cq.trans q6 (quiet_fetchDesc _ _ _ _ hsd)
    refine ⟨fun hf => hc.faults (M.bind_error (hread.trans (M.bind_error (returnStack_wrong hn hsd hf)))) (by decide),
      fun hf ha => hc.faults (M.bind_error (hread.trans (M.bind_error (returnStack_absent hn hsd hf ha)))) (by decide),
      fun hf ha hl => hc.faults (M.bind_error (hread.trans (iretOuter_limit (returnStack_ok hn hsd hf ha) hl))) (by decide),
      fun hf ha hl hacc hacc' => ?_⟩
    intro f
    obtain ⟨t, ht, mt, hm⟩ := iretOuter_ok (fl := fl) (esp := esp) q.matches (returnStack_ok hn hsd hf ha) hl hacc hacc'
    have he : ((s0.atCode cs d ip).withFlags (s0.returnedFlags fl)).toOuter rpl (sd.toSeg ss) (newEsp s0.op32 s0.regs.esp esp) =
        (((((s0.withCpl rpl).withSegs (s.segs.afterReturn s.tables rpl (d.toSeg cs) (sd.toSeg ss))).withEip ip).withFlags f).withEsp
          (newEsp s.op32 s.regs.esp esp)).settled := by
      rw [← Segs.forOuter_eq]
      rfl
    rw [← he]
    exact hc.completes_iret (hread.trans ht) q.mem hm mt rfl

end Sys2Proof.Machine
end

section
/-!
PROOFS. Taking exceptions and interrupts (60_exceptions.md R721 to R730), the software interrupts (47_interrupt.md R570 to R573), and
the order of events at a boundary (60_exceptions.md R728, R729).
-/

namespace Sys2Proof.Machine

/-! ## Real Address Mode (R721) -/

theorem deliver_ok {n : Nat} {ev : Event} {s t : State} (h : enter ev s = .ok ((), t)) : deliver (n + 1) ev s = .next t := by
  rw [deliver, h]

theorem toHWord_image (f : Flags) : f.toHWord.setWidth 32 = f.toWord &&& 0xFFFF := stackPtr_eq false f.toWord

theorem hwordOf_getD (l : List Byte) : hwordOf l = (l.getD 1 0 ++ l.getD 0 0 : HWord) := hwordOf_drop l 0

/-- GD as an entry leaves it: clear at the debug exception's handler (R754; log entry 55). -/
def State.afterEntry (h : State) (ev : Event) : State :=
  if ev.vector = 1 ∧ ev.kind = .exception then h.withDebug { h.dregs with dr7 := { h.dregs.dr7 with gd := false } } else h

/-- The end of every entry that stored its frame: where the handler starts, and what memory holds. -/
theorem entry_ends {n : Nat} {stores : List (List Word × Word)} {s u t e w : State} {ev : Event} (m : Matches e w) (q : SameMemory s u)
    (hb : ∀ a, t.byteAt a = storedAll n stores a (u.byteAt a)) (hm : w.mem = t.mem) :
    StoresMade n stores s u (w.atHandler.clearGd ev) ∧ Entered (e.afterEntry ev) (w.atHandler.clearGd ev) := by
  have hm' : (w.atHandler.clearGd ev).mem = t.mem := by rw [clearGd_mem, State.atHandler_mem, hm]
  refine ⟨⟨q, fun a => (byteAt_congr hm' a).trans (hb a)⟩, ?_⟩
  rw [State.afterEntry]
  exact (entered_of_matches m).clearGd

/-- Flags, CS and EIP of an entry in Real Address Mode (R721). -/
def State.realTarget (t : State) (entry : List Byte) (keepRf : Bool) : State :=
  ((t.withFlags { t.flags with intf := false, tf := false, rf := t.flags.rf && keepRf }).setSeg .cs
    ((t.seg .cs).rebase (hwordOf (entry.drop 2)))).withEip ((hwordOf entry).setWidth 32)

theorem Matches.realTarget {e w : State} (m : Matches e w) (entry : List Byte) (keepRf : Bool) :
    Matches (e.realTarget entry keepRf) (w.realTarget entry keepRf) := by
  rw [State.realTarget, State.realTarget, m.flags, m.seg]
  exact ((m.withFlags _).setSeg _ _).withEip _

theorem realHandler_eq (s : State) (entry : List Byte) (esp : Word) (keepRf : Bool) :
    realHandler s entry esp (s.flags.rf && keepRf) = (s.withEsp esp).realTarget entry keepRf := by
  rw [State.realTarget, SegReg.rebase, realBase_eq, hwordOf_getD (entry.drop 2), hwordOf_getD entry]
  rfl

/-- Entry in Real Address Mode. -/
theorem enter_real {s u : State} {ev : Event} {entry : List Byte} {stores : List (List Word × Word)} {esp : Word}
    (h : RealDelivery s ev.vector (ev.cs.getD s.segs.cs.sel) ev.ret entry stores esp u) :
    ∃ t, enter ev s = .ok ((), t) ∧ StoresMade 2 stores s u t ∧
      Entered ((realHandler s entry esp (s.flags.rf && ev.kind != .software)).afterEntry ev) t := by
  obtain ⟨-, hr, hv, ⟨u0, h1, h2⟩, r⟩ := h
  have q := composes_quiet.trans (quiet_sysRead _ _ _ _ _ h1) (quiet_planStack _ _ _ _ _ h2)
  obtain ⟨t, h3, m, h4, h5, -, -⟩ := storeAll_ends (n := 2) q r q.matches rfl q.sys.params
  rw [← toHWord_image] at h2
  have hpush : pushAll 2 [s.flags.toHWord.setWidth 32, (ev.cs.getD s.segs.cs.sel).setWidth 32, ev.ret] u0 =
      .ok ((), t.withEsp esp) := (M.bind_ok h2).trans ((M.bind_ok h3).trans rfl)
  have hreal : enterReal ev s = .ok ((), ((t.withEsp esp).realTarget entry (ev.kind != .software)).atHandler.clearGd ev) :=
    (M.bind_ok (M.get_apply s)).trans ((M.bind_ok (limit_ok hv _ _)).trans ((M.bind_ok h1).trans ((M.bind_ok hpush).trans rfl)))
  have henter : enter ev s = enterReal ev s := by rw [enter, M.bind_ok (M.get_apply s), hr, if_pos rfl]
  rw [realHandler_eq]
  exact ⟨_, henter.trans hreal, entry_ends ((m.withEsp esp).realTarget _ _) h4 h5 rfl⟩

/-- Settles O54. -/
theorem exceptionEntryReal : Obligations.ExceptionEntryReal := by
  intro s ev entry stores esp u hd h
  obtain ⟨t, ht, hs, he⟩ := enter_real hd
  exact ⟨t, take_ok hd.1 ht, hs, he⟩

/-! ## Software interrupts (R570 to R573) -/

/-- What BOUND does (R573). -/
def boundCheck (reg : Gpr) (m : MemOp) (s : State) : M Unit := do
  let (sr, off) ← addressOf m
  let lo ← readAt s.opWidth sr off
  let hi ← readAt s.opWidth sr (off + BitVec.ofNat 32 s.opWidth.bytes)
  check (decide (lo.toInt ≤ (s.reg s.opWidth reg).toInt) && decide ((s.reg s.opWidth reg).toInt ≤ hi.toInt)) excBR

/-- Settles O46. -/
theorem softwareInterrupts : Obligations.SoftwareInterrupts := by
  intro s interrupts
  have taken (i : Instr) (v : Byte) (hi : exec i s = takeSoftware (softwareEvent v s) s) : interrupts i v := by
    refine ⟨hi, fun entry stores esp u hd => ?_⟩
    obtain ⟨t, ht, hs, he⟩ := enter_real (ev := softwareEvent v s) hd
    have hk : ¬ ((softwareEvent v s).vector = 1 ∧ (softwareEvent v s).kind = .exception) := fun h => EventKind.noConfusion h.2
    rw [State.afterEntry, if_neg hk, show (softwareEvent v s).kind = .software from rfl, bne_self_eq_false, Bool.and_false] at he
    exact ⟨t, hi.trans (deliver_ok ht), he, hs⟩
  refine ⟨fun v hv => taken _ v ?_, taken _ 3 rfl, fun ho => taken _ 4 ?_, fun ho => ?_, ?_⟩
  · show execInt v s = _
    have hc : (s.v86Mode && s.flags.iopl != 3) = false := by
      cases h : s.v86Mode with
      | false => rfl
      | true => simp [hv h]
    rw [execInt, hc, if_neg Bool.false_ne_true]
  · show execInto s = _
    rw [execInto, ho, if_pos rfl]
  · refine completes_still (body := pure ()) ?_ rfl (.refl s) rfl rfl
    show execInto s = _
    rw [execInto, ho, if_neg Bool.false_ne_true]
  · intro reg m sr off lo hi u1 u2 u h1 h2 h3 x
    have cq := composes_quiet
    have q := cq.trans (cq.trans (quiet_addressOf _ _ _ _ h1) (quiet_readAt _ _ _ _ _ _ h2)) (quiet_readAt _ _ _ _ _ _ h3)
    have inside : (decide (lo.toInt ≤ x) && decide (x ≤ hi.toInt)) = true ↔ lo.toInt ≤ x ∧ x ≤ hi.toInt := by
      rw [Bool.and_eq_true, decide_eq_true_eq, decide_eq_true_eq]
    have reads : boundCheck reg m s s = check (decide (lo.toInt ≤ x) && decide (x ≤ hi.toInt)) excBR u :=
      (M.bind_ok h1).trans ((M.bind_ok h2).trans (M.bind_ok h3))
    refine ⟨fun h => ?_, fun h => ?_⟩
    · exact completes_quiet_of (i := .bound reg m) (body := boundCheck reg m s) rfl
        (reads.trans (check_ok _ _ (inside.2 h))) q.mem q.matches rfl rfl
    · have hout : ¬ (lo.toInt ≤ x ∧ x ≤ hi.toInt) := by omega
      exact faults_of (i := .bound reg m) (body := boundCheck reg m s) (e := excBR) rfl
        (reads.trans (check_error _ _ (Bool.eq_false_iff.2 (inside.not.2 hout)))) (by decide)

/-! ## Through a gate (R722, R723) -/

/-- The address of an event's gate (R722). -/
def State.gateAddress (s : State) (ev : Event) : Word := s.tables.idtr.base + BitVec.ofNat 32 (ev.vector.toNat * 8)

/-- An interrupt or trap gate that the event may use (R722). -/
def Desc.gateFor (g : Desc) (ev : Event) (cpl : BitVec 2) : Prop :=
  g.s = false ∧ (g.typ = 14 ∨ g.typ = 15) ∧ (ev.kind = .software → cpl.toNat ≤ g.dpl.toNat) ∧ g.present = true

/-- The way through the interrupt table to what the gate's type asks for (R722). -/
theorem enter_table {s u1 : State} {ev : Event} {bs : List Byte} {g : Desc} (hr : s.realMode = false)
    (hv : ev.vector.toNat * 8 + 7 ≤ s.tables.idtr.limit.toNat) (h1 : sysRead (s.gateAddress ev) 8 s = .ok (bs, u1))
    (hg : Desc.ofBytes (s.gateAddress ev) bs = g)
    (ht : (!g.s && (g.typ == 5 || g.typ == 6 || g.typ == 7 || g.typ == 0xE || g.typ == 0xF)) = true)
    (hk : ev.kind = .software → s.cpl.toNat ≤ g.dpl.toNat) (hp : g.present = true) : enter ev s =
      (if g.typ = 5 then taskGateEntry ev g else if g.typ = 6 ∨ g.typ = 7 then refuse .format286 else gateEntry ev g) u1 := by
  have c2 : (ev.kind != .software || decide (s.cplNat ≤ g.dpl.toNat)) = true := by
    rw [Bool.or_eq_true, decide_eq_true_eq, bne_iff_ne]
    exact or_iff_not_imp_left.2 fun h => hk (not_not.1 h)
  rw [enter, M.bind_ok (M.get_apply s), hr, if_neg Bool.false_ne_true, enterProt, M.bind_ok (M.get_apply s),
    M.bind_ok (limit_ok hv _ _)]
  refine (M.bind_ok h1).trans ?_
  rw [show Desc.ofBytes (s.tables.idtr.base + BitVec.ofNat 32 (ev.vector.toNat * 8)) bs = g from hg,
    M.bind_ok (check_ok _ _ ht), M.bind_ok (check_ok _ _ c2), M.bind_ok (check_ok _ _ hp)]

theorem enter_gate {s u1 : State} {ev : Event} {bs : List Byte} (hr : s.realMode = false)
    (hv : ev.vector.toNat * 8 + 7 ≤ s.tables.idtr.limit.toNat) (h1 : sysRead (s.gateAddress ev) 8 s = .ok (bs, u1))
    (hg : (Desc.ofBytes (s.gateAddress ev) bs).gateFor ev s.cpl) :
    enter ev s = gateEntry ev (Desc.ofBytes (s.gateAddress ev) bs) u1 := by
  obtain ⟨hs, ht, hk, hp⟩ := hg
  generalize hgd : Desc.ofBytes (s.gateAddress ev) bs = g at hs ht hk hp ⊢
  have c1 : (!g.s && (g.typ == 5 || g.typ == 6 || g.typ == 7 || g.typ == 0xE || g.typ == 0xF)) = true := by
    rcases ht with ht | ht <;> rw [hs, ht] <;> rfl
  have n5 : ¬ g.typ = 5 := by rcases ht with ht | ht <;> rw [ht] <;> decide
  have n67 : ¬ (g.typ = 6 ∨ g.typ = 7) := by rcases ht with ht | ht <;> rw [ht] <;> decide
  rw [enter_table hr hv h1 hgd c1 hk hp, if_neg n5, if_neg n67]

section
variable {ev : Event} {g c : Desc} {u u1 : State}

/-- The checks of the code segment, once its descriptor is read, and the choice of the level (R722, R723). -/
def gateTarget (ev : Event) (g c : Desc) (s : State) : M Unit := do
  check (c.isCode && decide (c.dpl.toNat ≤ s.cplNat)) (excGP g.gateSel)
  check c.present (excNP g.gateSel)
  check (!s.v86Mode || (!c.conforming && c.dpl == 0)) (excGP g.gateSel)
  if !c.conforming && decide (c.dpl.toNat < s.cplNat) then innerEntry ev g c else sameLevelEntry ev g c

theorem gateEntry_null (h : g.gateSel.toNat < 4) : gateEntry ev g u = .error (.exc ⟨13, some 0⟩ u) :=
  (M.bind_ok (M.get_apply u)).trans (M.bind_error (notNull_exc h _ _))

theorem gateEntry_beyond {s : State} (m : Matches s u) (hn : 4 ≤ g.gateSel.toNat) (h : descAddress s.tables g.gateSel = none) :
    gateEntry ev g u = .error (.exc ⟨13, some (g.gateSel &&& 0xFFFC)⟩ u) :=
  (M.bind_ok (M.get_apply u)).trans ((M.bind_ok (notNull_ok hn _ _)).trans (M.bind_error (needDesc_beyond m h)))

theorem gateEntry_target (hn : 4 ≤ g.gateSel.toNat) (h : fetchDesc g.gateSel u = .ok (some c, u1)) :
    gateEntry ev g u = gateTarget ev g c u u1 :=
  (M.bind_ok (M.get_apply u)).trans ((M.bind_ok (notNull_ok hn _ _)).trans (M.bind_ok (needDesc_some h)))

theorem gateTarget_congr {s : State} (m : Matches s u) : gateTarget ev g c u = gateTarget ev g c s := by
  simp only [gateTarget, m.cplNat, m.v86Mode]

theorem gateTarget_wrong {s : State} (h : ¬ c.gateTarget s.cpl) :
    gateTarget ev g c s u = .error (.exc ⟨13, some (g.gateSel &&& 0xFFFC)⟩ u) :=
  M.bind_error (check_error _ _ (Bool.eq_false_iff.2 (gateTarget_iff.not.1 h)))

theorem gateTarget_absent {s : State} (h : c.gateTarget s.cpl) (hp : c.present = false) :
    gateTarget ev g c s u = .error (.exc ⟨11, some (g.gateSel &&& 0xFFFC)⟩ u) :=
  (M.bind_ok (check_ok _ _ (gateTarget_iff.1 h))).trans (M.bind_error (check_error _ _ hp))

/-- What an entry from Virtual 8086 Mode asks of the code segment (R723). -/
theorem fromV86_iff {s : State} : (s.v86Mode = true → c.conforming = false ∧ c.dpl = 0) ↔
    (!s.v86Mode || (!c.conforming && c.dpl == 0)) = true := by
  cases s.v86Mode <;> simp

theorem gateTarget_v86 {s : State} (h : c.gateTarget s.cpl) (hp : c.present = true) (hv : s.v86Mode = true)
    (hd : ¬ (c.conforming = false ∧ c.dpl = 0)) :
    gateTarget ev g c s u = .error (.exc ⟨13, some (g.gateSel &&& 0xFFFC)⟩ u) :=
  (M.bind_ok (check_ok _ _ (gateTarget_iff.1 h))).trans ((M.bind_ok (check_ok _ _ hp)).trans
    (M.bind_error (check_error _ _ (Bool.eq_false_iff.2 (fromV86_iff.not.1 fun hx => hd (hx hv))))))

/-- The level of the code segment that a gate enters is inner (R722). -/
def Desc.innerLevel (c : Desc) (cpl : BitVec 2) : Prop := c.conforming = false ∧ c.dpl.toNat < cpl.toNat

theorem innerLevel_iff {s : State} :
    c.innerLevel s.cpl ↔ (!c.conforming && decide (c.dpl.toNat < s.cplNat)) = true := by
  rw [Bool.and_eq_true, Bool.not_eq_true', decide_eq_true_eq]
  exact Iff.rfl

theorem gateTarget_inner {s : State} (h : c.gateTarget s.cpl) (hp : c.present = true)
    (hv : s.v86Mode = true → c.conforming = false ∧ c.dpl = 0) (hi : c.innerLevel s.cpl) :
    gateTarget ev g c s u = innerEntry ev g c u := by
  rw [gateTarget, M.bind_ok (check_ok _ _ (gateTarget_iff.1 h)), M.bind_ok (check_ok _ _ hp),
    M.bind_ok (check_ok _ _ (fromV86_iff.1 hv)), if_pos (innerLevel_iff.1 hi)]

theorem gateTarget_same {s : State} (h : c.gateTarget s.cpl) (hp : c.present = true)
    (hv : s.v86Mode = true → c.conforming = false ∧ c.dpl = 0) (hi : ¬ c.innerLevel s.cpl) :
    gateTarget ev g c s u = sameLevelEntry ev g c u := by
  rw [gateTarget, M.bind_ok (check_ok _ _ (gateTarget_iff.1 h)), M.bind_ok (check_ok _ _ hp),
    M.bind_ok (check_ok _ _ (fromV86_iff.1 hv)), if_neg (innerLevel_iff.not.1 hi)]

end

theorem v86Mode_of_vm {s : State} (ho : s.fetch.oldMode = false) (hp : s.cr0.pe = true) : s.v86Mode = s.flags.vm := by
  rw [State.v86Mode, State.peInForce, ho, hp]
  rfl

theorem notReal_of_pe {s : State} (ho : s.fetch.oldMode = false) (hp : s.cr0.pe = true) : s.realMode = false := by
  rw [State.realMode, State.peInForce, ho, hp]
  rfl

/-! ## The same level (R722) -/

/-- Flags and CS:EIP of an entry through a gate, its stack loaded (R722). -/
def State.gateHandler (t : State) (g : Desc) (cs : SegReg) : State :=
  ((t.setSeg .cs cs).withEip g.gateOff).mapFlags (Flags.afterGate · (g.typ == 0xE))

theorem Matches.gateHandler {e w : State} (m : Matches e w) (g : Desc) (cs : SegReg) :
    Matches (e.gateHandler g cs) (w.gateHandler g cs) := ((m.setSeg _ _).withEip _).mapFlags _

theorem sameLevelEntry_ok {ev : Event} {g c : Desc} {u u3 u4 t : State} {frame : List Word} {stores : List (List Word × Word)} {esp : Word}
    (hf : frameTail u ev u = .ok (frame, u3)) (hr : roomFor u.segs.ss true u.stack32 4 frame.length u.regs.esp = true)
    (hl : g.gateOff.toNat ≤ c.limit.toNat) (hst : planStack 4 frame u3 = .ok ((stores, esp), u4)) (ha : c.d1.getLsbD 8 = true)
    (hs : storeAll 4 stores u4 = .ok ((), t)) :
    sameLevelEntry ev g c u =
      .ok ((), (((t.withEsp esp).gateHandler g (c.toSeg (withRpl g.gateSel u.cpl))).atHandler).clearGd ev) :=
  (M.bind_ok (M.get_apply u)).trans ((M.bind_ok hf).trans ((M.bind_ok (checkRoom_ok hr)).trans ((M.bind_ok (limit_ok hl _ _)).trans
    ((M.bind_ok hst).trans ((M.bind_ok (planAccessed_ok ha u4)).trans ((M.bind_ok hs).trans
      ((M.bind_ok (writeAccessed_nil t)).trans rfl)))))))

/-- Settles O55. -/
theorem exceptionEntryProtected : Obligations.ExceptionEntryProtected := by
  intro s ev bs u1 c u2 frame u3 stores esp u ho hp la g hv h1 hg hn hd hc ha hf hr hst hl r image h
  have cq := composes_quiet
  have q2 := cq.trans (quiet_sysRead _ _ _ _ _ h1) (quiet_fetchDesc _ _ _ _ hd)
  have q := cq.trans (cq.trans q2 (quiet_frameTail _ _ _ _ _ hf)) (quiet_planStack _ _ _ _ _ hst)
  have m2 := q2.matches
  obtain ⟨t, g1, m, g2, g3, -, -⟩ := storeAll_ends (n := 4) q r q.matches rfl q.sys.params
  have hform := frameTail_form hf
  rw [q2.flags, q2.sys.segs] at hform
  refine ⟨hform, ?_⟩
  obtain ⟨hr0, hv0⟩ := not_real_of_prot hp
  have hlev : c.dpl.toNat ≤ s.cpl.toNat := by
    rcases hc.2.2 with e | e
    · rw [e]
    · exact Nat.le_of_lt e.2
  have hni : ¬ c.innerLevel s.cpl := by
    rintro ⟨hcf, hlt⟩
    rcases hc.2.2 with e | e
    · rw [e] at hlt
      exact Nat.lt_irrefl _ hlt
    · rw [e.1] at hcf
      exact Bool.noConfusion hcf
  have hgate : enter ev s = sameLevelEntry ev g c u2 := by
    rw [enter_gate hr0 hv h1 hg]
    refine (gateEntry_target hn hd).trans ?_
    rw [gateTarget_congr (quiet_sysRead _ _ _ _ _ h1).matches]
    exact gateTarget_same ⟨hc.1, hlev⟩ hc.2.1 (fun hx => by rw [hv0] at hx; cases hx) hni
  rw [← q2.sys.segs, ← m2.stack32, ← m2.regs] at hr
  have hok := hgate.trans (sameLevelEntry_ok hf hr hl hst ha g1)
  rw [m2.sys.cpl] at hok
  exact ⟨_, take_ok ho hok, entry_ends ((m.withEsp esp).gateHandler g _) g2 g3 rfl⟩

end Sys2Proof.Machine
end

section
/-!
PROOFS. Entry to an inner level, exceptions during delivery, and the order of events at a boundary (60_exceptions.md R722, R723, R728 to
R730, R746).
-/

namespace Sys2Proof.Machine

/-! ## An inner level (R722, R723) -/

/-- SS, ESP, the level and, from Virtual 8086 Mode, null data segment registers of an inner entry (R722, R723). -/
def State.innerStacked (t : State) (fromV86 : Bool) (ss : SegReg) (esp : Word) (level : BitVec 2) : State :=
  ((t.withSegs ((bif fromV86 then t.segs.nullData else t.segs).set .ss ss)).withEsp esp).withCpl level

theorem Matches.innerStacked {e w : State} (m : Matches e w) (fromV86 : Bool) (ss : SegReg) (esp : Word) (level : BitVec 2) :
    Matches (e.innerStacked fromV86 ss esp level) (w.innerStacked fromV86 ss esp level) := by
  rw [State.innerStacked, State.innerStacked, m.sys.segs]
  exact ((m.withSegs _).withEsp _).withCpl _

section
variable {ev : Event} {g c : Desc} {u u3 u4 u5 u6 t : State} {sp esp : Word} {ss : SegReg} {head tail : List Word}
  {stores : List (List Word × Word)}

theorem innerEntry_ok (hi : innerStack c.dpl u = .ok ((sp, ss, []), u3)) (hh : frameHead u u3 = .ok (head, u4))
    (ht : frameTail u ev u4 = .ok (tail, u5))
    (hr : roomFor ss true ss.ar.db 4 (head ++ tail).length (loadSp ss.ar.db u.regs.esp sp) = true)
    (hl : g.gateOff.toNat ≤ c.limit.toNat)
    (hp : planPushes ss ss.ar.db false (excSS 0) 4 (loadSp ss.ar.db u.regs.esp sp) (head ++ tail) u5 = .ok ((stores, esp), u6))
    (ha : c.d1.getLsbD 8 = true) (hs : storeAll 4 stores u6 = .ok ((), t)) : innerEntry ev g c u =
      .ok ((), (((t.innerStacked u.flags.vm ss esp c.dpl).gateHandler g (c.toSeg (withRpl g.gateSel c.dpl))).atHandler).clearGd ev) :=
  (M.bind_ok (M.get_apply u)).trans ((M.bind_ok hi).trans ((M.bind_ok hh).trans ((M.bind_ok ht).trans ((M.bind_ok (checkRoom_ok hr)).trans
    ((M.bind_ok (limit_ok hl _ _)).trans ((M.bind_ok hp).trans ((M.bind_ok (planAccessed_ok ha u6)).trans
      ((M.bind_ok (writeAccessed_nil u6)).trans ((M.bind_ok hs).trans ((M.bind_ok (writeAccessed_nil t)).trans rfl))))))))))

end

/-- Settles O56. -/
theorem innerEntryTaken : Obligations.InnerEntry := by
  have cq := composes_quiet
  refine ⟨?_, ?_⟩
  · intro s ev bs u1 ho hp la g sel raises hv h1 hg
    have m1 := (quiet_sysRead _ _ _ _ _ h1).matches
    have hgate : enter ev s = gateEntry ev g u1 := enter_gate (notReal_of_pe ho hp) hv h1 hg
    refine ⟨fun h0 => hgate.trans (gateEntry_null h0), fun hn hb => hgate.trans (gateEntry_beyond m1 hn hb), fun hn c u hd => ?_⟩
    have hto : enter ev s = gateTarget ev g c s u := by
      rw [hgate, gateEntry_target hn hd, gateTarget_congr m1]
    exact ⟨fun ht => hto.trans (gateTarget_wrong ht), fun ht hpr => hto.trans (gateTarget_absent ht hpr),
      fun ht hpr hvm hx => hto.trans (gateTarget_v86 ht hpr ((v86Mode_of_vm ho hp).trans hvm) hx)⟩
  · intro s ev bs u1 c u2 sp ss u3 head u4 tail u5 stores esp u ho hpe la g hv h1 hg hn hd hc ha hi hh ht start hr hl hp r image null
      data h
    have q2 := cq.trans (quiet_sysRead _ _ _ _ _ h1) (quiet_fetchDesc _ _ _ _ hd)
    have m2 := q2.matches
    have q := cq.trans (cq.trans (cq.trans (cq.trans q2 (quiet_innerStack _ _ _ _ hi)) (quiet_frameHead _ _ _ _ hh))
      (quiet_frameTail _ _ _ _ _ ht)) (quiet_planPushes _ _ _ _ _ _ _ _ _ _ hp)
    obtain ⟨t, g1, m, g2, g3, -, -⟩ := storeAll_ends (n := 4) q r q.matches rfl q.sys.params
    obtain ⟨x1, x2, x3, x4, x5, hhead⟩ := frameHead_form hh
    obtain ⟨x6, x7, htail⟩ := frameTail_form ht
    rw [q2.flags, q2.sys.segs] at htail
    rw [q2.flags, q2.sys.segs, q2.regs] at hhead
    refine ⟨⟨x1, x2, x3, x4, x5, x6, x7, hhead, htail⟩, ?_⟩
    obtain ⟨hcode, hpr, hcf, hlt, hvm⟩ := hc
    have hgate : enter ev s = innerEntry ev g c u2 := by
      rw [enter_gate (notReal_of_pe ho hpe) hv h1 hg]
      refine (gateEntry_target hn hd).trans ?_
      rw [gateTarget_congr (quiet_sysRead _ _ _ _ _ h1).matches]
      exact gateTarget_inner ⟨hcode, Nat.le_of_lt hlt⟩ hpr (fun hx => ⟨hcf, hvm ((v86Mode_of_vm ho hpe).symm.trans hx)⟩) ⟨hcf, hlt⟩
    have hstart : start = loadSp ss.ar.db u2.regs.esp sp := by rw [m2.regs, loadSp_eq]
    rw [hstart] at hr hp
    have hok := hgate.trans (innerEntry_ok hi hh ht hr hl hp ha g1)
    have me := (m.innerStacked u2.flags.vm ss esp c.dpl).gateHandler g (c.toSeg (withRpl g.gateSel c.dpl))
    have he : (s.innerStacked u2.flags.vm ss esp c.dpl).gateHandler g (c.toSeg (withRpl g.gateSel c.dpl)) = h := by
      rw [m2.flags]
      simp only [h, data, null]
      cases s.flags.vm <;> rfl
    rw [he] at me
    exact ⟨_, take_ok ho hok, entry_ends me g2 g3 rfl⟩

/-! ## Exceptions during delivery (R730) -/

/-- The contributory exceptions (R730). -/
def contributoryVectors : List Byte := [0, 10, 11, 12, 13]

theorem vectorClass_contributory (v : Byte) : vectorClass v = .contributory ↔ v ∈ contributoryVectors := by
  have hmem : v ∈ contributoryVectors ↔ v = 0 ∨ v = 10 ∨ v = 11 ∨ v = 12 ∨ v = 13 := by simp [contributoryVectors]
  rw [vectorClass, hmem]
  split
  · next h =>
    subst h
    exact ⟨fun x => ExcClass.noConfusion x, fun x => absurd x (by decide)⟩
  · split
    · next h => exact ⟨fun _ => h, fun _ => rfl⟩
    · next h => exact ⟨fun x => ExcClass.noConfusion x, fun x => absurd x h⟩

theorem vectorClass_pageFault (v : Byte) : vectorClass v = .pageFault ↔ v = 14 := by
  rw [vectorClass]
  split
  · next h => exact ⟨fun _ => h, fun _ => rfl⟩
  · next h => split <;> exact ⟨fun x => ExcClass.noConfusion x, fun x => absurd x h⟩

theorem doubleFaults_iff (a b : ExcClass) : doubleFaults a b = true ↔
    (a = .contributory ∧ b = .contributory) ∨ (a = .pageFault ∧ (b = .contributory ∨ b = .pageFault)) := by
  cases a <;> cases b <;> simp [doubleFaults]

/-- The pairs of events and vectors that give the double fault (R730). -/
theorem givesDoubleFault_iff (ev : Event) (w : Byte) : doubleFaults ev.cls (vectorClass w) = true ↔ ev.kind = .exception ∧
    ((ev.vector ∈ contributoryVectors ∧ w ∈ contributoryVectors) ∨ (ev.vector = 14 ∧ (w ∈ contributoryVectors ∨ w = 14))) := by
  rw [doubleFaults_iff, Event.cls]
  by_cases hk : ev.kind = .exception
  · simp only [hk, if_true, true_and, vectorClass_contributory, vectorClass_pageFault]
  · simp [hk]

/-- What follows an exception during delivery: the next event, or shutdown (R730, R746). -/
def deliverNext (n : Nat) (next : Option (Event × State)) (s : State) : Host.Outcome State Fault Refusal :=
  match next with
  | none => .next s.shutDown
  | some (ev, s') => deliver n ev s'.inOwnMode

theorem deliver_exc {n : Nat} {ev : Event} {s u : State} {e : Exc} (h : enter ev s = .error (.exc e u)) :
    deliver (n + 1) ev s = deliverNext n (nextEvent ev e ev.faultRet (s.abandon u)) (s.abandon u) := by
  rw [deliver, h]
  rfl

/-- Settles O57. -/
theorem doubleFaultDelivered : Obligations.DoubleFault := by
  refine ⟨fun n ev s e u h => ?_, fun s hr ha => ?_⟩
  · intro contributory isFault double ext next
    have hd := deliver_exc (n := n) h
    have hcls : doubleFaults ev.cls (vectorClass e.vector) = true ↔ double := givesDoubleFault_iff ev e.vector
    refine ⟨fun h8 => ?_, fun hdbl => ?_, fun h8 hdbl => ?_⟩
    · rw [hd, nextEvent, if_pos h8]
      rfl
    · have h8 : ¬ (ev.kind = .exception ∧ ev.vector = 8) := by
        rintro ⟨-, h8⟩
        have no8 : (8 : Byte) ∉ contributory := by decide
        rcases hdbl.2 with ⟨hv, -⟩ | ⟨hv, -⟩
        · exact no8 (h8 ▸ hv)
        · exact absurd (h8.symm.trans hv) (by decide)
      rw [nextEvent, if_neg h8, if_pos (hcls.2 hdbl)] at hd
      exact ⟨_, _, _, hd, quiet_withDraws (s.abandon u).inOwnMode ((s.abandon u).draws + 2)⟩
    · rw [nextEvent, if_neg h8, if_neg (hcls.not.2 hdbl)] at hd
      have hcode : ev.secondCode e = if ext then e.code.map (· ||| 1) else e.code := by
        rw [Event.secondCode]
        by_cases hx : ev.kind = .software ∨ e.vector = 14
        · rw [if_pos hx, if_neg fun hy => hx.elim hy.1 hy.2]
        · rw [if_neg hx, if_pos (not_or.1 hx)]
      rw [hcode] at hd
      exact hd
  · rw [step, stepOnce, hr, if_neg Bool.false_ne_true, if_pos ha]

/-! ## The order at a boundary (R728, R729) -/

/-- Settles O58. -/
theorem boundaryOrder : Obligations.BoundaryOrder := by
  intro s hr ha hc event free trap nmi open_
  have hstep : step s = boundary s := by
    rw [step, stepOnce, hr, if_neg Bool.false_ne_true, if_neg ha, if_pos hc]
  have htrap : s.trapDue = true ↔ trap := by
    simp only [State.trapDue, Bool.and_eq_true, Bool.or_eq_true, bne_iff_ne, or_assoc]
    exact Iff.rfl
  have hnmi : s.nmiDue = true ↔ nmi := by
    simp only [State.nmiDue, Bool.and_eq_true, Bool.not_eq_true', bne_iff_ne, and_assoc]
    exact Iff.rfl
  have hopen : s.intrOpen = true ↔ open_ := by
    simp only [State.intrOpen, Bool.and_eq_true, beq_iff_eq]
    exact Iff.rfl
  refine ⟨fun ht => ?_, fun ht hn => ?_, fun ht hn ho v rest hv => ?_, fun ht hn hno hh => ?_⟩
  · refine ⟨s.nearTold, ?_, s.reportTrap, ?_, rfl, rfl, rfl, rfl, rfl, rfl⟩
    · rw [State.nearTold, BitVec.and_comm, ← BitVec.and_assoc, BitVec.and_self]
    · rw [hstep, boundary, if_pos (htrap.2 ht)]
      rfl
  · rw [hstep, boundary, if_neg (htrap.not.2 ht), if_pos (hnmi.2 hn)]
    rfl
  · rw [hstep, boundary, if_neg (htrap.not.2 ht), if_neg (hnmi.not.2 hn), afterNmi, hv]
    exact if_pos (hopen.2 ho)
  · have hproceed : afterNmi s = proceed s := by
      rw [afterNmi]
      cases hv : s.pins.intr with
      | nil => rfl
      | cons v rest => exact if_neg (hopen.not.2 (hno.resolve_right (by rw [hv]; exact List.cons_ne_nil _ _)))
    rw [hstep, boundary, if_neg (htrap.not.2 ht), if_neg (hnmi.not.2 hn), hproceed, proceed, if_pos hh]

end Sys2Proof.Machine
end

section
/-!
PROOFS. What switches tasks: JMP and CALL, task gates, events, IRET with NT (46_control_transfer.md R510, 47_interrupt.md R578,
60_exceptions.md R724, R760 to R764).
-/

namespace Sys2Proof.Machine

/-! ## The outcomes of a switch (R762, R764) -/

/-- How an instruction ends that switches tasks by `m` in the state `u`. -/
structure SwitchOutcome (i : Instr) (s u : State) (m : M Bool) : Prop where
  ended : ∀ trap y, m u = .ok (trap, y) →
    (y.eip.toNat ≤ y.segs.cs.limit.toNat → Completes i s (Switched trap y.settled)) ∧
    (y.segs.cs.limit.toNat < y.eip.toNat → exec i s = take (lateEvent 13 (some 0) y) y.settled)
  late : ∀ e y, e.vector ≠ 9 → m u = .error (.late e y) → exec i s = take (lateEvent e.vector e.code y) y
  early : ∀ e y, e.vector ≠ 9 → m u = .error (.exc e y) → Faults i s e.vector e.code y

theorem ComesTo.late {i : Instr} {s u y : State} {m : M Ending} {e : Exc} (h : ComesTo i s m u) (he : m u = .error (.late e y))
    (h9 : e.vector ≠ 9) : exec i s = take (lateEvent e.vector e.code y) y := by
  obtain ⟨body, h1, h2⟩ := h
  exact h1.trans (runEnding_late (h2.trans he) h9)

theorem ComesTo.refused {i : Instr} {s u : State} {m : M Ending} {r : Refusal} (h : ComesTo i s m u)
    (he : m u = .error (.refuse r)) : exec i s = .refused r := by
  obtain ⟨body, h1, h2⟩ := h
  rw [h1, runEnding, h2, he]
  rfl

/-- The end of an instruction that switches tasks. -/
theorem switchOutcome {i : Instr} {s u : State} {m : M Bool}
    (h : ComesTo i s ((m >>= finishTask) >>= fun _ => pure Ending.loadedRf) u) : SwitchOutcome i s u m := by
  refine ⟨fun trap y hr => ⟨fun hl => ?_, fun hl => ?_⟩, fun e y h9 hr => h.late (M.bind_error (M.bind_error hr)) h9,
    fun e y h9 hr => h.faults (M.bind_error (M.bind_error hr)) h9⟩
  · have ok : (m >>= finishTask) u = _ := (M.bind_ok hr).trans (finishTask_ok hl)
    exact ⟨_, h.next ((M.bind_ok ok).trans (M.pure_apply _ _)), switched_of_finish rfl rfl⟩
  · have err : (m >>= finishTask) u = _ := (M.bind_ok hr).trans (finishTask_late hl)
    exact h.late (e := excGP 0) (M.bind_error err) (by decide)

/-! ## JMP and CALL (R506, R510) -/

section
variable {sel : HWord} {off : Word} {kind : FarKind} {d : Desc} {u u1 : State}

theorem farTarget_busy (hn : 4 ≤ sel.toNat) (h : fetchDesc sel u = .ok (some d, u1)) (hs : d.isSystem 11 = true) :
    farTarget sel off kind u = .error (.exc ⟨13, some (sel &&& 0xFFFC)⟩ u1) := by
  simp only [farTarget, M.bind_ok (notNull_ok hn _ _), M.bind_ok (needDesc_some h), Desc.isCode_of_isSystem hs,
    Desc.isSystem_other hs (show (11 : BitVec 4) ≠ 12 by decide), Desc.isSystem_other hs (show (11 : BitVec 4) ≠ 5 by decide),
    Desc.isSystem_other hs (show (11 : BitVec 4) ≠ 9 by decide), Desc.isSystem_other hs (show (11 : BitVec 4) ≠ 4 by decide),
    Desc.isSystem_other hs (show (11 : BitVec 4) ≠ 1 by decide), Desc.isSystem_other hs (show (11 : BitVec 4) ≠ 3 by decide)]
  rfl

theorem farTarget_286 (hn : 4 ≤ sel.toNat) (h : fetchDesc sel u = .ok (some d, u1))
    (hs : d.isSystem 1 = true ∨ d.isSystem 3 = true) : farTarget sel off kind u = .error (.refuse .format286) := by
  have none {t : BitVec 4} (h1 : (1 : BitVec 4) ≠ t) (h3 : (3 : BitVec 4) ≠ t) : d.isSystem t = false :=
    hs.elim (fun h => Desc.isSystem_other h h1) (fun h => Desc.isSystem_other h h3)
  have code : d.isCode = false := hs.elim Desc.isCode_of_isSystem Desc.isCode_of_isSystem
  have is286 : (d.isSystem 4 || d.isSystem 1 || d.isSystem 3) = true := by
    rw [Bool.or_eq_true, Bool.or_eq_true]
    exact hs.elim (fun h => .inl (.inr h)) .inr
  simp only [farTarget, M.bind_ok (notNull_ok hn _ _), M.bind_ok (needDesc_some h), code,
    none (show (1 : BitVec 4) ≠ 12 by decide) (by decide), none (show (1 : BitVec 4) ≠ 5 by decide) (by decide),
    none (show (1 : BitVec 4) ≠ 9 by decide) (by decide), is286]
  rfl

theorem farTarget_tss (hn : 4 ≤ sel.toNat) (h : fetchDesc sel u = .ok (some d, u1)) (hs : d.isSystem 9 = true) :
    farTarget sel off kind u = (tssTransfer sel d kind >>= fun _ => pure Ending.loadedRf) u1 := by
  simp only [farTarget, M.bind_ok (notNull_ok hn _ _), M.bind_ok (needDesc_some h), Desc.isCode_of_isSystem hs, hs,
    Desc.isSystem_other hs (show (9 : BitVec 4) ≠ 12 by decide), Desc.isSystem_other hs (show (9 : BitVec 4) ≠ 5 by decide)]
  rfl

theorem farTarget_taskGate (hn : 4 ≤ sel.toNat) (h : fetchDesc sel u = .ok (some d, u1)) (hs : d.isSystem 5 = true) :
    farTarget sel off kind u = (taskGate sel d kind >>= fun _ => pure Ending.loadedRf) u1 := by
  simp only [farTarget, M.bind_ok (notNull_ok hn _ _), M.bind_ok (needDesc_some h), Desc.isCode_of_isSystem hs, hs,
    Desc.isSystem_other hs (show (5 : BitVec 4) ≠ 12 by decide)]
  rfl

/-- The switch that a far transfer makes (R510). -/
def farSwitch (s : State) (tsel : HWord) (new : Desc) (kind : FarKind) : M Bool :=
  taskSwitch tsel new kind.task s.segs.cs.sel s.eip s.flags

theorem transferTask_eq {s : State} (m : Matches s u) (new : Desc) :
    transferTask sel new kind u = (farSwitch s sel new kind >>= finishTask) u := by
  rw [farSwitch, ← m.sys.segs, ← m.eip, ← m.flags]
  exact M.bind_ok (M.get_apply u)

theorem tssTransfer_barred (h : ¬ (d.callable sel u.cpl ∧ sel.getLsbD 2 = false)) :
    tssTransfer sel d kind u = .error (.exc ⟨13, some (sel &&& 0xFFFC)⟩ u) := by
  by_cases hv : d.callable sel u.cpl
  · have ht : (!selTi sel) = false := by
      rw [Bool.not_eq_false']
      exact Bool.eq_true_of_not_eq_false fun hf => h ⟨hv, hf⟩
    exact (M.bind_ok (M.get_apply u)).trans ((M.bind_ok (check_ok _ _ (callable_iff.1 hv))).trans (M.bind_error (check_error _ _ ht)))
  · exact (M.bind_ok (M.get_apply u)).trans (M.bind_error (check_error _ _ (Bool.eq_false_iff.2 (callable_iff.not.1 hv))))

theorem global_ok {sel : HWord} (ht : sel.getLsbD 2 = false) : (!selTi sel) = true := by
  rw [selTi, ht]
  rfl

theorem tssTransfer_absent (h : d.callable sel u.cpl) (ht : sel.getLsbD 2 = false) (hp : d.present = false) :
    tssTransfer sel d kind u = .error (.exc ⟨11, some (sel &&& 0xFFFC)⟩ u) :=
  (M.bind_ok (M.get_apply u)).trans ((M.bind_ok (check_ok _ _ (callable_iff.1 h))).trans ((M.bind_ok (check_ok _ _ (global_ok ht))).trans
    (M.bind_error (check_error _ _ hp))))

theorem tssTransfer_switches {s : State} (m : Matches s u) (h : d.callable sel u.cpl) (ht : sel.getLsbD 2 = false)
    (hp : d.present = true) : tssTransfer sel d kind u = (farSwitch s sel d kind >>= finishTask) u :=
  (M.bind_ok (M.get_apply u)).trans ((M.bind_ok (check_ok _ _ (callable_iff.1 h))).trans ((M.bind_ok (check_ok _ _ (global_ok ht))).trans
    ((M.bind_ok (check_ok _ _ hp)).trans (transferTask_eq m d))))

end

/-! ## The task state segment that a task gate names (R510, R724) -/

section
variable {tsel : HWord} {t : Desc} {u u1 : State}

theorem globalSelector_ok (hn : 4 ≤ tsel.toNat) (ht : tsel.getLsbD 2 = false) : (!selTi tsel && !selNull tsel) = true := by
  rw [global_ok ht, selNull_false hn]
  rfl

theorem globalSelector_bad (h : tsel.toNat < 4 ∨ tsel.getLsbD 2 = true) : (!selTi tsel && !selNull tsel) = false := by
  rcases h with h | h
  · rw [selNull_true h]
    exact Bool.and_false _
  · rw [selTi, h]
    rfl

theorem needTss_bad {s : State} (m : Matches s u)
    (h : tsel.toNat < 4 ∨ tsel.getLsbD 2 = true ∨ descAddress s.tables tsel = none) :
    needTss tsel u = .error (.exc ⟨13, some (tsel &&& 0xFFFC)⟩ u) := by
  by_cases hb : tsel.toNat < 4 ∨ tsel.getLsbD 2 = true
  · exact M.bind_error (check_error _ _ (globalSelector_bad hb))
  · obtain ⟨hn, ht⟩ := not_or.1 hb
    have hd := (or_assoc.2 h).resolve_left hb
    exact (M.bind_ok (check_ok _ _ (globalSelector_ok (Nat.le_of_not_lt hn) (Bool.eq_false_iff.2 ht)))).trans
      (M.bind_error (needDesc_beyond m hd))

/-- The checks of the descriptor (R510). -/
theorem needTss_desc (hn : 4 ≤ tsel.toNat) (ht : tsel.getLsbD 2 = false) (h : fetchDesc tsel u = .ok (some t, u1)) :
    needTss tsel u = ((if t.isSystem 1 || t.isSystem 3 then refuse .format286 else pure ()) >>= fun _ =>
      check (t.isSystem 9) (excGP tsel) >>= fun _ => check t.present (excNP tsel) >>= fun _ => pure t) u1 :=
  (M.bind_ok (check_ok _ _ (globalSelector_ok hn ht))).trans (M.bind_ok (needDesc_some h))

theorem needTss_286 (hn : 4 ≤ tsel.toNat) (ht : tsel.getLsbD 2 = false) (h : fetchDesc tsel u = .ok (some t, u1))
    (hs : t.isSystem 1 = true ∨ t.isSystem 3 = true) : needTss tsel u = .error (.refuse .format286) := by
  rw [needTss_desc hn ht h, if_pos (Bool.or_eq_true_iff.2 hs)]
  rfl

theorem needTss_wrong (hn : 4 ≤ tsel.toNat) (ht : tsel.getLsbD 2 = false) (h : fetchDesc tsel u = .ok (some t, u1))
    (h1 : t.isSystem 1 = false) (h3 : t.isSystem 3 = false) (h9 : t.isSystem 9 = false) :
    needTss tsel u = .error (.exc ⟨13, some (tsel &&& 0xFFFC)⟩ u1) := by
  rw [needTss_desc hn ht h, h1, h3, h9]
  rfl

theorem available_not286 (h9 : t.isSystem 9 = true) : (t.isSystem 1 || t.isSystem 3) = false := by
  rw [Desc.isSystem_other h9 (show (9 : BitVec 4) ≠ 1 by decide), Desc.isSystem_other h9 (show (9 : BitVec 4) ≠ 3 by decide)]
  rfl

theorem needTss_absent (hn : 4 ≤ tsel.toNat) (ht : tsel.getLsbD 2 = false) (h : fetchDesc tsel u = .ok (some t, u1))
    (h9 : t.isSystem 9 = true) (hp : t.present = false) : needTss tsel u = .error (.exc ⟨11, some (tsel &&& 0xFFFC)⟩ u1) := by
  rw [needTss_desc hn ht h, available_not286 h9, h9, hp]
  rfl

theorem needTss_ok (hn : 4 ≤ tsel.toNat) (ht : tsel.getLsbD 2 = false) (h : fetchDesc tsel u = .ok (some t, u1))
    (h9 : t.isSystem 9 = true) (hp : t.present = true) : needTss tsel u = .ok (t, u1) := by
  rw [needTss_desc hn ht h, available_not286 h9, h9, hp]
  rfl

variable {sel : HWord} {g : Desc} {kind : FarKind}

theorem taskGate_barred (h : ¬ g.callable sel u.cpl) : taskGate sel g kind u = .error (.exc ⟨13, some (sel &&& 0xFFFC)⟩ u) :=
  (M.bind_ok (M.get_apply u)).trans (M.bind_error (check_error _ _ (Bool.eq_false_iff.2 (callable_iff.not.1 h))))

theorem taskGate_absent (h : g.callable sel u.cpl) (hp : g.present = false) :
    taskGate sel g kind u = .error (.exc ⟨11, some (sel &&& 0xFFFC)⟩ u) :=
  (M.bind_ok (M.get_apply u)).trans ((M.bind_ok (check_ok _ _ (callable_iff.1 h))).trans (M.bind_error (check_error _ _ hp)))

theorem taskGate_tss (h : g.callable sel u.cpl) (hp : g.present = true) :
    taskGate sel g kind u = (needTss g.gateSel >>= fun t => transferTask g.gateSel t kind) u :=
  (M.bind_ok (M.get_apply u)).trans ((M.bind_ok (check_ok _ _ (callable_iff.1 h))).trans (M.bind_ok (check_ok _ _ hp)))

end

/-! ## IRET with NT (R578) -/

section
variable {s u1 u2 : State} {lo hi : Byte} {d : Desc}

/-- The switch back to the task that the back link names (R578). -/
def returnSwitch (s : State) (link : HWord) (d : Desc) : M Bool :=
  taskSwitch link d .iret s.segs.cs.sel s.eip { s.flags with nt := false }

theorem taskReturn_bad (h : sysRead s.tables.tr.base 2 s = .ok ([lo, hi], u1))
    (hb : (hi ++ lo : HWord).toNat < 4 ∨ (hi ++ lo : HWord).getLsbD 2 = true ∨ descAddress s.tables (hi ++ lo : HWord) = none) :
    taskReturn s = .error (.exc ⟨10, some ((hi ++ lo : HWord) &&& 0xFFFC)⟩ u1) := by
  rw [← hwordOf_two lo hi []] at hb ⊢
  refine (M.bind_ok (M.get_apply s)).trans ((M.bind_ok h).trans ?_)
  by_cases hx : (hwordOf [lo, hi]).toNat < 4 ∨ (hwordOf [lo, hi]).getLsbD 2 = true
  · exact M.bind_error (check_error _ _ (globalSelector_bad hx))
  · obtain ⟨hn, ht⟩ := not_or.1 hx
    have hd := (or_assoc.2 hb).resolve_left hx
    exact (M.bind_ok (check_ok _ _ (globalSelector_ok (Nat.le_of_not_lt hn) (Bool.eq_false_iff.2 ht)))).trans
      (M.bind_error (needDesc_beyond (quiet_sysRead _ _ _ _ _ h).matches hd))

theorem taskReturn_desc (h : sysRead s.tables.tr.base 2 s = .ok ([lo, hi], u1)) (hn : 4 ≤ (hi ++ lo : HWord).toNat)
    (ht : (hi ++ lo : HWord).getLsbD 2 = false) (hd : fetchDesc (hi ++ lo : HWord) u1 = .ok (some d, u2)) : taskReturn s =
      ((bif d.isSystem 3 then refuse .format286 else pure ()) >>= fun _ => check (d.isSystem 0xB) (excTS (hi ++ lo : HWord)) >>= fun _ =>
        check d.present (excNP (hi ++ lo : HWord)) >>= fun _ => returnSwitch s (hi ++ lo : HWord) d >>= finishTask) u2 := by
  rw [← hwordOf_two lo hi []] at hn ht hd ⊢
  exact (M.bind_ok (M.get_apply s)).trans ((M.bind_ok h).trans ((M.bind_ok (check_ok _ _ (globalSelector_ok hn ht))).trans
    (M.bind_ok (needDesc_some hd))))

end

theorem iret_task {s : State} (h : s.protMode = true) (hn : s.flags.nt = true) :
    ComesTo .iret s (taskReturn >>= fun _ => pure Ending.loadedRf) s.nmiFreed := by
  have hc := iret_prot h
  rwa [hn, if_pos rfl] at hc

/-! ## Events (R724) -/

/-- The state in which a switch that is over goes on (R753). -/
def State.switchedOver (y : State) (trap : Bool) : State :=
  ((y.withPend { y.pend with bt := y.pend.bt || trap }).flushQueue).settled

theorem entered_switchedOver (y : State) (trap : Bool) : Entered y.settled (y.switchedOver trap).atHandler :=
  have h := entered_of_matches (Matches.refl (y.switchedOver trap))
  ⟨h.regs, h.eip, h.flags, ⟨h.sys.cpl, h.sys.segs, h.sys.cr0, h.sys.cr2, h.sys.cr3, h.sys.tables, h.sys.dregs, h.sys.test, h.sys.pins,
    h.sys.params, h.sys.io⟩, h.pfx, h.oldMode, h.held, h.shadow, h.activity⟩

theorem inNewTask_ok {α : Type} {m : M α} {s t : State} {a : α} (h : m s = .ok (a, t)) : inNewTask m s = .ok (a, t) := by
  rw [inNewTask, h]

section
variable {ev : Event} {g t : Desc} {s u1 u2 y : State} {trap : Bool}

/-- The error code on the stack of the new task (R724). -/
def pushCode (ev : Event) : M Unit :=
  match ev.code with
  | none => pure ()
  | some c => inNewTask do
    let code ← selWord c
    pushAll 4 [code]

theorem taskGateEntry_switched (m : Matches s u1) (hn : needTss g.gateSel u1 = .ok (t, u2))
    (hsw : taskSwitch g.gateSel t .int (ev.cs.getD s.segs.cs.sel) ev.ret s.flags u2 = .ok (trap, y))
    (hl : y.eip.toNat ≤ y.segs.cs.limit.toNat) : taskGateEntry ev g u1 =
      (pushCode ev >>= fun _ => update fun x => x.atHandler.clearGd ev) (y.switchedOver trap) := by
  rw [← m.sys.segs, ← m.flags] at hsw
  exact (M.bind_ok (M.get_apply u1)).trans ((M.bind_ok hn).trans ((M.bind_ok hsw).trans (M.bind_ok (finishTask_ok hl))))

end

theorem entered_after {e w : State} {ev : Event} (h : Entered e w) : Entered (e.afterEntry ev) (w.clearGd ev) := by
  rw [State.afterEntry]
  exact h.clearGd

theorem handler_bt (z : State) (ev : Event) : (z.atHandler.clearGd ev).pend.bt = z.pend.bt := by
  rw [clearGd_pend]
  rfl

theorem handler_mem (z : State) (ev : Event) : (z.atHandler.clearGd ev).mem = z.mem := by
  rw [clearGd_mem, State.atHandler_mem]

/-- The handler of an event without error code, in the new task. -/
theorem pushCode_none {ev : Event} {y : State} {trap : Bool} (hc : ev.code = none) :
    ∃ x, (pushCode ev >>= fun _ => update fun x => x.atHandler.clearGd ev) (y.switchedOver trap) = .ok ((), x) ∧
      Entered (y.settled.afterEntry ev) x ∧ x.mem = y.mem ∧ x.pend.bt = (y.pend.bt || trap) := by
  have hp : pushCode ev (y.switchedOver trap) = .ok ((), y.switchedOver trap) := by
    rw [pushCode, hc]
    rfl
  exact ⟨_, (M.bind_ok hp).trans (update_apply _ _), entered_after (entered_switchedOver y trap), handler_mem _ _, handler_bt _ _⟩

/-- The handler of an event with an error code, which stands on the stack of the new task. -/
theorem pushCode_some {ev : Event} {y u3 u : State} {trap : Bool} {c : HWord} {w esp : Word} {stores : List (List Word × Word)}
    (hc : ev.code = some c) (hw : selWord c (y.switchedOver trap) = .ok (w, u3)) (hst : planStack 4 [w] u3 = .ok ((stores, esp), u))
    (r : AllStorable y stores) :
    ∃ x, (pushCode ev >>= fun _ => update fun x => x.atHandler.clearGd ev) (y.switchedOver trap) = .ok ((), x) ∧
      StoresMade 4 stores y u x ∧ Entered ((y.settled.withEsp esp).afterEntry ev) x ∧ x.pend.bt = (y.pend.bt || trap) := by
  have q := composes_quiet.trans (quiet_selWord _ _ _ _ hw) (quiet_planStack _ _ _ _ _ hst)
  obtain ⟨x, g1, m, g2, g3, -, -⟩ := storeAll_ends (s := y.switchedOver trap) (n := 4) q ⟨r.1, r.2⟩ q.matches rfl q.sys.params
  have hpush : (selWord c >>= fun code => pushAll 4 [code]) (y.switchedOver trap) = .ok ((), x.withEsp esp) :=
    (M.bind_ok hw).trans ((M.bind_ok hst).trans ((M.bind_ok g1).trans rfl))
  have hp : pushCode ev (y.switchedOver trap) = .ok ((), x.withEsp esp) := by
    rw [pushCode, hc]
    exact inNewTask_ok hpush
  have hent := entered_of_matches (m.withEsp esp)
  have hent' : Entered (y.settled.withEsp esp) (x.withEsp esp).atHandler :=
    ⟨hent.regs, hent.eip, hent.flags, ⟨hent.sys.cpl, hent.sys.segs, hent.sys.cr0, hent.sys.cr2, hent.sys.cr3, hent.sys.tables,
      hent.sys.dregs, hent.sys.test, hent.sys.pins, hent.sys.params, hent.sys.io⟩, hent.pfx, hent.oldMode, hent.held, hent.shadow,
      hent.activity⟩
  have hmem : ((x.withEsp esp).atHandler.clearGd ev).mem = x.mem := handler_mem _ _
  exact ⟨_, (M.bind_ok hp).trans (update_apply _ _), ⟨⟨g2.unpaged, g2.paged⟩, fun a => (byteAt_congr hmem a).trans (g3 a)⟩,
    entered_after hent', (handler_bt _ _).trans m.bt⟩

/-! ## The statement -/

/-- An ending after operations that do the same. -/
theorem then_ending {m m' : M Unit} {u w : State} {fin : Ending} (h : m u = m' w) :
    (m >>= fun _ => pure fin) u = (m' >>= fun _ => pure fin) w := by
  rw [M.bind_apply, h, ← M.bind_apply]

/-- The switches of JMP and CALL, and the checks before them. -/
theorem farSwitches {s u0 u1 : State} {sel : HWord} {off : Word} {jmp call : Instr} {d : Desc} (hp : s.protMode = true)
    (hf : FarForms s sel off jmp call u0) (hn : 4 ≤ sel.toNat) (hd : fetchDesc sel u0 = .ok (some d, u1)) (i : Instr) (kind : FarKind)
    (hi : (i = jmp ∧ kind = .jmp) ∨ (i = call ∧ kind = .call)) :
    let code : HWord := sel &&& 0xFFFC
    let visible := d.callable sel s.cpl
    (d.isSystem 11 = true → Faults i s 13 (some code) u1) ∧
    (d.isSystem 1 = true ∨ d.isSystem 3 = true → exec i s = .refused .format286) ∧
    (d.isSystem 9 = true →
      (¬ (visible ∧ sel.getLsbD 2 = false) → Faults i s 13 (some code) u1) ∧
      (visible → sel.getLsbD 2 = false → d.present = false → Faults i s 11 (some code) u1) ∧
      (visible → sel.getLsbD 2 = false → d.present = true → SwitchOutcome i s u1 (farSwitch s sel d kind))) ∧
    (d.isSystem 5 = true →
      let tsel := d.gateSel
      let tcode : HWord := tsel &&& 0xFFFC
      (¬ visible → Faults i s 13 (some code) u1) ∧
      (visible → d.present = false → Faults i s 11 (some code) u1) ∧
      (visible → d.present = true →
        (tsel.toNat < 4 ∨ tsel.getLsbD 2 = true ∨ descAddress s.tables tsel = none → Faults i s 13 (some tcode) u1) ∧
        (4 ≤ tsel.toNat → tsel.getLsbD 2 = false → ∀ t u2, fetchDesc tsel u1 = .ok (some t, u2) →
          (t.isSystem 1 = true ∨ t.isSystem 3 = true → exec i s = .refused .format286) ∧
          (t.isSystem 1 = false ∧ t.isSystem 3 = false ∧ t.isSystem 9 = false → Faults i s 13 (some tcode) u2) ∧
          (t.isSystem 9 = true → t.present = false → Faults i s 11 (some tcode) u2) ∧
          (t.isSystem 9 = true → t.present = true → SwitchOutcome i s u2 (farSwitch s tsel t kind))))) := by
  intro code visible
  have q1 := composes_quiet.trans hf.pair.quiet (quiet_fetchDesc _ _ _ _ hd)
  have m1 := q1.matches
  have hc : ComesTo i s (farTarget sel (sizeTarget s.op32 off) kind) u0 := by
    obtain ⟨hj, hc⟩ := hf.pair.prot hp
    rcases hi with ⟨rfl, rfl⟩ | ⟨rfl, rfl⟩
    · exact hj
    · exact hc
  have hvis : visible ↔ d.callable sel u1.cpl := by rw [m1.sys.cpl]
  refine ⟨fun hs => hc.faults (farTarget_busy hn hd hs) (by decide), fun hs => hc.refused (farTarget_286 hn hd hs), fun hs => ?_,
    fun hs => ?_⟩
  · have ht := hc.step (farTarget_tss hn hd hs)
    exact ⟨fun hb => ht.faults (M.bind_error (tssTransfer_barred fun hx => hb ⟨hvis.2 hx.1, hx.2⟩)) (by decide),
      fun hv hg ha => ht.faults (M.bind_error (tssTransfer_absent (hvis.1 hv) hg ha)) (by decide),
      fun hv hg ha => switchOutcome (ht.step (then_ending (tssTransfer_switches m1 (hvis.1 hv) hg ha)))⟩
  · intro tsel tcode
    have ht := hc.step (farTarget_taskGate hn hd hs)
    refine ⟨fun hb => ht.faults (M.bind_error (taskGate_barred (hvis.not.1 hb))) (by decide),
      fun hv ha => ht.faults (M.bind_error (taskGate_absent (hvis.1 hv) ha)) (by decide), fun hv ha => ?_⟩
    have hg := ht.step (then_ending (taskGate_tss (hvis.1 hv) ha))
    refine ⟨fun hb => hg.faults (M.bind_error (M.bind_error (needTss_bad m1 hb))) (by decide), fun h4 hti t u2 ht2 => ?_⟩
    have m2 := m1.trans (quiet_fetchDesc _ _ _ _ ht2).matches
    refine ⟨fun h => hg.refused (M.bind_error (M.bind_error (needTss_286 h4 hti ht2 h))),
      fun ⟨h1, h3, h9⟩ => hg.faults (M.bind_error (M.bind_error (needTss_wrong h4 hti ht2 h1 h3 h9))) (by decide),
      fun h9 hpr => hg.faults (M.bind_error (M.bind_error (needTss_absent h4 hti ht2 h9 hpr))) (by decide), fun h9 hpr => ?_⟩
    have e : (needTss tsel >>= fun t => transferTask tsel t kind) u1 = (farSwitch s tsel t kind >>= finishTask) u2 :=
      (M.bind_ok (needTss_ok h4 hti ht2 h9 hpr)).trans (transferTask_eq m2 t)
    exact switchOutcome (hg.step (then_ending e))

/-- The switch back of IRET with NT, and the checks before it. -/
theorem iretSwitches {s u1 : State} {lo hi : Byte} (hp : s.protMode = true) (hnt : s.flags.nt = true)
    (h : sysRead s.tables.tr.base 2 s.nmiFreed = .ok ([lo, hi], u1)) :
    let link : HWord := hi ++ lo
    let code : HWord := link &&& 0xFFFC
    (link.toNat < 4 ∨ link.getLsbD 2 = true ∨ descAddress s.tables link = none → Faults .iret s 10 (some code) u1) ∧
    (4 ≤ link.toNat → link.getLsbD 2 = false → ∀ d u2, fetchDesc link u1 = .ok (some d, u2) →
      (d.isSystem 3 = true → exec .iret s = .refused .format286) ∧
      (d.isSystem 3 = false → d.isSystem 11 = false → Faults .iret s 10 (some code) u2) ∧
      (d.isSystem 11 = true → d.present = false → Faults .iret s 11 (some code) u2) ∧
      (d.isSystem 11 = true → d.present = true → SwitchOutcome .iret s u2 (returnSwitch s.nmiFreed link d))) := by
  intro link code
  have hc := iret_task hp hnt
  refine ⟨fun hb => hc.faults (M.bind_error (taskReturn_bad h hb)) (by decide), fun hn ht d u2 hd => ?_⟩
  have hr := hc.step (then_ending (taskReturn_desc h hn ht hd))
  have not3 (h11 : d.isSystem 11 = true) : d.isSystem 3 = false := Desc.isSystem_other h11 (show (11 : BitVec 4) ≠ 3 by decide)
  refine ⟨fun h3 => ?_, fun h3 h11 => ?_, fun h11 hpr => ?_, fun h11 hpr => ?_⟩
  · rw [h3] at hr
    exact hr.refused rfl
  · rw [h3, h11] at hr
    exact hr.faults rfl (by decide)
  · rw [not3 h11, h11, hpr] at hr
    exact hr.faults rfl (by decide)
  · rw [not3 h11, h11, hpr] at hr
    exact switchOutcome hr

/-- Entry through a task gate, up to the error code. -/
theorem enter_taskGate {s u1 u2 y : State} {ev : Event} {bs : List Byte} {g t : Desc} {trap : Bool} (hr : s.realMode = false)
    (hv : ev.vector.toNat * 8 + 7 ≤ s.tables.idtr.limit.toNat) (h1 : sysRead (s.gateAddress ev) 8 s = .ok (bs, u1))
    (hg : Desc.ofBytes (s.gateAddress ev) bs = g)
    (hs : g.isSystem 5 = true ∧ (ev.kind = .software → s.cpl.toNat ≤ g.dpl.toNat) ∧ g.present = true)
    (hn : needTss g.gateSel u1 = .ok (t, u2))
    (hsw : taskSwitch g.gateSel t .int (ev.cs.getD s.segs.cs.sel) ev.ret s.flags u2 = .ok (trap, y))
    (hl : y.eip.toNat ≤ y.segs.cs.limit.toNat) : enter ev s =
      (pushCode ev >>= fun _ => update fun x => x.atHandler.clearGd ev) (y.switchedOver trap) := by
  obtain ⟨h5, hk, hp⟩ := hs
  obtain ⟨hsys, htyp⟩ : (!g.s) = true ∧ (g.typ == 5) = true := Bool.and_eq_true_iff.1 h5
  have c1 : (!g.s && (g.typ == 5 || g.typ == 6 || g.typ == 7 || g.typ == 0xE || g.typ == 0xF)) = true := by
    rw [hsys, htyp]
    rfl
  rw [enter_table hr hv h1 hg c1 hk hp, if_pos (beq_iff_eq.1 htyp)]
  exact taskGateEntry_switched (quiet_sysRead _ _ _ _ _ h1).matches hn hsw hl

/-- Settles O60. -/
theorem taskSwitches : Obligations.TaskSwitches := by
  intro s run
  have toRun {i : Instr} {u : State} {tsel : HWord} {d : Desc} {kind : TaskKind} {f : Flags}
      (h : SwitchOutcome i s u (taskSwitch tsel d kind s.segs.cs.sel s.eip f)) : run i u tsel d kind f := ⟨h.ended, h.late, h.early⟩
  refine ⟨fun hp off sel jmp call u0 d u1 hf hn hd => ?_, fun hp hnt lo hi u1 h => ?_, ?_⟩
  · intro both code visible
    obtain ⟨j1, j2, j3, j4⟩ := farSwitches hp hf hn hd jmp .jmp (.inl ⟨rfl, rfl⟩)
    obtain ⟨c1, c2, c3, c4⟩ := farSwitches hp hf hn hd call .call (.inr ⟨rfl, rfl⟩)
    refine ⟨fun hs => ⟨j1 hs, c1 hs⟩, fun hs => ⟨j2 hs, c2 hs⟩, fun hs => ?_, fun hs => ?_⟩
    · obtain ⟨ja, jb, jc⟩ := j3 hs
      obtain ⟨ca, cb, cc⟩ := c3 hs
      exact ⟨fun h => ⟨ja h, ca h⟩, fun h1 h2 h3 => ⟨jb h1 h2 h3, cb h1 h2 h3⟩,
        fun h1 h2 h3 => ⟨toRun (jc h1 h2 h3), toRun (cc h1 h2 h3)⟩⟩
    · obtain ⟨ja, jb, jc⟩ := j4 hs
      obtain ⟨ca, cb, cc⟩ := c4 hs
      refine ⟨fun h => ⟨ja h, ca h⟩, fun h1 h2 => ⟨jb h1 h2, cb h1 h2⟩, fun h1 h2 => ?_⟩
      obtain ⟨jd, je⟩ := jc h1 h2
      obtain ⟨cd, ce⟩ := cc h1 h2
      refine ⟨fun h => ⟨jd h, cd h⟩, fun h3 h4 t u2 h5 => ?_⟩
      obtain ⟨jf, jg, jh, ji⟩ := je h3 h4 t u2 h5
      obtain ⟨cf, cg, ch, ci⟩ := ce h3 h4 t u2 h5
      exact ⟨fun h => ⟨jf h, cf h⟩, fun h => ⟨jg h, cg h⟩, fun h h' => ⟨jh h h', ch h h'⟩,
        fun h h' => ⟨toRun (ji h h'), toRun (ci h h')⟩⟩
  · obtain ⟨hb, hd⟩ := iretSwitches hp hnt h
    refine ⟨hb, fun h1 h2 d u2 h3 => ?_⟩
    obtain ⟨ha, hb, hc, hd⟩ := hd h1 h2 d u2 h3
    exact ⟨ha, hb, hc, fun h4 h5 => toRun (hd h4 h5)⟩
  · intro ev bs u1 t u2 trap y ho hpe la g hv h1 hg hn ht hd h9 hpr hsw hl handler
    have henter := enter_taskGate (notReal_of_pe ho hpe) hv h1 rfl hg (needTss_ok hn ht hd h9 hpr) hsw hl
    refine ⟨fun hc => ?_, fun c w u3 stores esp u hc => ?_⟩
    · obtain ⟨x, hx, h1, h2, h3⟩ := pushCode_none (y := y) (trap := trap) hc
      exact ⟨x, take_ok ho (henter.trans hx), h1, h2, h3⟩
    · intro y' hw hst r
      obtain ⟨x, hx, h1, h2, h3⟩ := pushCode_some hc hw hst r
      exact ⟨selWord_low hw, x, take_ok ho (henter.trans hx), h1, h2, h3⟩

end Sys2Proof.Machine
end

section
/-!
PROOFS. What a task switch saves, writes and loads, and how it validates the new task (60_exceptions.md R760 to R763).
-/

namespace Sys2Proof.Machine

/-! ## The stores (R761, R762) -/

/-- The doublewords of the old task, the upper halves of the selectors free (R761, U5). -/
theorem taskImage_form {s u u' : State} {cs : HWord} {eip : Word} {f : Flags} {l : List Word} (h : taskImage s cs eip f u = .ok (l, u')) :
    ∃ h1 h2 h3 h4 h5 h6 : HWord, l = [eip, f.toWord, s.regs.eax, s.regs.ecx, s.regs.edx, s.regs.ebx, s.regs.esp, s.regs.ebp,
      s.regs.esi, s.regs.edi, h1 ++ s.segs.es.sel, h2 ++ cs, h3 ++ s.segs.ss.sel, h4 ++ s.segs.ds.sel, h5 ++ s.segs.fs.sel,
      h6 ++ s.segs.gs.sel] := by
  simp only [taskImage, selWord, M.bind_apply, drawBits_apply, M.pure_apply] at h
  exact ⟨_, _, _, _, _, _, (Prod.mk.inj (Except.ok.inj h)).1.symm⟩

theorem quiet_taskImage (s : State) (cs : HWord) (eip : Word) (f : Flags) : OnOk Quiet (taskImage s cs eip f) := by
  have c := composes_quiet
  exact OnOk.bind c (quiet_selWord _) fun _ => OnOk.bind c (quiet_selWord _) fun _ => OnOk.bind c (quiet_selWord _) fun _ =>
    OnOk.bind c (quiet_selWord _) fun _ => OnOk.bind c (quiet_selWord _) fun _ => OnOk.bind c (quiet_selWord _) fun _ => OnOk.pure c _

/-- A busy bit written in RAM, in the byte as it stands (R121). -/
theorem writeBusy_ends {ps : List Word} (busy : Bool) {s : State} (h : AllRam s ps) (hok : s.memOk = true) :
    ∃ t, writeBusy ps busy s = .ok ((), t) ∧ Matches s t ∧ t.memOk = true ∧
      t.byteAt = storedIn ps (ps.map fun p => bif busy then s.byteAt p ||| 0x02 else s.byteAt p &&& 0xFD) s.byteAt := by
  obtain ⟨t, h1, h2, h3, h4⟩ := physWrite_storedIn (bs := (ps.map s.byteAt).map fun b => bif busy then b ||| 0x02 else b &&& 0xFD) h hok
  refine ⟨t, (M.bind_ok (physRead_ram h)).trans h1, h2, h3, ?_⟩
  rw [h4, List.map_map]
  rfl

/-- The stores of a task switch, in their order, with the new task state segment read before the back link is written (R761, R762). -/
theorem switchStores_ends {save oldBusy newBusy bytes link : List Word} {image : List Word} {back : HWord} {s u : State} (q : Quiet s u)
    (hok : s.memOk = true) (r : AllRam s (save ++ bytes ++ oldBusy ++ newBusy ++ link)) :
    ∃ t1 t2 t3 t4, physWrite save (dwordBytes image) u = .ok ((), t1) ∧ writeBusy oldBusy false t1 = .ok ((), t2) ∧
      writeBusy newBusy true t2 = .ok ((), t3) ∧
      physRead bytes t3 = .ok (bytes.map (switchedIn save oldBusy newBusy [] image back u.byteAt), t3) ∧
      physWrite link (bytesOf 2 (back.setWidth 32)) t3 = .ok ((), t4) ∧ Matches s t4 ∧
      ∀ a, t4.byteAt a = switchedIn save oldBusy newBusy link image back u.byteAt a := by
  have ram (ps : List Word) (hs : ∀ a ∈ ps, a ∈ save ++ bytes ++ oldBusy ++ newBusy ++ link) {w : State} (m : Matches s w) :
      AllRam w ps := AllRam.congr (fun a ha => r a (hs a ha)) m.sys.params
  obtain ⟨t1, h1, m1, ok1, b1⟩ := physWrite_storedIn (bs := dwordBytes image) (ram save (by simp_all) q.matches) (q.memOk hok)
  have n1 := q.matches.trans m1
  obtain ⟨t2, h2, m2, ok2, b2⟩ := writeBusy_ends false (ram oldBusy (by simp_all) n1) ok1
  have n2 := n1.trans m2
  obtain ⟨t3, h3, m3, ok3, b3⟩ := writeBusy_ends true (ram newBusy (by simp_all) n2) ok2
  have n3 := n2.trans m3
  obtain ⟨t4, h4, m4, -, b4⟩ := physWrite_storedIn (bs := bytesOf 2 (back.setWidth 32)) (ram link (by simp_all) n3) ok3
  have e3 (l : List Word) : switchedIn save oldBusy newBusy l image back u.byteAt =
      storedIn l (bytesOf 2 (back.setWidth 32)) t3.byteAt := by
    rw [b3, b2, b1, bytesOf_selector]
    rfl
  refine ⟨t1, t2, t3, t4, h1, h2, h3, ?_, h4, n3.trans m4, fun a => ?_⟩
  · rw [physRead_ram (ram bytes (by simp_all) n3), e3]
    rfl
  · rw [e3, b4]

/-! ## The switch (R760 to R762) -/

theorem taskSwitch_short {tsel cs : HWord} {new : Desc} {kind : TaskKind} {eip : Word} {f : Flags} {s : State}
    (h : new.limit.toNat < 0x67) : taskSwitch tsel new kind cs eip f s = .error (.exc ⟨10, some (tsel &&& 0xFFFC)⟩ s) :=
  M.bind_error (limit_exc h _ _)

/-- A place that is planned only for some kinds of switch. -/
theorem planWhen_ok {b : Bool} {m : M (List Word)} {ps : List Word} {u u' : State}
    (h : if b = true then m u = .ok (ps, u') else ps = [] ∧ u' = u) : (bif b then m else pure []) u = .ok (ps, u') := by
  cases b with
  | true => exact (if_pos rfl ▸ h : _)
  | false =>
    obtain ⟨rfl, rfl⟩ : ps = [] ∧ u' = u := by simpa using h
    rfl

theorem taskSwitch_ok {tsel cs : HWord} {new : Desc} {kind : TaskKind} {eip : Word} {f : Flags} {s u1 u2 u3 u4 u5 u t1 t2 t3 t4 : State}
    {save oldBusy newBusy bytes link image : List Word} {bs : List Byte} (hl : 0x67 ≤ new.limit.toNat)
    (h1 : sysPlan (s.tables.tr.base + 0x20) 64 s = .ok (save, u1))
    (h2 : (bif kind.leaves && !selNull s.tables.tr.sel then
      planBusy (s.tables.gdtr.base + (s.tables.tr.sel &&& 0xFFF8).setWidth 32) else pure []) u1 = .ok (oldBusy, u2))
    (h3 : (bif kind == .iret then pure [] else planBusy new.addr) u2 = .ok (newBusy, u3))
    (h4 : planLinear new.base 104 false false u3 = .ok (bytes, u4))
    (h5 : (bif kind.nests then sysPlan new.base 2 else pure []) u4 = .ok (link, u5)) (h6 : taskImage s cs eip f u5 = .ok (image, u))
    (w1 : physWrite save (dwordBytes image) u = .ok ((), t1)) (w2 : writeBusy oldBusy false t1 = .ok ((), t2))
    (w3 : writeBusy newBusy true t2 = .ok ((), t3)) (w4 : physRead bytes t3 = .ok (bs, t3))
    (w5 : physWrite link (bytesOf 2 (s.tables.tr.sel.setWidth 32)) t3 = .ok ((), t4)) :
    taskSwitch tsel new kind cs eip f s =
      (inNewTask taskSegments >>= fun _ => pure ((tssDword bs 0x64).getLsbD 0)) (enterTask t4 tsel new bs kind.nests) :=
  (M.bind_ok (limit_ok hl _ _)).trans ((M.bind_ok (M.get_apply s)).trans ((M.bind_ok h1).trans ((M.bind_ok h2).trans ((M.bind_ok h3).trans
    ((M.bind_ok h4).trans ((M.bind_ok h5).trans ((M.bind_ok h6).trans ((M.bind_ok w1).trans ((M.bind_ok w2).trans ((M.bind_ok w3).trans
      ((M.bind_ok w4).trans ((M.bind_ok w5).trans (M.bind_ok (update_apply _ t4))))))))))))))

theorem nests_iff (kind : TaskKind) : kind.nests = true ↔ kind = .call ∨ kind = .int := by cases kind <;> simp [TaskKind.nests]

theorem leaves_iff (kind : TaskKind) : kind.leaves = true ↔ kind = .jmp ∨ kind = .iret := by cases kind <;> simp [TaskKind.leaves]

/-- Whether a switch clears the busy bit of the old task (R761; log entry 57). -/
theorem clearsBusy_iff (kind : TaskKind) (sel : HWord) :
    (kind.leaves && !selNull sel) = true ↔ (kind = .jmp ∨ kind = .iret) ∧ 4 ≤ sel.toNat := by
  rw [Bool.and_eq_true, leaves_iff, Bool.not_eq_true', selNull_iff, decide_eq_false_iff_not, Nat.not_lt]

theorem quiet_planWhen {b : Bool} {m : M (List Word)} (h : OnOk Quiet m) : OnOk Quiet (bif b then m else pure []) :=
  OnOk.cond h (OnOk.pure composes_quiet _)

/-- The selector at an offset of a task state segment, byte by byte. -/
theorem tssSel_eq (bs : List Byte) (off : Nat) : tssSel bs off = (bs.getD (off + 1) 0 ++ bs.getD off 0 : HWord) := hwordOf_drop bs off

/-! ## The LDT (R762) -/

theorem taskLdt_null {x : State} (h : x.tables.ldtr.sel.toNat < 4) : taskLdt x = .ok ((), x) := by
  rw [taskLdt, M.bind_ok (look_apply _ x), if_pos (selNull_true h)]
  rfl

theorem taskLdt_bad {x : State} (hn : 4 ≤ x.tables.ldtr.sel.toNat)
    (h : x.tables.ldtr.sel.getLsbD 2 = true ∨ descAddress x.tables x.tables.ldtr.sel = none) :
    taskLdt x = .error (.exc ⟨10, some (x.tables.ldtr.sel &&& 0xFFFC)⟩ x) := by
  rw [taskLdt, M.bind_ok (look_apply _ x), selNull_false hn, if_neg Bool.false_ne_true]
  by_cases ht : x.tables.ldtr.sel.getLsbD 2 = true
  · have hc : (!selTi x.tables.ldtr.sel) = false := by
      rw [selTi, ht]
      rfl
    exact M.bind_error (check_error _ _ hc)
  · exact (M.bind_ok (check_ok _ _ (global_ok (Bool.eq_false_iff.2 ht)))).trans
      (M.bind_error (needDesc_beyond (.refl x) (h.resolve_left ht)))

theorem taskLdt_desc {x u : State} {d : Desc} (hn : 4 ≤ x.tables.ldtr.sel.toNat) (ht : x.tables.ldtr.sel.getLsbD 2 = false)
    (h : fetchDesc x.tables.ldtr.sel x = .ok (some d, u)) : taskLdt x =
      (check (d.isSystem 2 && d.present) (excTS x.tables.ldtr.sel) >>= fun _ => update fun s => s.withTables
        { s.tables with ldtr := { sel := x.tables.ldtr.sel, base := d.base, limit := d.limit, valid := true } }) u := by
  rw [taskLdt, M.bind_ok (look_apply _ x), selNull_false hn, if_neg Bool.false_ne_true, M.bind_ok (check_ok _ _ (global_ok ht)),
    M.bind_ok (needDesc_some h)]

/-! ## The segment registers (R762) -/

section
variable {x u : State} {d : Desc} {r : Sreg}

/-- CS, its descriptor read. -/
theorem taskCs_desc (hn : 4 ≤ x.segs.cs.sel.toNat) (h : fetchDesc x.segs.cs.sel x = .ok (some d, u)) : taskCs x =
    (check (d.isCode && (bif d.conforming then decide (d.dpl.toNat ≤ (selRpl x.segs.cs.sel).toNat) else d.dpl == selRpl x.segs.cs.sel))
      (excTS x.segs.cs.sel) >>= fun _ => check d.present (excNP x.segs.cs.sel) >>= fun _ => setAccessed d >>= fun _ =>
        putSeg .cs (d.toSeg x.segs.cs.sel) >>= fun _ => update fun s => s.withCpl (selRpl x.segs.cs.sel)) u := by
  rw [← check_check]
  exact (M.bind_ok (look_apply _ x)).trans ((M.bind_ok (notNull_ok hn _ _)).trans (M.bind_ok (needDesc_some h)))

/-- SS, its descriptor read. -/
theorem taskSs_desc (hn : 4 ≤ x.segs.ss.sel.toNat) (h : fetchDesc x.segs.ss.sel x = .ok (some d, u)) : taskSs x =
    (check (d.writableData && (selRpl x.segs.ss.sel == x.cpl && d.dpl == x.cpl)) (excTS x.segs.ss.sel) >>= fun _ =>
      check d.present (excSS x.segs.ss.sel) >>= fun _ => setAccessed d >>= fun _ => putSeg .ss (d.toSeg x.segs.ss.sel)) u := by
  rw [← check_check]
  exact (M.bind_ok (M.get_apply x)).trans ((M.bind_ok (notNull_ok hn _ _)).trans (M.bind_ok (needDesc_some h)))

/-- A data segment register, its descriptor read. -/
theorem taskData_desc (hn : 4 ≤ (x.seg r).sel.toNat) (h : fetchDesc (x.seg r).sel x = .ok (some d, u)) : taskData r x =
    (check ((d.isData || d.readableCode) && (d.conforming || (decide ((selRpl (x.seg r).sel).toNat ≤ d.dpl.toNat) &&
      decide (x.cplNat ≤ d.dpl.toNat)))) (excTS (x.seg r).sel) >>= fun _ => check d.present (excNP (x.seg r).sel) >>= fun _ =>
        setAccessed d >>= fun _ => putSeg r (d.toSeg (x.seg r).sel)) u := by
  rw [← check_check, taskData, M.bind_ok (M.get_apply x), selNull_false hn, if_neg Bool.false_ne_true, M.bind_ok (needDesc_some h)]

end

/-- What a segment register's descriptor must allow in the new task (R762). -/
def Desc.goodFor (d : Desc) (r : Sreg) (rpl cpl : BitVec 2) : Prop :=
  if r = .cs then d.isCode = true ∧ (if d.conforming then d.dpl.toNat ≤ rpl.toNat else d.dpl = rpl)
  else if r = .ss then d.writableData = true ∧ rpl = cpl ∧ d.dpl = cpl
  else (d.isData = true ∨ d.readableCode = true) ∧ (d.conforming = true ∨ (rpl.toNat ≤ d.dpl.toNat ∧ cpl.toNat ≤ d.dpl.toNat))

/-- The outcomes of a validation that checks its descriptor, its presence, and then loads it. -/
structure Validates (m : M Unit) (x u : State) (good : Prop) (present accessed : Bool) (wrong absent : Exc) (after : State) : Prop where
  bad : ¬ good → m x = .error (.exc wrong u)
  absent : good → present = false → m x = .error (.exc absent u)
  loads : good → present = true → accessed = true → m x = .ok ((), after)

theorem validates_of {m load : M Unit} {x u after : State} {good : Prop} {b present accessed : Bool} {wrong absent : Exc}
    (h : m x = (check b wrong >>= fun _ => check present absent >>= fun _ => load) u) (hb : good ↔ b = true)
    (hl : accessed = true → load u = .ok ((), after)) : Validates m x u good present accessed wrong absent after := by
  refine ⟨fun hg => h.trans (M.bind_error (check_error _ _ (Bool.eq_false_iff.2 (hb.not.1 hg)))), fun hg hp => ?_, fun hg hp ha => ?_⟩
  · exact h.trans ((M.bind_ok (check_ok _ _ (hb.1 hg))).trans (M.bind_error (check_error _ _ hp)))
  · exact h.trans ((M.bind_ok (check_ok _ _ (hb.1 hg))).trans ((M.bind_ok (check_ok _ _ hp)).trans (hl ha)))

theorem taskCs_validates {x u : State} {d : Desc} (hn : 4 ≤ (x.seg .cs).sel.toNat) (h : fetchDesc (x.seg .cs).sel x = .ok (some d, u)) :
    Validates taskCs x u (d.goodFor .cs (selRpl (x.seg .cs).sel) x.cpl) d.present (d.d1.getLsbD 8) (excTS (x.seg .cs).sel)
      (excNP (x.seg .cs).sel) ((u.setSeg .cs (d.toSeg (x.seg .cs).sel)).withCpl (selRpl (x.seg .cs).sel)) := by
  refine validates_of (taskCs_desc hn h) ?_ fun ha => ?_
  · rw [Desc.goodFor, if_pos rfl]
    exact codeLevel_iff
  · exact (M.bind_ok (setAccessed_ok ha u)).trans rfl

theorem taskSs_validates {x u : State} {d : Desc} (hn : 4 ≤ (x.seg .ss).sel.toNat) (h : fetchDesc (x.seg .ss).sel x = .ok (some d, u)) :
    Validates taskSs x u (d.goodFor .ss (selRpl (x.seg .ss).sel) x.cpl) d.present (d.d1.getLsbD 8) (excTS (x.seg .ss).sel)
      (excSS (x.seg .ss).sel) (u.setSeg .ss (d.toSeg (x.seg .ss).sel)) := by
  refine validates_of (taskSs_desc hn h) ?_ fun ha => ?_
  · rw [Desc.goodFor, if_neg (by decide), if_pos rfl, Bool.and_eq_true, Bool.and_eq_true, beq_iff_eq, beq_iff_eq]
    exact Iff.rfl
  · exact (M.bind_ok (setAccessed_ok ha u)).trans rfl

theorem taskData_validates {x u : State} {r : Sreg} {d : Desc} (hc : r ≠ .cs) (hs : r ≠ .ss) (hn : 4 ≤ (x.seg r).sel.toNat)
    (h : fetchDesc (x.seg r).sel x = .ok (some d, u)) :
    Validates (taskData r) x u (d.goodFor r (selRpl (x.seg r).sel) x.cpl) d.present (d.d1.getLsbD 8) (excTS (x.seg r).sel)
      (excNP (x.seg r).sel) (u.setSeg r (d.toSeg (x.seg r).sel)) := by
  refine validates_of (taskData_desc hn h) ?_ fun ha => ?_
  · rw [Desc.goodFor, if_neg hc, if_neg hs, Bool.and_eq_true, Bool.or_eq_true, Bool.or_eq_true, Bool.and_eq_true, decide_eq_true_eq,
      decide_eq_true_eq]
    exact Iff.rfl
  · exact (M.bind_ok (setAccessed_ok ha u)).trans rfl

/-- The validation of any one segment register of the new task (R762). -/
theorem taskSegment_cases (x : State) (r : Sreg) (m : M Unit)
    (hm : (r = .cs ∧ m = taskCs) ∨ (r = .ss ∧ m = taskSs) ∨ (r ≠ .cs ∧ r ≠ .ss ∧ m = taskData r)) :
    let sel := (x.seg r).sel
    let rpl := sel.extractLsb' 0 2
    let code : HWord := sel &&& 0xFFFC
    let raises (vector : Byte) (u : State) : Prop := m x = .error (.exc ⟨vector, some code⟩ u)
    (sel.toNat < 4 → if r = .cs ∨ r = .ss then raises 10 x else m x = .ok ((), x)) ∧
    (4 ≤ sel.toNat → descAddress x.tables sel = none → raises 10 x) ∧
    (4 ≤ sel.toNat → ∀ d u, fetchDesc sel x = .ok (some d, u) →
      (¬ d.goodFor r rpl x.cpl → raises 10 u) ∧
      (d.goodFor r rpl x.cpl → d.present = false → if r = .ss then raises 12 u else raises 11 u) ∧
      (d.goodFor r rpl x.cpl → d.present = true → d.d1.getLsbD 8 = true → m x = .ok ((),
        if r = .cs then (u.setSeg r (d.toSeg sel)).withCpl rpl else u.setSeg r (d.toSeg sel)))) := by
  intro sel rpl code raises
  rcases hm with ⟨rfl, rfl⟩ | ⟨rfl, rfl⟩ | ⟨hc, hs, rfl⟩
  · refine ⟨fun h0 => ?_, fun hn hd => ?_, fun hn d u h => ?_⟩
    · rw [if_pos (.inl rfl)]
      exact (M.bind_ok (look_apply _ x)).trans (M.bind_error (notNull_exc h0 _ _))
    · exact (M.bind_ok (look_apply _ x)).trans ((M.bind_ok (notNull_ok hn _ _)).trans (M.bind_error (needDesc_beyond (.refl x) hd)))
    · obtain ⟨h1, h2, h3⟩ := taskCs_validates hn h
      exact ⟨h1, fun hg hp => by rw [if_neg (by decide)]; exact h2 hg hp, fun hg hp ha => by rw [if_pos rfl]; exact h3 hg hp ha⟩
  · refine ⟨fun h0 => ?_, fun hn hd => ?_, fun hn d u h => ?_⟩
    · rw [if_pos (.inr rfl)]
      exact (M.bind_ok (M.get_apply x)).trans (M.bind_error (notNull_exc h0 _ _))
    · exact (M.bind_ok (M.get_apply x)).trans ((M.bind_ok (notNull_ok hn _ _)).trans (M.bind_error (needDesc_beyond (.refl x) hd)))
    · obtain ⟨h1, h2, h3⟩ := taskSs_validates hn h
      exact ⟨h1, fun hg hp => by rw [if_pos rfl]; exact h2 hg hp, fun hg hp ha => by rw [if_neg (by decide)]; exact h3 hg hp ha⟩
  · refine ⟨fun h0 => ?_, fun hn hd => ?_, fun hn d u h => ?_⟩
    · rw [if_neg (not_or.2 ⟨hc, hs⟩), taskData, M.bind_ok (M.get_apply x), if_pos (selNull_true h0)]
      rfl
    · show taskData r x = _
      rw [taskData, M.bind_ok (M.get_apply x), selNull_false hn, if_neg Bool.false_ne_true, M.bind_error (needDesc_beyond (.refl x) hd)]
      rfl
    · obtain ⟨h1, h2, h3⟩ := taskData_validates hc hs hn h
      exact ⟨h1, fun hg hp => by rw [if_neg hs]; exact h2 hg hp, fun hg hp ha => by rw [if_neg hc]; exact h3 hg hp ha⟩

/-! ## All of them -/

theorem taskSegments_v86 {x y : State} (h : taskLdt x = .ok ((), y)) (hv : y.flags.vm = true) : taskSegments x = taskV86 y := by
  rw [taskSegments, M.bind_ok h, M.bind_ok (look_apply _ y), hv, if_pos rfl]

theorem taskSegments_prot {x y : State} (h : taskLdt x = .ok ((), y)) (hv : y.flags.vm = false) : taskSegments x =
    (taskCs >>= fun _ => taskSs >>= fun _ => taskData .ds >>= fun _ => taskData .es >>= fun _ => taskData .fs >>= fun _ =>
      taskData .gs) y := by
  rw [taskSegments, M.bind_ok h, M.bind_ok (look_apply _ y), hv, if_neg Bool.false_ne_true]

/-- Settles O59. -/
theorem taskState : Obligations.TaskState := by
  refine ⟨fun s tsel new kind cs eip f => ⟨taskSwitch_short, ?_⟩, fun x => ⟨taskLdt_null, taskLdt_bad, ?_⟩, taskSegment_cases,
    fun x y h => ⟨fun hv => ?_, ?_⟩⟩
  · intro hl save u1 oldBusy u2 newBusy u3 bytes u4 link u5 image u h1 h2 h3 h4 h5 h6 hok r nests after read dword word loaded
    refine ⟨taskImage_form h6, ?_⟩
    simp only [← clearsBusy_iff] at h2
    have g2 := planWhen_ok h2
    have g3 : (bif kind == .iret then pure [] else planBusy new.addr) u2 = .ok (newBusy, u3) := by
      by_cases hk : kind = .iret
      · rw [if_pos hk] at h3
        obtain ⟨rfl, rfl⟩ := h3
        rw [hk]
        rfl
      · rw [if_neg hk] at h3
        rw [beq_eq_false_iff_ne.2 hk]
        exact h3
    simp only [← nests_iff] at h5
    have g5 := planWhen_ok h5
    have c := composes_quiet
    have q : Quiet s u := by
      have q3 : OnOk Quiet (bif kind == .iret then pure [] else planBusy new.addr) := OnOk.cond (OnOk.pure c _) (quiet_sysPlan _ _)
      exact c.trans (c.trans (c.trans (c.trans (c.trans (quiet_sysPlan _ _ _ _ _ h1) (quiet_planWhen (quiet_sysPlan _ _) _ _ _ g2))
        (q3 _ _ _ g3)) (quiet_planLinear _ _ _ _ _ _ _ h4)) (quiet_planWhen (quiet_sysPlan _ _) _ _ _ g5))
        (quiet_taskImage _ _ _ _ _ _ _ h6)
    obtain ⟨t1, t2, t3, t4, w1, w2, w3, w4, w5, m, hb⟩ := switchStores_ends (back := s.tables.tr.sel) (image := image) q hok r
    refine ⟨_, taskSwitch_ok hl h1 g2 g3 h4 g5 h6 w1 w2 w3 w4 w5, hb, rfl, ?_, ?_, rfl, ?_, ?_, m.sys.cr2, rfl, rfl, ?_, ?_, m.sys.test,
      m.sys.pins, m.sys.params, m.sys.io⟩
    · show (bif loaded.vm then (3 : BitVec 2) else t4.cpl) = _
      rw [m.sys.cpl, Bool.cond_eq_ite]
    · have hn : kind.nests = decide nests := by rw [Bool.eq_iff_iff, nests_iff, decide_eq_true_iff]
      rw [← hn]
      rfl
    · simp only [enterTask, tssSel_eq]
      rfl
    · simp only [enterTask, m.sys.cr0]
    · simp only [enterTask, tssSel_eq, m.sys.tables]
      rfl
    · simp only [enterTask, m.sys.dregs]
  · intro hn ht d u h
    have good : (d.isSystem 2 && d.present) = true ↔ d.isSystem 2 = true ∧ d.present = true := Bool.and_eq_true_iff
    rw [taskLdt_desc hn ht h]
    exact ⟨fun hb => M.bind_error (check_error _ _ (Bool.eq_false_iff.2 (good.not.2 hb))),
      fun hg => M.bind_ok (check_ok _ _ (good.2 hg))⟩
  · intro real all
    have hreal (g : SegReg) (code : Bool) : real g code = SegReg.v86 g.sel code := by rw [SegReg.v86, realBase_eq]
    rw [taskSegments_v86 h hv]
    simp only [all, hreal]
    rfl
  · intro hv y1 y2 y3 y4 y5 y6 h1 h2 h3 h4 h5 h6
    rw [taskSegments_prot h hv]
    exact (M.bind_ok h1).trans ((M.bind_ok h2).trans ((M.bind_ok h3).trans ((M.bind_ok h4).trans ((M.bind_ok h5).trans h6))))

end Sys2Proof.Machine
end

section
/-!
PROOFS. The special registers, and what a level or a mode may not do (48_processor_control.md, 49_protection_control.md,
41_flag_control.md).
-/

namespace Sys2Proof.Machine

/-! ## What a state matches after its special registers changed -/

section
variable {e w : State} (h : Matches e w)
include h

theorem Matches.withCr0 (c : Cr0) : Matches (e.withCr0 c) (w.withCr0 c) :=
  ⟨h.regs, h.eip, h.flags, ⟨h.sys.cpl, h.sys.segs, rfl, h.sys.cr2, h.sys.cr3, h.sys.tables, h.sys.dregs, h.sys.test, h.sys.pins,
    h.sys.params, h.sys.io⟩, h.pfx, h.start, h.oldMode, h.held, h.shadow, h.activity, h.bs, h.bt⟩

theorem Matches.withCr3 (v : BitVec 20) : Matches (e.withCr3 v) (w.withCr3 v) :=
  ⟨h.regs, h.eip, h.flags, ⟨h.sys.cpl, h.sys.segs, h.sys.cr0, h.sys.cr2, rfl, h.sys.tables, h.sys.dregs, h.sys.test, h.sys.pins,
    h.sys.params, h.sys.io⟩, h.pfx, h.start, h.oldMode, h.held, h.shadow, h.activity, h.bs, h.bt⟩

theorem Matches.withTlb (l : List TlbEntry) : Matches e (w.withTlb l) :=
  ⟨h.regs, h.eip, h.flags, ⟨h.sys.cpl, h.sys.segs, h.sys.cr0, h.sys.cr2, h.sys.cr3, h.sys.tables, h.sys.dregs, h.sys.test, h.sys.pins,
    h.sys.params, h.sys.io⟩, h.pfx, h.start, h.oldMode, h.held, h.shadow, h.activity, h.bs, h.bt⟩

theorem Matches.keepAhead : Matches e w.keepAhead :=
  ⟨h.regs, h.eip, h.flags, ⟨h.sys.cpl, h.sys.segs, h.sys.cr0, h.sys.cr2, h.sys.cr3, h.sys.tables, h.sys.dregs, h.sys.test, h.sys.pins,
    h.sys.params, h.sys.io⟩, h.pfx, h.start, h.oldMode, h.held, h.shadow, h.activity, h.bs, h.bt⟩

theorem Matches.withWindow (x : Option ModeWindow) : Matches e (w.withFetch { w.fetch with window := x }) :=
  ⟨h.regs, h.eip, h.flags, ⟨h.sys.cpl, h.sys.segs, h.sys.cr0, h.sys.cr2, h.sys.cr3, h.sys.tables, h.sys.dregs, h.sys.test, h.sys.pins,
    h.sys.params, h.sys.io⟩, h.pfx, h.start, h.oldMode, h.held, h.shadow, h.activity, h.bs, h.bt⟩

end

/-- A new value of CR0 changes CR0; what the prefetch queue holds is not told of (R144, R601). -/
theorem matches_putCr0 (s : State) (c : Cr0) : Matches (s.withCr0 c) (s.putCr0 c) := by
  rw [State.putCr0]
  have kept : Matches s (bif c.pg == s.cr0.pg then s else s.keepAhead) := by
    cases c.pg == s.cr0.pg with
    | true => exact .refl s
    | false => exact (Matches.refl s).keepAhead
  have m := kept.withCr0 c
  cases c.pe == s.cr0.pe with
  | true => exact m
  | false => exact m.withWindow _

/-! ## Instructions that free the status flags -/

/-- A body that ends with all six status flags free, with no operand access. -/
theorem completes_freed {i : Instr} {s e w : State} {body : M Unit} (hi : exec i s = run body s) (hb : body s = freeFlags w)
    (m : Matches e w) (hm : w.mem = s.mem) (hf : e.flags = s.flags) (hp : e.pend.bs = s.pend.bs) :
    Completes i s fun t => DoneFreeFlags s e t ∧ t.tlb = w.tlb := by
  obtain ⟨cf, pf, af, zf, sf, of, t, hok, hmem, -, htlb, mt⟩ := freeFlags_ok w
  have m' : Matches (e.withFlags { s.flags with cf := cf, pf := pf, af := af, zf := zf, sf := sf, of := of }) t :=
    (m.withFlags _).trans ((m.flags.trans hf) ▸ mt)
  exact ⟨_, hi.trans (run_ok (hb.trans hok)), ⟨cf, pf, af, zf, sf, of, m'.done hp, (SameMemory.refl s).congr (hmem.trans hm)⟩, htlb⟩

/-- A body that checks, writes a special register and frees the status flags. -/
theorem completes_writeSpecial {i : Instr} {s e w : State} {need write : M Unit}
    (hi : exec i s = run (do need; write; freeFlags) s) (hn : need s = .ok ((), s)) (hw : write s = .ok ((), w)) (m : Matches e w)
    (hm : w.mem = s.mem) (hf : e.flags = s.flags) (hp : e.pend.bs = s.pend.bs) :
    Completes i s fun t => DoneFreeFlags s e t ∧ t.tlb = w.tlb :=
  completes_freed hi ((M.bind_ok hn).trans (M.bind_ok hw)) m hm hf hp

/-- A body that checks, loads a general register with a value that is drawn or read, and frees the status flags. -/
theorem completes_readSpecial {i : Instr} {s w : State} {reg : Gpr} {x : Word} {need : M Unit} {read : M Word}
    (hi : exec i s = run (do need; putReg .d reg (← read); freeFlags) s) (hn : need s = .ok ((), s)) (hr : read s = .ok (x, w))
    (m : Matches s w) (hm : w.mem = s.mem) : Completes i s (DoneFreeFlags s (s.setReg .d reg x)) := by
  obtain ⟨t, ht, hd, -⟩ := completes_freed hi ((M.bind_ok hn).trans (M.bind_ok hr)) (m.setReg .d reg x) hm rfl rfl
  exact ⟨t, ht, hd⟩

/-- A body that declines. -/
theorem run_refused {s : State} {body : M Unit} {r : Refusal} (h : body s = .error (.refuse r)) : run body s = .refused r :=
  congrArg (conclude s) (M.bind_error h)

/-! ## The words of the special registers (R44, R53, R54) -/

theorem cr0_toWord_bits (c : Cr0) (free : BitVec 26) : (c.toWord free).getLsbD 0 = c.pe ∧ (c.toWord free).getLsbD 1 = c.mp ∧
    (c.toWord free).getLsbD 2 = c.em ∧ (c.toWord free).getLsbD 3 = c.ts ∧ (c.toWord free).getLsbD 4 = c.et ∧
    (c.toWord free).getLsbD 31 = c.pg := by
  simp only [Cr0.toWord, BitVec.getLsbD_append]
  simp

theorem dr6_toWord_bits (d : Dr6) (low : BitVec 9) (high : BitVec 16) : (d.toWord low high).extractLsb' 0 4 = d.b ∧
    (d.toWord low high).getLsbD 13 = d.bd ∧ (d.toWord low high).getLsbD 14 = d.bs ∧ (d.toWord low high).getLsbD 15 = d.bt := by
  refine ⟨BitVec.extractLsb'_append_eq_right, ?_⟩
  simp only [Dr6.toWord, BitVec.getLsbD_append]
  simp

theorem dr7_ctl (ctl : BitVec 16) (h : BitVec 2) (a : BitVec 1) (l : BitVec 3) (b c : BitVec 1) (e : BitVec 8) :
    (ctl ++ h ++ a ++ l ++ b ++ c ++ e).extractLsb' 16 16 = ctl := by
  repeat rw [BitVec.extractLsb'_append_eq_of_le (by decide)]
  exact BitVec.extractLsb'_eq_self

theorem dr7_toWord_bits (d : Dr7) (low : BitVec 3) (high : BitVec 2) : (d.toWord low high).extractLsb' 0 8 = d.enables ∧
    (d.toWord low high).getLsbD 8 = d.le ∧ (d.toWord low high).getLsbD 9 = d.ge ∧ (d.toWord low high).getLsbD 13 = d.gd ∧
    (d.toWord low high).extractLsb' 16 16 = d.ctl := by
  refine ⟨BitVec.extractLsb'_append_eq_right, ?_⟩
  simp only [Dr7.toWord, BitVec.getLsbD_append]
  exact ⟨by simp, by simp, by simp, dr7_ctl _ _ _ _ _ _ _⟩

/-! ## The control registers (R601) -/

/-- A MOV to CR0 that would set PG with PE clear is declined (R601, U13). -/
theorem movCrR_refused {s : State} {reg : Gpr} (hc : s.cpl = 0)
    (h : (s.reg .d reg).getLsbD 31 = true ∧ (s.reg .d reg).getLsbD 0 = false) :
    exec (.movCrR .cr0 reg) s = .refused .pagingWithoutProtection := by
  have hcr : writeCr .cr0 (s.reg .d reg) s = .error (.refuse .pagingWithoutProtection) := by
    rw [writeCr, if_pos (by simp only [Cr0.ofWord, h]; rfl)]
    rfl
  exact run_refused (body := do needCpl0; writeCr .cr0 (s.reg .d reg); freeFlags) ((M.bind_ok (needCpl0_ok hc)).trans (M.bind_error hcr))

/-- Any other completes. -/
theorem writeCr0_ok {s : State} {v : Word} (h : ¬ (v.getLsbD 31 = true ∧ v.getLsbD 0 = false)) :
    writeCr .cr0 v s = .ok ((), s.putCr0 (Cr0.ofWord v)) := by
  have e : ((Cr0.ofWord v).pg && !(Cr0.ofWord v).pe) = false := by simpa [Cr0.ofWord] using h
  rw [writeCr, if_neg (by simp [e])]
  rfl

/-! ## General detect (R754) -/

theorem needDebug_ok {s : State} (hc : s.cpl = 0) (hg : s.dregs.dr7.gd = false) : needDebug s = .ok ((), s) := by
  rw [needDebug, M.bind_ok (needCpl0_ok hc), M.bind_ok (M.get_apply s), hg]
  rfl

/-- General detect reports itself in DR6, with breakpoints that matched without being enabled. -/
theorem needDebug_exc {s : State} (hc : s.cpl = 0) (hg : s.dregs.dr7.gd = true) : ∃ told : BitVec 4, needDebug s = .error (.exc excDB
    ((s.withDebug { s.dregs with dr6 := { s.dregs.dr6 with b := s.dregs.dr6.b ||| (s.pend.near &&& told), bd := true } }).withDraws
      (s.draws + 1))) := by
  refine ⟨Config.freeBits 4 s.draws, ?_⟩
  rw [needDebug, M.bind_ok (needCpl0_ok hc), M.bind_ok (M.get_apply s), hg, if_pos rfl, M.bind_ok (drawBits_apply 4 s),
    M.bind_ok (update_apply _ _), raise_apply]
  simp [Dr6.report, State.withDebug, State.withDraws]


theorem movRCr_done {s w : State} {x : Word} (cr : CrReg) (reg : Gpr) (hc : s.cpl = 0) (h : readCr cr s = .ok (x, w)) (m : Matches s w)
    (hm : w.mem = s.mem) : Completes (.movRCr reg cr) s (DoneFreeFlags s (s.setReg .d reg x)) :=
  completes_readSpecial rfl (needCpl0_ok hc) h m hm

theorem movCrR_done {s e w : State} (cr : CrReg) (reg : Gpr) (hc : s.cpl = 0) (h : writeCr cr (s.reg .d reg) s = .ok ((), w))
    (m : Matches e w) (hm : w.mem = s.mem) (hf : e.flags = s.flags) (hp : e.pend.bs = s.pend.bs) :
    Completes (.movCrR cr reg) s fun t => DoneFreeFlags s e t ∧ t.tlb = w.tlb :=
  completes_writeSpecial rfl (needCpl0_ok hc) h m hm hf hp

theorem Completes.left {i : Instr} {s : State} {p q : State → Prop} (h : Completes i s fun t => p t ∧ q t) : Completes i s p := by
  obtain ⟨t, ht, hp, -⟩ := h
  exact ⟨t, ht, hp⟩

/-- Settles O49. -/
theorem specialRegisters : Obligations.SpecialRegisters := by
  refine ⟨fun s reg hc => ?_, fun s reg hc => ?_⟩
  · intro v
    refine ⟨?_, ?_, ?_, fun h => ?_, movCrR_refused hc, ?_, ?_⟩
    · obtain ⟨t, ht, hd⟩ := movRCr_done (x := s.cr0.toWord (Config.freeBits 26 s.draws)) .cr0 reg hc rfl (matches_withDraws s _) rfl
      exact ⟨t, ht, _, hd, cr0_toWord_bits _ _⟩
    · exact movRCr_done .cr2 reg hc rfl (.refl s) rfl
    · obtain ⟨t, ht, hd⟩ := movRCr_done (x := s.cr3 ++ Config.freeBits 12 s.draws) .cr3 reg hc rfl (matches_withDraws s _) rfl
      exact ⟨t, ht, _, hd⟩
    · exact (movCrR_done .cr0 reg hc (writeCr0_ok h) (matches_putCr0 s _) (putCr0_kept s _).2.2 rfl rfl).left
    · exact (movCrR_done (e := s.withCr2 v) .cr2 reg hc rfl (.refl _) rfl rfl rfl).left
    · have m : Matches s (bif s.pagingOn then s.keepAhead else s) := by
        cases s.pagingOn with
        | true => exact (Matches.refl s).keepAhead
        | false => exact .refl s
      have hm : (bif s.pagingOn then s.keepAhead else s).mem = s.mem := by
        cases s.pagingOn <;> rfl
      exact movCrR_done .cr3 reg hc rfl ((m.withCr3 _).withTlb []) hm rfl rfl
  · intro v d
    refine ⟨fun hg => ?_, fun hg dr i hi => ?_, ?_, ?_, ?_, ?_⟩
    · have reads (dr : DrReg) {x w} (h : readDr dr s = .ok (x, w)) (m : Matches s w) (hm : w.mem = s.mem) :
          Completes (.movRDr reg dr) s (DoneFreeFlags s (s.setReg .d reg x)) :=
        completes_readSpecial rfl (needDebug_ok hc hg) h m hm
      have writes (dr : DrReg) : Completes (.movDrR dr reg) s (DoneFreeFlags s (s.withDebug (s.dregs.put dr (s.reg .d reg)))) :=
        (completes_writeSpecial (e := s.withDebug (s.dregs.put dr (s.reg .d reg))) rfl (needDebug_ok hc hg) rfl (.refl _) rfl rfl
          rfl).left
      refine ⟨⟨reads .dr0 rfl (.refl s) rfl, reads .dr1 rfl (.refl s) rfl, reads .dr2 rfl (.refl s) rfl, reads .dr3 rfl (.refl s) rfl⟩,
        ?_, ?_, writes .dr0, writes .dr1, writes .dr2, writes .dr3, writes .dr6, writes .dr7⟩
      · obtain ⟨t, ht, hd⟩ := reads .dr6 rfl (matches_withDraws s (s.draws + 2)) rfl
        exact ⟨t, ht, _, hd, dr6_toWord_bits _ _ _⟩
      · obtain ⟨t, ht, hd⟩ := reads .dr7 rfl (matches_withDraws s (s.draws + 2)) rfl
        exact ⟨t, ht, _, hd, hg ▸ dr7_toWord_bits _ _ _⟩
    · obtain ⟨told, h⟩ := needDebug_exc hc hg
      refine ⟨s.pend.near &&& told, s.draws + 1, ?_, ?_⟩
      · rw [BitVec.and_assoc, BitVec.and_comm told, ← BitVec.and_assoc, BitVec.and_self]
      · obtain rfl | rfl := hi
        · exact faults_of (e := excDB) (body := do needDebug; putReg .d reg (← readDr dr); freeFlags) rfl (M.bind_error h) (by decide)
        · exact faults_of (e := excDB) (body := do
            needDebug
            update fun t => t.withDebug (t.dregs.put dr (s.reg .d reg))
            freeFlags) rfl (M.bind_error h) (by decide)
    · exact completes_readSpecial (read := pure (s.test.get .tr6)) rfl (needCpl0_ok hc) rfl (.refl s) rfl
    · exact completes_readSpecial (read := pure (s.test.get .tr7)) rfl (needCpl0_ok hc) rfl (.refl s) rfl
    · exact (completes_writeSpecial (e := s.withTest { s.test with tr6 := v }) rfl (needCpl0_ok hc) rfl (.refl _) rfl rfl rfl).left
    · exact (completes_writeSpecial (e := s.withTest { s.test with tr7 := v }) rfl (needCpl0_ok hc) rfl (.refl _) rfl rfl rfl).left

/-! ## What is trapped (R43, R302, R305 to R307, R570, R578, R600 to R603, R640) -/

theorem needIopl_exc {s : State} (hr : s.realMode = false) (h : s.flags.iopl.toNat < s.cpl.toNat) :
    needIopl s = .error (.exc (excGP 0) s) := by
  have e : (s.realMode || decide (s.cplNat ≤ s.ioplNat)) = false := by
    rw [hr, Bool.false_or, decide_eq_false_iff_not]
    exact not_le.mpr h
  rw [needIopl, M.bind_ok (M.get_apply s), e]
  rfl

theorem needV86Iopl_exc {s : State} (hv : s.v86Mode = true) (h : s.flags.iopl ≠ 3) : needV86Iopl s = .error (.exc (excGP 0) s) := by
  have e : (!s.v86Mode || s.flags.iopl == 3) = false := by simpa [hv] using h
  rw [needV86Iopl, M.bind_ok (M.get_apply s), e]
  rfl

/-- An instruction whose body begins with a check that fails. -/
theorem faults_first {α : Type} {i : Instr} {s : State} {e : Exc} {need : M α} {f : α → M Unit} (hi : exec i s = run (need >>= f) s)
    (hn : need s = .error (.exc e s)) (h9 : e.vector ≠ 9) : Faults i s e.vector e.code s := faults_of hi (M.bind_error hn) h9

theorem faults_level {α : Type} {i : Instr} {s : State} {need : M α} {f : α → M Unit} (hi : exec i s = run (need >>= f) s)
    (hn : need s = .error (.exc (excGP 0) s)) : Faults i s 13 (some 0) s := faults_first (e := excGP 0) hi hn (by decide)

theorem faults_mode {i : Instr} {s : State} {f : Unit → M Unit} (hi : exec i s = run (needProtMode >>= f) s) (h : s.protMode = false) :
    Faults i s 6 none s := faults_first (e := excUD) hi (needProtMode_exc h) (by decide)

/-- Settles O53. -/
theorem privilegeTraps : Obligations.PrivilegeTraps := by
  refine fun s => ⟨fun hc i hi => ?_, fun hr hl => ?_, fun hv hl => ?_, fun hp i hi => ?_⟩
  · have h0 := needCpl0_exc hc
    have hd : needDebug s = .error (.exc (excGP 0) s) := M.bind_error h0
    obtain rfl | rfl | ⟨m, rfl | rfl⟩ | ⟨rm, rfl⟩ | ⟨reg, cr, rfl | rfl⟩ | ⟨reg, dr, rfl | rfl⟩ | ⟨reg, tr, rfl | rfl⟩ |
      ⟨hp, rm, rfl | rfl⟩ := hi
    · exact faults_level (need := needCpl0) rfl h0
    · exact faults_level (need := needCpl0) rfl h0
    · exact faults_level (need := loadTable m) rfl (M.bind_error h0)
    · exact faults_level (need := loadTable m) rfl (M.bind_error h0)
    · exact faults_level (need := needCpl0) rfl h0
    · exact faults_level (need := needCpl0) rfl h0
    · exact faults_level (need := needCpl0) rfl h0
    · exact faults_level (need := needDebug) rfl hd
    · exact faults_level (need := needDebug) rfl hd
    · exact faults_level (need := needCpl0) rfl h0
    · exact faults_level (need := needCpl0) rfl h0
    · exact faults_of (e := excGP 0) (i := .lldt rm) rfl ((M.bind_ok (needProtMode_ok hp)).trans (M.bind_error h0)) (by decide)
    · exact faults_of (e := excGP 0) (i := .ltr rm) rfl ((M.bind_ok (needProtMode_ok hp)).trans (M.bind_error h0)) (by decide)
  · have h := needIopl_exc hr hl
    exact ⟨faults_level rfl h, faults_level rfl h⟩
  · have h := needV86Iopl_exc hv hl
    have hr : s.realMode = false := by rw [State.realMode, (Bool.and_eq_true_iff.1 hv).1, Bool.not_true]
    have hb : (s.flags.iopl == 3) = false := beq_false_of_ne hl
    refine ⟨faults_level rfl h, ?_, fun v => ?_, ?_⟩
    · exact faults_of_ending (e := excGP 0) rfl (M.bind_error h) (by decide)
    · refine faults_of (e := excGP 0) (body := raise (excGP 0)) ?_ rfl (by decide)
      show execInt v s = _
      rw [execInt, if_pos (by rw [hv, bne, hb]; rfl)]
    · have hb' : returnInterrupt s = .error (.exc (excGP 0) s.nmiFreed) := by
        refine (M.bind_ok (M.get_apply s)).trans ((M.bind_ok (update_apply _ s)).trans ?_)
        rw [hr, hv, hb]
        rfl
      have freed : Faults .iret s 13 (some 0) s.nmiFreed := faults_of_ending (e := excGP 0) rfl hb' (by decide)
      exact freed
  · obtain ⟨rm, rfl | rfl | rfl | rfl | rfl | rfl⟩ | ⟨reg, rm, rfl | rfl | rfl⟩ := hi
    · exact faults_mode rfl hp
    · exact faults_mode rfl hp
    · exact faults_mode rfl hp
    · exact faults_mode rfl hp
    · exact faults_mode rfl hp
    · exact faults_mode rfl hp
    · exact faults_mode rfl hp
    · exact faults_mode rfl hp
    · exact faults_mode rfl hp

end Sys2Proof.Machine
end

section
/-!
PROOFS. HLT, WAIT and ESC (48_processor_control.md R600, R611, R612).
-/

namespace Sys2Proof.Machine

/-! ## WAIT and the coprocessor's signals (R611) -/

theorem coprocBusy_iff (s : State) : s.coprocBusy = true ↔ s.params.coproc ≠ .none ∧ s.pins.busy = true := by
  rw [State.coprocBusy, Bool.and_eq_true, bne_iff_ne, and_comm]

theorem coprocError_iff (s : State) : s.coprocError = true ↔ s.params.coproc ≠ .none ∧ s.pins.error = true := by
  rw [State.coprocError, Bool.and_eq_true, bne_iff_ne, and_comm]

/-- What WAIT does once #NM is out of the way. -/
def waitBody (s : State) : M Ending :=
  if s.coprocBusy then do
    rewind
    pure Ending.wait
  else do
    check (!s.coprocError) excMF
    pure Ending.plain

theorem wait_comesTo {s : State} (h : ¬ (s.cr0.ts = true ∧ s.cr0.mp = true)) : ComesTo .wait s (waitBody s) s := by
  have hm : (!(s.cr0.ts && s.cr0.mp)) = true := by simpa [← Bool.not_eq_true, ← not_and_or] using h
  exact ⟨_, rfl, M.bind_ok (check_ok excNM s hm)⟩

theorem wait_unavailable {s : State} (h : s.cr0.ts = true ∧ s.cr0.mp = true) : Faults .wait s 7 none s := by
  have hm : (!(s.cr0.ts && s.cr0.mp)) = false := by simp [h]
  exact faults_of_ending (e := excNM) (body := check (!(s.cr0.ts && s.cr0.mp)) excNM >>= fun _ => waitBody s) rfl
    (M.bind_error (check_error excNM s hm)) (by decide)

theorem waitBody_ready {s : State} (hb : s.coprocBusy = false) (he : s.coprocError = false) :
    waitBody s s = .ok (Ending.plain, s) := by
  rw [waitBody, hb, he]
  rfl

theorem waitBody_error {s : State} (hb : s.coprocBusy = false) (he : s.coprocError = true) :
    waitBody s s = .error (.exc excMF s) := by
  rw [waitBody, hb, he]
  rfl

theorem waitBody_busy {s : State} (hb : s.coprocBusy = true) : waitBody s s = .ok (Ending.wait, s.withEip s.fetch.start) := by
  rw [waitBody, hb]
  rfl

/-- WAIT that still waits has changed nothing but where it stands. -/
theorem retire_wait (s w : State) : w.retire s Ending.wait = (w.withPfx Prefixes.empty).inOwnMode := by
  simp only [State.retire, Ending.wait, Bool.and_true, cond_true, Bool.and_false, Bool.or_false]
  rfl

/-! ## ESC (R612) -/

/-- How the coprocessor leaves its signals. -/
def escSignals : M Unit := do
  let busy ← drawBit
  let error ← drawBit
  update fun t => t.withPins { t.pins with busy := busy, error := error }

theorem escSignals_ok {e w : State} (m : Matches e w) : ∃ busy error t, escSignals w = .ok ((), t) ∧ t.mem = w.mem ∧
    Matches (e.withPins { e.pins with busy := busy, error := error }) t := by
  have h : escSignals w = .ok ((), (w.withDraws (w.draws + 2)).withPins
    { w.pins with busy := Config.freeBit w.draws, error := Config.freeBit (w.draws + 1) }) := rfl
  refine ⟨Config.freeBit w.draws, Config.freeBit (w.draws + 1), _, h, rfl, ?_⟩
  rw [← m.sys.pins]
  exact (m.trans (matches_withDraws w _)).withPins _

/-- The meaning of ESC, told in its parts. -/
def escBody (ttt lll : BitVec 3) (rm : Rm) (s : State) : M Unit := do
  check (!(s.cr0.em || s.cr0.ts)) excNM
  (if s.params.coproc = .none then stopFault .noCoprocessor else pure ())
  check (!s.coprocError || Config.escNoWait ttt lll (escByte lll rm)) excMF
  escStep ttt lll rm

theorem exec_esc (ttt lll : BitVec 3) (rm : Rm) (s : State) : exec (.esc ttt lll rm) s = run (escBody ttt lll rm s) s := rfl

theorem escSpared_iff {s : State} (hp : s.params.coproc ≠ .none) (ttt lll : BitVec 3) (rm : Rm) :
    (!s.coprocError || Config.escNoWait ttt lll (escByte lll rm)) = true ↔
    s.pins.error = false ∨ Config.escNoWait ttt lll (escByte lll rm) = true := by
  rw [Bool.or_eq_true, Bool.not_eq_true', ← Bool.not_eq_true, coprocError_iff, ← Bool.not_eq_true]
  exact or_congr_left (not_congr (and_iff_right hp))

section
variable {s : State} {ttt lll : BitVec 3} {rm : Rm}

theorem esc_unavailable (h : s.cr0.em = true ∨ s.cr0.ts = true) : Faults (.esc ttt lll rm) s 7 none s := by
  have h1 : (!(s.cr0.em || s.cr0.ts)) = false := by
    rw [← Bool.or_eq_true] at h
    rw [h, Bool.not_true]
  exact faults_of (e := excNM) (exec_esc ttt lll rm s) (M.bind_error (check_error _ s h1)) (by decide)

variable (hs : s.cr0.em = false ∧ s.cr0.ts = false)
include hs

theorem escBody_available : escBody ttt lll rm s s = (do
    (if s.params.coproc = .none then stopFault .noCoprocessor else pure ())
    check (!s.coprocError || Config.escNoWait ttt lll (escByte lll rm)) excMF
    escStep ttt lll rm : M Unit) s := M.bind_ok (check_ok _ s (by simp [hs]))

theorem esc_stuck (hp : s.params.coproc = .none) : exec (.esc ttt lll rm) s = .fault .noCoprocessor := by
  have hb : escBody ttt lll rm s s = .error (.fault .noCoprocessor) :=
    (escBody_available hs).trans (M.bind_error (by rw [if_pos hp]; rfl))
  exact (exec_esc ttt lll rm s).trans (congrArg (conclude s) (M.bind_error hb))

variable (hp : s.params.coproc ≠ .none)
include hp

theorem escBody_present : escBody ttt lll rm s s = (do
    check (!s.coprocError || Config.escNoWait ttt lll (escByte lll rm)) excMF
    escStep ttt lll rm : M Unit) s := (escBody_available hs).trans (M.bind_ok (by rw [if_neg hp]; rfl))

theorem esc_error (h : ¬ (s.pins.error = false ∨ Config.escNoWait ttt lll (escByte lll rm) = true)) :
    Faults (.esc ttt lll rm) s 16 none s := by
  rw [← escSpared_iff hp, Bool.not_eq_true] at h
  exact faults_of (e := excMF) (exec_esc ttt lll rm s) ((escBody_present hs hp).trans (M.bind_error (check_error _ s h))) (by decide)

theorem esc_comesTo (h : s.pins.error = false ∨ Config.escNoWait ttt lll (escByte lll rm) = true) :
    ComesTo (.esc ttt lll rm) s (escStep ttt lll rm >>= fun _ => pure Ending.plain) s := by
  rw [← escSpared_iff hp] at h
  refine (ComesTo.of_run (exec_esc ttt lll rm s)).step ?_
  rw [M.bind_apply, M.bind_apply, (escBody_present hs hp).trans (M.bind_ok (check_ok _ s h))]

end

/-! ## The memory operand of an ESC (R612, R711) -/

theorem freeBytes_ok (n : Nat) (s : State) : ∃ bs k, freeBytes n s = .ok (bs, s.withDraws k) ∧ bs.length = n := by
  induction n generalizing s with
  | zero => exact ⟨[], s.draws, rfl, rfl⟩
  | succ n ih =>
    obtain ⟨bs, k, h, hl⟩ := ih (s.withDraws (s.draws + 1))
    exact ⟨_ :: bs, k, (M.bind_ok (drawBits_apply 8 s)).trans ((M.bind_ok h).trans rfl), congrArg (· + 1) hl⟩

section
variable {n : Nat} {store : Bool} {sr : Sreg} {off : Word} {s u1 : State} (q : Quiet s u1)
include q

theorem escMemory_first (h : (s.seg sr).legal s.protMode off (max 1 (min n 2)) store = false) :
    escMemory n store sr off u1 = .error (.exc (segExc sr) u1) := by
  rw [← q.matches.seg, ← q.matches.protMode] at h
  exact (M.bind_ok (M.get_apply u1)).trans (M.bind_error (check_error _ _ h))

variable (h1 : (s.seg sr).legal s.protMode off (max 1 (min n 2)) store = true)
include h1

theorem escMemory_none (h0 : n = 0) : escMemory n store sr off u1 = .ok ((), u1) := by
  rw [← q.matches.seg, ← q.matches.protMode] at h1
  refine (M.bind_ok (M.get_apply u1)).trans ((M.bind_ok (check_ok _ _ h1)).trans ?_)
  rw [if_pos h0]
  rfl

/-- The accesses of an operand that is not empty. -/
def escAccess (n : Nat) (store : Bool) (la : Word) (user : Bool) : M Unit := do
  let ps ← planLinear la n store user
  if store then
    let bs ← freeBytes n
    physWrite ps bs
  else
    let _ ← physRead ps
    pure ()

theorem escMemory_some (h0 : n ≠ 0) : escMemory n store sr off u1 =
    (check ((s.seg sr).legal s.protMode off n store) excOverrun >>= fun _ => escAccess n store ((s.seg sr).base + off) s.userLevel)
      u1 := by
  have hu : u1.userLevel = s.userLevel := by rw [State.userLevel, State.userLevel, q.sys.cpl]
  rw [← q.matches.seg, ← q.matches.protMode, ← hu]
  rw [← q.matches.seg, ← q.matches.protMode] at h1
  refine (M.bind_ok (M.get_apply u1)).trans ((M.bind_ok (check_ok _ _ h1)).trans ?_)
  rw [if_neg h0]
  rfl

end

/-- The step of an ESC: what the coprocessor does with its operand, and then its signals. -/
theorem escStep_ok {i : Instr} {ttt lll : BitVec 3} {rm : Rm} {s e w : State}
    (hc : ComesTo i s (escStep ttt lll rm >>= fun _ => pure Ending.plain) s) (h : escStep ttt lll rm s = escSignals w)
    (m : Matches e w) (hb : e.pend.bs = s.pend.bs) : ∃ busy error t, exec i s = .next t ∧
      Done s (e.withPins { e.pins with busy := busy, error := error }) t ∧ t.mem = w.mem := by
  obtain ⟨busy, error, t, ht, hm, mt⟩ := escSignals_ok m
  exact ⟨busy, error, _, hc.next (plain_ok (h.trans ht)), mt.done hb, hm⟩

/-- The memory operand of an ESC, placed and accessed. -/
def escOperandAccess (ttt lll : BitVec 3) (m : MemOp) (s : State) : M Unit := do
  let a ← addressOf m
  let operand := Config.escOperand ttt lll (BitVec.ofBool s.op32 ++ BitVec.ofBool s.protMode)
  escMemory (operand.1 % 128) operand.2 a.1 a.2

theorem escStep_mem {ttt lll : BitVec 3} {m : MemOp} {sr : Sreg} {off : Word} {s u1 : State} (h : addressOf m s = .ok ((sr, off), u1)) :
    escStep ttt lll (.mem m) s = (escMemory ((Config.escOperand ttt lll (BitVec.ofBool s.op32 ++ BitVec.ofBool s.protMode)).1 % 128)
      (Config.escOperand ttt lll (BitVec.ofBool s.op32 ++ BitVec.ofBool s.protMode)).2 sr off >>= fun _ => escSignals) u1 := by
  have form : escStep ttt lll (.mem m) s = (escOperandAccess ttt lll m s >>= fun _ => escSignals) s := rfl
  rw [form, M.bind_apply, escOperandAccess, M.bind_ok h]
  exact (M.bind_apply _ _ _).symm

theorem escStep_ax {ttt lll : BitVec 3} {r : Gpr} (h : ttt = 7 ∧ lll = 4 ∧ r = .ax) (s : State) : escStep ttt lll (.reg r) s =
    escSignals ((s.withDraws (s.draws + 1)).setReg .w .ax (Config.freeBits 16 s.draws)) := by
  obtain ⟨rfl, rfl, rfl⟩ := h
  rfl

theorem escStep_reg {ttt lll : BitVec 3} {r : Gpr} (h : ¬ (ttt = 7 ∧ lll = 4 ∧ r = .ax)) (s : State) :
    escStep ttt lll (.reg r) s = escSignals s := by
  have hx : (if ttt = 7 ∧ lll = 4 ∧ r = .ax then (do putReg .w .ax (← drawBits 16) : M Unit) else pure ()) s = .ok ((), s) := by
    rw [if_neg h]
    rfl
  exact (M.bind_ok (M.get_apply s)).trans (M.bind_ok hx)

/-- A segment violation as its vector and error code (R110). -/
theorem segExc_eq (r : Sreg) : segExc r = ⟨if r = .ss then 12 else 13, some 0⟩ := by
  rw [segExc]
  split <;> rfl

theorem ComesTo.raises {i : Instr} {s u w : State} {m : M Ending} {e : Exc} (h : ComesTo i s m u) (he : m u = .error (.exc e w)) :
    exec i s = take (e.event s) (s.abandon w) := by
  obtain ⟨body, h1, h2⟩ := h
  exact h1.trans (runEnding_exc (h2.trans he))

/-- The coprocessor segment overrun is told of the next instruction (R711). -/
theorem overrun_event (s : State) : excOverrun.event s =
    { vector := 9, kind := .exception, code := none, ret := s.eip, faultRet := s.eip, rf := false, cs := none } := rfl

theorem escAccess_read {n : Nat} {la : Word} {user : Bool} {ps : List Word} {s u1 u : State} (q : Quiet s u)
    (hpl : planLinear la n false user u1 = .ok (ps, u)) (r : AllRam s ps) : escAccess n false la user u1 = .ok ((), u) :=
  (M.bind_ok hpl).trans (M.bind_ok (physRead_ram (r.congr q.sys.params)))

theorem escAccess_store {n : Nat} {la : Word} {user : Bool} {ps : List Word} {s u1 u : State} (q : Quiet s u)
    (hpl : planLinear la n true user u1 = .ok (ps, u)) (r : Storable s ps) : ∃ bs t, escAccess n true la user u1 = .ok ((), t) ∧
      bs.length = n ∧ Matches s t ∧ Stored ps bs u t := by
  obtain ⟨bs, k, hb, hl⟩ := freeBytes_ok n u
  obtain ⟨t, h1, h2, h3⟩ := physWrite_ram (bs := bs) (s := u.withDraws k) (r.2.congr q.sys.params)
  exact ⟨bs, t, (M.bind_ok hpl).trans ((M.bind_ok hb).trans h1), hl, (q.matches.trans (matches_withDraws u k)).trans h2.matches,
    (h3 (q.memOk r.1)).congr rfl rfl⟩

/-- Settles O50. -/
theorem hltWaitEsc : Obligations.HltWaitEsc := by
  refine fun s => ⟨fun hc => ?_, wait_unavailable, fun hm => ⟨fun hb he => ?_, fun hb he => ?_, fun hb => ?_⟩, fun ttt lll rm =>
    ⟨esc_unavailable, fun hs => ⟨fun hp => esc_stuck hs (not_not.1 hp), fun hp => ⟨esc_error hs hp, fun hr r hrm => ?_,
      fun hr m sr off u1 hrm ha => ?_⟩⟩⟩⟩
  · exact completes_still rfl (M.bind_ok (needCpl0_ok hc)) (.refl (s.withActivity .halted)) rfl rfl
  · rw [← coprocBusy_iff, Bool.not_eq_true] at hb
    rw [← coprocError_iff, Bool.not_eq_true] at he
    exact (wait_comesTo hm).completes_quiet (waitBody_ready hb he) (.refl s) rfl (.refl s) rfl
  · rw [← coprocBusy_iff, Bool.not_eq_true] at hb
    exact (wait_comesTo hm).faults (waitBody_error hb ((coprocError_iff s).2 he)) (by decide)
  · exact ((wait_comesTo hm).next (waitBody_busy ((coprocBusy_iff s).2 hb))).trans (congrArg _ (retire_wait _ _))
  · subst hrm
    have hc := esc_comesTo hs hp hr
    by_cases hx : ttt = 7 ∧ lll = 4 ∧ r = .ax
    · obtain ⟨busy, error, t, ht, hd, hm⟩ := escStep_ok hc (escStep_ax hx s) ((matches_withDraws s _).setReg _ _ _) rfl
      exact ⟨t, ht, busy, error, Config.freeBits 16 s.draws, by rw [if_pos hx]; exact hd, (SameMemory.refl s).congr hm⟩
    · obtain ⟨busy, error, t, ht, hd, hm⟩ := escStep_ok hc (escStep_reg hx s) (.refl s) rfl
      exact ⟨t, ht, busy, error, 0, by rw [if_neg hx]; exact hd, (SameMemory.refl s).congr hm⟩
  · subst hrm
    intro operand n first all
    have q := quiet_addressOf _ _ _ _ ha
    have hc := esc_comesTo hs hp hr
    refine ⟨fun hf => ?_, fun hf h0 hall => ?_, fun hf h0 => ?_, fun hf h0 hall ps u hpl => ?_⟩
    · have hx : escMemory n operand.2 sr off u1 = .error (.exc ⟨if sr = .ss then 12 else 13, some 0⟩ u1) := by
        rw [← segExc_eq]
        exact escMemory_first q hf
      have h9 : (if sr = .ss then (12 : Byte) else 13) ≠ 9 := by split <;> decide
      exact hc.faults (M.bind_error ((escStep_mem ha).trans (M.bind_error hx))) h9
    · have hx : escMemory n operand.2 sr off u1 = .error (.exc excOverrun u1) :=
        (escMemory_some q hf h0).trans (M.bind_error (check_error _ _ hall))
      rw [← overrun_event]
      exact hc.raises (M.bind_error ((escStep_mem ha).trans (M.bind_error hx)))
    · have hx := escMemory_none q hf h0
      obtain ⟨busy, error, t, ht, hd, hm⟩ := escStep_ok hc ((escStep_mem ha).trans (M.bind_ok hx)) q.matches rfl
      exact ⟨t, ht, busy, error, hd, q.mem.congr hm⟩
    · have hx := (escMemory_some q hf h0).trans (M.bind_ok (check_ok _ _ hall))
      have qu := composes_quiet.trans q (quiet_planLinear _ _ _ _ _ _ _ hpl)
      refine ⟨fun hst r => ?_, fun hst r => ?_⟩
      · have hpl' := hst ▸ hpl
        have hx' := hx.trans (hst ▸ escAccess_read qu hpl' r)
        obtain ⟨busy, error, t, ht, hd, hm⟩ := escStep_ok hc ((escStep_mem ha).trans (M.bind_ok hx')) qu.matches rfl
        exact ⟨t, ht, busy, error, hd, qu.mem.congr hm⟩
      · have hpl' := hst ▸ hpl
        obtain ⟨bs, w, hw, hl, mw, hb⟩ := escAccess_store qu hpl' r
        have hx' := hx.trans (hst ▸ hw)
        obtain ⟨busy, error, t, ht, hd, hm⟩ := escStep_ok hc ((escStep_mem ha).trans (M.bind_ok hx')) mw rfl
        exact ⟨t, ht, busy, error, bs, hl, hd, qu.mem, hb.congr rfl hm⟩

end Sys2Proof.Machine
end

section
/-!
PROOFS. Protection control: selectors examined without a fault, and the table registers (49_protection_control.md).
-/

namespace Sys2Proof.Machine

/-! ## Shapes -/

/-- A body that ends in ZF. -/
theorem completes_zf {i : Instr} {s u : State} {b : Bool} {body : M Unit} (hi : exec i s = run body s)
    (hb : body s = putFlags (fun f => { f with zf := b }) u) (q : Quiet s u) :
    Completes i s (DoneQuiet s (s.withFlags { s.flags with zf := b })) :=
  completes_quiet_of hi (hb.trans (putFlags_apply _ u)) q.mem (q.matches.mapFlags fun f => { f with zf := b }) rfl rfl

/-! ## ARPL (R641) -/

theorem selRpl_toNat (v : HWord) : (selRpl v).toNat = (v &&& 3).toNat := by
  rw [selRpl, BitVec.extractLsb'_toNat, BitVec.toNat_and]
  exact (Nat.and_two_pow_sub_one_eq_mod v.toNat 2).symm

theorem withRpl_selRpl (v x : HWord) : withRpl v (selRpl x) = v &&& 0xFFFC ||| (x &&& 3) := by
  apply BitVec.eq_of_getLsbD_eq
  intro i hi
  rw [withRpl, selRpl, BitVec.getLsbD_append, BitVec.getLsbD_or, BitVec.getLsbD_and, BitVec.getLsbD_and, BitVec.getLsbD_extractLsb',
    BitVec.getLsbD_extractLsb']
  interval_cases i <;> simp

/-- What ARPL makes of its destination. -/
def raiseRpl (rpl : BitVec 2) (x : Target) (v : HWord) : M Unit :=
  if (selRpl v).toNat < rpl.toNat then do
    let p ← placeOf .w x
    putFlags fun f => { f with zf := true }
    putPlace .w p (withRpl v rpl)
  else putFlags fun f => { f with zf := false }

section
variable {s u0 u1 : State} {reg : Gpr} {rm : Rm} {x : Target} {v : HWord} (hp : s.protMode = true) (ht : targetRm rm s = .ok (x, u0))
  (hv : inspect .w x u0 = .ok (v, u1))
include hp ht hv

theorem exec_arpl : ∃ body, exec (.arpl reg rm) s = run body s ∧ body s = raiseRpl (selRpl (s.reg .w reg)) x v u1 :=
  ⟨_, rfl, (M.bind_ok (needProtMode_ok hp)).trans ((M.bind_ok ht).trans (M.bind_ok hv))⟩

theorem arpl_raises (h : (v &&& 3).toNat < (s.reg .w reg &&& 3).toNat) {p : Place} {u : State} (hpl : placeOf .w x u1 = .ok (p, u))
    (r : p.ready s) : Completes (.arpl reg rm) s
      (DonePlace .w p (v &&& 0xFFFC ||| (s.reg .w reg &&& 3)) s (s.withFlags { s.flags with zf := true }) u) := by
  obtain ⟨body, hi, hb⟩ := exec_arpl (reg := reg) hp ht hv
  have c := composes_quiet
  have q : Quiet s u := c.trans (c.trans (quiet_targetRm _ _ _ _ ht) (quiet_inspect _ _ _ _ _ hv)) (quiet_placeOf _ _ _ _ _ hpl)
  rw [raiseRpl, if_pos (by rwa [selRpl_toNat, selRpl_toNat]), M.bind_ok hpl, withRpl_selRpl] at hb
  exact completes_place hi (hb.trans (M.bind_ok (putFlags_apply _ u))) q r (q.matches.mapFlags fun f => { f with zf := true }) rfl
    q.sys.params rfl

theorem arpl_keeps (h : (s.reg .w reg &&& 3).toNat ≤ (v &&& 3).toNat) :
    Completes (.arpl reg rm) s (DoneQuiet s (s.withFlags { s.flags with zf := false })) := by
  obtain ⟨body, hi, hb⟩ := exec_arpl (reg := reg) hp ht hv
  rw [raiseRpl, if_neg (by rw [selRpl_toNat, selRpl_toNat]; omega)] at hb
  exact completes_zf hi hb (composes_quiet.trans (quiet_targetRm _ _ _ _ ht) (quiet_inspect _ _ _ _ _ hv))

end

/-! ## Descriptors that are looked at (R642, R643, R652) -/

theorem larType_iff (d : Desc) : larType d = true ↔ d.s = true ∨ d.typ ∈ [1, 2, 3, 4, 5, 9, 11, 12] := by
  simp [larType, or_assoc]

theorem lslType_iff (d : Desc) : lslType d = true ↔ d.s = true ∨ d.typ ∈ [1, 2, 3, 9, 11] := by
  simp [lslType, or_assoc]

theorem visible_iff (d : Desc) (s : State) (sel : HWord) : d.visible s.cplNat sel = true ↔
    d.conforming = true ∨ (s.cpl.toNat ≤ d.dpl.toNat ∧ (sel.extractLsb' 0 2).toNat ≤ d.dpl.toNat) := by
  rw [Desc.visible, Bool.or_eq_true, Bool.and_eq_true, decide_eq_true_iff, decide_eq_true_iff]
  rfl

/-- A data segment is not conforming (R120). -/
theorem Desc.not_conforming {d : Desc} (h : d.isData = true) : d.conforming = false := by
  rw [Desc.isData, Bool.and_eq_true, Bool.not_eq_true'] at h
  rw [Desc.conforming, Desc.isCode, h.2, Bool.and_false, Bool.false_and]

theorem canRead_iff (d : Desc) (s : State) (sel : HWord) : canRead d s.cplNat sel = true ↔
    (d.conforming = true ∨ (s.cpl.toNat ≤ d.dpl.toNat ∧ (sel.extractLsb' 0 2).toNat ≤ d.dpl.toNat)) ∧
      (d.isData = true ∨ d.readableCode = true) := by
  rw [canRead, Bool.and_eq_true, Bool.or_eq_true, Bool.or_eq_true, Bool.and_eq_true, Bool.and_eq_true, decide_eq_true_iff,
    decide_eq_true_iff, and_comm]
  have hd := @Desc.not_conforming d
  constructor
  · exact fun ⟨hl, ht⟩ => ⟨hl.imp_left And.right, ht⟩
  · rintro ⟨hc | hl, ht⟩
    · have hr := ht.resolve_left fun h => by simp [hd h] at hc
      exact ⟨.inl ⟨hr, hc⟩, ht⟩
    · exact ⟨.inr hl, ht⟩

theorem canWrite_iff (d : Desc) (s : State) (sel : HWord) : canWrite d s.cplNat sel = true ↔
    (d.conforming = true ∨ (s.cpl.toNat ≤ d.dpl.toNat ∧ (sel.extractLsb' 0 2).toNat ≤ d.dpl.toNat)) ∧ d.writableData = true := by
  rw [canWrite, Bool.and_eq_true, Bool.and_eq_true, decide_eq_true_iff, decide_eq_true_iff]
  constructor
  · exact fun ⟨⟨hw, h1⟩, h2⟩ => ⟨.inr ⟨h1, h2⟩, hw⟩
  · rintro ⟨hl, hw⟩
    have hn : d.conforming = false := Desc.not_conforming (Bool.and_eq_true_iff.1 hw).1
    obtain ⟨h1, h2⟩ := hl.resolve_left (by simp [hn])
    exact ⟨⟨hw, h1⟩, h2⟩

section
variable {s u0 : State} {rm : Rm} {sel : HWord} (hp : s.protMode = true) (hr : readRm .w rm s = .ok (sel, u0))
include hp hr

theorem examine_none {accepts : Desc → Bool} {value : Desc → Word} {reg : Gpr} {u : State} (h : probe sel u0 = .ok (none, u)) :
    examine accepts value reg rm s = putFlags (fun f => { f with zf := false }) u :=
  (M.bind_ok (needProtMode_ok hp)).trans ((M.bind_ok (M.get_apply s)).trans ((M.bind_ok hr).trans (M.bind_ok h)))

theorem examine_some {accepts : Desc → Bool} {value : Desc → Word} {reg : Gpr} {d : Desc} {u : State} (h : probe sel u0 = .ok (some d, u)) :
    examine accepts value reg rm s = (if accepts d && d.visible s.cplNat sel then do
      putFlags fun f => { f with zf := true }
      putReg s.opWidth reg (immOf s.opWidth (value d))
    else putFlags fun f => { f with zf := false } : M Unit) u :=
  (M.bind_ok (needProtMode_ok hp)).trans ((M.bind_ok (M.get_apply s)).trans ((M.bind_ok hr).trans (M.bind_ok h)))

theorem verify_apply {ok : Desc → Nat → HWord → Bool} {o : Option Desc} {u : State} (h : probe sel u0 = .ok (o, u)) :
    verify ok rm s = putFlags (fun f => { f with zf := (o.map fun d => ok d s.cplNat sel).getD false }) u :=
  (M.bind_ok (needProtMode_ok hp)).trans ((M.bind_ok (look_apply _ s)).trans ((M.bind_ok hr).trans (M.bind_ok h)))

/-- A selector that names no descriptor clears ZF. -/
theorem examined_none (h : probe sel u0 = .ok (none, u0)) {i : Instr}
    (hi : (∃ reg, i = .lar reg rm) ∨ (∃ reg, i = .lsl reg rm) ∨ i = .verr rm ∨ i = .verw rm) :
    Completes i s (DoneQuiet s (s.withFlags { s.flags with zf := false })) := by
  have q := quiet_readRm _ _ _ _ _ hr
  obtain ⟨reg, rfl⟩ | ⟨reg, rfl⟩ | rfl | rfl := hi
  · exact completes_zf rfl (examine_none hp hr h) q
  · exact completes_zf rfl (examine_none hp hr h) q
  · exact completes_zf rfl (verify_apply hp hr h) q
  · exact completes_zf rfl (verify_apply hp hr h) q

theorem examined_some {accepts : Desc → Bool} {value : Desc → Word} {reg : Gpr} {d : Desc} {u : State} {i : Instr} {ok : Prop}
    (hi : exec i s = run (examine accepts value reg rm) s) (h : probe sel u0 = .ok (some d, u)) (q : Quiet s u)
    (hok : (accepts d && d.visible s.cplNat sel) = true ↔ ok) :
    (ok → Completes i s (DoneQuiet s ((s.withFlags { s.flags with zf := true }).setReg s.opWidth reg
      ((value d).setWidth s.opWidth.bits)))) ∧
    (¬ ok → Completes i s (DoneQuiet s (s.withFlags { s.flags with zf := false }))) := by
  have hx := examine_some (accepts := accepts) (value := value) (reg := reg) hp hr h
  refine ⟨fun ho => ?_, fun ho => ?_⟩
  · rw [if_pos (hok.2 ho)] at hx
    exact completes_quiet_of hi (hx.trans rfl) q.mem ((q.matches.mapFlags fun f => { f with zf := true }).setReg _ _ _) rfl rfl
  · rw [if_neg (hok.not.2 ho)] at hx
    exact completes_zf hi hx q

theorem verified_some {accepts : Desc → Nat → HWord → Bool} {d : Desc} {u : State} {i : Instr} {ok : Prop}
    (hi : exec i s = run (verify accepts rm) s) (h : probe sel u0 = .ok (some d, u)) (q : Quiet s u)
    (hok : accepts d s.cplNat sel = true ↔ ok) :
    (ok → Completes i s (DoneQuiet s (s.withFlags { s.flags with zf := true }))) ∧
    (¬ ok → Completes i s (DoneQuiet s (s.withFlags { s.flags with zf := false }))) := by
  have hx := verify_apply (ok := accepts) hp hr h
  refine ⟨fun ho => ?_, fun ho => ?_⟩
  · rw [Option.map_some, Option.getD_some, hok.2 ho] at hx
    exact completes_zf hi hx q
  · rw [Option.map_some, Option.getD_some, Bool.eq_false_iff.2 (hok.not.2 ho)] at hx
    exact completes_zf hi hx q

end

/-- Settles O51. -/
theorem selectorChecks : Obligations.SelectorChecks := by
  refine fun s rm hp => ⟨fun reg x v u0 u1 ht hv => ?_, fun sel u0 hr => ⟨fun hn i hi => ?_, fun hn hd i hi => ?_, fun hn d u hd => ?_⟩⟩
  · exact ⟨fun h p u hpl r => arpl_raises hp ht hv h hpl r, fun h => arpl_keeps hp ht hv h⟩
  · exact examined_none hp hr (by rw [probe, selNull_true hn]; rfl) hi
  · refine examined_none hp hr ?_ hi
    rw [probe, selNull_false hn]
    exact fetchDesc_none (quiet_readRm _ _ _ _ _ hr).matches hd
  · have h : probe sel u0 = .ok (some d, u) := by
      rw [probe, selNull_false hn]
      exact hd
    have q := composes_quiet.trans (quiet_readRm _ _ _ _ _ hr) (quiet_fetchDesc _ _ _ _ hd)
    refine ⟨fun reg => ⟨examined_some (accepts := larType) (value := larValue) (i := .lar reg rm) hp hr rfl h q ?_,
      examined_some (accepts := lslType) (value := Desc.limit) (i := .lsl reg rm) hp hr rfl h q ?_⟩,
      verified_some (i := .verr rm) hp hr rfl h q (canRead_iff d s sel),
      verified_some (i := .verw rm) hp hr rfl h q (canWrite_iff d s sel)⟩
    · rw [Bool.and_eq_true, larType_iff, visible_iff, and_comm]
    · rw [Bool.and_eq_true, lslType_iff, visible_iff, and_comm]

end Sys2Proof.Machine
end

section
/-!
PROOFS. The table registers and the machine status word (49_protection_control.md R644 to R648, R657).
-/

namespace Sys2Proof.Machine

theorem Matches.mapTables {e w : State} (h : Matches e w) (g : Tables → Tables) :
    Matches (e.withTables (g e.tables)) (w.withTables (g w.tables)) := by
  rw [h.sys.tables]
  exact h.withTables _

/-- A body that stores bytes at planned addresses of RAM, and then changes registers. -/
theorem completes_stored {i : Instr} {s e u w : State} {body : M Unit} {ps : List Word} {bs : List Byte} {g : State → State}
    (hi : exec i s = run body s) (hb : ∀ t, physWrite ps bs w = .ok ((), t) → body s = .ok ((), g t)) (q : Quiet s u) (r : Storable s ps)
    (m : ∀ t, Matches w t → Matches e (g t)) (hg : ∀ t, (g t).mem = t.mem) (hm : w.mem = u.mem) (hp : w.params = s.params)
    (hbs : e.pend.bs = s.pend.bs) : Completes i s (DoneStored ps bs s e u) := by
  obtain ⟨t, h1, h2, h3⟩ := physWrite_ram (bs := bs) (r.2.congr hp)
  have hok : w.memOk = true := by
    rw [State.memOk, hm]
    exact q.memOk r.1
  exact ⟨_, hi.trans (run_ok (hb t h1)), (m t h2.matches).done hbs, q.mem, (h3 hok).congr hm (hg t)⟩

/-! ## GDTR and IDTR (R644, R645, R648) -/

theorem storeTable_apply {m : MemOp} {t : TableReg} {s u1 u : State} {sr : Sreg} {off : Word} {ps : List Word}
    (ha : addressOf m s = .ok ((sr, off), u1)) (hp : plan sr off 6 true u1 = .ok (ps, u)) :
    storeTable m t s = physWrite ps (bytesOf 2 (t.limit.setWidth 32) ++
      if s.op32 then bytesOf 4 t.base else bytesOf 3 t.base ++ [Config.freeBits 8 u.draws]) (u.withDraws (u.draws + 1)) := by
  refine (M.bind_ok (M.get_apply s)).trans ((M.bind_ok ha).trans ((M.bind_ok hp).trans ((M.bind_ok (drawBits_apply 8 u)).trans ?_)))
  rw [Bool.cond_eq_ite]

theorem completes_storeTable {i : Instr} {m : MemOp} {t : TableReg} {s u1 u : State} {sr : Sreg} {off : Word} {ps : List Word}
    (hi : exec i s = run (storeTable m t) s) (ha : addressOf m s = .ok ((sr, off), u1)) (hp : plan sr off 6 true u1 = .ok (ps, u))
    (r : Storable s ps) : Completes i s fun x => ∃ last : Byte, DoneStored ps (bytesOf 2 (t.limit.setWidth 32) ++
      (if s.op32 then bytesOf 4 t.base else bytesOf 3 t.base ++ [last])) s s u x := by
  have q : Quiet s u := composes_quiet.trans (quiet_addressOf _ _ _ _ ha) (quiet_plan _ _ _ _ _ _ _ hp)
  obtain ⟨x, hx, hd⟩ := completes_stored (g := id) hi (fun _ hw => (storeTable_apply ha hp).trans hw) q r
    (fun t h => (q.matches.trans (matches_withDraws u _)).trans h) (fun _ => rfl) rfl q.sys.params rfl
  exact ⟨x, hx, _, hd⟩

/-- A byte shifted out of a word. -/
theorem shifted_byte (v : Word) (n : Nat) : (v >>> n).setWidth 8 = v.extractLsb' n 8 :=
  BitVec.eq_of_toNat_eq (by simp)

theorem bytesOf_four (b2 b3 b4 b5 : Byte) : bytesOf 4 (b5 ++ b4 ++ b3 ++ b2 : Word) = [b2, b3, b4, b5] := by
  have h2 : (b5 ++ b4 ++ b3 ++ b2 : Word).setWidth 8 = b2 := BitVec.setWidth_append_eq_right
  have h3 : (b5 ++ b4 ++ b3 ++ b2 : Word).extractLsb' 8 8 = b3 := by
    rw [BitVec.extractLsb'_append_eq_of_le (by decide)]
    exact BitVec.extractLsb'_append_eq_right
  have h4 : (b5 ++ b4 ++ b3 ++ b2 : Word).extractLsb' 16 8 = b4 := by
    rw [BitVec.extractLsb'_append_eq_of_le (by decide), BitVec.extractLsb'_append_eq_of_le (by decide)]
    exact BitVec.extractLsb'_append_eq_right
  have h5 : (b5 ++ b4 ++ b3 ++ b2 : Word).extractLsb' 24 8 = b5 := by
    rw [BitVec.extractLsb'_append_eq_of_le (by decide), BitVec.extractLsb'_append_eq_of_le (by decide)]
    exact BitVec.extractLsb'_append_eq_left
  simp only [bytesOf, ← BitVec.shiftRight_add, Nat.reduceAdd, shifted_byte, h2, h3, h4, h5]

theorem wordOf_four (b2 b3 b4 b5 : Byte) : wordOf [b2, b3, b4, b5] = (b5 ++ b4 ++ b3 ++ b2 : Word) := by
  rw [← bytesOf_four]
  exact wordOf_bytesOf_four _

/-- Three bytes of four. -/
theorem low24 (b2 b3 b4 b5 : Byte) : (b5 ++ b4 ++ b3 ++ b2 : Word) &&& 0x00FFFFFF = (0 : Byte) ++ b4 ++ b3 ++ b2 := by
  have e : (0x00FFFFFF : Word) = (0 : Byte) ++ (0xFF : Byte) ++ (0xFF : Byte) ++ (0xFF : Byte) := rfl
  have h (x : Byte) : x &&& 0xFF = x := BitVec.and_allOnes
  have z (x : Byte) : x &&& 0 = 0 := BitVec.and_zero
  rw [e, BitVec.and_append, BitVec.and_append, BitVec.and_append, h, h, h, z]

/-- The base that six bytes hold (R644). -/
theorem tableBase_eq (b2 b3 b4 b5 : Byte) (is32 : Bool) :
    (bif is32 then wordOf [b2, b3, b4, b5] else wordOf [b2, b3, b4, b5] &&& 0x00FFFFFF) =
      (if is32 then b5 else 0) ++ b4 ++ b3 ++ b2 := by
  rw [wordOf_four]
  cases is32
  · exact low24 b2 b3 b4 b5
  · rfl

theorem loadTable_ok {m : MemOp} {s u1 u : State} {sr : Sreg} {off : Word} {b0 b1 b2 b3 b4 b5 : Byte} (hc : s.cpl = 0)
    (ha : addressOf m s = .ok ((sr, off), u1)) (hr : memRead sr off 6 u1 = .ok ([b0, b1, b2, b3, b4, b5], u)) :
    loadTable m s = .ok ({ limit := b1 ++ b0, base := (if s.op32 then b5 else 0) ++ b4 ++ b3 ++ b2 }, u) := by
  rw [← tableBase_eq, ← hwordOf_two b0 b1 [b2, b3, b4, b5]]
  exact (M.bind_ok (needCpl0_ok hc)).trans ((M.bind_ok (M.get_apply s)).trans ((M.bind_ok ha).trans ((M.bind_ok hr).trans rfl)))

/-! ## LLDT and LTR (R646, R647) -/

/-- LLDT once its selector is read. -/
def loadLdtr (s : State) (sel : HWord) : M Unit :=
  if selNull sel then putLdtr { s.tables.ldtr with sel := sel, valid := false }
  else do
    check (!selTi sel) (excGP sel)
    let d ← needDesc sel (excGP sel)
    check (d.isSystem 2) (excGP sel)
    check d.present (excNP sel)
    putLdtr { sel := sel, base := d.base, limit := d.limit, valid := true }

/-- LTR with the descriptor of its selector. -/
def loadTrDesc (sel : HWord) (d : Desc) : M Unit := do
  (if d.isSystem 1 then refuse .format286 else pure ())
  check (d.isSystem 9) (excGP sel)
  check d.present (excNP sel)
  let ps ← planBusy d.addr
  writeBusy ps true
  update fun t => t.withTables
    { t.tables with tr := { sel := sel, base := d.base, limit := d.limit, typ := 0xB } }

/-- LTR once its selector is read. -/
def loadTr (sel : HWord) : M Unit := do
  check (!selNull sel) (excGP 0)
  check (!selTi sel) (excGP sel)
  let d ← needDesc sel (excGP sel)
  loadTrDesc sel d

section
variable {s u0 : State} {rm : Rm} {sel : HWord} (hp : s.cpl = 0 ∧ s.protMode = true) (hr : readRm .w rm s = .ok (sel, u0))
include hp hr

theorem exec_lldt : ∃ body, exec (.lldt rm) s = run body s ∧ body s = loadLdtr s sel u0 :=
  ⟨_, rfl, (M.bind_ok (needProtMode_ok hp.2)).trans ((M.bind_ok (needCpl0_ok hp.1)).trans (M.bind_ok hr))⟩

theorem exec_ltr : ∃ body, exec (.ltr rm) s = run body s ∧ body s = loadTr sel u0 :=
  ⟨_, rfl, (M.bind_ok (needProtMode_ok hp.2)).trans ((M.bind_ok (needCpl0_ok hp.1)).trans (M.bind_ok hr))⟩

/-- An exception of either. -/
theorem lldt_faults {vector : Byte} {code : Option HWord} {w : State} (h : loadLdtr s sel u0 = .error (.exc ⟨vector, code⟩ w))
    (h9 : vector ≠ 9) : Faults (.lldt rm) s vector code w := by
  obtain ⟨body, hi, hb⟩ := exec_lldt hp hr
  exact faults_of (e := ⟨vector, code⟩) hi (hb.trans h) h9

theorem ltr_faults {vector : Byte} {code : Option HWord} {w : State} (h : loadTr sel u0 = .error (.exc ⟨vector, code⟩ w))
    (h9 : vector ≠ 9) : Faults (.ltr rm) s vector code w := by
  obtain ⟨body, hi, hb⟩ := exec_ltr hp hr
  exact faults_of (e := ⟨vector, code⟩) hi (hb.trans h) h9

end

theorem loadLdtr_null {s u : State} {sel : HWord} (h : sel.toNat < 4) : loadLdtr s sel u = .ok ((),
    u.withTables { u.tables with ldtr := { s.tables.ldtr with sel := sel, valid := false } }) := by
  rw [loadLdtr, selNull_true h]
  rfl

theorem loadLdtr_some {s u : State} {sel : HWord} (h : 4 ≤ sel.toNat) : loadLdtr s sel u = (do
    check (!selTi sel) (excGP sel)
    let d ← needDesc sel (excGP sel)
    check (d.isSystem 2) (excGP sel)
    check d.present (excNP sel)
    putLdtr { sel := sel, base := d.base, limit := d.limit, valid := true } : M Unit) u := by
  rw [loadLdtr, selNull_false h]
  rfl

theorem global_bad {sel : HWord} (h : sel.getLsbD 2 = true) (e : Exc) (s : State) : check (!selTi sel) e s = .error (.exc e s) :=
  check_error _ _ (by rw [selTi, h]; rfl)

theorem loadTr_desc {sel : HWord} {d : Desc} {u u1 : State} (hn : 4 ≤ sel.toNat) (ht : sel.getLsbD 2 = false)
    (h : fetchDesc sel u = .ok (some d, u1)) : loadTr sel u = loadTrDesc sel d u1 :=
  (M.bind_ok (notNull_ok hn _ _)).trans ((M.bind_ok (check_ok _ _ (global_ok ht))).trans (M.bind_ok (needDesc_some h)))

section
variable {s u u1 : State} {sel : HWord} {d : Desc} (hn : 4 ≤ sel.toNat) (ht : sel.getLsbD 2 = false)
  (h : fetchDesc sel u = .ok (some d, u1))
include hn ht h

theorem loadLdtr_desc : loadLdtr s sel u = (do
    check (d.isSystem 2) (excGP sel)
    check d.present (excNP sel)
    putLdtr { sel := sel, base := d.base, limit := d.limit, valid := true } : M Unit) u1 :=
  (loadLdtr_some hn).trans ((M.bind_ok (check_ok _ _ (global_ok ht))).trans (M.bind_ok (needDesc_some h)))

theorem loadTr_286 (h1 : d.isSystem 1 = true) : loadTr sel u = .error (.refuse .format286) :=
  (loadTr_desc hn ht h).trans (M.bind_error (by rw [h1]; rfl))

theorem loadTr_typed (h1 : d.isSystem 1 = false) : loadTr sel u = (do
    check (d.isSystem 9) (excGP sel)
    check d.present (excNP sel)
    let ps ← planBusy d.addr
    writeBusy ps true
    update fun t => t.withTables { t.tables with tr := { sel := sel, base := d.base, limit := d.limit, typ := 0xB } } : M Unit) u1 :=
  (loadTr_desc hn ht h).trans (M.bind_ok (by rw [h1]; rfl))

end

/-- Settles O52. -/
theorem tableRegisters : Obligations.TableRegisters := by
  refine fun s => ⟨fun m sr off u1 ps u ha hp r => ⟨completes_storeTable rfl ha hp r, completes_storeTable rfl ha hp r⟩,
    fun hc => ⟨fun m sr off u1 b0 b1 b2 b3 b4 b5 u ha hr => ?_, fun rm v u hr => ?_⟩, fun hp rm sel u0 hr =>
    ⟨fun hn => ⟨?_, ?_⟩, fun hn ht => ⟨?_, ?_⟩, fun hn ht hd => ⟨?_, ?_⟩, fun hn ht d u1 hd => ?_⟩⟩
  · have hl := loadTable_ok hc ha hr
    have q : Quiet s u := composes_quiet.trans (quiet_addressOf _ _ _ _ ha) (quiet_memRead _ _ _ _ _ _ hr)
    intro t
    exact ⟨completes_quiet_of (body := loadTable m >>= fun t => update fun u => u.withTables { u.tables with gdtr := t }) rfl
      (M.bind_ok hl) q.mem (q.matches.mapTables fun x => { x with gdtr := t }) rfl rfl,
      completes_quiet_of (body := loadTable m >>= fun t => update fun u => u.withTables { u.tables with idtr := t }) rfl
      (M.bind_ok hl) q.mem (q.matches.mapTables fun x => { x with idtr := t }) rfl rfl⟩
  · have q := quiet_readRm _ _ _ _ _ hr
    have hb : (do needCpl0; let v ← readRm .w rm; update fun t => t.putCr0 (t.cr0.loadMsw v) : M Unit) s =
        .ok ((), u.putCr0 (u.cr0.loadMsw v)) := (M.bind_ok (needCpl0_ok hc)).trans ((M.bind_ok hr).trans rfl)
    have m : Matches (s.withCr0 (s.cr0.loadMsw v)) (u.putCr0 (u.cr0.loadMsw v)) := by
      rw [← q.sys.cr0]
      exact (q.matches.withCr0 _).trans (matches_putCr0 u _)
    exact completes_quiet_of rfl hb q.mem m (putCr0_kept u _).2.2 rfl
  · obtain ⟨body, hi, hb⟩ := exec_lldt hp hr
    have q := quiet_readRm _ _ _ _ _ hr
    exact completes_quiet_of hi (hb.trans (loadLdtr_null hn)) q.mem (q.matches.mapTables fun t =>
      { t with ldtr := { s.tables.ldtr with sel := sel, valid := false } }) rfl rfl
  · exact ltr_faults hp hr (M.bind_error (notNull_exc hn (excGP 0) u0)) (by decide)
  · exact lldt_faults hp hr ((loadLdtr_some hn).trans (M.bind_error (global_bad ht _ u0))) (by decide)
  · exact ltr_faults hp hr ((M.bind_ok (notNull_ok hn _ _)).trans (M.bind_error (global_bad ht _ u0))) (by decide)
  · exact lldt_faults hp hr ((loadLdtr_some hn).trans ((M.bind_ok (check_ok _ _ (global_ok ht))).trans
      (M.bind_error (needDesc_beyond (quiet_readRm _ _ _ _ _ hr).matches hd)))) (by decide)
  · exact ltr_faults hp hr ((M.bind_ok (notNull_ok hn _ _)).trans ((M.bind_ok (check_ok _ _ (global_ok ht))).trans
      (M.bind_error (needDesc_beyond (quiet_readRm _ _ _ _ _ hr).matches hd)))) (by decide)
  · have q : Quiet s u1 := composes_quiet.trans (quiet_readRm _ _ _ _ _ hr) (quiet_fetchDesc _ _ _ _ hd)
    have hl := loadLdtr_desc (s := s) hn ht hd
    refine ⟨fun h2 => ?_, fun h2 hpr => ?_, fun h2 hpr => ?_, fun h1 h9 => ?_, fun h1 => ?_, fun h9 hpr => ?_, fun h9 hpr p u hpl r => ?_⟩
    · exact lldt_faults hp hr (hl.trans (M.bind_error (check_error _ u1 h2))) (by decide)
    · exact lldt_faults hp hr (hl.trans ((M.bind_ok (check_ok _ u1 h2)).trans (M.bind_error (check_error _ u1 hpr)))) (by decide)
    · obtain ⟨body, hi, hb⟩ := exec_lldt hp hr
      exact completes_quiet_of hi (hb.trans (hl.trans ((M.bind_ok (check_ok _ u1 h2)).trans (M.bind_ok (check_ok _ u1 hpr))))) q.mem
        (q.matches.mapTables fun t => { t with ldtr := { sel := sel, base := d.base, limit := d.limit, valid := true } }) rfl rfl
    · exact ltr_faults hp hr ((loadTr_typed hn ht hd h1).trans (M.bind_error (check_error _ u1 h9))) (by decide)
    · obtain ⟨body, hi, hb⟩ := exec_ltr hp hr
      exact hi.trans (run_refused (hb.trans (loadTr_286 hn ht hd h1)))
    · have h1 := Desc.isSystem_other h9 (show (9 : BitVec 4) ≠ 1 by decide)
      exact ltr_faults hp hr ((loadTr_typed hn ht hd h1).trans ((M.bind_ok (check_ok _ u1 h9)).trans
        (M.bind_error (check_error _ u1 hpr)))) (by decide)
    · have h1 := Desc.isSystem_other h9 (show (9 : BitVec 4) ≠ 1 by decide)
      obtain ⟨body, hi, hb⟩ := exec_ltr hp hr
      have qu : Quiet s u := composes_quiet.trans q (quiet_sysPlan _ _ _ _ _ hpl)
      have hl : loadTr sel u0 = _ := (loadTr_typed hn ht hd h1).trans ((M.bind_ok (check_ok _ u1 h9)).trans
        ((M.bind_ok (check_ok _ u1 hpr)).trans (M.bind_ok hpl)))
      have hrd := physRead_ram (s := u) (r.2.congr qu.sys.params)
      exact completes_stored (w := u) hi (fun t hw => hb.trans (hl.trans (M.bind_ok ((M.bind_ok hrd).trans hw)))) qu r
        (fun t mt => (qu.matches.trans mt).mapTables fun t =>
          { t with tr := { sel := sel, base := d.base, limit := d.limit, typ := 0xB } }) (fun _ => rfl) rfl qu.sys.params rfl

end Sys2Proof.Machine
end

section
/-!
PROOFS. Segment checks and page translation (20_memory.md R110 to R116, R129 to R136).
-/

namespace Sys2Proof.Machine

/-! ## Accesses with paging off (R110, R129) -/

theorem addrsFrom_append (a : Word) (k m : Nat) : addrsFrom a (k + m) = addrsFrom a k ++ addrsFrom (a + BitVec.ofNat 32 k) m := by
  induction k generalizing a with
  | zero => simp [addrsFrom]
  | succ k ih =>
    have e : a + BitVec.ofNat 32 (k + 1) = a + 1 + BitVec.ofNat 32 k := by
      rw [Nat.add_comm k 1, BitVec.ofNat_add, BitVec.add_assoc]
      rfl
    rw [Nat.succ_add, addrsFrom, addrsFrom, ih, e]
    rfl

theorem span_unpaged {s : State} (h : s.pagingOn = false) (la : Word) (n : Nat) (w user : Bool) :
    span la n w user s = .ok (addrsFrom la n, s) := by
  rw [span, M.bind_ok (translate_unpaged h la w user)]
  have hk : onFirstPage la n ≤ n := Nat.min_le_left _ _
  by_cases hn : onFirstPage la n = n
  · rw [if_pos hn]
    rfl
  · rw [if_neg hn, M.bind_ok (translate_unpaged h _ w user), ← addrsFrom_append, Nat.add_sub_cancel' hk]
    rfl

theorem noteAccess_none {s : State} (h : s.dregs.dr7.ctl = 0) (la : Word) (n : Nat) (w : Bool) : noteAccess la n w s = .ok ((), s) := by
  rw [noteAccess, M.bind_ok (look_apply _ s), if_pos h]
  rfl

section
variable {s : State} {r : Sreg} {off : Word} {n : Nat} {w : Bool}

theorem plan_legal (hp : s.pagingOn = false) (hb : s.dregs.dr7.ctl = 0) (h : (s.seg r).legal s.protMode off n w = true) :
    plan r off n w s = .ok (addrsFrom ((s.seg r).base + off) n, s) := by
  rw [plan, M.bind_ok (M.get_apply s), planSeg, M.bind_ok (look_apply _ s), M.bind_ok (check_ok _ _ h), planLinear,
    M.bind_ok (span_unpaged hp _ n w _), M.bind_ok (noteAccess_none hb _ n w)]
  rfl

theorem plan_illegal (h : (s.seg r).legal s.protMode off n w = false) :
    plan r off n w s = .error (.exc (if r = .ss then ⟨12, some 0⟩ else ⟨13, some 0⟩) s) := by
  rw [plan, M.bind_ok (M.get_apply s), planSeg, M.bind_ok (look_apply _ s), M.bind_error (check_error _ _ h)]
  rfl

end

/-! ## The checks of a segment (R112 to R116) -/

section
variable {g : SegReg} {off : Word} {n : Nat}

theorem inLimit_expandUp (h : g.ar.code = true ∨ g.ar.ce = false) :
    g.inLimit off n = decide (off.toNat + n ≤ g.limit.toNat + 1) := by
  rw [SegReg.inLimit, if_neg]
  rcases h with h | h <;> simp [h]

theorem inLimit_expandDown (hc : g.ar.code = false) (he : g.ar.ce = true) : g.inLimit off n =
    (decide (g.limit.toNat < off.toNat) && decide (off.toNat + n ≤ (if g.ar.db then 0x100000000 else 0x10000))) := by
  rw [SegReg.inLimit, if_pos (by rw [hc, he]; rfl)]

theorem legal_of {prot w : Bool} (h : prot = true → g.valid = true ∧ g.allows w = true) (hl : g.inLimit off n = true) :
    g.legal prot off n w = true := by
  cases prot with
  | false => exact hl
  | true =>
    obtain ⟨hv, ha⟩ := h rfl
    rw [SegReg.legal, hv, ha]
    exact hl

theorem illegal_outside {prot w : Bool} (hl : g.inLimit off n = false) : g.legal prot off n w = false := by
  rw [SegReg.legal, hl, Bool.and_false]

theorem illegal_rights {w : Bool} (h : g.valid = false ∨ g.allows w = false) : g.legal true off n w = false := by
  rcases h with h | h <;> simp [SegReg.legal, h]

theorem allows_write : g.allows true = true ↔ g.ar.code = false ∧ g.ar.rw = true := by simp [SegReg.allows]

theorem allows_read : g.allows false = true ↔ g.ar.code = false ∨ g.ar.rw = true := by simp [SegReg.allows]

theorem allows_of {w : Bool} (h : if w then g.ar.code = false ∧ g.ar.rw = true else g.ar.code = false ∨ g.ar.rw = true) :
    g.allows w = true := by
  cases w with
  | true => exact allows_write.2 h
  | false => exact allows_read.2 h

theorem not_allows {w : Bool} (h : if w then g.ar.code = true ∨ g.ar.rw = false else g.ar.code = true ∧ g.ar.rw = false) :
    g.allows w = false := by
  cases w with
  | true => rcases h with h | h <;> simp [SegReg.allows, h]
  | false =>
    obtain ⟨h1, h2⟩ := h
    simp [SegReg.allows, h1, h2]

end

/-- Settles O9. -/
theorem segmentedAccess : Obligations.SegmentedAccess := by
  intro s r off n w hp hb
  refine ⟨fun ⟨ha, hu, hl⟩ => ?_, fun ⟨hl, hu⟩ => ?_, fun ⟨ha, hc, he, hlo, hhi⟩ => ?_, fun ⟨hc, he, hl⟩ => ?_, fun ⟨hm, hv⟩ => ?_,
    fun ⟨hm, ha⟩ => ?_⟩
  · refine plan_legal hp hb (legal_of (fun hm => ?_) ((inLimit_expandUp hu).trans (decide_eq_true hl)))
    obtain ⟨hv, hr⟩ := ha hm
    exact ⟨hv, allows_of hr⟩
  · exact plan_illegal (illegal_outside ((inLimit_expandUp hu).trans (decide_eq_false (not_le.2 hl))))
  · refine plan_legal hp hb (legal_of (fun hm => ?_) ?_)
    · obtain ⟨hv, hr⟩ := ha hm
      refine ⟨hv, allows_of ?_⟩
      cases w with
      | true => exact ⟨hc, hr rfl⟩
      | false => exact .inl hc
    · rw [inLimit_expandDown hc he, decide_eq_true hlo, decide_eq_true hhi]
      rfl
  · refine plan_illegal (illegal_outside ((inLimit_expandDown hc he).trans ?_))
    rw [Bool.and_eq_false_iff, decide_eq_false_iff_not, decide_eq_false_iff_not, not_lt, not_le]
    exact hl
  · exact plan_illegal (hm ▸ illegal_rights (.inl hv))
  · exact plan_illegal (hm ▸ illegal_rights (.inr (not_allows ha)))

/-! ## What the page tables say (R132, R133) -/

/-- The rights of both entries permit the access (R133). -/
def entriesPermit (pde pte : Word) (w user : Bool) : Prop :=
  user = false ∨ (entryUser pde = true ∧ entryUser pte = true ∧ (w = false ∨ (entryWrite pde = true ∧ entryWrite pte = true)))

theorem entriesPermit_iff (pde pte : Word) (w user : Bool) : entriesPermit pde pte w user ↔
    (user && !(entryUser pde && entryUser pte)) = false ∧ (user && w && !(entryWrite pde && entryWrite pte)) = false := by
  cases user <;> cases w <;> simp [entriesPermit, and_assoc]

section
variable {s : State} {la : Word} {w user : Bool}

theorem walk_noTable (h : entryPresent (s.dwordAt (pdeAddress s la)) = false) :
    walk s la w user = .notPresent (pdeAddress s la) none := by
  rw [walk, if_neg (by simp [h])]

variable (hd : entryPresent (s.dwordAt (pdeAddress s la)) = true)
include hd

theorem walk_noPage (h : entryPresent (s.dwordAt (pteAddress (s.dwordAt (pdeAddress s la)) la)) = false) :
    walk s la w user = .notPresent (pdeAddress s la) (some (pteAddress (s.dwordAt (pdeAddress s la)) la)) := by
  rw [walk, if_pos hd, if_neg (by simp [h])]

variable (ht : entryPresent (s.dwordAt (pteAddress (s.dwordAt (pdeAddress s la)) la)) = true)
include ht

theorem walk_permitted
    (h : entriesPermit (s.dwordAt (pdeAddress s la)) (s.dwordAt (pteAddress (s.dwordAt (pdeAddress s la)) la)) w user) :
    walk s la w user = .ok (pdeAddress s la) (pteAddress (s.dwordAt (pdeAddress s la)) la) (s.dwordAt (pdeAddress s la))
      (s.dwordAt (pteAddress (s.dwordAt (pdeAddress s la)) la)) := by
  obtain ⟨h1, h2⟩ := (entriesPermit_iff _ _ _ _).1 h
  rw [walk, if_pos hd, if_pos ht, if_neg (by rw [h1]; exact Bool.false_ne_true), if_neg (by rw [h2]; exact Bool.false_ne_true)]

theorem walk_barred
    (h : ¬ entriesPermit (s.dwordAt (pdeAddress s la)) (s.dwordAt (pteAddress (s.dwordAt (pdeAddress s la)) la)) w user) :
    walk s la w user = .violation (pdeAddress s la) (pteAddress (s.dwordAt (pdeAddress s la)) la) := by
  rw [entriesPermit_iff, not_and_or, Bool.not_eq_false, Bool.not_eq_false] at h
  rw [walk, if_pos hd, if_pos ht]
  by_cases hu : (user && !(entryUser (s.dwordAt (pdeAddress s la)) &&
      entryUser (s.dwordAt (pteAddress (s.dwordAt (pdeAddress s la)) la)))) = true
  · rw [if_pos hu]
  · rw [if_neg hu, if_pos (h.resolve_left hu)]

end

/-! ## The accesses of a walk (R132 to R135) -/

theorem touchEntry_ram {a : Word} {s : State} (h : AllRam s (addrsFrom a 4)) : touchEntry a s = .ok ((), s) :=
  M.bind_ok (physRead_ram h)

theorem pageFault_apply {α : Type} (la : Word) (present w user : Bool) (s : State) : ∃ free : BitVec 13, (pageFault la present w user : M α) s =
    .error (.exc ⟨14, some (free ++ BitVec.ofBool user ++ BitVec.ofBool w ++ BitVec.ofBool present)⟩
      ((s.withDraws (s.draws + 1)).withCr2 la)) :=
  ⟨_, (M.bind_ok (drawBits_apply 13 s)).trans ((M.bind_ok (update_apply _ _)).trans rfl)⟩

theorem dwordAt_eq (s : State) (a : Word) : s.dwordAt a = wordOf ((addrsFrom a 4).map s.byteAt) := by
  have ha : addrsFrom a 4 = [a, a + 1, a + 2, a + 3] := by simp [addrsFrom, BitVec.add_assoc]
  rw [ha]
  rfl

/-- The doubleword after a store of a doubleword. -/
theorem dwordAt_stored {a v : Word} {s t : State} (h : Stored (addrsFrom a 4) (bytesOf 4 v) s t) : t.dwordAt a = v := by
  rw [dwordAt_eq, funext h, map_storedByte _ (addrsFrom_nodup a) (by simp)]
  exact wordOf_bytesOf_four v

theorem or_of_and_eq {v x : Word} (h : v &&& x = x) : v = v ||| x := by
  rw [← h]
  apply BitVec.eq_of_getLsbD_eq
  intro i _
  rw [BitVec.getLsbD_or, BitVec.getLsbD_and]
  cases v.getLsbD i <;> rfl

/-- Bits of an entry in RAM are set, and it gains no other. -/
theorem setEntryBits_ram {a x : Word} {s : State} (h : AllRam s (addrsFrom a 4)) : ∃ t, setEntryBits a x s = .ok ((), t) ∧
    MemOnly s t ∧ (s.memOk = true → t.dwordAt a = s.dwordAt a ||| x) := by
  have hs : setEntryBits a x s = (if s.dwordAt a &&& x = x then pure () else
    physWriteBytes (addrsFrom a 4) (bytesOf 4 (s.dwordAt a ||| x))) s := M.bind_ok (look_apply _ s)
  by_cases hx : s.dwordAt a &&& x = x
  · rw [if_pos hx] at hs
    exact ⟨s, hs, .refl s, fun _ => or_of_and_eq hx⟩
  · rw [if_neg hx] at hs
    obtain ⟨t, h1, h2, h3⟩ := physWriteBytes_ram (bs := bytesOf 4 (s.dwordAt a ||| x)) h
    exact ⟨t, hs.trans h1, h2, fun w => dwordAt_stored (h3 w)⟩

/-- The error code and the registers of a page fault (R135, U9). -/
def PageFaults (s : State) (la : Word) (w user present : Bool) : Prop :=
  ∃ free : BitVec 13, ∃ u,
    translate la w user s = .error (.exc ⟨14, some (free ++ BitVec.ofBool user ++ BitVec.ofBool w ++ BitVec.ofBool present)⟩ u) ∧
    u.cr2 = la ∧ u.mem = s.mem ∧ u.regs = s.regs

theorem pageFaults_of {s : State} {la : Word} {w user present : Bool}
    (h : translate la w user s = (pageFault la present w user : M Word) s) : PageFaults s la w user present := by
  obtain ⟨free, hx⟩ := pageFault_apply (α := Word) la present w user s
  exact ⟨free, _, h.trans hx, rfl, rfl, rfl⟩

theorem translate_walks {s : State} {la : Word} {w user : Bool} (hp : s.pagingOn = true) (hf : tlbFind s.tlb la w user = none) :
    translate la w user s = walkTables la w user s := by
  rw [translate, M.bind_ok (M.get_apply s), if_pos hp, hf]

section
variable {s : State} {la : Word} {w user : Bool} (hp : s.pagingOn = true) (hf : tlbFind s.tlb la w user = none)
  (hr : AllRam s (addrsFrom (pdeAddress s la) 4))
include hp hf hr

theorem translate_noTable (h : entryPresent (s.dwordAt (pdeAddress s la)) = false) : PageFaults s la w user false := by
  refine pageFaults_of ((translate_walks hp hf).trans ((M.bind_ok (look_apply _ s)).trans ?_))
  rw [walk_noTable h]
  exact M.bind_ok (touchEntry_ram hr)

variable (hd : entryPresent (s.dwordAt (pdeAddress s la)) = true)
  (hr' : AllRam s (addrsFrom (pteAddress (s.dwordAt (pdeAddress s la)) la) 4))
include hd hr'

theorem translate_noPage (h : entryPresent (s.dwordAt (pteAddress (s.dwordAt (pdeAddress s la)) la)) = false) :
    PageFaults s la w user false := by
  refine pageFaults_of ((translate_walks hp hf).trans ((M.bind_ok (look_apply _ s)).trans ?_))
  rw [walk_noPage hd h]
  exact (M.bind_ok (touchEntry_ram hr)).trans (M.bind_ok (touchEntry_ram hr'))

variable (ht : entryPresent (s.dwordAt (pteAddress (s.dwordAt (pdeAddress s la)) la)) = true)
include ht

theorem translate_barred
    (h : ¬ entriesPermit (s.dwordAt (pdeAddress s la)) (s.dwordAt (pteAddress (s.dwordAt (pdeAddress s la)) la)) w user) :
    PageFaults s la w user true := by
  refine pageFaults_of ((translate_walks hp hf).trans ((M.bind_ok (look_apply _ s)).trans ?_))
  rw [walk_barred hd ht h]
  exact (M.bind_ok (touchEntry_ram hr)).trans (M.bind_ok (touchEntry_ram hr'))

/-- The entry a walk puts in the TLB (R132). -/
def walkEntry (la pde pte : Word) (w : Bool) : TlbEntry :=
  { page := pageOf la, frame := entryFrame pte, user := entryUser pde && entryUser pte,
    write := entryWrite pde && entryWrite pte, dirty := entryDirty pte || w }

/-- A translation that the tables permit: the walk sets A, and D for a write, and puts the translation in the TLB. -/
theorem translate_permitted
    (h : entriesPermit (s.dwordAt (pdeAddress s la)) (s.dwordAt (pteAddress (s.dwordAt (pdeAddress s la)) la)) w user) : ∃ s1 s2,
    setEntryBits (pdeAddress s la) 0x20 s = .ok ((), s1) ∧
    setEntryBits (pteAddress (s.dwordAt (pdeAddress s la)) la) (bif w then 0x60 else 0x20) s1 = .ok ((), s2) ∧
    translate la w user s = .ok (inFrame (entryFrame (s.dwordAt (pteAddress (s.dwordAt (pdeAddress s la)) la))) la,
      s2.withTlb (tlbInsert s2.tlb (walkEntry la (s.dwordAt (pdeAddress s la))
        (s.dwordAt (pteAddress (s.dwordAt (pdeAddress s la)) la)) w))) := by
  obtain ⟨s1, h1, m1, -⟩ := setEntryBits_ram (x := 0x20) hr
  obtain ⟨s2, h2, -, -⟩ := setEntryBits_ram (x := bif w then 0x60 else 0x20) (hr'.congr m1.matches.sys.params)
  refine ⟨s1, s2, h1, h2, (translate_walks hp hf).trans ((M.bind_ok (look_apply _ s)).trans ?_)⟩
  rw [walk_permitted hd ht h]
  exact (M.bind_ok (touchEntry_ram hr)).trans ((M.bind_ok (touchEntry_ram hr')).trans ((M.bind_ok h1).trans ((M.bind_ok h2).trans rfl)))

end

/-- The TLB finds the translation of the walk that was just made (R132). -/
theorem tlbFind_inserted {l : List TlbEntry} {la pde pte : Word} {w user : Bool} (h : entriesPermit pde pte w user) :
    tlbFind (tlbInsert l (walkEntry la pde pte w)) la w user = some (walkEntry la pde pte w) := by
  have dirty : (!w || (entryDirty pte || w)) = true := by cases w <;> simp
  refine List.find?_cons_of_pos ?_
  simp only [walkEntry, beq_self_eq_true, Bool.true_and, Bool.and_eq_true, dirty, and_true]
  rcases h with rfl | ⟨hud, hut, hw⟩
  · simp
  · rw [hud, hut]
    refine ⟨Bool.or_true _, ?_⟩
    rcases hw with rfl | ⟨hwd, hwt⟩
    · simp
    · rw [hwd, hwt]
      exact Bool.or_true _

/-- After a walk A is set in both entries, and D in that of the page for a write (R134). -/
theorem walked_bits {s s1 s2 : State} {la : Word} {w : Bool} (hok : s.memOk = true)
    (hr : AllRam s (addrsFrom (pdeAddress s la) 4)) (hr' : AllRam s (addrsFrom (pteAddress (s.dwordAt (pdeAddress s la)) la) 4))
    (hd : entryPresent (s.dwordAt (pdeAddress s la)) = true) (h1 : setEntryBits (pdeAddress s la) 0x20 s = .ok ((), s1))
    (h2 : setEntryBits (pteAddress (s.dwordAt (pdeAddress s la)) la) (bif w then 0x60 else 0x20) s1 = .ok ((), s2)) :
    (s2.dwordAt (pdeAddress s la)).getLsbD 5 = true ∧ (s2.dwordAt (pteAddress (s.dwordAt (pdeAddress s la)) la)).getLsbD 5 = true ∧
      (w = true → (s2.dwordAt (pteAddress (s.dwordAt (pdeAddress s la)) la)).getLsbD 6 = true) := by
  obtain ⟨t1, g1, m1, b1⟩ := setEntryBits_ram (x := 0x20) hr
  obtain rfl := (Prod.mk.inj (Except.ok.inj (g1.symm.trans h1))).2
  obtain ⟨t2, g2, -, b2⟩ := setEntryBits_ram (x := bif w then 0x60 else 0x20) (hr'.congr m1.matches.sys.params)
  obtain rfl := (Prod.mk.inj (Except.ok.inj (g2.symm.trans h2))).2
  have e1 := (still_setEntryBits (wr := false) (fun _ => ⟨la, .inl rfl⟩) h1).bits
  have he : s.entryByte (pteAddress (s.dwordAt (pdeAddress s la)) la) := ⟨la, .inr ⟨hd, rfl⟩⟩
  have e2 := (still_setEntryBits (wr := w) (fun _ => (e1.entryByte hok _).2 he) h2).bits
  have hok1 := m1.memOk hok
  obtain ⟨b, hb⟩ := e2.dwordAt hok1 (a := pdeAddress s la) (append_zero_aligned _)
  rw [hb, b1 hok, b2 hok1]
  refine ⟨by simp, ?_, fun hw => ?_⟩
  · cases w <;> simp
  · subst hw
    simp

/-! ## A cached translation (R136) -/

theorem tlbAgrees_iff {s : State} {e : TlbEntry} {la : Word} {w user : Bool} : tlbAgrees s e la w user = true ↔
    entryPresent (s.dwordAt (pdeAddress s la)) = true ∧
    entryPresent (s.dwordAt (pteAddress (s.dwordAt (pdeAddress s la)) la)) = true ∧
    entriesPermit (s.dwordAt (pdeAddress s la)) (s.dwordAt (pteAddress (s.dwordAt (pdeAddress s la)) la)) w user ∧
    entryFrame (s.dwordAt (pteAddress (s.dwordAt (pdeAddress s la)) la)) = e.frame ∧
    entryAccessed (s.dwordAt (pdeAddress s la)) = true ∧
    entryAccessed (s.dwordAt (pteAddress (s.dwordAt (pdeAddress s la)) la)) = true ∧
    (w = true → entryDirty (s.dwordAt (pteAddress (s.dwordAt (pdeAddress s la)) la)) = true) := by
  rw [tlbAgrees]
  cases hd : entryPresent (s.dwordAt (pdeAddress s la)) with
  | false => simp [walk_noTable hd]
  | true =>
    cases ht : entryPresent (s.dwordAt (pteAddress (s.dwordAt (pdeAddress s la)) la)) with
    | false => simp [walk_noPage hd ht]
    | true =>
      by_cases hm : entriesPermit (s.dwordAt (pdeAddress s la)) (s.dwordAt (pteAddress (s.dwordAt (pdeAddress s la)) la)) w user
      · simp only [walk_permitted hd ht hm, hm, true_and, Bool.and_eq_true, beq_iff_eq, and_assoc]
        cases w <;> simp
      · simp [walk_barred hd ht hm, hm]

section
variable {s : State} {e : TlbEntry} {la : Word} {w user : Bool} (hp : s.pagingOn = true) (hf : tlbFind s.tlb la w user = some e)
include hp hf

theorem translate_agreed (h : tlbAgrees s e la w user = true) : translate la w user s = .ok (inFrame e.frame la, s) := by
  rw [translate, M.bind_ok (M.get_apply s), if_pos hp, hf]
  show (if tlbAgrees s e la w user then _ else _ : M Word) s = _
  rw [if_pos h]
  rfl

/-- Where the cached translation and the tables differ, a draw decides (U21). -/
theorem translate_differing (h : tlbAgrees s e la w user = false) :
    translate la w user s = .ok (inFrame e.frame la, s.withDraws (s.draws + 1)) ∨
    translate la w user s = walkTables la w user (s.withDraws (s.draws + 1)) := by
  have hx : translate la w user s = (bif Config.freeBit s.draws then pure (inFrame e.frame la) else walkTables la w user : M Word)
      (s.withDraws (s.draws + 1)) := by
    rw [translate, M.bind_ok (M.get_apply s), if_pos hp, hf]
    show (if tlbAgrees s e la w user then _ else _ : M Word) s = _
    rw [h, if_neg Bool.false_ne_true, M.bind_ok (drawBit_apply s)]
  rw [hx]
  cases Config.freeBit s.draws with
  | true => exact .inl rfl
  | false => exact .inr rfl

end

/-- Settles O10. -/
theorem pagedTranslation : Obligations.PagedTranslation := by
  intro s la w user hp pa pde ta pte mayUse faults
  refine ⟨fun hf hr => ⟨fun hd => translate_noTable hp hf hr hd, fun hd hr' => ⟨fun ht => translate_noPage hp hf hr hd hr' ht,
    fun ht hm => translate_barred hp hf hr hd hr' ht hm, fun ht hm => ?_⟩⟩, fun e hf => ?_⟩
  · obtain ⟨s1, s2, h1, h2, hx⟩ := translate_permitted hp hf hr hd hr' ht hm
    have hbits := fun hok => walked_bits hok hr hr' hd h1 h2
    exact ⟨_, hx, quiet_translate _ _ _ _ _ _ hx, hbits, _, tlbFind_inserted hm, rfl⟩
  · intro cached agrees
    refine ⟨fun ha => translate_agreed hp hf (tlbAgrees_iff.2 ha), fun ha => ?_⟩
    have hn : tlbAgrees s e la w user = false := Bool.eq_false_iff.2 fun h => ha (tlbAgrees_iff.1 h)
    exact ⟨_, quiet_withDraws s _, translate_differing hp hf hn⟩

end Sys2Proof.Machine
end

section
/-!
PROOFS. The decoder on bytes that go on, and the reserved encodings (30_encoding.md R161, R236, R237).
-/

namespace Sys2Proof

/-! ## Bytes after those that were decoded -/

/-- What the decoder answers when more bytes follow those it has read. -/
def Parse.extend (q : List Byte) : Parse → Parse
  | .ok i r => .ok i (r ++ q)
  | .more => .more
  | .bad r => .bad r

section
variable {md : BitVec 2} {rm : BitVec 3} {bs r : List Byte} {m : MemOp}

theorem parseMem16_append (h : parseMem16 md rm bs = some (m, r)) (q : List Byte) : parseMem16 md rm (bs ++ q) = some (m, r ++ q) := by
  unfold parseMem16 at h
  split at h
  case h_1 hmd =>
    split at h
    case isTrue hrm =>
      split at h
      · obtain ⟨rfl, rfl⟩ := Prod.mk.inj (Option.some.inj h)
        simp [parseMem16, hmd, hrm]
      · cases h
    case isFalse hrm =>
      obtain ⟨rfl, rfl⟩ := Prod.mk.inj (Option.some.inj h)
      simp [parseMem16, hmd, show ¬ rm = 6#3 from hrm]
  case h_2 hmd =>
    obtain ⟨rfl, rfl⟩ := Prod.mk.inj (Option.some.inj h)
    simp [parseMem16, hmd]
  case h_3 hmd =>
    obtain ⟨rfl, rfl⟩ := Prod.mk.inj (Option.some.inj h)
    simp [parseMem16, hmd]
  case h_4 => cases h

theorem parseSib_append {sib : Byte} (h : parseSib md sib bs = some (m, r)) (q : List Byte) :
    parseSib md sib (bs ++ q) = some (m, r ++ q) := by
  unfold parseSib at h
  dsimp only at h
  split at h
  case h_1 hmd =>
    split at h
    case isTrue hb =>
      split at h
      · obtain ⟨rfl, rfl⟩ := Prod.mk.inj (Option.some.inj h)
        simp [parseSib, hmd, hb]
      · cases h
    case isFalse hb =>
      obtain ⟨rfl, rfl⟩ := Prod.mk.inj (Option.some.inj h)
      simp [parseSib, hmd, show ¬ rmOf sib = 5#3 from hb]
  case h_2 hmd =>
    obtain ⟨rfl, rfl⟩ := Prod.mk.inj (Option.some.inj h)
    simp [parseSib, hmd]
  case h_3 hmd =>
    obtain ⟨rfl, rfl⟩ := Prod.mk.inj (Option.some.inj h)
    simp [parseSib, hmd]
  case h_4 => cases h

theorem parseMem32_append (h : parseMem32 md rm bs = some (m, r)) (q : List Byte) : parseMem32 md rm (bs ++ q) = some (m, r ++ q) := by
  unfold parseMem32 at h
  split at h
  case isTrue h4 =>
    cases bs with
    | nil => cases h
    | cons sib bs =>
      simp only [parseMem32, h4, List.cons_append, if_true]
      exact parseSib_append h q
  case isFalse h4 =>
    split at h
    case h_1 hmd =>
      split at h
      case isTrue h5 =>
        split at h
        · obtain ⟨rfl, rfl⟩ := Prod.mk.inj (Option.some.inj h)
          simp [parseMem32, hmd, h5]
        · cases h
      case isFalse h5 =>
        obtain ⟨rfl, rfl⟩ := Prod.mk.inj (Option.some.inj h)
        simp [parseMem32, show ¬ rm = 4#3 from h4, hmd, show ¬ rm = 5#3 from h5]
    case h_2 hmd =>
      obtain ⟨rfl, rfl⟩ := Prod.mk.inj (Option.some.inj h)
      simp [parseMem32, show ¬ rm = 4#3 from h4, hmd]
    case h_3 hmd =>
      obtain ⟨rfl, rfl⟩ := Prod.mk.inj (Option.some.inj h)
      simp [parseMem32, show ¬ rm = 4#3 from h4, hmd]
    case h_4 => cases h

end

theorem parseRm_append {addr32 : Bool} {modrm : Byte} {bs r : List Byte} {rm : Rm} (h : parseRm addr32 modrm bs = some (rm, r))
    (q : List Byte) : parseRm addr32 modrm (bs ++ q) = some (rm, r ++ q) := by
  unfold parseRm at h ⊢
  split at h
  case isTrue h3 =>
    obtain ⟨rfl, rfl⟩ := Prod.mk.inj (Option.some.inj h)
    rw [if_pos h3]
  case isFalse h3 =>
    obtain ⟨⟨m, r'⟩, hm, he⟩ := Option.map_eq_some_iff.1 h
    obtain ⟨rfl, rfl⟩ := Prod.mk.inj he
    rw [if_neg h3]
    cases addr32 with
    | true => rw [cond_true, parseMem32_append hm q]; rfl
    | false => rw [cond_false, parseMem16_append hm q]; rfl

theorem parseFull_append {is32 : Bool} {bs r : List Byte} {v : Word} (h : parseFull is32 bs = some (v, r)) (q : List Byte) :
    parseFull is32 (bs ++ q) = some (v, r ++ q) := by
  unfold parseFull at h
  split at h
  · obtain ⟨rfl, rfl⟩ := Prod.mk.inj (Option.some.inj h)
    rfl
  · obtain ⟨rfl, rfl⟩ := Prod.mk.inj (Option.some.inj h)
    rfl
  · cases h

theorem parseTail_append {c : Ctx} {t : Tail} {bs : List Byte} (h : parseTail c t bs ≠ .more) (q : List Byte) :
    parseTail c t (bs ++ q) = (parseTail c t bs).extend q := by
  cases t with
  | done i => rfl
  | bad r => rfl
  | ib k =>
    cases bs with
    | nil => exact absurd rfl h
    | cons b bs => rfl
  | iw k =>
    rcases bs with _ | ⟨b0, _ | ⟨b1, bs⟩⟩
    · exact absurd rfl h
    · exact absurd rfl h
    · rfl
  | iwib k =>
    rcases bs with _ | ⟨b0, _ | ⟨b1, _ | ⟨b2, bs⟩⟩⟩
    · exact absurd rfl h
    · exact absurd rfl h
    · exact absurd rfl h
    · rfl
  | iv k =>
    cases hf : parseFull c.op32 bs with
    | none => exact absurd (by simp [parseTail, hf]) h
    | some p => simp [parseTail, hf, parseFull_append hf q, Parse.extend]
  | moffs k =>
    cases hf : parseFull c.addr32 bs with
    | none => exact absurd (by simp [parseTail, hf]) h
    | some p => simp [parseTail, hf, parseFull_append hf q, Parse.extend]
  | ptr k =>
    cases hf : parseFull c.op32 bs with
    | none => exact absurd (by simp [parseTail, hf]) h
    | some p =>
      obtain ⟨v, r⟩ := p
      rcases r with _ | ⟨b0, _ | ⟨b1, r⟩⟩
      · exact absurd (by simp [parseTail, hf]) h
      · exact absurd (by simp [parseTail, hf]) h
      · simp [parseTail, hf, parseFull_append hf q, Parse.extend]

theorem parseShape_append {c : Ctx} {sh : Shape} {bs : List Byte} (h : parseShape c sh bs ≠ .more) (q : List Byte) :
    parseShape c sh (bs ++ q) = (parseShape c sh bs).extend q := by
  cases sh with
  | tail t => exact parseTail_append h q
  | modrm k =>
    cases bs with
    | nil => exact absurd rfl h
    | cons b bs =>
      cases hr : parseRm c.addr32 b bs with
      | none => exact absurd (by simp [parseShape, hr]) h
      | some p =>
        simp only [parseShape, hr, List.cons_append, parseRm_append hr q] at h ⊢
        exact parseTail_append h q

/-- Bytes that decide an instruction, or that none begins with them, go on deciding it (R161). -/
theorem decode_append {c : Ctx} {bs : List Byte} (h : decode c bs ≠ .more) (q : List Byte) :
    decode c (bs ++ q) = (decode c bs).extend q := by
  cases bs with
  | nil => exact absurd rfl h
  | cons op bs =>
    by_cases h0 : op = 0x0F
    · cases bs with
      | nil => exact absurd (by simp [decode, h0]) h
      | cons op2 bs =>
        simp only [decode, h0, if_true, List.cons_append] at h ⊢
        exact parseShape_append h q
    · simp only [decode, h0, if_false, List.cons_append] at h ⊢
      exact parseShape_append h q

/-! ## Reserved encodings (R236, R237) -/

/-- The bytes are a reserved encoding, whatever follows them. -/
def Reserved (c : Ctx) (bs rest : List Byte) : Prop := ∃ r, r ≠ Reject.setccReg ∧ decode c (bs ++ rest) = .bad r

/-- A tail that raises the invalid-opcode exception. -/
def Tail.isBarred : Tail → Bool
  | .bad .setccReg => false
  | .bad _ => true
  | _ => false

theorem Tail.isBarred_iff {t : Tail} : t.isBarred = true ↔ ∃ r, r ≠ Reject.setccReg ∧ t = .bad r := by
  constructor
  · intro h
    unfold Tail.isBarred at h
    split at h
    · cases h
    case h_2 r hr => exact ⟨r, fun e => hr e, rfl⟩
    · cases h
  · rintro ⟨r, hr, rfl⟩
    cases r with
    | setccReg => exact absurd rfl hr
    | _ => rfl

/-- The values of the reg field for which a register operand is not accepted. -/
def BarredReg (k : BitVec 3 → Rm → Tail) (l : List Nat) : Prop :=
  ∀ g, (l.all fun n => (k (BitVec.ofNat 3 n) (.reg g)).isBarred) = true

theorem modOf_register {m : Byte} (h : 0xC0 ≤ m.toNat) : modOf m = 3 := by
  apply BitVec.eq_of_toNat_eq
  have hm := m.isLt
  rw [modOf, BitVec.extractLsb'_toNat, Nat.shiftRight_eq_div_pow]
  show m.toNat / 64 % 4 = 3
  omega

theorem regOf_eq (m : Byte) : regOf m = BitVec.ofNat 3 (m.toNat / 8 % 8) := by
  apply BitVec.eq_of_toNat_eq
  rw [regOf, BitVec.extractLsb'_toNat, Nat.shiftRight_eq_div_pow, BitVec.toNat_ofNat, Nat.mod_mod]

theorem parseShape_barred {c : Ctx} {k : BitVec 3 → Rm → Tail} {l : List Nat} (hk : BarredReg k l) {m : Byte} (hm : 0xC0 ≤ m.toNat)
    (hl : m.toNat / 8 % 8 ∈ l) (rest : List Byte) : ∃ r, r ≠ Reject.setccReg ∧ parseShape c (.modrm k) (m :: rest) = .bad r := by
  obtain ⟨r, hr, hb⟩ := Tail.isBarred_iff.1 (List.all_eq_true.1 (hk (Gpr.ofBits (rmOf m))) _ hl)
  refine ⟨r, hr, ?_⟩
  rw [parseShape, parseRm, if_pos (modOf_register hm)]
  simp only [regOf_eq, hb, parseTail]

section
variable {c : Ctx} {op m : Byte} {k : BitVec 3 → Rm → Tail} {l : List Nat} (hm : 0xC0 ≤ m.toNat) (hl : m.toNat / 8 % 8 ∈ l)
  (rest : List Byte)
include hm hl

theorem reserved_oneByte (h0 : op ≠ 0x0F) (hs : oneByte c op = .modrm k) (hk : BarredReg k l) : Reserved c ([op] ++ [m]) rest := by
  obtain ⟨r, hr, hp⟩ := parseShape_barred (c := c) hk hm hl rest
  refine ⟨r, hr, ?_⟩
  rw [← hp, ← hs]
  exact if_neg h0

theorem reserved_twoByte (hs : twoByte op = .modrm k) (hk : BarredReg k l) : Reserved c ([0x0F, op] ++ [m]) rest := by
  obtain ⟨r, hr, hp⟩ := parseShape_barred (c := c) hk hm hl rest
  refine ⟨r, hr, ?_⟩
  rw [← hp, ← hs]
  rfl

end

/-- The blank cells of the two-byte map. -/
def blankOpcode (n : Nat) : Prop := n = 0x04 ∨ n = 0x05 ∨ (0x07 ≤ n ∧ n ≤ 0x1F) ∨ n = 0x25 ∨ (0x27 ≤ n ∧ n ≤ 0x7F) ∨
  n ∈ [0xA2, 0xA6, 0xA7, 0xAA, 0xAE, 0xB0, 0xB1, 0xB8, 0xB9] ∨ 0xC0 ≤ n

/-- A cell of an opcode map that is blank. -/
def Shape.isBlank : Shape → Bool
  | .tail (.bad .reservedOpcode) => true
  | _ => false

theorem parseShape_blank {c : Ctx} {sh : Shape} (h : sh.isBlank = true) (bs : List Byte) :
    parseShape c sh bs = .bad .reservedOpcode := by
  unfold Shape.isBlank at h
  split at h
  · rfl
  · cases h

/-- Row by row of the two-byte map (R201). -/
theorem twoByte_blank {b : Byte} (h : blankOpcode b.toNat) : (twoByte b).isBlank = true := by
  have rows : ∀ q : Fin 32, ∀ col : Fin 8, blankOpcode (8 * q.val + col.val) →
      (twoByte (BitVec.ofNat 8 (8 * q.val + col.val))).isBlank = true := by
    unfold blankOpcode
    decide
  have hb : 8 * (b.toNat / 8) + b.toNat % 8 = b.toNat := Nat.div_add_mod _ _
  have hq : b.toNat / 8 < 32 := by
    have := b.isLt
    omega
  have := rows ⟨b.toNat / 8, hq⟩ ⟨b.toNat % 8, Nat.mod_lt _ (by decide)⟩
  simp only [hb, BitVec.ofNat_toNat, BitVec.setWidth_eq] at this
  exact this h

theorem reserved_blank {c : Ctx} {b : Byte} (h : blankOpcode b.toNat) (rest : List Byte) : Reserved c [0x0F, b] rest :=
  ⟨.reservedOpcode, by decide, parseShape_blank (twoByte_blank h) rest⟩

/-- The reserved values of the reg field, by opcode (R236, R237). -/
def reservedExtensions : List (List Byte × List Nat) :=
  [([0x8F], [1, 2, 3, 4, 5, 6, 7]), ([0xC6], [1, 2, 3, 4, 5, 6, 7]), ([0xC7], [1, 2, 3, 4, 5, 6, 7]), ([0x8C], [6, 7]),
   ([0x8E], [1, 6, 7]), ([0xC0], [6]), ([0xC1], [6]), ([0xD0], [6]), ([0xD1], [6]), ([0xD2], [6]), ([0xD3], [6]), ([0xF6], [1]),
   ([0xF7], [1]), ([0xFE], [2, 3, 4, 5, 6, 7]), ([0xFF], [3, 5, 7]), ([0x0F, 0x00], [6, 7]), ([0x0F, 0x01], [0, 1, 2, 3, 5, 7]),
   ([0x0F, 0xBA], [0, 1, 2, 3]), ([0x0F, 0x20], [1, 4, 5, 6, 7]), ([0x0F, 0x22], [1, 4, 5, 6, 7]), ([0x0F, 0x21], [4, 5]),
   ([0x0F, 0x23], [4, 5]), ([0x0F, 0x24], [0, 1, 2, 3, 4, 5]), ([0x0F, 0x26], [0, 1, 2, 3, 4, 5])]

theorem reserved_extension (c : Ctx) (rest : List Byte) :
    ∀ p ∈ reservedExtensions, ∀ m : Byte, 0xC0 ≤ m.toNat → m.toNat / 8 % 8 ∈ p.2 → Reserved c (p.1 ++ [m]) rest := by
  have one (op : Byte) (l : List Nat) (k : BitVec 3 → Rm → Tail) (h0 : op ≠ 0x0F) (hs : oneByte c op = .modrm k) (hk : BarredReg k l) :
      ∀ m : Byte, 0xC0 ≤ m.toNat → m.toNat / 8 % 8 ∈ l → Reserved c ([op] ++ [m]) rest :=
    fun _ hm hl => reserved_oneByte hm hl rest h0 hs hk
  have two (op : Byte) (l : List Nat) (k : BitVec 3 → Rm → Tail) (hs : twoByte op = .modrm k) (hk : BarredReg k l) :
      ∀ m : Byte, 0xC0 ≤ m.toNat → m.toNat / 8 % 8 ∈ l → Reserved c ([0x0F, op] ++ [m]) rest :=
    fun _ hm hl => reserved_twoByte hm hl rest hs hk
  unfold reservedExtensions
  simp only [List.forall_mem_cons]
  exact ⟨one 0x8F _ _ (by decide) rfl fun _ => rfl, one 0xC6 _ _ (by decide) rfl fun _ => rfl, one 0xC7 _ _ (by decide) rfl fun _ => rfl,
    one 0x8C _ _ (by decide) rfl fun _ => rfl, one 0x8E _ _ (by decide) rfl fun _ => rfl, one 0xC0 _ _ (by decide) rfl fun _ => rfl,
    one 0xC1 _ _ (by decide) rfl fun _ => rfl, one 0xD0 _ _ (by decide) rfl fun _ => rfl, one 0xD1 _ _ (by decide) rfl fun _ => rfl,
    one 0xD2 _ _ (by decide) rfl fun _ => rfl, one 0xD3 _ _ (by decide) rfl fun _ => rfl, one 0xF6 _ _ (by decide) rfl fun _ => rfl,
    one 0xF7 _ _ (by decide) rfl fun _ => rfl, one 0xFE _ _ (by decide) rfl fun _ => rfl, one 0xFF _ _ (by decide) rfl fun _ => rfl,
    two 0x00 _ _ rfl fun _ => rfl, two 0x01 _ _ rfl fun _ => rfl, two 0xBA _ _ rfl fun _ => rfl, two 0x20 _ _ rfl fun _ => rfl,
    two 0x22 _ _ rfl fun _ => rfl, two 0x21 _ _ rfl fun _ => rfl, two 0x23 _ _ rfl fun _ => rfl, two 0x24 _ _ rfl fun _ => rfl,
    two 0x26 _ _ rfl fun _ => rfl, fun _ h => absurd h List.not_mem_nil⟩

/-- The opcodes whose operand must be memory (R237). -/
def memoryForms : List (List Byte) := [[0x8D], [0x62], [0xC4], [0xC5], [0x0F, 0xB2], [0x0F, 0xB4], [0x0F, 0xB5]]

theorem reserved_memoryForm (c : Ctx) (rest : List Byte) :
    ∀ op ∈ memoryForms, ∀ m : Byte, 0xC0 ≤ m.toNat → Reserved c (op ++ [m]) rest := by
  have field (m : Byte) : m.toNat / 8 % 8 ∈ List.range 8 := List.mem_range.2 (Nat.mod_lt _ (by decide))
  have one (op : Byte) (k : BitVec 3 → Rm → Tail) (h0 : op ≠ 0x0F) (hs : oneByte c op = .modrm k) (hk : BarredReg k (List.range 8)) :
      ∀ m : Byte, 0xC0 ≤ m.toNat → Reserved c ([op] ++ [m]) rest := fun m hm => reserved_oneByte hm (field m) rest h0 hs hk
  have two (op : Byte) (k : BitVec 3 → Rm → Tail) (hs : twoByte op = .modrm k) (hk : BarredReg k (List.range 8)) :
      ∀ m : Byte, 0xC0 ≤ m.toNat → Reserved c ([0x0F, op] ++ [m]) rest := fun m hm => reserved_twoByte hm (field m) rest hs hk
  unfold memoryForms
  simp only [List.forall_mem_cons]
  exact ⟨one 0x8D _ (by decide) rfl fun _ => rfl, one 0x62 _ (by decide) rfl fun _ => rfl, one 0xC4 _ (by decide) rfl fun _ => rfl,
    one 0xC5 _ (by decide) rfl fun _ => rfl, two 0xB2 _ rfl fun _ => rfl, two 0xB4 _ rfl fun _ => rfl, two 0xB5 _ rfl fun _ => rfl,
    fun _ h => absurd h List.not_mem_nil⟩

end Sys2Proof
end

section
/-!
PROOFS. Fetching an instruction whose bytes stand in memory, its prefixes, and the step that runs it (10_state.md R33, R34, R61;
30_encoding.md R161 to R168; 60_exceptions.md R728, R729).
-/

namespace Sys2Proof.Machine

/-! ## One byte (R34, R144) -/

section
variable {s : State} {off : Nat} {bs : List Byte} (hq : s.queueClean) (hf : FetchesBytes s off bs)
  (ho : off = s.fetch.start.toNat + s.fetch.pfx.count)
include ho

theorem fetchOffset_eq (k : Nat) : s.fetchOffset k = off + k := by rw [State.fetchOffset, ho]

include hf

theorem fetch_allowed {k : Nat} {b : Byte} (hb : bs[k]? = some b) :
    ((!s.protMode || s.segs.cs.valid) && decide (s.fetchOffset k ≤ s.segs.cs.limit.toNat) && !s.crossesEnd (s.fetchOffset k)) = true := by
  obtain ⟨-, hvalid, hreal, hbytes⟩ := hf
  obtain ⟨hl, -, -⟩ := hbytes k b hb
  have hk : k < bs.length := (List.getElem?_eq_some_iff.1 hb).1
  rw [fetchOffset_eq ho, Bool.and_eq_true, Bool.and_eq_true, Bool.or_eq_true, Bool.not_eq_true', Bool.not_eq_true', decide_eq_true_iff]
  refine ⟨⟨?_, hl⟩, ?_⟩
  · cases hp : s.protMode with
    | true => exact .inr (hvalid hp)
    | false => exact .inl rfl
  · rw [State.crossesEnd, Bool.and_eq_false_iff, Bool.and_eq_false_iff, decide_eq_false_iff_not, decide_eq_false_iff_not]
    by_cases hr : s.realMode = true ∧ s.fetch.start.toNat ≤ 0xFFFF
    · have := hreal hr.1 hr.2
      exact .inr (by omega)
    · rw [not_and_or, Bool.not_eq_true] at hr
      exact .inl hr

include hq

theorem fetchByte_stored {k : Nat} {b : Byte} (hb : bs[k]? = some b) : fetchByte k s = .ok (b, s) := by
  obtain ⟨hstale, hahead, -⟩ := hq
  have hcheck := fetch_allowed hf ho hb
  obtain ⟨hpg, -, -, hbytes⟩ := hf
  obtain ⟨-, hbyte, hkind⟩ := hbytes k b hb
  have hnone : drawByte (s.aheadBytes (s.segs.cs.base + BitVec.ofNat 32 (s.fetchOffset k))) s = .ok (none, s) := by
    rw [State.aheadBytes, hahead]
    rfl
  have hread : physReadByte (s.segs.cs.base + BitVec.ofNat 32 (off + k)) s = .ok (b, s) := by
    rw [physReadByte, hbyte]
    rcases hkind with h | h <;> rw [h]
  refine (M.bind_ok (M.get_apply s)).trans ((M.bind_ok (check_ok _ s hcheck)).trans ((M.bind_ok hnone).trans ?_))
  refine (M.bind_ok (translate_unpaged hpg _ false _)).trans ?_
  rw [fetchOffset_eq ho]
  refine (M.bind_ok hread).trans ?_
  rw [hstale]
  rfl

/-! ## All bytes of an instruction (R161, R162) -/

/-- Fetching reaches the first bytes that decide the instruction. -/
theorem fetchBytes_reaches {c : Ctx} (hd : decode c bs ≠ .more) {fuel : Nat} (hl : bs.length ≤ fuel) :
    ∃ p b q n, bs = p ++ b :: q ∧ decode c (p ++ [b]) ≠ .more ∧ fetchBytes c fuel [] s = fetchBytes c (n + 1) p s := by
  have key : ∀ (q p : List Byte) (n : Nat), bs = p ++ q → decode c p = .more → q.length ≤ n →
      fetchBytes c fuel [] s = fetchBytes c n p s →
      ∃ p b q n, bs = p ++ b :: q ∧ decode c (p ++ [b]) ≠ .more ∧ fetchBytes c fuel [] s = fetchBytes c (n + 1) p s := by
    intro q
    induction q with
    | nil =>
      intro p n hp hm
      rw [hp, List.append_nil] at hd
      exact absurd hm hd
    | cons b q ih =>
      intro p n hp hm hn he
      obtain ⟨n, rfl⟩ : ∃ m, n = m + 1 := ⟨n - 1, by rw [List.length_cons] at hn; omega⟩
      by_cases hx : decode c (p ++ [b]) = .more
      · have hb : fetchByte p.length s = .ok (b, s) := fetchByte_stored hq hf ho (by rw [hp]; simp)
        refine ih (p ++ [b]) n (by rw [hp, List.append_assoc]; rfl) hx (Nat.le_of_succ_le_succ hn) (he.trans ?_)
        refine (M.bind_ok hb).trans ?_
        rw [hx]
      · exact ⟨p, b, q, n, hp, hx, he⟩
  exact key bs [] fuel rfl rfl hl rfl

theorem fetchBytes_ok {c : Ctx} {i : Instr} (hd : decode c bs = .ok i []) {fuel : Nat} (hl : bs.length ≤ fuel) :
    fetchBytes c fuel [] s = .ok ((i, bs.length), s) := by
  obtain ⟨p, b, q, n, hp, hx, he⟩ := fetchBytes_reaches hq hf ho (by rw [hd]; exact fun h => by cases h) hl
  have hb : fetchByte p.length s = .ok (b, s) := fetchByte_stored hq hf ho (by rw [hp]; simp)
  have ha := decode_append hx q
  rw [List.append_assoc, List.singleton_append, ← hp, hd] at ha
  cases hx' : decode c (p ++ [b]) with
  | more => exact absurd hx' hx
  | bad r =>
    rw [hx'] at ha
    cases ha
  | ok i' r =>
    rw [hx'] at ha
    obtain ⟨rfl, hrq⟩ := Parse.ok.inj ha
    obtain ⟨rfl, rfl⟩ := List.append_eq_nil_iff.1 hrq.symm
    rw [he, hp]
    refine (M.bind_ok hb).trans ?_
    rw [hx']
    rfl

theorem fetchBytes_bad {c : Ctx} {r : Reject} (hd : decode c bs = .bad r) (hr : r ≠ .setccReg) {fuel : Nat} (hl : bs.length ≤ fuel) :
    fetchBytes c fuel [] s = .error (.exc excUD s) := by
  obtain ⟨p, b, q, n, hp, hx, he⟩ := fetchBytes_reaches hq hf ho (by rw [hd]; exact fun h => by cases h) hl
  have hb : fetchByte p.length s = .ok (b, s) := fetchByte_stored hq hf ho (by rw [hp]; simp)
  have ha := decode_append hx q
  rw [List.append_assoc, List.singleton_append, ← hp, hd] at ha
  have hx' : decode c (p ++ [b]) = .bad r := by
    cases hx' : decode c (p ++ [b]) with
    | more => exact absurd hx' hx
    | bad r' =>
      rw [hx'] at ha
      exact ha.symm
    | ok i' r' =>
      rw [hx'] at ha
      cases ha
  rw [he]
  refine (M.bind_ok hb).trans ?_
  rw [hx']
  cases r with
  | setccReg => exact absurd rfl hr
  | _ => rfl

end

/-! ## The instruction that is fetched (R144, R161, R172) -/

section
variable {s : State} {bs : List Byte} (hq : s.queueClean)
include hq

theorem inWindow_none : s.inWindow = false := by rw [State.inWindow, hq.2.2]

theorem useOldSize_none : useOldSize s = .ok (false, s) := by
  rw [useOldSize, M.bind_ok (look_apply _ s), inWindow_none hq]
  rfl

theorem useOldMode_none (i : Instr) : useOldMode i false s = .ok (false, s) := by
  rw [useOldMode, M.bind_ok (M.get_apply s), inWindow_none hq, if_pos (by rw [Bool.not_false, Bool.or_true])]
  rfl

variable (hf : FetchesBytes s (s.fetch.start.toNat + s.fetch.pfx.count) bs) (hl : s.fetch.pfx.count + bs.length ≤ maxInstrLen)
include hf hl

theorem fetchInstr_ok {i : Instr} (hd : decode (s.ctx false) bs = .ok i []) :
    fetchInstr s = .ok (i, s.ready i bs.length false false) := by
  have hb := fetchBytes_ok hq hf rfl hd (fuel := maxInstrLen - s.fetch.pfx.count) (by omega)
  exact (M.bind_ok (useOldSize_none hq)).trans ((M.bind_ok (M.get_apply s)).trans ((M.bind_ok hb).trans
    ((M.bind_ok (useOldMode_none hq i)).trans rfl)))

theorem fetchInstr_bad {r : Reject} (hd : decode (s.ctx false) bs = .bad r) (hr : r ≠ .setccReg) :
    fetchInstr s = .error (.exc excUD s) := by
  have hb := fetchBytes_bad hq hf rfl hd hr (fuel := maxInstrLen - s.fetch.pfx.count) (by omega)
  exact (M.bind_ok (useOldSize_none hq)).trans ((M.bind_ok (M.get_apply s)).trans (M.bind_error hb))

theorem fetchAndRun_bad {r : Reject} (hd : decode (s.ctx false) bs = .bad r) (hr : r ≠ .setccReg) :
    fetchAndRun s = conclude s (.error (.exc excUD s)) := by
  rw [fetchAndRun, fetchInstr_bad hq hf hl hd hr]

end

/-- The state in which a decoded instruction runs. -/
def State.runs (s : State) (i : Instr) (next : Word) : State :=
  if isPrefix i then s.withEip next
  else ((s.withEip next).inOwnMode).withHeld (some { instr := i, pfx := s.fetch.pfx, next := next, oldMode := false })

theorem nextEip_eq (s : State) (n : Nat) :
    s.nextEip n false = s.eipAfter (s.fetch.start.toNat + s.fetch.pfx.count + n) := by
  have e : s.fetch.start + BitVec.ofNat 32 (s.fetch.pfx.count + n) =
      BitVec.ofNat 32 (s.fetch.start.toNat + s.fetch.pfx.count + n) := by
    rw [Nat.add_assoc, BitVec.ofNat_add s.fetch.start.toNat, BitVec.ofNat_toNat, BitVec.setWidth_eq]
  rw [State.nextEip, State.eipAfter, e, Bool.xor_false]
  congr 1
  apply BitVec.eq_of_toNat_eq
  simp only [BitVec.toNat_setWidth, BitVec.toNat_ofNat]
  omega

theorem ready_eq (s : State) (i : Instr) (n : Nat) : s.ready i n false false =
    s.runs i (s.eipAfter (s.fetch.start.toNat + s.fetch.pfx.count + n)) := by
  rw [State.ready, State.runs, nextEip_eq]
  cases isPrefix i <;> rfl

theorem fetchAndRun_ok {s : State} {i : Instr} {bs : List Byte} (hq : s.queueClean)
    (hf : FetchesBytes s (s.fetch.start.toNat + s.fetch.pfx.count) bs) (hl : s.fetch.pfx.count + bs.length ≤ maxInstrLen)
    (hd : decode (s.ctx false) bs = .ok i []) : fetchAndRun s =
      runFetched i (s.runs i (s.eipAfter (s.fetch.start.toNat + s.fetch.pfx.count + bs.length))) := by
  rw [fetchAndRun, fetchInstr_ok hq hf hl hd, ready_eq]

theorem runFetched_exec {i : Instr} {s : State} (h : prefixFault i s = none) : runFetched i s = exec i s := by
  rw [runFetched, h]

theorem runFetched_fault {i : Instr} {s : State} {e : Exc} (h : prefixFault i s = some e) :
    runFetched i s = conclude s (.error (.exc e s)) := by
  rw [runFetched, h]

/-! ## The step (R728, R729) -/

theorem step_eventless {s : State} (h : s.eventless) : step s = startInstr s := by
  obtain ⟨hr, ha, hp, ht, hn, hi⟩ := h
  have hrun : s.pend.activity ≠ .shutdown := by rw [ha]; decide
  have hhalt : s.pend.activity ≠ .halted := by rw [ha]; decide
  have hc : s.fetch.pfx.count = 0 := by rw [hp]; rfl
  have hproceed : proceed s = startInstr s := by rw [proceed, if_neg hhalt]
  rw [step, stepOnce, hr, if_neg Bool.false_ne_true, if_neg hrun, if_pos hc, boundary, ht, if_neg Bool.false_ne_true, hn,
    if_neg Bool.false_ne_true, ← hproceed, afterNmi]
  rcases hi with hi | hi
  · rw [hi]
  · rw [hi]
    split
    · rfl
    · rw [if_neg Bool.false_ne_true]

theorem step_clear {s : State} (h : s.clear) : step s = fetchAndRun s.beginInstr := by
  obtain ⟨he, hh, hb⟩ := h
  rw [step_eventless he, startInstr, hh]
  exact if_pos hb

theorem step_prefixed {s : State} (hr : s.pins.reset = false) (ha : s.pend.activity ≠ .shutdown) (hc : s.fetch.pfx.count ≠ 0) :
    step s = fetchAndRun s := by
  rw [step, stepOnce, hr, if_neg Bool.false_ne_true, if_neg ha, if_neg hc]

theorem step_held {s : State} {h : Held} (he : s.eventless) (hh : s.fetch.held = some h) :
    step s = runFetched h.instr (s.resume h) := by
  rw [step_eventless he, startInstr, hh]

/-- An instruction begins with its queue as clean as before. -/
theorem beginInstr_clean {s : State} (h : s.queueClean) : s.beginInstr.queueClean := h

/-- Without prefixes nothing is to be checked. -/
theorem prefixFault_none {i : Instr} {s : State} (h : s.fetch.pfx = Prefixes.empty) : prefixFault i s = none := by
  rw [prefixFault, h]
  cases isPrefix i <;> rfl

theorem runs_pfx (s : State) (i : Instr) (next : Word) : (s.runs i next).fetch.pfx = s.fetch.pfx := by
  rw [State.runs]
  split <;> rfl

/-- Settles O6. -/
theorem stepRunsDecoded : Obligations.StepRunsDecoded := by
  unfold Obligations.StepRunsDecoded
  intro running
  refine ⟨fun s i bs hc hq hd hl hf => ?_, fun s i bs hr ha hc hq hd hl hf hp => ?_, fun s h he hh hp => ?_⟩
  · have ⟨⟨_, _, hpfx, _⟩, _⟩ := hc
    change s.beginInstr.fetch.pfx = Prefixes.empty at hpfx
    have hcount : s.beginInstr.fetch.pfx.count = 0 := by rw [hpfx]; rfl
    have hf' : FetchesBytes s.beginInstr (s.beginInstr.fetch.start.toNat + s.beginInstr.fetch.pfx.count) bs := by
      rw [hcount]
      exact hf
    rw [step_clear hc, fetchAndRun_ok (beginInstr_clean hq) hf' (by rw [hcount, Nat.zero_add]; exact hl) hd,
      runFetched_exec (prefixFault_none ((runs_pfx _ _ _).trans hpfx)), hcount]
    rfl
  · rw [step_prefixed hr ha hc, fetchAndRun_ok hq hf hl hd]
    exact runFetched_exec hp
  · exact (step_held he hh).trans (runFetched_exec hp)

end Sys2Proof.Machine
end

section
/-!
PROOFS. Prefixes before an instruction, and reserved encodings in a step (30_encoding.md R163 to R168, R236, R237; 44_string_rep.md R450,
R451; 48_processor_control.md R615).
-/

namespace Sys2Proof.Machine

/-! ## What takes LOCK and what repeats (R451, R615) -/

theorem isMem_iff {rm : Rm} : isMem rm = true ↔ ∃ m, rm = .mem m := by
  cases rm with
  | reg r =>
    constructor
    · intro h
      cases h
    · rintro ⟨m, h⟩
      cases h
  | mem m => exact ⟨fun _ => ⟨m, rfl⟩, fun _ => rfl⟩

theorem repeatable_iff (i : Instr) : repeatable i = true ↔ takesRep i := by
  constructor
  · intro h
    unfold repeatable at h
    split at h
    · exact ⟨_, .inl rfl⟩
    · exact ⟨_, .inr (.inl rfl)⟩
    · exact ⟨_, .inr (.inr (.inl rfl))⟩
    · exact ⟨_, .inr (.inr (.inr (.inl rfl)))⟩
    · exact ⟨_, .inr (.inr (.inr (.inr (.inl rfl))))⟩
    · exact ⟨_, .inr (.inr (.inr (.inr (.inr (.inl rfl)))))⟩
    · exact ⟨_, .inr (.inr (.inr (.inr (.inr (.inr rfl)))))⟩
    · cases h
  · rintro ⟨w, rfl | rfl | rfl | rfl | rfl | rfl | rfl⟩ <;> rfl

section
variable {rm : Rm} (h : isMem rm = true)
include h

theorem takesLock_rm8Imm (o : AluKind) (b : Byte) : takesLock (o.rm8Imm rm b) := by
  obtain ⟨m, rfl⟩ := isMem_iff.1 h
  exact ⟨m, .inl ⟨o, .inr (.inl ⟨b, rfl⟩)⟩⟩

theorem takesLock_rmImm (o : AluKind) (v : Word) : takesLock (o.rmImm rm v) := by
  obtain ⟨m, rfl⟩ := isMem_iff.1 h
  exact ⟨m, .inl ⟨o, .inr (.inr (.inl ⟨v, rfl⟩))⟩⟩

theorem takesLock_rmImm8s (o : AluKind) (b : Byte) : takesLock (o.rmImm8s rm b) := by
  obtain ⟨m, rfl⟩ := isMem_iff.1 h
  exact ⟨m, .inl ⟨o, .inr (.inr (.inr ⟨b, rfl⟩))⟩⟩

theorem takesLock_unary {i : Instr} {w : Bool} (hi : i = .notRm w rm ∨ i = .negRm w rm ∨ i = .incRm w rm ∨ i = .decRm w rm) :
    takesLock i := by
  obtain ⟨m, rfl⟩ := isMem_iff.1 h
  exact ⟨m, .inr (.inl ⟨w, hi⟩)⟩

theorem takesLock_xchg (w : Bool) (reg : Gpr) : takesLock (.xchgRmR w reg rm) := by
  obtain ⟨m, rfl⟩ := isMem_iff.1 h
  exact ⟨m, .inr (.inr (.inl ⟨w, reg, rfl⟩))⟩

theorem takesLock_bitImm {i : Instr} {b : Byte} (hi : i = .btsImm rm b ∨ i = .btrImm rm b ∨ i = .btcImm rm b) : takesLock i := by
  obtain ⟨m, rfl⟩ := isMem_iff.1 h
  exact ⟨m, .inr (.inr (.inr (.inl ⟨b, hi⟩)))⟩

theorem takesLock_bitR {i : Instr} {reg : Gpr} (hi : i = .btsR reg rm ∨ i = .btrR reg rm ∨ i = .btcR reg rm) : takesLock i := by
  obtain ⟨m, rfl⟩ := isMem_iff.1 h
  exact ⟨m, .inr (.inr (.inr (.inr ⟨reg, hi⟩)))⟩

end

theorem takesLock_rmR {rm : Rm} {d : Bool} (h : (!d && isMem rm) = true) (o : AluKind) (w : Bool) (reg : Gpr) :
    takesLock (o.rmR d w reg rm) := by
  obtain ⟨hd, hm⟩ := Bool.and_eq_true_iff.1 h
  rw [Bool.not_eq_true'] at hd
  subst hd
  obtain ⟨m, rfl⟩ := isMem_iff.1 hm
  exact ⟨m, .inl ⟨o, .inl ⟨w, reg, rfl⟩⟩⟩

theorem takesLock_of_lockable {i : Instr} (h : lockable i = true) : takesLock i := by
  unfold lockable at h
  split at h
  · exact takesLock_bitImm h (.inl rfl)
  · exact takesLock_bitImm h (.inr (.inl rfl))
  · exact takesLock_bitImm h (.inr (.inr rfl))
  · exact takesLock_bitR h (.inl rfl)
  · exact takesLock_bitR h (.inr (.inl rfl))
  · exact takesLock_bitR h (.inr (.inr rfl))
  · exact takesLock_xchg h _ _
  · exact takesLock_rmR h .add _ _
  · exact takesLock_rmR h .or _ _
  · exact takesLock_rmR h .adc _ _
  · exact takesLock_rmR h .sbb _ _
  · exact takesLock_rmR h .and _ _
  · exact takesLock_rmR h .sub _ _
  · exact takesLock_rmR h .xor _ _
  · exact takesLock_rm8Imm h .add _
  · exact takesLock_rm8Imm h .or _
  · exact takesLock_rm8Imm h .adc _
  · exact takesLock_rm8Imm h .sbb _
  · exact takesLock_rm8Imm h .and _
  · exact takesLock_rm8Imm h .sub _
  · exact takesLock_rm8Imm h .xor _
  · exact takesLock_rmImm h .add _
  · exact takesLock_rmImm h .or _
  · exact takesLock_rmImm h .adc _
  · exact takesLock_rmImm h .sbb _
  · exact takesLock_rmImm h .and _
  · exact takesLock_rmImm h .sub _
  · exact takesLock_rmImm h .xor _
  · exact takesLock_rmImm8s h .add _
  · exact takesLock_rmImm8s h .or _
  · exact takesLock_rmImm8s h .adc _
  · exact takesLock_rmImm8s h .sbb _
  · exact takesLock_rmImm8s h .and _
  · exact takesLock_rmImm8s h .sub _
  · exact takesLock_rmImm8s h .xor _
  · exact takesLock_unary h (.inl rfl)
  · exact takesLock_unary h (.inr (.inl rfl))
  · exact takesLock_unary h (.inr (.inr (.inl rfl)))
  · exact takesLock_unary h (.inr (.inr (.inr rfl)))
  · cases h

theorem lockable_iff (i : Instr) : lockable i = true ↔ takesLock i := by
  refine ⟨takesLock_of_lockable, ?_⟩
  rintro ⟨m, ⟨o, ⟨w, reg, rfl⟩ | ⟨b, rfl⟩ | ⟨v, rfl⟩ | ⟨b, rfl⟩⟩ | ⟨w, rfl | rfl | rfl | rfl⟩ | ⟨w, reg, rfl⟩ | ⟨b, rfl | rfl | rfl⟩ |
    ⟨reg, rfl | rfl | rfl⟩⟩
  · cases o <;> rfl
  · cases o <;> rfl
  · cases o <;> rfl
  · cases o <;> rfl
  all_goals rfl

/-! ## The checks of the prefixes (R451, R615) -/

/-- LOCK or a repetition that the instruction does not take. -/
def prefixWrong (p : Prefixes) (i : Instr) : Prop := (p.rep ≠ none ∧ ¬ takesRep i) ∨ (p.lock = true ∧ ¬ takesLock i)

/-- LOCK at a level that may not use it, where it is IOPL-sensitive. -/
def lockBarred (s : State) : Prop :=
  s.fetch.pfx.lock = true ∧ s.params.lockIopl = true ∧ s.cr0.pe = true ∧ s.flags.iopl.toNat < s.cpl.toNat

section
variable {i : Instr} {s : State} (hi : isPrefix i = false)
include hi

theorem prefixFault_wrong (h : prefixWrong s.fetch.pfx i) : prefixFault i s = some excUD := by
  rw [prefixWrong, ← repeatable_iff, ← lockable_iff] at h
  rw [prefixFault, hi, if_neg Bool.false_ne_true]
  by_cases hr : (s.fetch.pfx.rep.isSome && !repeatable i) = true
  · rw [if_pos hr]
  · rw [if_neg hr]
    have hl : (s.fetch.pfx.lock && !lockable i) = true := by
      rcases h with ⟨h1, h2⟩ | ⟨h1, h2⟩
      · refine absurd ?_ hr
        rw [Bool.eq_false_iff.2 h2, Bool.not_false, Bool.and_true]
        exact Option.isSome_iff_ne_none.2 h1
      · rw [h1, Bool.eq_false_iff.2 h2]
        rfl
    rw [if_pos hl]

theorem prefixFault_taken (h : ¬ prefixWrong s.fetch.pfx i) : prefixFault i s =
    if s.fetch.pfx.lock && s.params.lockIopl && !s.realMode && decide (s.ioplNat < s.cplNat) then some (excGP 0) else none := by
  rw [prefixWrong, ← repeatable_iff, ← lockable_iff, not_or, not_and_not_right, not_and_not_right] at h
  obtain ⟨h1, h2⟩ := h
  have hr : ¬ (s.fetch.pfx.rep.isSome && !repeatable i) = true := by
    rw [Bool.and_eq_true, Bool.not_eq_true']
    exact fun ⟨ha, hb⟩ => by simp [h1 (Option.isSome_iff_ne_none.1 ha)] at hb
  have hl : ¬ (s.fetch.pfx.lock && !lockable i) = true := by
    rw [Bool.and_eq_true, Bool.not_eq_true']
    exact fun ⟨ha, hb⟩ => by simp [h2 ha] at hb
  rw [prefixFault, hi, if_neg Bool.false_ne_true, if_neg hr, if_neg hl]

end

/-- Outside Real Address Mode, where no instruction of the old mode is in execution. -/
theorem lockBarred_iff {s : State} (ho : s.fetch.oldMode = false) :
    (s.fetch.pfx.lock && s.params.lockIopl && !s.realMode && decide (s.ioplNat < s.cplNat)) = true ↔ lockBarred s := by
  have hr : s.realMode = !s.cr0.pe := by rw [State.realMode, State.peInForce, ho, Bool.xor_false]
  rw [lockBarred, hr, Bool.not_not, Bool.and_eq_true, Bool.and_eq_true, Bool.and_eq_true, decide_eq_true_iff, and_assoc, and_assoc]
  rfl

/-- An instruction that has done nothing is abandoned as it began. -/
theorem abandon_self (s : State) : s.abandon s = s := by
  have hmem : s.withMem s.mem = s := rfl
  have htlb : s.withTlb s.tlb = s := rfl
  have hcr2 : s.withCr2 s.cr2 = s := rfl
  have hdebug : s.withDebug s.dregs = s := rfl
  have hdraws : s.withDraws s.draws = s := rfl
  have hstale : s.withStale s.fetch.stale = s := rfl
  rw [State.abandon, hmem, htlb, hcr2, hdebug, hdraws, hstale]

/-- An exception before the instruction has done anything. -/
theorem conclude_first {vector : Byte} (code : Option HWord) (s : State) (h9 : vector ≠ 9) : conclude s (.error (.exc ⟨vector, code⟩ s)) =
    take { vector := vector, kind := .exception, code := code, ret := s.fetch.start, faultRet := s.fetch.start, rf := true,
           cs := none } s := by
  have e9 : (vector == 9) = false := beq_false_of_ne h9
  rw [conclude, abandon_self]
  simp only [Exc.event, e9, cond_false, Bool.not_false]

/-- An instruction after prefixes is checked with them, then run (R451, R615). -/
theorem run_prefixed {i : Instr} {s w : State} (hi : isPrefix i = false) (hw : w.fetch.pfx = s.fetch.pfx)
    (ho : w.fetch.oldMode = false) (hb : lockBarred w ↔ lockBarred s) :
    (prefixWrong s.fetch.pfx i → runFetched i w = conclude w (.error (.exc excUD w))) ∧
    (¬ prefixWrong s.fetch.pfx i → lockBarred s → runFetched i w = conclude w (.error (.exc (excGP 0) w))) ∧
    (¬ prefixWrong s.fetch.pfx i → ¬ lockBarred s → runFetched i w = exec i w) := by
  rw [← hw, ← hb, ← lockBarred_iff ho]
  refine ⟨fun h => runFetched_fault (prefixFault_wrong hi h), fun h hl => runFetched_fault ?_, fun h hl => runFetched_exec ?_⟩
  · rw [prefixFault_taken hi h, if_pos hl]
  · rw [prefixFault_taken hi h, if_neg hl]

/-- Settles O7. -/
theorem prefixesAndReserved : Obligations.PrefixesAndReserved := by
  refine ⟨fun s => ⟨rfl, rfl, rfl, rfl, rfl, rfl, rfl, rfl, rfl, rfl, rfl⟩, ⟨?_, ?_, ?_⟩, fun c rest => ⟨?_, ?_, ?_, ?_⟩⟩
  · intro s i bs harr hd hi
    obtain ⟨hr, ha, hc, hq, hl, hf⟩ := harr
    have hs := step_prefixed hr ha hc
    rw [fetchAndRun_ok hq hf hl hd, State.runs, hi, if_neg Bool.false_ne_true] at hs
    intro next p run wrong barred
    have hx := run_prefixed (s := s) (w := run) hi rfl rfl Iff.rfl
    obtain ⟨h1, h2, h3⟩ := hx
    refine ⟨fun h => ?_, fun h hb => ?_, fun h hb => hs.trans (h3 h hb)⟩
    · exact (hs.trans (h1 h)).trans (conclude_first none run (by decide))
    · exact (hs.trans (h2 h hb)).trans (conclude_first (some 0) run (by decide))
  · intro s bs r harr hd hr'
    obtain ⟨hr, ha, hc, hq, hl, hf⟩ := harr
    exact ((step_prefixed hr ha hc).trans (fetchAndRun_bad hq hf hl hd hr')).trans (conclude_first none s (by decide))
  · intro s bs r hcl hq hd hr' hl hf
    have ⟨⟨_, _, hpfx, _⟩, _⟩ := hcl
    have hcount : s.beginInstr.fetch.pfx.count = 0 := congrArg Prefixes.count hpfx
    have hf' : FetchesBytes s.beginInstr (s.beginInstr.fetch.start.toNat + s.beginInstr.fetch.pfx.count) bs := by
      rw [hcount]
      exact hf
    have hl' : s.beginInstr.fetch.pfx.count + bs.length ≤ maxInstrLen := by rwa [hcount, Nat.zero_add]
    exact ((step_clear hcl).trans (fetchAndRun_bad (beginInstr_clean hq) hf' hl' hd hr')).trans
      (conclude_first none s.beginInstr (by decide))
  · simp only [List.forall_mem_cons]
    exact ⟨⟨_, by decide, rfl⟩, ⟨_, by decide, rfl⟩, ⟨_, by decide, rfl⟩, fun _ h => absurd h List.not_mem_nil⟩
  · exact fun b hb => reserved_blank hb rest
  · exact reserved_extension c rest
  · exact reserved_memoryForm c rest

end Sys2Proof.Machine
end
